-- ==== Sys2Proof/Word.lean ====
section
/-! DEFINITION. The word types of the block: registers and index slots are 32 bits wide, source and target
data are bytes, and a byte splits into two nibbles (spec/00_scope.md R9, spec/10_state.md R22 to R39). -/

namespace Sys2Proof

/-- A 32-bit register, cache slot, or index value. -/
abbrev Word := BitVec 32

/-- One byte of the memory M, of a stream, or of a vertex lane. -/
abbrev Byte := BitVec 8

/-- Half a byte: a C4 code, a triangle-code half, a codeaux or aux nibble. -/
abbrev Nibble := BitVec 4

end Sys2Proof
end

