-- ==== Sys2Proof/Syntax.lean ====
section
/-! DEFINITION. The operations of the block, one constructor for each row of spec/opcode_table.json, in the
table's order. An operand is a field of the row's format (spec/30_encoding.md R90 to R110). -/

namespace Sys2Proof

/-- The encoded operations: the host commands, the vertex filters, the stream tags, and the stream elements. -/
inductive Instr where
  /-- CMD_NONE: START with OP = 0 (R32). -/
  | cmdNone (filter : BitVec 2)
  /-- DECODE_VERTEX: START with OP = 1 (R150). -/
  | decodeVertex (filter : BitVec 2)
  /-- DECODE_INDEX: START with OP = 2 (R220). -/
  | decodeIndex (filter : BitVec 2)
  /-- DECODE_SEQUENCE: START with OP = 3 (R270). -/
  | decodeSequence (filter : BitVec 2)
  /-- FILTER_NONE (R190). -/
  | filterNone
  /-- FILTER_OCTAHEDRAL (R195). -/
  | filterOctahedral
  /-- FILTER_QUATERNION (R199). -/
  | filterQuaternion
  /-- FILTER_EXPONENTIAL (R202). -/
  | filterExponential
  /-- TAG_VERTEX: source byte 0 is 0xA0 (R171). -/
  | tagVertex
  /-- TAG_INDEX: source byte 0 is 0xE1 (R245). -/
  | tagIndex
  /-- TAG_SEQUENCE: source byte 0 is 0xD1 (R277). -/
  | tagSequence
  /-- TAG_OTHER: source byte 0 is none of the three tags (R301). -/
  | tagOther (tag : Byte)
  /-- VG_MODE0_ZERO (R158). -/
  | vgMode0Zero
  /-- VG_MODE1_2BIT (R159). -/
  | vgMode1TwoBit
  /-- VG_MODE2_4BIT (R162). -/
  | vgMode2FourBit
  /-- VG_MODE3_LITERAL (R165). -/
  | vgMode3Literal
  /-- VC2_VALUE: a C2 code 0, 1 or 2 (R160). -/
  | vc2Value (code : BitVec 2)
  /-- VC2_ESCAPE: C2 code 3 (R161). -/
  | vc2Escape
  /-- VC4_VALUE: a C4 code 0 to 14 (R163). -/
  | vc4Value (code : Nibble)
  /-- VC4_ESCAPE: C4 code 15 (R164). -/
  | vc4Escape
  /-- VLIT8: a literal delta byte (R165, R102). -/
  | vlit8 (zz : Byte)
  /-- TRI_NEW_TABLE: codes 0xF0 to 0xFD (R232). -/
  | triNewTable (b1 : Nibble)
  /-- TRI_NEW_AUX: code 0xFE (R235). -/
  | triNewAux
  /-- TRI_NEW_AUX_VARINT: code 0xFF (R236). -/
  | triNewAuxVarint
  /-- TRI_EDGE_NEXT: B0 at most 14, B1 = 0 (R226). -/
  | triEdgeNext (b0 : Nibble)
  /-- TRI_EDGE_CACHE: B0 at most 14, B1 from 1 to 12 (R227). -/
  | triEdgeCache (b0 b1 : Nibble)
  /-- TRI_EDGE_DEC: B0 at most 14, B1 = 13 (R228). -/
  | triEdgeDec (b0 : Nibble)
  /-- TRI_EDGE_INC: B0 at most 14, B1 = 14 (R229). -/
  | triEdgeInc (b0 : Nibble)
  /-- TRI_EDGE_VARINT: B0 at most 14, B1 = 15 (R230). -/
  | triEdgeVarint (b0 : Nibble)
  /-- CAUX_NEXT: codeaux nibble 0 (R233). -/
  | cauxNext
  /-- CAUX_CACHE: codeaux nibble 1 to 15 (R234). -/
  | cauxCache (n : Nibble)
  /-- AUX_RESTART: aux byte 0x00 (R237). -/
  | auxRestart
  /-- AUX_NEXT: aux nibble 0 (R238). -/
  | auxNext
  /-- AUX_CACHE: aux nibble 1 to 14 (R239). -/
  | auxCache (n : Nibble)
  /-- AUX_VARINT: aux nibble 15 (R240). -/
  | auxVarint
  /-- VARINT_CONT: a varint byte with CONT = 1 (R137). -/
  | varintCont (payload : BitVec 7)
  /-- VARINT_END: a varint byte with CONT = 0 (R139). -/
  | varintEnd (payload : BitVec 7)
  /-- SEQ_BASE0: a sequence value with P = 0 (R274). -/
  | seqBase0 (dz : BitVec 31)
  /-- SEQ_BASE1: a sequence value with P = 1 (R275). -/
  | seqBase1 (dz : BitVec 31)
  deriving DecidableEq, Repr

end Sys2Proof
end

