-- ==== Sys2Proof/WellFormed.lean ====
section
/-! DEFINITION. Which terms of `Instr` stand for an operation: the guards of spec/opcode_table.json
(spec/30_encoding.md R105 to R107, R117). -/

namespace Sys2Proof

/-- The guard of the operation's row holds of its operands. Rows without a guard are always well formed. -/
def Instr.wf : Instr → Bool
  | .cmdNone _ => true
  | .decodeVertex _ => true
  | .decodeIndex _ => true
  | .decodeSequence _ => true
  | .filterNone => true
  | .filterOctahedral => true
  | .filterQuaternion => true
  | .filterExponential => true
  | .tagVertex => true
  | .tagIndex => true
  | .tagSequence => true
  | .tagOther tag => decide (tag ≠ 0xA0#8) && decide (tag ≠ 0xE1#8) && decide (tag ≠ 0xD1#8)
  | .vgMode0Zero => true
  | .vgMode1TwoBit => true
  | .vgMode2FourBit => true
  | .vgMode3Literal => true
  | .vc2Value code => decide (code.toNat ≤ 2)
  | .vc2Escape => true
  | .vc4Value code => decide (code.toNat ≤ 14)
  | .vc4Escape => true
  | .vlit8 _ => true
  | .triNewTable b1 => decide (b1.toNat ≤ 13)
  | .triNewAux => true
  | .triNewAuxVarint => true
  | .triEdgeNext b0 => decide (b0.toNat ≤ 14)
  | .triEdgeCache b0 b1 => decide (b0.toNat ≤ 14) && decide (1 ≤ b1.toNat) && decide (b1.toNat ≤ 12)
  | .triEdgeDec b0 => decide (b0.toNat ≤ 14)
  | .triEdgeInc b0 => decide (b0.toNat ≤ 14)
  | .triEdgeVarint b0 => decide (b0.toNat ≤ 14)
  | .cauxNext => true
  | .cauxCache n => decide (1 ≤ n.toNat)
  | .auxRestart => true
  | .auxNext => true
  | .auxCache n => decide (1 ≤ n.toNat) && decide (n.toNat ≤ 14)
  | .auxVarint => true
  | .varintCont _ => true
  | .varintEnd _ => true
  | .seqBase0 _ => true
  | .seqBase1 _ => true

end Sys2Proof
end

