-- ==== Sys2Proof/Decode.lean ====
section
/-! DEFINITION. From an encoded element to the operation it stands for, and back (spec/30_encoding.md R90 to R117).
An element is a value together with the FORMAT it is decoded in: R117 selects the rows by the element's format,
and the same bits mean different operations in different formats. Where the machine stands decides the format
(Machine/Fetch.lean); here the value alone is decoded. -/

namespace Sys2Proof

/-- An element of one of the formats of R90 that have rows in the opcode table, at the format's width. -/
inductive Element where
  /-- CMD: the value a host writes to CTRL (R91). -/
  | cmd (v : Word)
  /-- CMD_FILTER: bits 3:0 of a CMD word, of which FILTER [3:2] is decoded (R93). -/
  | cmdFilter (v : Nibble)
  /-- TAG8: source byte 0 (R94). -/
  | tag (b : Byte)
  /-- HDR2: one group's mode (R98). -/
  | mode (m : BitVec 2)
  /-- C2: one code of a mode 1 group (R99). -/
  | code2 (c : BitVec 2)
  /-- C4: one code of a mode 2 group (R100). -/
  | code4 (c : Nibble)
  /-- LIT8: a literal delta byte of a mode 3 group (R98). -/
  | literal (b : Byte)
  /-- TRI8: a TriangleCode (R104). -/
  | triangle (b : Byte)
  /-- CAUX4: a nibble of a codeaux entry (R106). -/
  | caux (n : Nibble)
  /-- AUX8: an aux byte (R107). -/
  | auxByte (b : Byte)
  /-- AUX4: a nibble of an aux byte (R107). -/
  | aux (n : Nibble)
  /-- VB8: a varint byte (R108). -/
  | varintByte (b : Byte)
  /-- SEQV: a decoded index-sequence varint value (R110). -/
  | seqValue (v : Word)
  deriving DecidableEq, Repr

/-- Why an element has no row (R117): the decoder rejects it by name. Neither case is an error of the machine:
`Machine.passOver` says what the block does with such an element. -/
inductive DecodeError where
  /-- A CTRL write with START = 0 is not an operation (R91). -/
  | noStart
  /-- An aux byte other than 0x00 has no row of its own; it goes on to its two nibbles (R107, R117). -/
  | auxByteWithoutRow
  deriving DecidableEq, Repr

/-- CMD (R91, R92): START is bit 31, FILTER bits 3:2, OP bits 1:0; bits 30:4 are ignored. -/
def decodeCmd (v : Word) : Except DecodeError Instr :=
  let filter := v.extractLsb' 2 2
  if v.getLsbD 31 then
    if v.extractLsb' 0 2 = 0#2 then .ok (.cmdNone filter)
    else if v.extractLsb' 0 2 = 1#2 then .ok (.decodeVertex filter)
    else if v.extractLsb' 0 2 = 2#2 then .ok (.decodeIndex filter)
    else .ok (.decodeSequence filter)
  else .error .noStart

/-- CMD_FILTER (R93): only FILTER [3:2] is decoded. -/
def decodeCmdFilter (v : Nibble) : Instr :=
  if v.extractLsb' 2 2 = 0#2 then .filterNone
  else if v.extractLsb' 2 2 = 1#2 then .filterOctahedral
  else if v.extractLsb' 2 2 = 2#2 then .filterQuaternion
  else .filterExponential

/-- TAG8 (R94). -/
def decodeTag (b : Byte) : Instr :=
  if b = 0xA0#8 then .tagVertex
  else if b = 0xE1#8 then .tagIndex
  else if b = 0xD1#8 then .tagSequence
  else .tagOther b

/-- HDR2 (R98). -/
def decodeMode (m : BitVec 2) : Instr :=
  if m = 0#2 then .vgMode0Zero
  else if m = 1#2 then .vgMode1TwoBit
  else if m = 2#2 then .vgMode2FourBit
  else .vgMode3Literal

/-- C2 (R102): 3 is the sentinel. -/
def decodeCode2 (c : BitVec 2) : Instr := if c = 3#2 then .vc2Escape else .vc2Value c

/-- C4 (R102): 15 is the sentinel. -/
def decodeCode4 (c : Nibble) : Instr := if c = 15#4 then .vc4Escape else .vc4Value c

/-- TRI8 (R104, R105): B0 is bits 7:4 and B1 bits 3:0; the rows are tried in the order of R105. -/
def decodeTriangle (b : Byte) : Instr :=
  let b0 := b.extractLsb' 4 4
  let b1 := b.extractLsb' 0 4
  if b0 = 15#4 then
    if b1.toNat ≤ 13 then .triNewTable b1
    else if b1 = 14#4 then .triNewAux
    else .triNewAuxVarint
  else if b1 = 0#4 then .triEdgeNext b0
  else if b1.toNat ≤ 12 then .triEdgeCache b0 b1
  else if b1 = 13#4 then .triEdgeDec b0
  else if b1 = 14#4 then .triEdgeInc b0
  else .triEdgeVarint b0

/-- CAUX4 (R106). -/
def decodeCaux (n : Nibble) : Instr := if n = 0#4 then .cauxNext else .cauxCache n

/-- AUX8 (R107, R117): only 0x00 has a row. -/
def decodeAuxByte (b : Byte) : Except DecodeError Instr :=
  if b = 0#8 then .ok .auxRestart else .error .auxByteWithoutRow

/-- AUX4 (R107). -/
def decodeAux (n : Nibble) : Instr :=
  if n = 0#4 then .auxNext else if n = 15#4 then .auxVarint else .auxCache n

/-- VB8 (R108): CONT is bit 7, PAYLOAD bits 6:0. -/
def decodeVarintByte (b : Byte) : Instr :=
  if b.getLsbD 7 then .varintCont (b.extractLsb' 0 7) else .varintEnd (b.extractLsb' 0 7)

/-- SEQV (R110): P is bit 0, DZ bits 31:1. -/
def decodeSeqValue (v : Word) : Instr :=
  if v.getLsbD 0 then .seqBase1 (v.extractLsb' 1 31) else .seqBase0 (v.extractLsb' 1 31)

/-- The decoder: the operation an element stands for in its format (R117). -/
def decode : Element → Except DecodeError Instr
  | .cmd v => decodeCmd v
  | .cmdFilter v => .ok (decodeCmdFilter v)
  | .tag b => .ok (decodeTag b)
  | .mode m => .ok (decodeMode m)
  | .code2 c => .ok (decodeCode2 c)
  | .code4 c => .ok (decodeCode4 c)
  | .literal b => .ok (.vlit8 b)
  | .triangle b => .ok (decodeTriangle b)
  | .caux n => .ok (decodeCaux n)
  | .auxByte b => decodeAuxByte b
  | .aux n => .ok (decodeAux n)
  | .varintByte b => .ok (decodeVarintByte b)
  | .seqValue v => .ok (decodeSeqValue v)

/-- A CMD word: START = 1, reserved bits 30:4 zero, FILTER and OP in place (R90). -/
def cmdWord (filter op : BitVec 2) : Word := 1#1 ++ 0#27 ++ filter ++ op

/-- The encoder: the element of a well-formed operation, written from the same tables. A CMD word has its
reserved bits 0 (R91), and a CMD_FILTER nibble carries OP = 1, the only command that reads it (R93). -/
def encode : Instr → Element
  | .cmdNone filter => .cmd (cmdWord filter 0#2)
  | .decodeVertex filter => .cmd (cmdWord filter 1#2)
  | .decodeIndex filter => .cmd (cmdWord filter 2#2)
  | .decodeSequence filter => .cmd (cmdWord filter 3#2)
  | .filterNone => .cmdFilter (0#2 ++ 1#2)
  | .filterOctahedral => .cmdFilter (1#2 ++ 1#2)
  | .filterQuaternion => .cmdFilter (2#2 ++ 1#2)
  | .filterExponential => .cmdFilter (3#2 ++ 1#2)
  | .tagVertex => .tag 0xA0#8
  | .tagIndex => .tag 0xE1#8
  | .tagSequence => .tag 0xD1#8
  | .tagOther tag => .tag tag
  | .vgMode0Zero => .mode 0#2
  | .vgMode1TwoBit => .mode 1#2
  | .vgMode2FourBit => .mode 2#2
  | .vgMode3Literal => .mode 3#2
  | .vc2Value code => .code2 code
  | .vc2Escape => .code2 3#2
  | .vc4Value code => .code4 code
  | .vc4Escape => .code4 15#4
  | .vlit8 zz => .literal zz
  | .triNewTable b1 => .triangle (15#4 ++ b1)
  | .triNewAux => .triangle 0xFE#8
  | .triNewAuxVarint => .triangle 0xFF#8
  | .triEdgeNext b0 => .triangle (b0 ++ 0#4)
  | .triEdgeCache b0 b1 => .triangle (b0 ++ b1)
  | .triEdgeDec b0 => .triangle (b0 ++ 13#4)
  | .triEdgeInc b0 => .triangle (b0 ++ 14#4)
  | .triEdgeVarint b0 => .triangle (b0 ++ 15#4)
  | .cauxNext => .caux 0#4
  | .cauxCache n => .caux n
  | .auxRestart => .auxByte 0#8
  | .auxNext => .aux 0#4
  | .auxCache n => .aux n
  | .auxVarint => .aux 15#4
  | .varintCont payload => .varintByte (1#1 ++ payload)
  | .varintEnd payload => .varintByte (0#1 ++ payload)
  | .seqBase0 dz => .seqValue (dz ++ 0#1)
  | .seqBase1 dz => .seqValue (dz ++ 1#1)

/-- The format a bare number of at most eight bits is read in when nothing but the number is known. The bits of a
row do not name their format (R117), so this is the model's choice (assumption log 12). -/
def byteElement (w : Nat) : Element :=
  if w < 4 then .mode (BitVec.ofNat 2 w)
  else if w < 13 then (if w % 4 = 0 then .cmdFilter (BitVec.ofNat 4 w) else .code4 (BitVec.ofNat 4 w))
  else if w = 0xA0 ∨ w = 0xE1 ∨ w = 0xD1 then .tag (BitVec.ofNat 8 w)
  else if w < 16 ∨ 0xF0 ≤ w then .triangle (BitVec.ofNat 8 w)
  else if w < 0x80 ∧ 1 ≤ w % 16 ∧ w % 16 ≤ 12 then .triangle (BitVec.ofNat 8 w)
  else .varintByte (BitVec.ofNat 8 w)

/-- The element read from a bare number of `nbits` bits (assumption log 12): more than eight bits are a CMD word
when bit 31 (START) is set and a SEQV value otherwise. -/
def tableElement (nbits w : Nat) : Element :=
  if nbits ≤ 8 then byteElement (w % 256)
  else if w.testBit 31 then .cmd (BitVec.ofNat 32 w) else .seqValue (BitVec.ofNat 32 w)

/-- The operation the decoder reads from a bare number numbered as the opcode table numbers its bits. -/
def decodeTableWord (nbits w : Nat) : Option Instr :=
  match decode (tableElement nbits w) with
  | .ok i => some i
  | .error _ => none

end Sys2Proof
end

