-- ==== Sys2Proof/Config.lean ====
section
/-! DEFINITION. What an implementation fixes (spec/00_scope.md R8) and the values the spec leaves open
(spec/93_implementation_defined.md U1 to U10). The parameters that are plain data stand in `Config.Params`, a
field of the state that no step writes, so that a statement about every state holds for every value of them.
The open values are constants without a body: nothing can be proved about what they are. -/

namespace Sys2Proof.Config

/-- The plain-data parameters of spec/00_scope.md R8, each with the default the spec gives.
`VTX_STRIDE_OK` is given by the strides of the default set 1 to 512 that an implementation does NOT support:
every such list is a legal parameter (assumption log 3). -/
structure Params where
  /-- `ADDR_W`, the address width of the memory port: 1 to 32 bits, 32 by default (D6). -/
  addrW : Nat := 32
  /-- The strides among 1 to 512 that `VTX_STRIDE_OK` rejects; none by default (D18). -/
  vtxRejected : List Nat := []
  /-- `N_BLOCKS`, the block instances of the system; 1 by default (D44). -/
  nBlocks : Nat := 1
  deriving DecidableEq, Repr

/-- `VTX_STRIDE_OK(s)` (R8, D18): false outside 1 to 512 whatever the parameter holds, because the block-size
formula of R152 gives no row there. -/
def Params.vtxStrideOk (p : Params) (s : Nat) : Bool :=
  decide (1 ≤ s) && decide (s ≤ 512) && !p.vtxRejected.contains s

/-- The parameters are legal: the address width is 1 to 32 (R8). -/
def Params.wf (p : Params) : Bool := decide (1 ≤ p.addrW) && decide (p.addrW ≤ 32)

/-- `OCT_NUM` (R194, D25): the octahedral arithmetic, from the lane width, the four input lanes and the output
lane number to the value the block computes. FREE: `Machine.octLane` keeps it only where it lies within the
bound of R194. -/
opaque octNum : Nat → Int → Int → Int → Int → Nat → Int

/-- `QUAT_NUM` (R194, R201, D25, D28): the quaternion arithmetic, from the four input lanes and the output lane
number. FREE within the bound of R194, and free altogether where the reference is out of range (R201). -/
opaque quatNum : Int → Int → Int → Int → Nat → Int

/-- `OCT_ZERO_ONE` (R197, D26): octahedral lanes 0 to 2 when `one` is 0, from the lane width, the lanes 0, 1 and
3, and the output lane number. FREE, with no bound. -/
opaque octZeroOne : Nat → Int → Int → Int → Nat → Int

/-- `EXP_LOW` (R204, D30): the exponential result for the exponents -128 and -127. FREE. -/
opaque expLow : Int → Int → Word

/-- A draw (R310, R342, U1, U2): the byte left at a target offset by the draw of a given number. FREE. -/
opaque drawByte : Nat → Nat → Byte

end Sys2Proof.Config
end

