-- ==== Sys2Proof/Machine/State.lean ====
section
/-! DEFINITION. The state of the block, of the memory it shares with the host, and of the host's pending
accesses, as plain data (spec/10_state.md, spec/20_memory.md R60, spec/70_reset_and_hazards.md R340). -/

namespace Sys2Proof.Machine

/-- The memory M (R60) as a list of (address, byte) pairs, in the canonical form `Memory.wf`. -/
abbrev Memory := List Host.Cell

/-- What an address that is not listed reads as. The spec gives M no contents; 0 is the model's choice
(assumption log 4). -/
def Memory.unlisted : Byte := 0#8

/-- The canonical form: addresses strictly rise, and no listed byte equals what an unlisted address reads as. -/
def Memory.wf : Memory → Bool
  | [] => true
  | [c] => decide (c.2 ≠ Memory.unlisted)
  | c :: d :: m => decide (c.2 ≠ Memory.unlisted) && decide (c.1 < d.1) && Memory.wf (d :: m)

/-- The three commands a START can begin (R92). -/
inductive Command where
  /-- OP = 1. -/
  | vertex
  /-- OP = 2. -/
  | index
  /-- OP = 3. -/
  | sequence
  deriving DecidableEq, Repr

/-- The error kinds of R300. -/
inductive ErrorKind where
  | badHeaderTag
  | unsupportedStride
  | invalidIndexCount
  | truncatedSource
  | destinationTooSmall
  deriving DecidableEq, Repr

/-- The writable and reported registers of the window (R30). ID is a constant: `Machine.idValue`. -/
structure Regs where
  /-- CTRL (R31). -/
  ctrl : Word := 0#32
  /-- STATUS (R33). -/
  status : Word := 0#32
  /-- SRC_BASE (R35). -/
  srcBase : Word := 0#32
  /-- SRC_LEN (R35). -/
  srcLen : Word := 0#32
  /-- DST_BASE (R36). -/
  dstBase : Word := 0#32
  /-- DST_CAP (R36). -/
  dstCap : Word := 0#32
  /-- COUNT (R37). -/
  count : Word := 0#32
  /-- STRIDE (R38). -/
  stride : Word := 0#32
  /-- ERR_OFFSET (R39). -/
  errOffset : Word := 0#32
  deriving DecidableEq, Repr

/-- The arguments latched at START (R45). -/
structure Args where
  /-- The latched CTRL.OP. -/
  cmd : Command := .vertex
  /-- The latched CTRL.FILTER. -/
  filter : BitVec 2 := 0#2
  srcBase : Word := 0#32
  srcLen : Word := 0#32
  dstBase : Word := 0#32
  dstCap : Word := 0#32
  count : Word := 0#32
  stride : Word := 0#32
  deriving DecidableEq, Repr

/-- The source and target regions of a launch (R61, R62): base address and length in bytes. -/
structure Region where
  srcBase : Nat
  srcLen : Nat
  dstBase : Nat
  dstLen : Nat
  deriving DecidableEq, Repr

/-- A launch of another block: the block's number and the launch's regions (R83). -/
structure OtherLaunch where
  block : Nat
  region : Region
  deriving DecidableEq, Repr

/-- Where the running command stands: which element the block decodes next, or which step between two elements
it takes. It stands for the control flow of the pseudocode of R150, R156, R220, R224 and R270. -/
inductive Phase where
  /-- No command runs. -/
  | idle
  /-- The tag is decoded next, after the check that SRC_LEN is not 0 (R306 checks 1 and 2). -/
  | tag
  /-- The checks 3 to 6 of R306 and the command's initial state (R345). -/
  | checks
  /-- The head of the loop over blocks (R150). -/
  | block
  /-- The head of the loop over byte-lanes, and the lane's header bytes (R156). -/
  | lane
  /-- The head of the loop over groups: the group's mode is decoded next (R157). -/
  | group
  /-- A C2 code is decoded next (R159). -/
  | code2
  /-- A C4 code is decoded next (R162). -/
  | code4
  /-- A literal byte of a mode 3 group is decoded next (R165). -/
  | literal
  /-- ApplyGroup (R166). -/
  | apply
  /-- The filter is decoded next (R170, R190). -/
  | filter
  /-- The head of the loop over triangles: a TriangleCode is decoded next (R220). -/
  | triangle
  /-- The aux byte is decoded next (R235, R237). -/
  | auxByte
  /-- The vertex a of a 0xFE or 0xFF triangle is taken (R235, R236). -/
  | takeA
  /-- A codeaux nibble is decoded next (R232). -/
  | caux
  /-- An aux nibble is decoded next (R235). -/
  | aux
  /-- The end of a new-path triangle: the pushes and NewComplete (R232, R235, R241). -/
  | newDone
  /-- The head of the loop over sequence outputs (R270). -/
  | output
  /-- A varint byte is decoded next (R138). -/
  | varintByte
  /-- A varint of the index decoder has been read: ReadIndexDelta goes on (R140). -/
  | indexDelta
  /-- A sequence value is decoded next (R273). -/
  | seqValue
  /-- The command completes with success (R311). -/
  | done
  deriving DecidableEq, Repr

/-- Which of b and c of a new-path triangle the nibble decoded next selects (R232, R235). -/
inductive Corner where
  | b
  | c
  deriving DecidableEq, Repr

/-- What the varint being read is for (R115, R273). -/
inductive VarintUse where
  /-- A sequence output (R273). -/
  | sequence
  /-- The vertex c of TRI_EDGE_VARINT (R230). -/
  | edgeC
  /-- The vertex a of TRI_NEW_AUX_VARINT (R236). -/
  | newA
  /-- The vertex b or c of a new-path triangle (R240). -/
  | newCorner
  deriving DecidableEq, Repr

/-- What can come to the block and the memory from outside (R347, R355): the accesses of the host and of other
agents, the reset line, and the commands of other blocks. -/
inductive HostAction where
  /-- A write of `size` bytes to offset `off` of the register window (R30). -/
  | regWrite (off size : Nat) (v : Word)
  /-- A read of `size` bytes at offset `off` of the register window (R30). -/
  | regRead (off size : Nat)
  /-- A write of bytes to ascending addresses of M by the host or another agent. -/
  | memWrite (addr : Nat) (bytes : List Byte)
  /-- A read of one byte of M by the host or another agent. -/
  | memRead (addr : Nat)
  /-- Reset (R340, R342). -/
  | reset
  /-- A START of another block on these regions (R83). Blocks are numbered from 0, and 0 is this block. -/
  | otherStart (block : Nat) (r : Region)
  /-- A running command of another block writes bytes from an offset of its target up (R62). -/
  | otherWrite (block off : Nat) (bytes : List Byte)
  /-- The running command of another block ends (R83). -/
  | otherEnd (block : Nat)
  /-- The host reads another block's STATUS (R64 item 3, R321). -/
  | otherRead (block : Nat)
  deriving DecidableEq, Repr

/-- An action from outside and the number of block steps that pass before it takes place. -/
structure HostEvent where
  delay : Nat
  action : HostAction
  deriving DecidableEq, Repr

/-- Why the machine stops with a fault. The errors of the block are no faults: they are defined outcomes in
STATUS (R317). -/
inductive Fault where
  /-- The host or another agent accessed an address of M outside 0 to 2^ADDR_W - 1, which does not exist (R60).
  Raised by the memory accesses of Machine/HostPort.lean. Safe: nothing is proved about such a run. -/
  | noSuchAddress
  deriving DecidableEq, Repr

/-- Why the model gives a run no meaning. All but the first are the refusals that spec/60_exceptions.md R324
requires; each is safe, because nothing is proved about a refused run. -/
inductive Refusal where
  /-- `exec` has no meaning for the operation of this mnemonic yet. Safe. -/
  | notModelled (mnemonic : String)
  /-- A register access inside the window that is not an aligned 32-bit access (D5). Raised by
  Machine/HostPort.lean. Safe. -/
  | badRegisterAccess
  /-- A launch with a bit of SRC_BASE or DST_BASE set at or above ADDR_W (R35, R36). Raised by the START of a
  command, of this block or another. Safe. -/
  | baseAboveAddressWidth
  /-- A launch whose source or target region passes 2^ADDR_W (R64 item 1). Raised by the START of a command, of
  this block or another. Safe. -/
  | regionWraps
  /-- A launch whose source and target regions share an address (R64 item 2). Raised by the START of a command, of
  this block or another. Safe. -/
  | regionsOverlap
  /-- Commands running at the same time on different blocks with regions R83 forbids. Raised by the START of a
  command, of this block or another. Safe. -/
  | concurrentRegions
  /-- An agent wrote the source region or accessed the target region of a launch before the host read STATUS with
  BUSY = 0 (R64 item 3, R348, R349). Raised by the memory accesses of Machine/HostPort.lean, and by the START of a
  command whose regions touch those of another block's launch. Safe. -/
  | quietRegionTouched
  /-- An action of a block that the system does not have, or of this block under the name of another (N_BLOCKS, D44).
  Raised by the actions of other blocks in Machine/HostPort.lean. Safe. -/
  | noSuchBlock
  /-- A write of another block that runs no command, or outside its command's target region, which no block makes
  (R62, R65). Raised by Machine/HostPort.lean. Safe. -/
  | outsideOtherTarget
  deriving DecidableEq, Repr

/-- The whole state. The fields from `regs` to `n` are the spec's; those from `packed` to `phase` hold what the
pseudocode keeps in local names between two elements; the rest are the model's own (INVENTORY.md). -/
structure State where
  /-- The implementation parameters (R8). No step writes them. -/
  params : Config.Params := { addrW := 32, vtxRejected := [], nBlocks := 1 }
  /-- The register window (R30). -/
  regs : Regs := {}
  /-- The latched arguments (R45). -/
  args : Args := {}
  /-- `acc`, the vertex accumulator file, 512 lanes (R22). -/
  acc : Vector Byte 512 := Vector.replicate 512 0#8
  /-- `dbuf`, the scratch delta buffer (R23). -/
  dbuf : Vector Byte 16 := Vector.replicate 16 0#8
  /-- `hdr`, the header bytes of the current block and lane (R24). -/
  hdr : Vector Byte 4 := Vector.replicate 4 0#8
  /-- `EC`, the EdgeCache (R25). -/
  ec : Vector Word 32 := Vector.replicate 32 0#32
  /-- `VC`, the VertexCache (R26). -/
  vc : Vector Word 16 := Vector.replicate 16 0#32
  /-- `next`, the next unused output vertex index (R27). -/
  next : Word := 0#32
  /-- `last`, the base of explicitly coded indices (R28). -/
  last : Word := 0#32
  /-- `seqLast[0]` (R29). -/
  seqLast0 : Word := 0#32
  /-- `seqLast[1]` (R29). -/
  seqLast1 : Word := 0#32
  /-- `cur`, the data cursor (R42). -/
  cur : Nat := 0
  /-- `lim`, the data limit (R42). -/
  lim : Nat := 0
  /-- `ccur`, the code cursor (R42). -/
  ccur : Nat := 0
  /-- `row`, the highest row reached (R44). -/
  row : Nat := 0
  /-- `blockBase`, the first row of the current block (R44, R150). -/
  blockBase : Nat := 0
  /-- `k`, the byte-lane (R44, R156). -/
  k : Nat := 0
  /-- `g`, the group (R44, R156). -/
  g : Nat := 0
  /-- `t`, the triangle (R44). -/
  t : Nat := 0
  /-- `n`, the sequence output (R44). -/
  n : Nat := 0
  /-- `p`, the packed payload bytes of a mode 1 or mode 2 group (R159, R162). -/
  packed : Vector Byte 8 := Vector.replicate 8 0#8
  /-- `j`, the number of the next delta of the group (R159, R162, R165). -/
  j : Nat := 0
  /-- `a` of the current triangle (R225, R232, R235). -/
  triA : Word := 0#32
  /-- `b` of the current triangle. -/
  triB : Word := 0#32
  /-- `c` of the current triangle. -/
  triC : Word := 0#32
  /-- `e`, the codeaux entry or aux byte of the current triangle (R232, R235). -/
  entry : Byte := 0#8
  /-- Which of b and c the next nibble selects. -/
  corner : Corner := .b
  /-- b is to be pushed on the VertexCache (R232, R235). -/
  pushB : Bool := false
  /-- c is to be pushed on the VertexCache. -/
  pushC : Bool := false
  /-- a comes from a varint: the code is 0xFF, not 0xFE (R236). -/
  aFromVarint : Bool := false
  /-- `i`, the position of the next byte in its varint (R138). -/
  vpos : Nat := 0
  /-- `result`, the varint value read so far (R138). -/
  vres : Word := 0#32
  /-- What the varint is for. -/
  vuse : VarintUse := .sequence
  /-- Where the running command stands. -/
  phase : Phase := .idle
  /-- The memory M (R60). -/
  mem : Memory := []
  /-- The accesses from outside that are still to come, in order. -/
  events : List HostEvent := []
  /-- The value the latest host read returned. -/
  hostData : Word := 0#32
  /-- The regions of the launches whose end the host has not yet read from STATUS (R64 item 3). -/
  quiet : List Region := []
  /-- The launches of the commands running on other blocks (R83). -/
  others : List OtherLaunch := []
  /-- The launches of other blocks whose end the host has not yet read from their STATUS (R64 item 3, R321). -/
  othersQuiet : List OtherLaunch := []
  /-- The number of draws made so far; the model's own counter for `Config.drawByte`. -/
  draws : Nat := 0
  deriving DecidableEq, Repr

/-- What one step or one meaning answers. -/
abbrev Result := Host.Outcome State Fault Refusal

/-- The machine right after reset (R340): every register 0 and the block idle. The items R340 leaves unspecified
hold 0 (assumption log 1), memory lists nothing (log 4), and no access from outside is pending. -/
def State.reset : State := {}

end Sys2Proof.Machine
end

