-- ==== Sys2Proof/Machine/Flags.lean ====
section
/-! DEFINITION. The condition bits of STATUS, the numbers of the error kinds, and the fields of CTRL
(spec/10_state.md R21, R31, R33, spec/60_exceptions.md R300). -/

namespace Sys2Proof.Machine

/-- STATUS.BUSY, bit 0 (R33). -/
def State.busy (s : State) : Bool := s.regs.status.getLsbD 0

/-- STATUS.DONE, bit 1 (R33). -/
def State.doneBit (s : State) : Bool := s.regs.status.getLsbD 1

/-- STATUS.ERR, bit 2 (R33). -/
def State.errBit (s : State) : Bool := s.regs.status.getLsbD 2

/-- STATUS.ERRCODE, bits 7:4 (R33). -/
def State.errCode (s : State) : Nibble := s.regs.status.extractLsb' 4 4

/-- The STATUS.ERRCODE value of an error kind (R300). -/
def ErrorKind.code : ErrorKind → Nibble
  | .badHeaderTag => 1#4
  | .unsupportedStride => 2#4
  | .invalidIndexCount => 3#4
  | .truncatedSource => 4#4
  | .destinationTooSmall => 5#4

/-- A STATUS word from its fields; the reserved bits 31:8 and 3 are 0 (R33). -/
def statusWord (busy done err : Bool) (code : Nibble) : Word :=
  0#24 ++ code ++ 0#1 ++ BitVec.ofBool err ++ BitVec.ofBool done ++ BitVec.ofBool busy

/-- A command runs: BUSY alone (R33). -/
def statusRunning : Word := statusWord true false false 0#4

/-- The last command succeeded: DONE alone (R33, R311). -/
def statusSuccess : Word := statusWord false true false 0#4

/-- The last command failed: ERR and the kind's code (R33, R308). -/
def statusFailure (k : ErrorKind) : Word := statusWord false false true k.code

/-- The CTRL word that holds OP and FILTER; START reads 0 and bits 30:4 read 0 (R31). -/
def ctrlWord (filter op : BitVec 2) : Word := 0#28 ++ filter ++ op

/-- The value ID reads as (R40). -/
def idValue : Word := 0x07D1E1A0#32

end Sys2Proof.Machine
end

