-- ==== Sys2Proof/Machine/Operands.lean ====
section
/-! DEFINITION. How operands are formed from fields, registers and bytes: cache slots, the rolling FIFO, zigzag,
packed codes, varint payloads, little-endian bytes, and the sizes of blocks and groups (spec/30_encoding.md R97 to
R111, spec/40_primitives.md R130 to R138, spec/41_vertex_decoder.md R152 to R157). -/

namespace Sys2Proof.Machine

/-- Slot `i` of a register file; 0 outside it (no rule reads outside a file). -/
def slot {w n : Nat} (v : Vector (BitVec w) n) (i : Nat) : BitVec w := v[i]?.getD 0#w

/-- `shift(F, n)` (R132): slots 0 to n-1 keep their values, every other slot takes the value n slots below it. -/
@[irreducible] def shiftSlots {w m : Nat} (v : Vector (BitVec w) m) (n : Nat) : Vector (BitVec w) m :=
  Vector.ofFn fun i => if i.val < n then slot v i.val else slot v (i.val - n)

/-- `push(F, v)` (R133): shift by one, then put v in slot 0. -/
@[irreducible] def pushSlot {w m : Nat} (v : Vector (BitVec w) m) (x : BitVec w) : Vector (BitVec w) m :=
  (shiftSlots v 1).setIfInBounds 0 x

/-- `zigzag(v)` (R130), the exact signed value. -/
def zigzag (v : Word) : Int :=
  if v.getLsbD 0 then -(((v >>> 1).toNat : Int) + 1) else ((v >>> 1).toNat : Int)

/-- `trunc_32(zigzag(v))`, the delta of an index (R140, R273). -/
def zigzag32 (v : Word) : Word := BitVec.ofInt 32 (zigzag v)

/-- `trunc_8(zigzag(u))`, the delta of a vertex byte (R131, R166). -/
def zigzag8 (u : Byte) : Byte := BitVec.ofInt 8 (zigzag (u.zeroExtend 32))

/-- Edge `b0` of the EdgeCache, its first vertex (R25, R225). -/
def edgeFirst (ec : Vector Word 32) (b0 : Nibble) : Word := slot ec (2 * b0.toNat)

/-- Edge `b0` of the EdgeCache, its second vertex (R25, R225). -/
def edgeSecond (ec : Vector Word 32) (b0 : Nibble) : Word := slot ec (2 * b0.toNat + 1)

/-- Group `g`'s mode in the header bytes (R97, R157): two bits of byte g div 4, low groups in low bits. -/
def modeBits (hdr : Vector Byte 4) (g : Nat) : BitVec 2 := (slot hdr (g / 4)).extractLsb' (g % 4 * 2) 2

/-- C2 code `j` of the packed bytes (R99): most significant pair first. -/
def code2At (p : Vector Byte 8) (j : Nat) : BitVec 2 := (slot p (j / 4)).extractLsb' (6 - 2 * (j % 4)) 2

/-- C4 code `j` of the packed bytes (R100): high nibble first. -/
def code4At (p : Vector Byte 8) (j : Nat) : Nibble := (slot p (j / 2)).extractLsb' (4 - 4 * (j % 2)) 4

/-- `e[7:4]`, which selects b (R106, R107). -/
def highNibble (e : Byte) : Nibble := e.extractLsb' 4 4

/-- `e[3:0]`, which selects c (R106, R107). -/
def lowNibble (e : Byte) : Nibble := e.extractLsb' 0 4

/-- `trunc_32(result | (payload << 7*i))` (R138): a varint byte's payload joins the value at position i. -/
def varintJoin (result : Word) (i : Nat) (payload : BitVec 7) : Word :=
  result ||| (payload.zeroExtend 32 <<< (7 * i))

/-- `bytes_le(v, n)` (R11): the n low bytes of v, least significant first. -/
def bytesLE (v : Word) : Nat → List Byte
  | 0 => []
  | n + 1 => v.extractLsb' 0 8 :: bytesLE (v >>> 8) n

/-- `le_N(b0, b1, ...)` (R11), as a number. -/
def natOfBytesLE : List Byte → Nat
  | [] => 0
  | b :: bs => b.toNat + 256 * natOfBytesLE bs

/-- `attrBlockMaxElementCount(s)` (R152). -/
def attrBlockMaxElementCount (s : Nat) : Nat := min (8192 / s / 16 * 16) 256

/-- `groupCount` of a block of `rows` rows (R154). -/
def groupCount (rows : Nat) : Nat := (rows + 15) / 16

/-- `headerByteCount` of a block of `rows` rows (R154). -/
def headerByteCount (rows : Nat) : Nat := (groupCount rows + 3) / 4

/-- `need` (R66), on unbounded integers (D50). -/
def Args.need (a : Args) : Nat := a.count.toNat * a.stride.toNat

/-- `triCount` (R220). -/
def Args.triCount (a : Args) : Nat := a.count.toNat / 3

/-- The rows of the current block: `min(B, N - blockBase)` (R150, R153). -/
def State.blockRows (s : State) : Nat :=
  min (attrBlockMaxElementCount s.args.stride.toNat) (s.args.count.toNat - s.blockBase)

/-- The address of a source offset (R61). -/
def State.srcAddr (s : State) (off : Nat) : Nat := s.args.srcBase.toNat + off

/-- The address of a target offset (R62). -/
def State.dstAddr (s : State) (off : Nat) : Nat := s.args.dstBase.toNat + off

/-- Two address ranges, each a base and a length, share an address (R64, R83). -/
def rangesMeet (a la b lb : Nat) : Bool :=
  decide (0 < la) && decide (0 < lb) && decide (a < b + lb) && decide (b < a + la)

/-- An address lies in the range of a base and a length. -/
def inRange (a base len : Nat) : Bool := decide (base ≤ a) && decide (a < base + len)

end Sys2Proof.Machine
end

