-- ==== Sys2Proof/Machine/Ops.lean ====
section
/-! DEFINITION. The shared operations: the memory M, the checked source reads, the target writes, the draws, raising
an error (the block's only exception) and completing, and starting a command (the way back from an error)
(spec/20_memory.md, spec/40_primitives.md R135 to R142, spec/60_exceptions.md R308 to R313, spec/10_state.md R32). -/

namespace Sys2Proof.Machine

/-! ### The memory M -/

/-- `MemRead(addr, 1)` (R12, R63). -/
def Memory.read : Memory → Nat → Byte
  | [], _ => Memory.unlisted
  | (b, w) :: m, a => if b = a then w else Memory.read m a

/-- `MemWrite(addr, 1, v)` (R12), keeping the canonical form. -/
def Memory.write : Memory → Nat → Byte → Memory
  | [], a, v => if v = Memory.unlisted then [] else [(a, v)]
  | (b, w) :: m, a, v =>
    if b < a then (b, w) :: Memory.write m a v
    else if b = a then (if v = Memory.unlisted then m else (a, v) :: m)
    else (if v = Memory.unlisted then (b, w) :: m else (a, v) :: (b, w) :: m)

/-- Writes of single bytes at ascending addresses (R12, R71). -/
def Memory.writeBytes : Memory → Nat → List Byte → Memory
  | m, _, [] => m
  | m, a, v :: vs => Memory.writeBytes (Memory.write m a v) (a + 1) vs

/-- The `n` bytes from an address up, each read on its own (R69, R71). -/
def Memory.readBytes (m : Memory) (a : Nat) : Nat → List Byte
  | 0 => []
  | n + 1 => m.read a :: Memory.readBytes m (a + 1) n

/-! ### Source reads and target accesses -/

/-- `MemRead(SRC_BASE + off, 1)`: a source byte at an offset the layout check has proved present (R63, R135). -/
def State.sourceByte (s : State) (off : Nat) : Byte := s.mem.read (s.srcAddr off)

/-- The outcome of a checked source read: the value and the state after it, or the state in which the byte at its
data cursor could not be read (R135). -/
inductive Read (α : Type) where
  | ok (v : α) (s : State)
  | truncated (s : State)
  deriving DecidableEq, Repr

/-- `ReadByte()` (R135, R136): the byte at `cur`, which then moves on by one; no read at or past `lim`. -/
def readByte (s : State) : Read Byte :=
  if s.cur < s.lim then .ok (s.sourceByte s.cur) { s with cur := s.cur + 1 } else .truncated s

/-- `n` times `ReadByte()`, in order; the first one that cannot be made ends the reading. -/
def readByteList : Nat → State → Read (List Byte)
  | 0, s => .ok [] s
  | n + 1, s =>
    match readByte s with
    | .truncated s1 => .truncated s1
    | .ok b s1 =>
      match readByteList n s1 with
      | .truncated s2 => .truncated s2
      | .ok bs s2 => .ok (b :: bs) s2

/-- `TgtWrite(off, n, v)` (R141): the low n bytes of v, least significant first. -/
def tgtWrite (off n : Nat) (v : Word) (s : State) : State :=
  { s with mem := s.mem.writeBytes (s.dstAddr off) (bytesLE v n) }

/-- `TgtWriteIndex(j, v)` (R142): index number j of the output, STRIDE bytes wide. -/
def tgtWriteIndex (j : Nat) (v : Word) (s : State) : State :=
  tgtWrite (j * s.args.stride.toNat) s.args.stride.toNat v s

/-- The target bytes of draw `d` (R310, R342): every byte of the `n` target bytes from offset `off` up takes a free
value. -/
def Memory.drawBytes (m : Memory) (base d : Nat) (off : Nat) : Nat → Memory
  | 0 => m
  | n + 1 => Memory.drawBytes (m.write (base + off) (Config.drawByte d off)) base d (off + 1) n

/-- Every byte of the command's target region takes an unspecified value (R310, R342); bytes outside it keep
theirs. -/
def drawTarget (s : State) : State :=
  { s with
    mem := s.mem.drawBytes s.args.dstBase.toNat s.draws 0 s.args.need
    draws := s.draws + 1 }

/-! ### The end of a command: raising an error, completing -/

/-- `raise K(off)` (R308), the block's taking of an exception: STATUS reports the kind, ERR_OFFSET the offset of a
TruncatedSource, and the block is idle. No register is saved and control goes nowhere. The datapath keeps what the
command left in it, where the spec gives it no value between commands (R46; assumption log 1, DESIGN CHOICE). -/
def raise (k : ErrorKind) (off : Nat) (s : State) : State :=
  { s with
    regs := { s.regs with
      status := statusFailure k
      errOffset := if k = .truncatedSource then BitVec.ofNat 32 off else 0#32 }
    phase := .idle }

/-- A TruncatedSource found during decoding (R304 case 3, R310): the target region is drawn, and the error carries
the data cursor. -/
def raiseTruncated (s : State) : State := raise .truncatedSource s.cur (drawTarget s)

/-- Successful completion (R311). The datapath keeps what the command left in it, where the spec gives it no value
between commands (R46; assumption log 1, DESIGN CHOICE). -/
def complete (s : State) : State :=
  { s with
    regs := { s.regs with status := statusSuccess, errOffset := 0#32 }
    phase := .idle }

/-! ### Starting a command: the way back from an error (R313) -/

/-- The part of a CTRL write that sets OP and FILTER (R32). -/
def setCtrl (filter op : BitVec 2) (s : State) : State :=
  { s with regs := { s.regs with ctrl := ctrlWord filter op } }

/-- The regions the registers name for a launch (R61, R62, R66). -/
def Regs.region (r : Regs) : Region :=
  { srcBase := r.srcBase.toNat, srcLen := r.srcLen.toNat
    dstBase := r.dstBase.toNat, dstLen := r.count.toNat * r.stride.toNat }

/-- Two launches may not use these regions at the same time: a target meets the other's target or source. So R83 says
of running commands, and R64 item 3 of a launch and the quiet regions of another block's. -/
def Region.conflicts (x y : Region) : Bool :=
  rangesMeet x.dstBase x.dstLen y.dstBase y.dstLen || rangesMeet x.dstBase x.dstLen y.srcBase y.srcLen ||
    rangesMeet y.dstBase y.dstLen x.srcBase x.srcLen

/-- The host precondition that a launch's own regions break, if any (R324), for any block: address bits (R35, R36),
wrap-around and overlap (R64). -/
def regionProblem (p : Config.Params) (r : Region) : Option Refusal :=
  let top := 2 ^ p.addrW
  if top ≤ r.srcBase ∨ top ≤ r.dstBase then some .baseAboveAddressWidth
  else if top < r.srcBase + r.srcLen ∨ top < r.dstBase + r.dstLen then some .regionWraps
  else if rangesMeet r.srcBase r.srcLen r.dstBase r.dstLen then some .regionsOverlap
  else none

/-- The host precondition that a launch of this block breaks, if any (R324): its own regions, the commands running on
other blocks (R83), and the quiet of other blocks' launches (R64 item 3). -/
def launchProblem (s : State) : Option Refusal :=
  match regionProblem s.params s.regs.region with
  | some x => some x
  | none =>
    if s.others.any fun o => s.regs.region.conflicts o.region then some .concurrentRegions
    else if s.othersQuiet.any fun o => s.regs.region.conflicts o.region then some .quietRegionTouched
    else none

/-- The latching of R45. -/
def Regs.latch (r : Regs) (cmd : Command) (filter : BitVec 2) : Args :=
  { cmd := cmd, filter := filter, srcBase := r.srcBase, srcLen := r.srcLen, dstBase := r.dstBase
    dstCap := r.dstCap, count := r.count, stride := r.stride }

/-- The state in which a command begins (R32): the arguments are latched, STATUS is running, ERR_OFFSET is 0, and the
launch's regions are to stay quiet (R64 item 3). The datapath keeps its values until the command's initial state is set
(R345; assumption log 1). -/
def launch (cmd : Command) (filter : BitVec 2) (s : State) : State :=
  { s with
    regs := { s.regs with status := statusRunning, errOffset := 0#32 }
    args := s.regs.latch cmd filter
    quiet := s.regs.region :: s.quiet
    phase := .tag }

/-- A CTRL write with START = 1 that names a command (R32): ignored while BUSY, refused when the launch breaks a
precondition (R324), else the command begins. -/
def startCommand (cmd : Command) (filter op : BitVec 2) (s : State) : Result :=
  if s.busy then .next s
  else
    match launchProblem s with
    | some r => .refused r
    | none => .next (launch cmd filter (setCtrl filter op s))

end Sys2Proof.Machine
end

