-- ==== Sys2Proof/Machine/Commands.lean ====
section
/-! DEFINITION. The host commands: a CTRL write with START = 1 (spec/10_state.md R32, spec/30_encoding.md R91, R92).
A command's own effect is its START; the checks, the decoding and the completion that its rule's pseudocode goes
on with are the steps that follow, one for each element (Machine/Fetch.lean). -/

namespace Sys2Proof.Machine

/-- CMD_NONE (R32): OP and FILTER are written and nothing starts; ignored while BUSY. -/
def execCmdNone (filter : BitVec 2) (s : State) : Result :=
  if s.busy then .next s else .next (setCtrl filter 0#2 s)

/-- DECODE_VERTEX (R150): its START (R32). -/
def execDecodeVertex (filter : BitVec 2) (s : State) : Result := startCommand .vertex filter 1#2 s

/-- DECODE_INDEX (R220): its START (R32). -/
def execDecodeIndex (filter : BitVec 2) (s : State) : Result := startCommand .index filter 2#2 s

/-- DECODE_SEQUENCE (R270): its START (R32). -/
def execDecodeSequence (filter : BitVec 2) (s : State) : Result := startCommand .sequence filter 3#2 s

end Sys2Proof.Machine
end

