-- ==== Sys2Proof/Machine/FilterMath.lean ====
section
/-! DEFINITION. The reference values of the octahedral and quaternion filters, their bound, and the exponential
result (spec/42_vertex_filters.md R193 to R204). The exact value of such a lane is a positive or negative square root
of a rational number, so it is held exactly and rounded on integers. -/

namespace Sys2Proof.Machine

/-- The exact value of a lane before rounding: plus or minus the square root of num / den (den is not 0 where a rule
gives the value). -/
structure RootRef where
  neg : Bool
  num : Nat
  den : Nat
  deriving DecidableEq, Repr

/-- The exact value p / sqrt(q). -/
def RootRef.ofRatio (p : Int) (q : Nat) : RootRef := { neg := decide (p < 0), num := p.natAbs ^ 2, den := q }

/-- The integer square root of `n`, searched from bit `bits - 1` of the root down, above a root part `r`. -/
def isqrtFrom : Nat → Nat → Nat → Nat
  | 0, _, r => r
  | bits + 1, n, r =>
    isqrtFrom bits n (if (r + 2 ^ bits) * (r + 2 ^ bits) ≤ n then r + 2 ^ bits else r)

/-- The largest integer whose square is at most `n`. -/
def isqrt (n : Nat) : Nat := isqrtFrom (n.log2 / 2 + 1) n 0

/-- A magnitude under the sign of the exact value. -/
def RootRef.signed (r : RootRef) (v : Int) : Int := if r.neg then -v else v

/-- `round_away` of the exact value (R14): the root of num/den plus a half, rounded down, under the sign. This is the
reference value that the pseudocode of R195 and R199 puts in the lane, and that R194 and R201 speak of (assumption
logs 5 and 6). -/
def RootRef.roundAway (r : RootRef) : Int :=
  r.signed (((isqrt (4 * r.num / r.den) + 1) / 2 : Nat) : Int)

/-- An integer lies in the range of a signed lane of `w` bits. -/
def laneRange (w : Nat) (v : Int) : Bool :=
  decide (-((2 ^ (w - 1) : Nat) : Int) ≤ v) && decide (v < ((2 ^ (w - 1) : Nat) : Int))

/-- The block's value of a lane under R194: the free value where it is in the lane's range and within 1 of the
reference value, else the reference value. Every function within the bound, and no other, is obtained for some free
value (assumption log 5). -/
def boundedLane (w : Nat) (ref : RootRef) (free : Int) : Int :=
  if laneRange w free && decide ((free - ref.roundAway).natAbs ≤ 1) then free else ref.roundAway

/-- `intMax` (R193). -/
def intMax (w : Nat) : Nat := 2 ^ (w - 1) - 1

/-- `sgn(v)` of the fold: +1 at 0 (R196). -/
def foldSign (v : Int) : Int := if 0 ≤ v then 1 else -1

/-- The octahedral vector of R195 before scaling, multiplied by |l2|: X and Y after the fold of R196, and Z. -/
def octVector (l0 l1 l2 : Int) : Int × Int × Int :=
  let x := if l2 < 0 then -l0 else l0
  let y := if l2 < 0 then -l1 else l1
  let z : Int := (l2.natAbs : Int) - (x.natAbs : Int) - (y.natAbs : Int)
  if z < 0 then (x - foldSign x * (z.natAbs : Int), y - foldSign y * (z.natAbs : Int), z) else (x, y, z)

/-- Component 0, 1 or 2 of a vector. -/
def component (v : Int × Int × Int) : Nat → Int
  | 0 => v.1
  | 1 => v.2.1
  | _ => v.2.2

/-- The exact value of octahedral output lane 0, 1 or 2 (R195), before rounding: the component times intMax over the
length. -/
def octRef (w : Nat) (l0 l1 l2 : Int) (lane : Nat) : RootRef :=
  let v := octVector l0 l1 l2
  RootRef.ofRatio (component v lane * (intMax w : Int)) (v.1.natAbs ^ 2 + v.2.1.natAbs ^ 2 + v.2.2.natAbs ^ 2)

/-- Octahedral output lane 0, 1 or 2 (R194, R195, R197). -/
def octLane (w : Nat) (l0 l1 l2 l3 : Int) (lane : Nat) : Int :=
  if l2 = 0 then Config.octZeroOne w l0 l1 l3 lane
  else boundedLane w (octRef w l0 l1 l2 lane) (Config.octNum w l0 l1 l2 l3 lane)

/-- `mc` (R199): the two low bits of lane 3. -/
def maxComponent (l3 : BitVec 16) : Nat := (l3.extractLsb' 0 2).toNat

/-- `sval_16(l3 | 0x3)` (R199), never 0. -/
def quatScale (l3 : BitVec 16) : Int := (l3 ||| 0x3#16).toInt

/-- The exact value of x, y or z times 32767 (R199), before rounding, for the stored lane `l`: 32767 l / (S sqrt 2). -/
def quatStoredRef (l : Int) (scale : Int) : RootRef :=
  RootRef.ofRatio (32767 * l * (if scale < 0 then -1 else 1)) (2 * scale.natAbs ^ 2)

/-- The exact value of w times 32767 (R199), before rounding: the square root of the remainder, 0 when that is
negative. -/
def quatRestRef (l0 l1 l2 : Int) (scale : Int) : RootRef :=
  { neg := false
    num := 32767 ^ 2 * (2 * scale.natAbs ^ 2 - (l0.natAbs ^ 2 + l1.natAbs ^ 2 + l2.natAbs ^ 2))
    den := 2 * scale.natAbs ^ 2 }

/-- The exact value of quaternion output lane 0 to 3 (R199, R200), before rounding: the lanes after mc hold x, y and z
in cyclic order, lane mc holds w. -/
def quatRef (l0 l1 l2 : Int) (l3 : BitVec 16) (lane : Nat) : RootRef :=
  match (lane + 3 - maxComponent l3) % 4 with
  | 0 => quatStoredRef l0 (quatScale l3)
  | 1 => quatStoredRef l1 (quatScale l3)
  | 2 => quatStoredRef l2 (quatScale l3)
  | _ => quatRestRef l0 l1 l2 (quatScale l3)

/-- Quaternion output lane 0 to 3: within the bound where the reference is in range, and free where it is not
(R194, R201). -/
def quatLane (l0 l1 l2 : Int) (l3 : BitVec 16) (lane : Nat) : Int :=
  let ref := quatRef l0 l1 l2 l3 lane
  let free := Config.quatNum l0 l1 l2 l3.toInt lane
  if laneRange 16 ref.roundAway then boundedLane 16 ref free else free

/-- `binary32(m * 2^e)` for m not 0 and -126 <= e <= 127 (R203): the number has at most 24 significant bits, so
it is normal and exact, or it overflows to an infinity. -/
def binary32 (m e : Int) : Word :=
  let size := m.natAbs.log2
  let biased := (size : Int) + e + 127
  let sign := BitVec.ofBool (decide (m < 0))
  if 255 ≤ biased then sign ++ 255#8 ++ 0#23
  else sign ++ BitVec.ofInt 8 biased ++ BitVec.ofNat 23 (m.natAbs * 2 ^ (23 - size))

/-- The exponential result of a word (R202 to R204). -/
def expWord (word : Word) : Word :=
  let e := (word.extractLsb' 24 8).toInt
  let m := (word.extractLsb' 0 24).toInt
  if m = 0 then 0#32
  else if e < -126 then Config.expLow e m
  else binary32 m e

end Sys2Proof.Machine
end

