-- ==== Sys2Proof/Machine/Filters.lean ====
section
/-! DEFINITION. The filter pass over the target (spec/42_vertex_filters.md R190 to R205). -/

namespace Sys2Proof.Machine

/-- `FilterStrideOK(F, s)` (R191). -/
def filterStrideOk (filter : BitVec 2) (s : Nat) : Bool :=
  if filter = 0#2 then true
  else if filter = 1#2 then decide (s = 4) || decide (s = 8)
  else if filter = 2#2 then decide (s = 8)
  else decide (s % 4 = 0)

/-- A step over items 0 to n-1 in ascending order (R190). -/
def forEach (n : Nat) (f : Nat → State → State) (s : State) : State :=
  (List.range n).foldl (fun acc i => f i acc) s

/-- `n` target bytes from offset `off` up, composed little-endian (R69, R192). -/
def State.targetWord (s : State) (off n : Nat) : Nat := natOfBytesLE (s.mem.readBytes (s.dstAddr off) n)

/-- The bytes of one lane: one for stride 4, two for stride 8 (R192). -/
def laneBytes (s : State) : Nat := if s.args.stride.toNat = 8 then 2 else 1

/-- The target offset of lane `i` of row `r` (R192). -/
def laneOffset (s : State) (r i : Nat) : Nat := r * s.args.stride.toNat + i * laneBytes s

/-- The signed value of a lane of `n` bytes at target offset `off` (R192). -/
def State.laneValue (s : State) (off n : Nat) : Int := (BitVec.ofNat (8 * n) (s.targetWord off n)).toInt

/-- A lane result goes back to the lane's bytes (R192). -/
def writeLane (r i : Nat) (v : Int) (s : State) : State :=
  tgtWrite (laneOffset s r i) (laneBytes s) (BitVec.ofInt 32 v) s

/-- One row of the octahedral filter (R195): lanes 0 to 2 are rewritten, lane 3 is not. -/
def octRow (r : Nat) (s : State) : State :=
  let l := fun i => s.laneValue (laneOffset s r i) (laneBytes s)
  let out := octLane (8 * laneBytes s) (l 0) (l 1) (l 2) (l 3)
  writeLane r 2 (out 2) (writeLane r 1 (out 1) (writeLane r 0 (out 0) s))

/-- Lane `i` of a quaternion row (R192): stride 8, 16 bits. -/
def quatLaneBits (s : State) (r i : Nat) : BitVec 16 := BitVec.ofNat 16 (s.targetWord (8 * r + 2 * i) 2)

/-- A quaternion lane result goes back to the lane's two bytes (R192). -/
def writeQuatLane (r i : Nat) (v : Int) (s : State) : State := tgtWrite (8 * r + 2 * i) 2 (BitVec.ofInt 32 v) s

/-- One row of the quaternion filter (R199, R200): all four lanes are rewritten. -/
def quatRow (r : Nat) (s : State) : State :=
  let out := quatLane (quatLaneBits s r 0).toInt (quatLaneBits s r 1).toInt (quatLaneBits s r 2).toInt
    (quatLaneBits s r 3)
  writeQuatLane r 3 (out 3) (writeQuatLane r 2 (out 2) (writeQuatLane r 1 (out 1) (writeQuatLane r 0 (out 0) s)))

/-- One word of the exponential filter (R202). -/
def expStep (q : Nat) (s : State) : State :=
  tgtWrite (4 * q) 4 (expWord (BitVec.ofNat 32 (s.targetWord (4 * q) 4))) s

/-- The filter pass is over; the command completes next (R170). -/
def filterDone (s : State) : State := { s with phase := .done }

/-- FILTER_NONE (R190): no transform. -/
def execFilterNone (s : State) : Result := .next (filterDone s)

/-- FILTER_OCTAHEDRAL (R195): every row, in ascending order. -/
def execFilterOctahedral (s : State) : Result := .next (filterDone (forEach s.args.count.toNat octRow s))

/-- FILTER_QUATERNION (R199): every row, in ascending order. -/
def execFilterQuaternion (s : State) : Result := .next (filterDone (forEach s.args.count.toNat quatRow s))

/-- FILTER_EXPONENTIAL (R202): every word, in ascending order. -/
def execFilterExponential (s : State) : Result := .next (filterDone (forEach (s.args.need / 4) expStep s))

end Sys2Proof.Machine
end

