-- ==== Sys2Proof/Machine/Groups.lean ====
section
/-! DEFINITION. The group modes of the vertex decoder and the codes of a group: they fill the scratch delta buffer
(spec/41_vertex_decoder.md R157 to R165). -/

namespace Sys2Proof.Machine

/-- Values put into a register file from slot `i` up, in order. -/
def putSlots {w n : Nat} (v : Vector (BitVec w) n) (i : Nat) : List (BitVec w) → Vector (BitVec w) n
  | [] => v
  | x :: xs => putSlots (v.setIfInBounds i x) (i + 1) xs

/-- `dbuf[j] <- x`, and the next delta of the group is number j + 1. -/
def putDelta (x : Byte) (s : State) : State := { s with dbuf := s.dbuf.setIfInBounds s.j x, j := s.j + 1 }

/-- The escape of a sentinel code: `dbuf[j] <- ReadByte()` (R161, R164). -/
def escapeDelta (s : State) : State :=
  match readByte s with
  | .truncated s1 => raiseTruncated s1
  | .ok b s1 => putDelta b s1

/-- `p[i] <- ReadByte()` for the `n` packed bytes of a group; its codes are decoded next (R159, R162). -/
def readPacked (n : Nat) (codes : Phase) (s : State) : State :=
  match readByteList n s with
  | .truncated s1 => raiseTruncated s1
  | .ok bs s1 => { s1 with packed := putSlots s1.packed 0 bs, j := 0, phase := codes }

/-- VG_MODE0_ZERO (R158): sixteen zero deltas, no payload. -/
def execVgMode0Zero (s : State) : Result :=
  .next { s with dbuf := Vector.replicate 16 0#8, phase := .apply }

/-- VG_MODE1_2BIT (R159): four packed bytes; the sixteen C2 codes follow. -/
def execVgMode1TwoBit (s : State) : Result := .next (readPacked 4 .code2 s)

/-- VG_MODE2_4BIT (R162): eight packed bytes; the sixteen C4 codes follow. -/
def execVgMode2FourBit (s : State) : Result := .next (readPacked 8 .code4 s)

/-- VG_MODE3_LITERAL (R165): sixteen literal bytes follow. -/
def execVgMode3Literal (s : State) : Result := .next { s with j := 0, phase := .literal }

/-- VC2_VALUE (R160). -/
def execVc2Value (code : BitVec 2) (s : State) : Result := .next (putDelta (code.zeroExtend 8) s)

/-- VC2_ESCAPE (R161). -/
def execVc2Escape (s : State) : Result := .next (escapeDelta s)

/-- VC4_VALUE (R163). -/
def execVc4Value (code : Nibble) (s : State) : Result := .next (putDelta (code.zeroExtend 8) s)

/-- VC4_ESCAPE (R164). -/
def execVc4Escape (s : State) : Result := .next (escapeDelta s)

/-- VLIT8 (R165): the literal is the zigzag-coded delta (R102). -/
def execVlit8 (zz : Byte) (s : State) : Result := .next (putDelta zz s)

end Sys2Proof.Machine
end

