-- ==== Sys2Proof/Machine/Sequences.lean ====
section
/-! DEFINITION. The two classes of sequence values (spec/44_index_sequence.md R273 to R276). -/

namespace Sys2Proof.Machine

/-- Output n is written (R273, R276); the next output is n + 1. -/
def emitSequence (v : Word) (s : State) : State :=
  { tgtWriteIndex s.n v s with n := s.n + 1, phase := .output }

/-- SEQ_BASE0 (R274). -/
def execSeqBase0 (dz : BitVec 31) (s : State) : Result :=
  let v := s.seqLast0 + zigzag32 (dz.zeroExtend 32)
  .next (emitSequence v { s with seqLast0 := v })

/-- SEQ_BASE1 (R275). -/
def execSeqBase1 (dz : BitVec 31) (s : State) : Result :=
  let v := s.seqLast1 + zigzag32 (dz.zeroExtend 32)
  .next (emitSequence v { s with seqLast1 := v })

end Sys2Proof.Machine
end

