-- ==== Sys2Proof/Machine/Tags.lean ====
section
/-! DEFINITION. The tag of a stream: check 2 of spec/60_exceptions.md R306 (spec/30_encoding.md R94). -/

namespace Sys2Proof.Machine

/-- A tag that belongs to `cmd` (R94): the running command goes on to its further checks when it is that command,
and raises BadHeaderTag otherwise. -/
def acceptTag (cmd : Command) (s : State) : State :=
  if s.args.cmd = cmd then { s with phase := .checks } else raise .badHeaderTag 0 s

/-- TAG_VERTEX (R171). -/
def execTagVertex (s : State) : Result := .next (acceptTag .vertex s)

/-- TAG_INDEX (R245). -/
def execTagIndex (s : State) : Result := .next (acceptTag .index s)

/-- TAG_SEQUENCE (R277). -/
def execTagSequence (s : State) : Result := .next (acceptTag .sequence s)

/-- TAG_OTHER (R301): BadHeaderTag for every command. -/
def execTagOther (_tag : Byte) (s : State) : Result := .next (raise .badHeaderTag 0 s)

end Sys2Proof.Machine
end

