-- ==== Sys2Proof/Machine/Varints.lean ====
section
/-! DEFINITION. The bytes of a varint (spec/40_primitives.md R137 to R140). -/

namespace Sys2Proof.Machine

/-- `ReadVarint()` begins for the given use: result 0, position 0 (R138). -/
def startVarint (use : VarintUse) (s : State) : State :=
  { s with vuse := use, vpos := 0, vres := 0#32, phase := .varintByte }

/-- The varint has ended: its value goes to the sequence decoder or to ReadIndexDelta (R140, R273). -/
def endVarint (s : State) : State :=
  { s with phase := if s.vuse = .sequence then .seqValue else .indexDelta }

/-- `result <- result | (b[6:0] << (7*i))` (R137, R139). -/
def joinVarint (payload : BitVec 7) (s : State) : State :=
  { s with vres := varintJoin s.vres s.vpos payload }

/-- VARINT_CONT (R137): at positions 0 to 3 the varint goes on, at position 4 it ends (D35). -/
def execVarintCont (payload : BitVec 7) (s : State) : Result :=
  .next (if s.vpos < 4 then { joinVarint payload s with vpos := s.vpos + 1 } else endVarint (joinVarint payload s))

/-- VARINT_END (R139). -/
def execVarintEnd (payload : BitVec 7) (s : State) : Result := .next (endVarint (joinVarint payload s))

end Sys2Proof.Machine
end

