-- ==== Sys2Proof/Machine/Triangles.lean ====
section
/-! DEFINITION. The triangle codes, and how a triangle ends (spec/43_index_decoder.md R224 to R236, R241, R242). -/

namespace Sys2Proof.Machine

/-- `Emit(a, b, c)` for triangle t (R242); the next triangle is t + 1. -/
def emit (a b c : Word) (s : State) : State :=
  let s1 := tgtWriteIndex (3 * s.t) a s
  let s2 := tgtWriteIndex (3 * s.t + 1) b s1
  let s3 := tgtWriteIndex (3 * s.t + 2) c s2
  { s3 with t := s.t + 1, phase := .triangle }

/-- `shift(EC, n)` and the new edges into the slots from 0 up (R231, R241). -/
def pushEdges (n : Nat) (edges : List Word) (s : State) : State :=
  { s with ec := putSlots (shiftSlots s.ec n) 0 edges }

/-- `push(VC, v)` (R133). -/
def pushVertex (v : Word) (s : State) : State := { s with vc := pushSlot s.vc v }

/-- `EdgeComplete(a, b, c)` (R231). -/
def edgeComplete (a b c : Word) (s : State) : State := emit a b c (pushEdges 4 [a, c, c, b] s)

/-- `NewComplete(a, b, c)` (R241). -/
def newComplete (a b c : Word) (s : State) : State := emit a b c (pushEdges 6 [a, c, c, b, b, a] s)

/-- An edge triangle whose third vertex is pushed (R226, R228, R229, R230). -/
def edgeWithPush (a b c : Word) (s : State) : State := edgeComplete a b c (pushVertex c s)

/-- `x <- next; next <- next + 1` for the vertex a (R232, R235); the nibble of b is decoded next. -/
def takeFreshA (nibbles : Phase) (s : State) : State :=
  { s with triA := s.next, next := s.next + 1#32, corner := .b, phase := nibbles }

/-- `e <- ReadByte()` of a code 0xFE or 0xFF (R235, R236): one plain byte (C8). -/
def readAuxByte (aFromVarint : Bool) (s : State) : State :=
  match readByte s with
  | .truncated s1 => raiseTruncated s1
  | .ok b s1 => { s1 with entry := b, aFromVarint := aFromVarint, phase := .auxByte }

/-- TRI_NEW_TABLE (R232): e from the codeaux table, a fresh; the two CAUX4 nibbles of e follow, then the pushes
and NewComplete. -/
def execTriNewTable (b1 : Nibble) (s : State) : Result :=
  .next (takeFreshA .caux { s with entry := s.sourceByte (s.args.srcLen.toNat - 16 + b1.toNat) })

/-- TRI_NEW_AUX (R235): the aux byte is read; AUX_RESTART, a, the two AUX4 nibbles, the pushes and NewComplete
follow. -/
def execTriNewAux (s : State) : Result := .next (readAuxByte false s)

/-- TRI_NEW_AUX_VARINT (R236): as TRI_NEW_AUX, but a comes from a varint. -/
def execTriNewAuxVarint (s : State) : Result := .next (readAuxByte true s)

/-- TRI_EDGE_NEXT (R226). -/
def execTriEdgeNext (b0 : Nibble) (s : State) : Result :=
  .next (edgeWithPush (edgeFirst s.ec b0) (edgeSecond s.ec b0) s.next { s with next := s.next + 1#32 })

/-- TRI_EDGE_CACHE (R227): slot b1 itself, and no push. -/
def execTriEdgeCache (b0 b1 : Nibble) (s : State) : Result :=
  .next (edgeComplete (edgeFirst s.ec b0) (edgeSecond s.ec b0) (slot s.vc b1.toNat) s)

/-- TRI_EDGE_DEC (R228). -/
def execTriEdgeDec (b0 : Nibble) (s : State) : Result :=
  .next (edgeWithPush (edgeFirst s.ec b0) (edgeSecond s.ec b0) (s.last - 1#32) { s with last := s.last - 1#32 })

/-- TRI_EDGE_INC (R229). -/
def execTriEdgeInc (b0 : Nibble) (s : State) : Result :=
  .next (edgeWithPush (edgeFirst s.ec b0) (edgeSecond s.ec b0) (s.last + 1#32) { s with last := s.last + 1#32 })

/-- TRI_EDGE_VARINT (R230): the edge is fetched; the varint bytes follow, then c and EdgeComplete. -/
def execTriEdgeVarint (b0 : Nibble) (s : State) : Result :=
  .next (startVarint .edgeC { s with triA := edgeFirst s.ec b0, triB := edgeSecond s.ec b0 })

end Sys2Proof.Machine
end

