-- ==== Sys2Proof/Machine/Vertices.lean ====
section
/-! DEFINITION. The codeaux and aux nibbles of a new-path triangle, and the restart marker
(spec/43_index_decoder.md R233 to R240). -/

namespace Sys2Proof.Machine

/-- The vertex of the current nibble: b or c, with whether it is to be pushed (R232, R235). After b the nibble of
c is decoded, after c the triangle ends. -/
def setCorner (v : Word) (pushed : Bool) (s : State) : State :=
  match s.corner with
  | .b => { s with triB := v, pushB := pushed, corner := .c }
  | .c => { s with triC := v, pushC := pushed, phase := .newDone }

/-- `v <- next; next <- next + 1; return v`, and the vertex is pushed (R233, R238). -/
def freshCorner (s : State) : State := setCorner s.next true { s with next := s.next + 1#32 }

/-- `return VC[n-1]`, and the vertex is not pushed (R234, R239). -/
def cachedCorner (n : Nibble) (s : State) : State := setCorner (slot s.vc (n.toNat - 1)) false s

/-- CAUX_NEXT (R233). -/
def execCauxNext (s : State) : Result := .next (freshCorner s)

/-- CAUX_CACHE (R234). -/
def execCauxCache (n : Nibble) (s : State) : Result := .next (cachedCorner n s)

/-- AUX_RESTART (R237): only `next` changes, before a is taken and before the nibbles are decoded. -/
def execAuxRestart (s : State) : Result := .next { s with next := 0#32, phase := .takeA }

/-- AUX_NEXT (R238). -/
def execAuxNext (s : State) : Result := .next (freshCorner s)

/-- AUX_CACHE (R239). -/
def execAuxCache (n : Nibble) (s : State) : Result := .next (cachedCorner n s)

/-- AUX_VARINT (R240): the varint bytes follow; ReadIndexDelta then gives the vertex. -/
def execAuxVarint (s : State) : Result := .next (startVarint .newCorner s)

end Sys2Proof.Machine
end

