-- ==== Sys2Proof/Machine/Dispatch.lean ====
section
/-! DEFINITION. One arm per operation: its meaning. -/

namespace Sys2Proof.Machine

def exec (i : Instr) (s : State) : Host.Outcome State Fault Refusal :=
  match i with
  | .cmdNone filter => Sys2Proof.Machine.execCmdNone filter s
  | .decodeVertex filter => Sys2Proof.Machine.execDecodeVertex filter s
  | .decodeIndex filter => Sys2Proof.Machine.execDecodeIndex filter s
  | .decodeSequence filter => Sys2Proof.Machine.execDecodeSequence filter s
  | .filterNone => Sys2Proof.Machine.execFilterNone s
  | .filterOctahedral => Sys2Proof.Machine.execFilterOctahedral s
  | .filterQuaternion => Sys2Proof.Machine.execFilterQuaternion s
  | .filterExponential => Sys2Proof.Machine.execFilterExponential s
  | .tagVertex => Sys2Proof.Machine.execTagVertex s
  | .tagIndex => Sys2Proof.Machine.execTagIndex s
  | .tagSequence => Sys2Proof.Machine.execTagSequence s
  | .tagOther tag => Sys2Proof.Machine.execTagOther tag s
  | .vgMode0Zero => Sys2Proof.Machine.execVgMode0Zero s
  | .vgMode1TwoBit => Sys2Proof.Machine.execVgMode1TwoBit s
  | .vgMode2FourBit => Sys2Proof.Machine.execVgMode2FourBit s
  | .vgMode3Literal => Sys2Proof.Machine.execVgMode3Literal s
  | .vc2Value code => Sys2Proof.Machine.execVc2Value code s
  | .vc2Escape => Sys2Proof.Machine.execVc2Escape s
  | .vc4Value code => Sys2Proof.Machine.execVc4Value code s
  | .vc4Escape => Sys2Proof.Machine.execVc4Escape s
  | .vlit8 zz => Sys2Proof.Machine.execVlit8 zz s
  | .triNewTable b1 => Sys2Proof.Machine.execTriNewTable b1 s
  | .triNewAux => Sys2Proof.Machine.execTriNewAux s
  | .triNewAuxVarint => Sys2Proof.Machine.execTriNewAuxVarint s
  | .triEdgeNext b0 => Sys2Proof.Machine.execTriEdgeNext b0 s
  | .triEdgeCache b0 b1 => Sys2Proof.Machine.execTriEdgeCache b0 b1 s
  | .triEdgeDec b0 => Sys2Proof.Machine.execTriEdgeDec b0 s
  | .triEdgeInc b0 => Sys2Proof.Machine.execTriEdgeInc b0 s
  | .triEdgeVarint b0 => Sys2Proof.Machine.execTriEdgeVarint b0 s
  | .cauxNext => Sys2Proof.Machine.execCauxNext s
  | .cauxCache n => Sys2Proof.Machine.execCauxCache n s
  | .auxRestart => Sys2Proof.Machine.execAuxRestart s
  | .auxNext => Sys2Proof.Machine.execAuxNext s
  | .auxCache n => Sys2Proof.Machine.execAuxCache n s
  | .auxVarint => Sys2Proof.Machine.execAuxVarint s
  | .varintCont payload => Sys2Proof.Machine.execVarintCont payload s
  | .varintEnd payload => Sys2Proof.Machine.execVarintEnd payload s
  | .seqBase0 dz => Sys2Proof.Machine.execSeqBase0 dz s
  | .seqBase1 dz => Sys2Proof.Machine.execSeqBase1 dz s

end Sys2Proof.Machine
end

