-- ==== Sys2Proof/Machine/HostPort.lean ====
section
/-! DEFINITION. What comes from outside: the host's register accesses, accesses of agents to M, reset, and the
commands of other blocks (spec/10_state.md R30 to R41, spec/20_memory.md R64, R83, spec/70_reset_and_hazards.md
R342, R348 to R351). -/

namespace Sys2Proof.Machine

/-- The value a register offset of the window reads as (R30, R40, R41). -/
def Regs.readAt (r : Regs) (off : Nat) : Word :=
  match off with
  | 0x00 => r.ctrl
  | 0x04 => r.status
  | 0x08 => r.srcBase
  | 0x0C => r.srcLen
  | 0x10 => r.dstBase
  | 0x14 => r.dstCap
  | 0x18 => r.count
  | 0x1C => r.stride
  | 0x20 => r.errOffset
  | 0x24 => idValue
  | _ => 0#32

/-- A write to a register offset other than CTRL (R30): read-only and reserved offsets ignore it. -/
def Regs.writeAt (r : Regs) (off : Nat) (v : Word) : Regs :=
  match off with
  | 0x08 => { r with srcBase := v }
  | 0x0C => { r with srcLen := v }
  | 0x10 => { r with dstBase := v }
  | 0x14 => { r with dstCap := v }
  | 0x18 => { r with count := v }
  | 0x1C => { r with stride := v }
  | _ => r

/-- The access is an aligned 32-bit access of the window (D5). -/
def windowAccessOk (off size : Nat) : Bool := decide (size = 4) && decide (off % 4 = 0)

/-- A register write other than to CTRL: ignored while BUSY (R350, D4). -/
def regWrite (off : Nat) (v : Word) (s : State) : State :=
  if s.busy then s else { s with regs := s.regs.writeAt off v }

/-- A register read. Reading STATUS with BUSY = 0 ends the quiet of the launches so far (R64 item 3, R77). -/
def regRead (off : Nat) (s : State) : State :=
  { s with
    hostData := s.regs.readAt off
    quiet := if off = 4 ∧ ¬ s.busy then [] else s.quiet }

/-- A write of `n` bytes from address `a` up touches a region that is to stay quiet (R348, R349). -/
def writeTouches (a n : Nat) (r : Region) : Bool :=
  rangesMeet a n r.srcBase r.srcLen || rangesMeet a n r.dstBase r.dstLen

/-- A read of address `a` touches a region that is to stay quiet (R349). -/
def readTouches (a : Nat) (r : Region) : Bool := inRange a r.dstBase r.dstLen

/-- The regions that every agent but their own block is to leave alone: those of this block's launches and of the
other blocks' whose end the host has not read (R64 item 3). -/
def State.quietRegions (s : State) : List Region := s.quiet ++ s.othersQuiet.map OtherLaunch.region

/-- A write to M by the host or another agent. -/
def agentWrite (a : Nat) (bytes : List Byte) (s : State) : Result :=
  if 2 ^ s.params.addrW < a + bytes.length then .fault .noSuchAddress
  else if s.quietRegions.any (writeTouches a bytes.length) then .refused .quietRegionTouched
  else .next { s with mem := s.mem.writeBytes a bytes }

/-- A read of a byte of M by the host or another agent. A block's own reads need no action: they change nothing. -/
def agentRead (a : Nat) (s : State) : Result :=
  if 2 ^ s.params.addrW ≤ a then .fault .noSuchAddress
  else if s.quietRegions.any (readTouches a) then .refused .quietRegionTouched
  else .next { s with hostData := (s.mem.read a).zeroExtend 32 }

/-- Reset (R340, R342): a running command stops and its target region is drawn; the registers take their reset
values; memory is otherwise kept. The items R340 leaves unspecified take the values of `State.reset` (assumption
log 1); what is not the block's (parameters, events, the other blocks) is kept. -/
def resetBlock (s : State) : State :=
  let s1 := if s.busy then drawTarget s else s
  { State.reset with
    params := s1.params, mem := s1.mem, events := s1.events, hostData := s1.hostData, quiet := s1.quiet
    others := s1.others, othersQuiet := s1.othersQuiet, draws := s1.draws }

/-- The regions of the running command (R45). -/
def Args.region (a : Args) : Region :=
  { srcBase := a.srcBase.toNat, srcLen := a.srcLen.toNat, dstBase := a.dstBase.toNat, dstLen := a.need }

/-! ### Other blocks (R83, R321, R351) -/

/-- The system has this block beside block 0. -/
def State.hasOther (s : State) (block : Nat) : Bool := decide (1 ≤ block) && decide (block < s.params.nBlocks)

/-- The other block runs a command. -/
def State.otherRuns (s : State) (block : Nat) : Bool := s.others.any fun o => decide (o.block = block)

/-- The host precondition that another block's launch breaks, if any (R324): its own regions, the commands running on
the other blocks, this one among them (R83), and the quiet regions of every block but itself (R64 item 3). -/
def otherLaunchProblem (block : Nat) (r : Region) (s : State) : Option Refusal :=
  match regionProblem s.params r with
  | some x => some x
  | none =>
    if (s.busy && r.conflicts s.args.region) || s.others.any fun o => r.conflicts o.region then
      some .concurrentRegions
    else if s.quiet.any r.conflicts || s.othersQuiet.any fun o => decide (o.block ≠ block) && r.conflicts o.region then
      some .quietRegionTouched
    else none

/-- A START of another block (R32, R83): ignored while that block runs a command, refused when the launch breaks a
precondition, else its command begins. -/
def otherStart (block : Nat) (r : Region) (s : State) : Result :=
  if !s.hasOther block then .refused .noSuchBlock
  else if s.otherRuns block then .next s
  else
    match otherLaunchProblem block r s with
    | some x => .refused x
    | none => .next { s with
        others := { block := block, region := r } :: s.others
        othersQuiet := { block := block, region := r } :: s.othersQuiet }

/-- A write of another block, to bytes of its running command's target region (R62, R65). -/
def otherWrite (block off : Nat) (bytes : List Byte) (s : State) : Result :=
  match s.others.find? fun o => decide (o.block = block) with
  | none => .refused .outsideOtherTarget
  | some o =>
    if o.region.dstLen < off + bytes.length then .refused .outsideOtherTarget
    else .next { s with mem := s.mem.writeBytes (o.region.dstBase + off) bytes }

/-- Another block's command ends (R83). Its regions stay quiet. -/
def otherEnd (block : Nat) (s : State) : State :=
  { s with others := s.others.filter fun o => decide (o.block ≠ block) }

/-- The host reads another block's STATUS: with BUSY = 0 this ends the quiet of that block's launches (R64 item 3). -/
def otherRead (block : Nat) (s : State) : State :=
  if s.otherRuns block then s
  else { s with othersQuiet := s.othersQuiet.filter fun o => decide (o.block ≠ block) }

end Sys2Proof.Machine
end

