-- ==== Sys2Proof/Machine/Sequencer.lean ====
section
/-! DEFINITION. The steps the running command takes between two elements: the checks, the initial state, the loop
heads, ApplyGroup, ReadIndexDelta, and the end of a new-path triangle (spec/60_exceptions.md R306,
spec/70_reset_and_hazards.md R345, spec/41_vertex_decoder.md R150 to R169, spec/43_index_decoder.md R223, R232 to
R241, spec/44_index_sequence.md R271 to R273). -/

namespace Sys2Proof.Machine

/-! ### Checks 3 to 6 and the initial state -/

/-- Checks 3, 5 and 6 of DECODE_VERTEX (R151): the error and its offset, if one applies. -/
def vertexCheck (s : State) : Option (ErrorKind × Nat) :=
  if ¬ (s.params.vtxStrideOk s.args.stride.toNat ∧ filterStrideOk s.args.filter s.args.stride.toNat) then
    some (.unsupportedStride, 0)
  else if s.args.dstCap.toNat < s.args.need then some (.destinationTooSmall, 0)
  else if s.args.srcLen.toNat < 1 + s.args.stride.toNat then some (.truncatedSource, s.args.srcLen.toNat)
  else none

/-- Checks 3 to 6 of DECODE_INDEX (R221). -/
def indexCheck (s : State) : Option (ErrorKind × Nat) :=
  if s.args.stride ≠ 2#32 ∧ s.args.stride ≠ 4#32 then some (.unsupportedStride, 0)
  else if s.args.count.toNat % 3 ≠ 0 then some (.invalidIndexCount, 0)
  else if s.args.dstCap.toNat < s.args.need then some (.destinationTooSmall, 0)
  else if s.args.srcLen.toNat < 17 + s.args.triCount then some (.truncatedSource, s.args.srcLen.toNat)
  else none

/-- Checks 3 and 5 of DECODE_SEQUENCE (R271). -/
def sequenceCheck (s : State) : Option (ErrorKind × Nat) :=
  if s.args.stride ≠ 2#32 ∧ s.args.stride ≠ 4#32 then some (.unsupportedStride, 0)
  else if s.args.dstCap.toNat < s.args.need then some (.destinationTooSmall, 0)
  else none

/-- The checks after the tag, in the order of R306, for the running command. -/
def commandCheck (s : State) : Option (ErrorKind × Nat) :=
  match s.args.cmd with
  | .vertex => vertexCheck s
  | .index => indexCheck s
  | .sequence => sequenceCheck s

/-- `acc[k] <- source[L - s + k]` for k = 0 .. s-1 (R155), from lane `k` on. -/
def loadReference (s : State) (acc : Vector Byte 512) (k : Nat) : Nat → Vector Byte 512
  | 0 => acc
  | n + 1 =>
    loadReference s
      (acc.setIfInBounds k (s.sourceByte (s.args.srcLen.toNat - s.args.stride.toNat + k))) (k + 1) n

/-- The initial state of DECODE_VERTEX (R150, R345). -/
def initVertex (s : State) : State :=
  { s with
    acc := loadReference s s.acc 0 s.args.stride.toNat
    cur := 1
    lim := s.args.srcLen.toNat - s.args.stride.toNat
    blockBase := 0
    row := 0
    k := 0
    g := 0
    phase := .block }

/-- InitIndex (R223). -/
def initIndex (s : State) : State :=
  { s with
    ec := Vector.replicate 32 0#32
    vc := Vector.replicate 16 0#32
    next := 0#32
    last := 0#32
    ccur := 1
    cur := 1 + s.args.triCount
    lim := s.args.srcLen.toNat - 16
    t := 0
    phase := .triangle }

/-- The initial state of DECODE_SEQUENCE (R270, R272). -/
def initSequence (s : State) : State :=
  { s with
    seqLast0 := 0#32
    seqLast1 := 0#32
    cur := 1
    lim := s.args.srcLen.toNat
    n := 0
    phase := .output }

/-- The initial state of the running command (R345). -/
def initCommand (s : State) : State :=
  match s.args.cmd with
  | .vertex => initVertex s
  | .index => initIndex s
  | .sequence => initSequence s

/-- Checks 3 to 6 (R306): the first that fails is raised, else decoding begins. -/
def runChecks (s : State) : State :=
  match commandCheck s with
  | some (k, off) => raise k off s
  | none => initCommand s

/-! ### DECODE_VERTEX: the loops and ApplyGroup -/

/-- The loop over blocks (R150): the next block's lane 0, or the filter when every row is decoded (R170). -/
def blockHead (s : State) : State :=
  if s.blockBase < s.args.count.toNat then { s with k := 0, phase := .lane } else { s with phase := .filter }

/-- The loop over byte-lanes (R156): the lane's header bytes are read and its group 0 is next, or the next block is
when every lane is decoded. -/
def laneHead (s : State) : State :=
  if s.k < s.args.stride.toNat then
    match readByteList (headerByteCount s.blockRows) s with
    | .truncated s1 => raiseTruncated s1
    | .ok bs s1 => { s1 with hdr := putSlots s1.hdr 0 bs, g := 0, phase := .group }
  else { s with blockBase := s.blockBase + s.blockRows, phase := .block }

/-- Delta `j` of group `g` (R166, R167): applied and written when its row is in the block. -/
def applyDelta (j : Nat) (s : State) : State :=
  let r := 16 * s.g + j
  if r < s.blockRows then
    let v := slot s.acc s.k + zigzag8 (slot s.dbuf j)
    tgtWrite ((s.blockBase + r) * s.args.stride.toNat + s.k) 1 (v.zeroExtend 32)
      { s with acc := s.acc.setIfInBounds s.k v, row := max s.row (s.blockBase + r) }
  else s

/-- ApplyGroup (R166): the sixteen deltas in order; the next group follows. -/
def applyGroup (s : State) : State := { forEach 16 applyDelta s with g := s.g + 1, phase := .group }

/-! ### DECODE_INDEX: the vertex a, ReadIndexDelta, and the end of a new-path triangle -/

/-- The vertex a of a code 0xFE or 0xFF (R235, R236). -/
def takeA (s : State) : State := if s.aFromVarint then startVarint .newA s else takeFreshA .aux s

/-- `ReadIndexDelta()` once its varint is read (R140), and the use of the index it returns (R230, R236, R240). -/
def indexDelta (s : State) : State :=
  let v := s.last + zigzag32 s.vres
  let s1 := { s with last := v }
  match s.vuse with
  | .edgeC => edgeWithPush s.triA s.triB v s1
  | .newA => { s1 with triA := v, corner := .b, phase := .aux }
  | .newCorner => setCorner v true { s1 with phase := .aux }
  | .sequence => { s with phase := .seqValue }

/-- The pushes and NewComplete of a new-path triangle (R232, R235, R244). -/
def newDone (s : State) : State :=
  let s1 := pushVertex s.triA s
  let s2 := if s.pushB then pushVertex s.triB s1 else s1
  let s3 := if s.pushC then pushVertex s.triC s2 else s2
  newComplete s.triA s.triB s.triC s3

/-! ### DECODE_SEQUENCE: the loop over outputs -/

/-- The loop over outputs (R270, R273): the next output's varint, or the end of the command. -/
def outputHead (s : State) : State :=
  if s.n < s.args.count.toNat then startVarint .sequence s else { s with phase := .done }

end Sys2Proof.Machine
end

