-- ==== Sys2Proof/Machine/Fetch.lean ====
section
/-! DEFINITION. What the machine does next: which element is decoded, read from the stream, from a register, or from
the host's CTRL write, or which step between two elements is taken (spec/30_encoding.md R90, R116, R117,
spec/10_state.md R42, R43). -/

namespace Sys2Proof.Machine

/-- The next thing to do: an element to be decoded and run in the given state, or a step that is no element. -/
inductive Fetched where
  | element (e : Element) (s : State)
  | move (r : Result)
  deriving Repr

/-- An element read from the stream by `ReadByte()` (R136), or the TruncatedSource of R135. -/
def fetchByte (element : Byte → Element) (s : State) : Fetched :=
  match readByte s with
  | .truncated s1 => .move (.next (raiseTruncated s1))
  | .ok b s1 => .element (element b) s1

/-- The element or step the running command comes to in its phase. -/
def fetchBlock (s : State) : Fetched :=
  match s.phase with
  | .idle => .move (.next s)
  | .tag =>
    if s.args.srcLen = 0#32 then .move (.next (raise .truncatedSource 0 s)) else .element (.tag (s.sourceByte 0)) s
  | .checks => .move (.next (runChecks s))
  | .block => .move (.next (blockHead s))
  | .lane => .move (.next (laneHead s))
  | .group =>
    if s.g < groupCount s.blockRows then .element (.mode (modeBits s.hdr s.g)) s
    else .move (.next { s with k := s.k + 1, phase := .lane })
  | .code2 =>
    if s.j < 16 then .element (.code2 (code2At s.packed s.j)) s else .move (.next { s with phase := .apply })
  | .code4 =>
    if s.j < 16 then .element (.code4 (code4At s.packed s.j)) s else .move (.next { s with phase := .apply })
  | .literal => if s.j < 16 then fetchByte .literal s else .move (.next { s with phase := .apply })
  | .apply => .move (.next (applyGroup s))
  | .filter => .element (.cmdFilter (s.args.filter ++ 1#2)) s
  | .triangle =>
    if s.t < s.args.triCount then .element (.triangle (s.sourceByte s.ccur)) { s with ccur := s.ccur + 1 }
    else .move (.next { s with phase := .done })
  | .auxByte => .element (.auxByte s.entry) s
  | .takeA => .move (.next (takeA s))
  | .caux => .element (.caux (if s.corner = .b then highNibble s.entry else lowNibble s.entry)) s
  | .aux => .element (.aux (if s.corner = .b then highNibble s.entry else lowNibble s.entry)) s
  | .newDone => .move (.next (newDone s))
  | .output => .move (.next (outputHead s))
  | .varintByte => fetchByte .varintByte s
  | .indexDelta => .move (.next (indexDelta s))
  | .seqValue => .element (.seqValue s.vres) s
  | .done => .move (.next (complete s))

/-- The element or step an access from outside brings. A host access outside the 64-byte window does not reach the
block (R41); a CTRL write is a CMD word (R91). -/
def fetchHost (a : HostAction) (s : State) : Fetched :=
  match a with
  | .regWrite off size v =>
    if 64 ≤ off then .move (.next s)
    else if !windowAccessOk off size then .move (.refused .badRegisterAccess)
    else if off = 0 then .element (.cmd v) s
    else .move (.next (regWrite off v s))
  | .regRead off size =>
    if 64 ≤ off then .move (.next s)
    else if !windowAccessOk off size then .move (.refused .badRegisterAccess)
    else .move (.next (regRead off s))
  | .memWrite addr bytes => .move (agentWrite addr bytes s)
  | .memRead addr => .move (agentRead addr s)
  | .reset => .move (.next (resetBlock s))
  | .otherStart block r => .move (otherStart block r s)
  | .otherWrite block off bytes => .move (otherWrite block off bytes s)
  | .otherEnd block => .move (.next (otherEnd block s))
  | .otherRead block => .move (.next (otherRead block s))

/-- What happens next: the access from outside that is due, or else the block's own step. -/
def fetch (s : State) : Fetched :=
  match s.events with
  | [] => fetchBlock s
  | ev :: evs =>
    match ev.delay with
    | 0 => fetchHost ev.action { s with events := evs }
    | d + 1 => fetchBlock { s with events := { ev with delay := d } :: evs }

/-- What the block does with an element that has no row (R117): a CTRL write with START = 0 sets OP and FILTER
while the block is idle (R32), and an aux byte other than 0x00 goes on to the vertex a and its nibbles (R235). -/
def passOver (e : Element) (s : State) : State :=
  match e with
  | .cmd v => if s.busy then s else setCtrl (v.extractLsb' 2 2) (v.extractLsb' 0 2) s
  | .auxByte _ => { s with phase := .takeA }
  | _ => s

/-! ### Placing an instruction where the next step fetches it -/

/-- A state in which a command runs, at the given phase and with no access from outside pending. -/
def State.runningAt (s : State) (p : Phase) : State :=
  { s with regs := { s.regs with status := statusRunning }, phase := p, events := [] }

/-- A byte at the data cursor, with the cursor below the data limit. -/
def State.withDataByte (s : State) (b : Byte) : State :=
  { s with mem := s.mem.write (s.srcAddr s.cur) b, lim := s.cur + 1 }

/-- The state in which the given element is the one the next step decodes (assumption log 13). -/
def State.withElement (s : State) : Element → State
  | .cmd v => { s with events := { delay := 0, action := .regWrite 0 4 v } :: s.events }
  | .cmdFilter v => { s.runningAt .filter with args := { s.args with filter := v.extractLsb' 2 2 } }
  | .tag b =>
    { s.runningAt .tag with
      args := { s.args with
        cmd := if b = 0xE1#8 then .index else if b = 0xD1#8 then .sequence else .vertex
        srcLen := 1#32 }
      mem := s.mem.write (s.srcAddr 0) b }
  | .mode m =>
    { s.runningAt .group with
      args := { s.args with count := 16#32, stride := 1#32 }
      blockBase := 0
      g := 0
      hdr := s.hdr.setIfInBounds 0 (0#6 ++ m) }
  | .code2 c => { s.runningAt .code2 with j := 0, packed := s.packed.setIfInBounds 0 (c ++ 0#6) }
  | .code4 c => { s.runningAt .code4 with j := 0, packed := s.packed.setIfInBounds 0 (c ++ 0#4) }
  | .literal b => { (s.runningAt .literal).withDataByte b with j := 0 }
  | .triangle b =>
    { s.runningAt .triangle with
      args := { s.args with count := 3#32, stride := 4#32 }
      t := 0
      mem := s.mem.write (s.srcAddr s.ccur) b }
  | .caux n => { s.runningAt .caux with corner := .b, entry := n ++ 0#4 }
  | .auxByte b => { s.runningAt .auxByte with entry := b }
  | .aux n => { s.runningAt .aux with corner := .b, entry := n ++ 0#4 }
  | .varintByte b => { (s.runningAt .varintByte).withDataByte b with vpos := 0, vres := 0#32 }
  | .seqValue v => { s.runningAt .seqValue with vres := v }

end Sys2Proof.Machine
end

