-- ==== Sys2Proof/Machine/Step.lean ====
section
/-! DEFINITION. One step of the machine: the element that comes next is decoded and run, or the step that comes next
is taken. -/

namespace Sys2Proof.Machine

/-- One step: an access from outside that is due, or one element or one step between elements of the running
command. An idle block with nothing due does nothing (R322). -/
def step (s : State) : Host.Outcome State Fault Refusal :=
  match fetch s with
  | .move r => r
  | .element e s1 =>
    match decode e with
    | .ok i => exec i s1
    | .error _ => .next (passOver e s1)

/-- The state with a bare number of the opcode table placed so that the very next step decodes and runs it
(assumption logs 12 and 13). -/
def State.withFetchWord (s : State) (nbits w : Nat) : State := s.withElement (tableElement nbits w)

end Sys2Proof.Machine
end

