-- ==== Sys2Proof/Safety.lean ====
section
/-! DEFINITION. The terms in which statements about the machine are made: which parts of two states agree, what a
register, a target region or a running command may look like, and the invariant of the machine. -/

namespace Sys2Proof.Machine

/-! ### Memory -/

/-- Every byte of M reads as before. -/
def MemUnchanged (s t : State) : Prop := ∀ a, t.mem.read a = s.mem.read a

/-- Every byte of M outside the `len` bytes from `base` up reads as before. -/
def MemUnchangedOutside (base len : Nat) (s t : State) : Prop :=
  ∀ a, a < base ∨ base + len ≤ a → t.mem.read a = s.mem.read a

/-- The `n` bytes from address `a` up hold v, least significant byte first (R68). -/
def HoldsLE (m : Memory) (a n : Nat) (v : Word) : Prop := ∀ i, i < n → m.read (a + i) = v.extractLsb' (8 * i) 8

/-- The bytes from address `a` up are the given ones. -/
def HoldsBytes (m : Memory) (a : Nat) (bs : List Byte) : Prop := ∀ i, i < bs.length → m.read (a + i) = bs.getD i 0#8

/-- The number that the `n` bytes from address `a` up hold, least significant byte first (R11, R69). -/
def leValue (m : Memory) (a : Nat) : Nat → Nat
  | 0 => 0
  | n + 1 => (m.read a).toNat + 256 * leValue m (a + 1) n

/-- Lane `i` of row `r` of the target (R192): the signed value of STRIDE / 4 bytes, 8 bits at stride 4 and 16 bits at
stride 8, at target offset r * STRIDE + i * STRIDE / 4. -/
def State.rowLane (s : State) (r i : Nat) : Int :=
  (BitVec.ofNat (8 * (s.args.stride.toNat / 4)) (leValue s.mem
    (s.args.dstBase.toNat + (r * s.args.stride.toNat + i * (s.args.stride.toNat / 4)))
    (s.args.stride.toNat / 4))).toInt

/-- In `t` the target holds the three indices of triangle `s.t`, each STRIDE bytes wide, at index numbers 3t, 3t + 1
and 3t + 2 (R142, R242). -/
def HoldsTriangle (s t : State) (a b c : Word) : Prop :=
  HoldsLE t.mem (s.dstAddr (3 * s.t * s.args.stride.toNat)) s.args.stride.toNat a ∧
    HoldsLE t.mem (s.dstAddr ((3 * s.t + 1) * s.args.stride.toNat)) s.args.stride.toNat b ∧
    HoldsLE t.mem (s.dstAddr ((3 * s.t + 2) * s.args.stride.toNat)) s.args.stride.toNat c

/-- An address of the launch's source region (R61). -/
def Region.hasSource (r : Region) (a : Nat) : Prop := r.srcBase ≤ a ∧ a < r.srcBase + r.srcLen

/-- An address of the launch's target region (R62). -/
def Region.hasTarget (r : Region) (a : Nat) : Prop := r.dstBase ≤ a ∧ a < r.dstBase + r.dstLen

/-- Two regions conflict: a target address of one is a target or source address of the other. So R83 forbids two
commands at the same time, and R64 item 3 a command in the quiet regions of another block's launch. -/
def Region.Conflicts (x y : Region) : Prop :=
  ∃ a, (x.hasTarget a ∧ y.hasTarget a) ∨ (x.hasTarget a ∧ y.hasSource a) ∨ (x.hasSource a ∧ y.hasTarget a)

/-- The host preconditions on a launch's own regions (R35, R36, R64 items 1 and 2): no base address bit at or above
ADDR_W, no region past 2^ADDR_W, and no address shared by source and target. -/
structure RegionAllowed (p : Config.Params) (r : Region) : Prop where
  srcBase : r.srcBase < 2 ^ p.addrW
  dstBase : r.dstBase < 2 ^ p.addrW
  source : r.srcBase + r.srcLen ≤ 2 ^ p.addrW
  target : r.dstBase + r.dstLen ≤ 2 ^ p.addrW
  disjoint : ∀ a, ¬ (r.hasSource a ∧ r.hasTarget a)

/-- The host preconditions of a launch of this block: those on its own regions, no conflict with another block's
running command (R83), and none with the quiet regions of another block's launch (R64 item 3; assumption log 8). -/
structure LaunchAllowed (s : State) : Prop where
  region : RegionAllowed s.params s.regs.region
  others : ∀ o ∈ s.others, ¬ s.regs.region.Conflicts o.region
  othersQuiet : ∀ o ∈ s.othersQuiet, ¬ s.regs.region.Conflicts o.region

/-- The host preconditions of a launch of another block on the regions r (assumption logs 8 and 10): those on its own
regions, no conflict with this block's running command or another's (R83), and none with the quiet regions of this
block or of a block that is neither (R64 item 3). -/
structure OtherLaunchAllowed (s : State) (block : Nat) (r : Region) : Prop where
  region : RegionAllowed s.params r
  running : s.busy = true → ¬ r.Conflicts s.args.region
  others : ∀ o ∈ s.others, ¬ r.Conflicts o.region
  quiet : ∀ x ∈ s.quiet, ¬ r.Conflicts x
  othersQuiet : ∀ o ∈ s.othersQuiet, o.block ≠ block → ¬ r.Conflicts o.region

/-- The regions that are to stay quiet: those of this block's launches and of the other blocks' whose end the host has
not yet read (R64 item 3; assumption logs 8 and 10). -/
def IsQuiet (s : State) (r : Region) : Prop := r ∈ s.quiet ∨ ∃ o ∈ s.othersQuiet, o.region = r

/-! ### Register files -/

/-- The EdgeCache after a triangle: the new slots from 0 up, and every old slot moved up by their number, the last
ones lost (R132, R231, R241). -/
def EdgesPushed (old new : Vector Word 32) (edges : List Word) : Prop :=
  ∀ i, i < 32 → slot new i = if i < edges.length then edges.getD i 0#32 else slot old (i - edges.length)

/-- The VertexCache after a push: the new vertex in slot 0, every old slot moved up by one, the last lost (R133). -/
def VertexPushed (old new : Vector Word 16) (v : Word) : Prop :=
  ∀ i, i < 16 → slot new i = if i = 0 then v else slot old (i - 1)

/-! ### Registers -/

/-- The legal STATUS words (R33): idle never run, running, success, and failure with a code 1 to 5. -/
def StatusLegal (v : Word) : Prop :=
  v = 0x00#32 ∨ v = 0x01#32 ∨ v = 0x02#32 ∨ v = 0x14#32 ∨ v = 0x24#32 ∨ v = 0x34#32 ∨ v = 0x44#32 ∨ v = 0x54#32

/-- The OP value of a command (R92). -/
def Command.op : Command → BitVec 2
  | .vertex => 1#2
  | .index => 2#2
  | .sequence => 3#2

/-- The START operation of a command. -/
def Command.start (filter : BitVec 2) : Command → Instr
  | .vertex => .decodeVertex filter
  | .index => .decodeIndex filter
  | .sequence => .decodeSequence filter

/-- The tag of a command's stream (R94). -/
def Command.tag : Command → Byte
  | .vertex => 0xA0#8
  | .index => 0xE1#8
  | .sequence => 0xD1#8

/-- The command failed (R308): STATUS holds ERR and the kind's code and nothing else, ERR_OFFSET the given offset,
and the block is idle; every other register keeps its value. -/
def FailedWith (k : ErrorKind) (off : Nat) (s t : State) : Prop :=
  t.busy = false ∧ t.doneBit = false ∧ t.errBit = true ∧ t.errCode = k.code ∧
    t.regs = { s.regs with status := t.regs.status, errOffset := BitVec.ofNat 32 off } ∧ t.phase = .idle

/-- From `s` to `t` the target region of the command is drawn (R310, R342): each of its bytes takes the free value of
this draw, and every byte of M outside it keeps its value (assumption log 7). -/
def TargetDrawn (s t : State) : Prop :=
  (∀ i, i < s.args.count.toNat * s.args.stride.toNat →
    t.mem.read (s.args.dstBase.toNat + i) = Config.drawByte s.draws i) ∧
  MemUnchangedOutside s.args.dstBase.toNat (s.args.count.toNat * s.args.stride.toNat) s t

/-- The command ended in a TruncatedSource found while decoding (R304 case 3, R309, R310): the error reports the offset
of the byte that could not be read, the bytes before it are consumed, the target bytes are drawn, and no other byte of
M and no other part of the state changes. -/
def TruncatedAt (off : Nat) (s t : State) : Prop :=
  FailedWith .truncatedSource off s t ∧ TargetDrawn s t ∧
    t = { s with regs := t.regs, mem := t.mem, cur := off, draws := s.draws + 1, phase := .idle }

/-! ### What the decoders compute, as the rules state it -/

/-- The sum of the first `n` deltas of a group, modulo 2^8 (R166). -/
def deltaSum (dbuf : Vector Byte 16) : Nat → Byte
  | 0 => 0#8
  | n + 1 => deltaSum dbuf n + zigzag8 (slot dbuf n)

/-- The number of sentinels among the first `n` codes (R98, R101). -/
def escapesBefore (isEscape : Nat → Bool) : Nat → Nat
  | 0 => 0
  | n + 1 => escapesBefore isEscape n + (if isEscape n then 1 else 0)

/-- STRIDE is in the command's set (R302): for DECODE_VERTEX in `VTX_STRIDE_OK`, which is 1 to 512 but for the strides
an implementation rejects (assumption log 3), and in the filter's set (R191). -/
def strideSupported (s : State) : Bool :=
  match s.args.cmd with
  | .vertex =>
    decide (1 ≤ s.args.stride.toNat ∧ s.args.stride.toNat ≤ 512 ∧ s.args.stride.toNat ∉ s.params.vtxRejected ∧
      (s.args.filter = 1#2 → s.args.stride.toNat = 4 ∨ s.args.stride.toNat = 8) ∧
      (s.args.filter = 2#2 → s.args.stride.toNat = 8) ∧ (s.args.filter = 3#2 → s.args.stride.toNat % 4 = 0))
  | .index => decide (s.args.stride.toNat = 2) || decide (s.args.stride.toNat = 4)
  | .sequence => decide (s.args.stride.toNat = 2) || decide (s.args.stride.toNat = 4)

/-- The length of a command's fixed parts (R304 case 2). -/
def fixedLayoutLength (s : State) : Nat :=
  match s.args.cmd with
  | .vertex => 1 + s.args.stride.toNat
  | .index => 17 + s.args.count.toNat / 3
  | .sequence => 1

/-- The first failing check of R306, checks 1 to 6, with the offset it reports (R304, R307). -/
def firstError (s : State) : Option (ErrorKind × Nat) :=
  if s.args.srcLen = 0#32 then some (.truncatedSource, 0)
  else if s.sourceByte 0 ≠ s.args.cmd.tag then some (.badHeaderTag, 0)
  else if strideSupported s = false then some (.unsupportedStride, 0)
  else if s.args.cmd = .index ∧ s.args.count.toNat % 3 ≠ 0 then some (.invalidIndexCount, 0)
  else if s.args.dstCap.toNat < s.args.count.toNat * s.args.stride.toNat then some (.destinationTooSmall, 0)
  else if s.args.srcLen.toNat < fixedLayoutLength s then some (.truncatedSource, s.args.srcLen.toNat)
  else none

/-- The header bytes of a whole vertex stream: STRIDE lanes of them in each of its blocks (R152 to R154, R173). -/
def vertexHeaderLength (s : State) : Nat :=
  let rows := attrBlockMaxElementCount s.args.stride.toNat
  ((List.range ((s.args.count.toNat + rows - 1) / rows)).map fun m =>
    s.args.stride.toNat * headerByteCount (min rows (s.args.count.toNat - m * rows))).sum

/-- The value of a varint's bytes (R109). -/
def varintNat : List Byte → Nat
  | [] => 0
  | b :: bs => (b.extractLsb' 0 7).toNat + 128 * varintNat bs

/-- A list of bytes is one whole varint (R108): one to five bytes, CONT set in all but the last, and clear in the
last or the last is the fifth. -/
def IsVarint (bs : List Byte) : Prop :=
  1 ≤ bs.length ∧ bs.length ≤ 5 ∧ (∀ i, i + 1 < bs.length → (bs.getD i 0#8).getLsbD 7 = true) ∧
    ((bs.getD (bs.length - 1) 0#8).getLsbD 7 = false ∨ bs.length = 5)

/-- The outputs of the sequence decoder for its varint values, from the two bases (R273). -/
def sequenceOutputs (base0 base1 : Word) : List Word → List Word
  | [] => []
  | v :: vs =>
    if v.getLsbD 0 then
      (base1 + zigzag32 (v >>> 1)) :: sequenceOutputs base0 (base1 + zigzag32 (v >>> 1)) vs
    else (base0 + zigzag32 (v >>> 1)) :: sequenceOutputs (base0 + zigzag32 (v >>> 1)) base1 vs

/-- The rational value of a normal binary32 word (R203). -/
def floatValue (w : Word) : ℚ :=
  (if w.getLsbD 31 then -1 else 1) * (2 ^ 23 + (w.extractLsb' 0 23).toNat) *
    (2 : ℚ) ^ (((w.extractLsb' 23 8).toNat : Int) - 150)

/-- n is x rounded to the nearest integer, ties away from zero (`round_away`, R14). -/
def RoundsAway (x : ℝ) (n : ℤ) : Prop := (0 ≤ x → n = ⌊x + 1 / 2⌋) ∧ (x < 0 → n = -⌊-x + 1 / 2⌋)

/-! ### The invariant -/

/-- The window registers keep their rules (R31, R33, R34, R39): STATUS is one of its legal words, BUSY is set exactly
while a command runs, CTRL's bits 31:4 are 0, and ERR_OFFSET is 0 unless the last command ended in TruncatedSource. -/
structure RegistersLegal (s : State) : Prop where
  status : StatusLegal s.regs.status
  busy : s.busy = true ↔ s.phase ≠ .idle
  ctrl : s.regs.ctrl.extractLsb' 4 28 = 0#28
  errOffset : s.regs.errOffset ≠ 0#32 → s.regs.status = statusFailure .truncatedSource

/-- While a command runs, its latched arguments equal the registers (R45), and its launch kept the preconditions of
R64: no region wraps and the regions share no address. -/
structure LaunchKept (s : State) : Prop where
  latched : s.args = s.regs.latch s.args.cmd s.args.filter
  ctrl : s.regs.ctrl = ctrlWord s.args.filter s.args.cmd.op
  source : s.args.srcBase.toNat + s.args.srcLen.toNat ≤ 2 ^ s.params.addrW
  target : s.args.dstBase.toNat + s.args.need ≤ 2 ^ s.params.addrW
  disjoint : ∀ a, s.args.srcBase.toNat ≤ a → a < s.args.srcBase.toNat + s.args.srcLen.toNat →
    ¬ (s.args.dstBase.toNat ≤ a ∧ a < s.args.dstBase.toNat + s.args.need)

/-- The cursors and checks of a running DECODE_VERTEX that has passed its checks (R42, R151). -/
def VertexDecoding (s : State) : Prop :=
  s.args.cmd = .vertex ∧ vertexCheck s = none ∧ s.lim = s.args.srcLen.toNat - s.args.stride.toNat ∧ 1 ≤ s.cur ∧
    s.cur ≤ s.lim ∧ s.blockBase ≤ s.args.count.toNat

/-- The cursors and checks of a running DECODE_INDEX that has passed its checks (R42, R221); `inside` says that a
triangle is being decoded. -/
def IndexDecoding (s : State) (inside : Bool) : Prop :=
  s.args.cmd = .index ∧ indexCheck s = none ∧ s.lim = s.args.srcLen.toNat - 16 ∧ 1 + s.args.triCount ≤ s.cur ∧
    s.cur ≤ s.lim ∧
    (if inside then s.t < s.args.triCount ∧ s.ccur = 2 + s.t else s.t ≤ s.args.triCount ∧ s.ccur = 1 + s.t)

/-- The cursors and checks of a running DECODE_SEQUENCE that has passed its checks (R42, R271); `inside` says that
an output is being decoded. -/
def SequenceDecoding (s : State) (inside : Bool) : Prop :=
  s.args.cmd = .sequence ∧ sequenceCheck s = none ∧ s.lim = s.args.srcLen.toNat ∧ 1 ≤ s.cur ∧ s.cur ≤ s.lim ∧
    (if inside then s.n < s.args.count.toNat else s.n ≤ s.args.count.toNat)

/-- What holds at each place of a running command (R42 to R44): its checks have passed, its cursors and counters are
within their bounds. -/
def PhaseKept (s : State) : Prop :=
  match s.phase with
  | .idle | .tag | .done => True
  | .checks => 1 ≤ s.args.srcLen.toNat
  | .block => VertexDecoding s
  | .lane => VertexDecoding s ∧ s.blockBase < s.args.count.toNat
  | .group | .code2 | .code4 | .literal | .apply =>
    VertexDecoding s ∧ s.blockBase < s.args.count.toNat ∧ s.k < s.args.stride.toNat
  | .filter => VertexDecoding s
  | .triangle => IndexDecoding s false
  | .auxByte | .takeA | .caux | .aux | .newDone => IndexDecoding s true
  | .output => SequenceDecoding s false
  | .varintByte => if s.vuse = .sequence then SequenceDecoding s true else IndexDecoding s true
  | .indexDelta => IndexDecoding s true ∧ s.vuse ≠ .sequence
  | .seqValue => SequenceDecoding s true

/-- The invariant of the machine: memory is canonical, the registers are legal, and a running command keeps its
launch and its place. -/
structure State.Inv (s : State) : Prop where
  mem : s.mem.wf = true
  registers : RegistersLegal s
  launch : s.phase ≠ .idle → LaunchKept s
  phase : PhaseKept s

/-- `k` steps of the machine, ending early at a fault or a refusal. -/
def runFor (k : Nat) (s : State) : Result := Host.Core.run Sys2Proof.core k s

/-- No access from outside is due at the next step: the step is the block's own. -/
def BlockTurn (s : State) : Prop := ∀ ev evs, s.events = ev :: evs → 0 < ev.delay

end Sys2Proof.Machine
end

