-- ==== Sys2Proof/Certificates/Slice0/Obligations.lean ====
section
/-! DEFINITION. The statements about the model, for the provers. Each docstring names the rule of spec/ it states or the
sections it rests on. A frame is written as an equation of whole states: the next state is the old one but for the
fields named. How a command is cut into steps, and so every number of steps, is the model's choice (assumption log 2).
So is what a datapath register, a cursor or a latched argument holds between two commands, where the spec gives it no
value and a frame says that the model keeps it (assumption log 1). -/

open Sys2Proof Sys2Proof.Machine

/-! ### Encodings -/

/-- R90 to R110: decoding the encoding of every well-formed operation gives the operation back. -/
def Obligations.EncodedOperationsDecodeBack : Prop := ∀ i : Instr, i.wf = true → decode (encode i) = .ok i

/-- R112, R117: every value of every format has exactly one operation, but a CTRL write without START and an aux byte
other than 0x00 have none; the operation is well formed, and its encoding is the element again, but for the bits the
decoder ignores: that the encoder writes zeros in the CMD bits 30:4 and OP = 1 in a CMD_FILTER nibble is the model's
choice (assumption log 24). -/
def Obligations.ElementsHaveOneOperation : Prop :=
  (∀ (e : Element) (i : Instr), decode e = .ok i → i.wf = true ∧
    match e with
    | .cmd v => encode i = .cmd (v &&& 0x8000000F#32)
    | .cmdFilter v => encode i = .cmdFilter (v.extractLsb' 2 2 ++ 1#2)
    | e => encode i = e) ∧
  ∀ e : Element, match e with
    | .cmd v => (∃ i, decode e = .ok i) ↔ v.getLsbD 31 = true
    | .auxByte b => (∃ i, decode e = .ok i) ↔ b = 0#8
    | e => ∃ i, decode e = .ok i

/-- R91 to R94, R98, R102, R105 to R108, R110: a word of each of the thirteen formats, written out from the spec's
encoding, decodes to its operation. -/
def Obligations.SampleWordsDecode : Prop :=
  decode (.cmd 0x8000000D#32) = .ok (.decodeVertex 3#2) ∧ decode (.cmd 0x80000002#32) = .ok (.decodeIndex 0#2) ∧
  decode (.cmdFilter 0x9#4) = .ok .filterQuaternion ∧ decode (.tag 0xE1#8) = .ok .tagIndex ∧
  decode (.mode 2#2) = .ok .vgMode2FourBit ∧ decode (.code2 2#2) = .ok (.vc2Value 2#2) ∧
  decode (.code4 0xF#4) = .ok .vc4Escape ∧ decode (.literal 0xFE#8) = .ok (.vlit8 0xFE#8) ∧
  decode (.triangle 0xFD#8) = .ok (.triNewTable 13#4) ∧ decode (.triangle 0x3C#8) = .ok (.triEdgeCache 3#4 12#4) ∧
  decode (.caux 0xF#4) = .ok (.cauxCache 15#4) ∧ decode (.auxByte 0x00#8) = .ok .auxRestart ∧
  decode (.aux 0xF#4) = .ok .auxVarint ∧ decode (.varintByte 0xAC#8) = .ok (.varintCont 0x2C#7) ∧
  decode (.seqValue 0x321#32) = .ok (.seqBase1 400#31)

/-! ### Primitives -/

/-- R130, R131: the value of zigzag by the parity of its argument, its range, its 32-bit pattern, and that nothing is
lost in 8 bits for an 8-bit argument. -/
def Obligations.ZigzagValueAndPattern : Prop :=
  (∀ v : Word,
    zigzag v = (if v.toNat % 2 = 0 then ((v.toNat / 2 : Nat) : Int) else -(((v.toNat / 2 : Nat) : Int) + 1)) ∧
    -(2 ^ 31 : Int) ≤ zigzag v ∧ zigzag v ≤ (2 ^ 31 : Int) - 1 ∧
    zigzag32 v = (v >>> 1) ^^^ (0#32 - (v &&& 1#32))) ∧
  ∀ u : Byte, (zigzag8 u).toInt = zigzag (u.zeroExtend 32)

/-- R132, R133: what each slot of a rolling FIFO of any width and size holds after a shift and after a push. -/
def Obligations.FifoShiftAndPush : Prop :=
  ∀ (w N : Nat) (F : Vector (BitVec w) N) (v : BitVec w) (n i : Nat), 1 ≤ n → n ≤ N → i < N →
    slot (shiftSlots F n) i = (if i < n then slot F i else slot F (i - n)) ∧
    slot (pushSlot F v) i = (if i = 0 then v else slot F (i - 1))

/-- R97, R99, R100: the packed bytes are their codes put together, the first code in the highest bits (an order the spec
marks as from general knowledge, assumption log 19); a header byte is its four modes put together, the first group in
the lowest bits. -/
def Obligations.PackedFieldsMakeTheirByte : Prop :=
  (∀ (p : Vector Byte 8) (i : Nat), i < 4 →
    slot p i = code2At p (4 * i) ++ code2At p (4 * i + 1) ++ code2At p (4 * i + 2) ++ code2At p (4 * i + 3)) ∧
  (∀ (p : Vector Byte 8) (i : Nat), i < 8 → slot p i = code4At p (2 * i) ++ code4At p (2 * i + 1)) ∧
  (∀ (h : Vector Byte 4) (i : Nat), i < 4 →
    slot h i = modeBits h (4 * i + 3) ++ modeBits h (4 * i + 2) ++ modeBits h (4 * i + 1) ++ modeBits h (4 * i))

/-- R152, R153, R154: for every stride of the default set the block size is the largest multiple of 16 that is at most
256 and whose rows fit in 8192 bytes, and is at least 16; the current block has that many rows, or fewer where it
reaches the last row. For every block of that many rows or fewer the groups are the least number that holds the rows, 1
to 16, and the header bytes the least number that holds the groups, 1 to 4. -/
def Obligations.BlockGeometry : Prop :=
  (∀ s, 1 ≤ s → s ≤ 512 →
    attrBlockMaxElementCount s % 16 = 0 ∧ 16 ≤ attrBlockMaxElementCount s ∧ attrBlockMaxElementCount s ≤ 256 ∧
    attrBlockMaxElementCount s * s ≤ 8192 ∧
    (∀ n, n % 16 = 0 → n ≤ 256 → n * s ≤ 8192 → n ≤ attrBlockMaxElementCount s) ∧
    ∀ rows, 1 ≤ rows → rows ≤ attrBlockMaxElementCount s →
      1 ≤ groupCount rows ∧ groupCount rows ≤ 16 ∧ 16 * (groupCount rows - 1) < rows ∧ rows ≤ 16 * groupCount rows ∧
      1 ≤ headerByteCount rows ∧ headerByteCount rows ≤ 4 ∧ 4 * (headerByteCount rows - 1) < groupCount rows ∧
      groupCount rows ≤ 4 * headerByteCount rows) ∧
  ∀ s : State, s.blockBase ≤ s.args.count.toNat →
    s.blockBase + s.blockRows ≤ s.args.count.toNat ∧
    s.blockRows ≤ attrBlockMaxElementCount s.args.stride.toNat ∧
    (s.blockBase + s.blockRows < s.args.count.toNat →
      s.blockRows = attrBlockMaxElementCount s.args.stride.toNat)

/-- R141, R142: index number j of the target takes the low STRIDE bytes of v, least significant first; no other byte
and no other part of the state changes. -/
def Obligations.TargetIndexIsLittleEndian : Prop :=
  ∀ (s : State) (j : Nat) (v : Word), s.mem.wf = true →
    HoldsLE (tgtWriteIndex j v s).mem (s.dstAddr (j * s.args.stride.toNat)) s.args.stride.toNat v ∧
    MemUnchangedOutside (s.dstAddr (j * s.args.stride.toNat)) s.args.stride.toNat s (tgtWriteIndex j v s) ∧
    tgtWriteIndex j v s = { s with mem := (tgtWriteIndex j v s).mem }

/-! ### Source reads and varints -/

/-- R137, R139: a varint byte joins its seven payload bits at position i; at positions 0 to 3 a byte with CONT goes on
to position i + 1, at position 4 it ends the varint (a bound the spec marks as from general knowledge, assumption log
19), and a byte without CONT ends it. -/
def Obligations.VarintBytesJoin : Prop :=
  ∀ (s : State) (payload : BitVec 7),
    (s.vpos < 4 → ∃ t, exec (.varintCont payload) s = .next t ∧
      t.vres = (s.vres ||| (payload.zeroExtend 32 <<< (7 * s.vpos))) ∧ t.vpos = s.vpos + 1 ∧
      t = { s with vres := t.vres, vpos := t.vpos }) ∧
    (4 ≤ s.vpos → ∃ t, exec (.varintCont payload) s = .next t ∧
      t.vres = (s.vres ||| (payload.zeroExtend 32 <<< (7 * s.vpos))) ∧
      t.phase = (if s.vuse = .sequence then .seqValue else .indexDelta) ∧
      t = { s with vres := t.vres, phase := t.phase }) ∧
    (∃ t, exec (.varintEnd payload) s = .next t ∧
      t.vres = (s.vres ||| (payload.zeroExtend 32 <<< (7 * s.vpos))) ∧
      t.phase = (if s.vuse = .sequence then .seqValue else .indexDelta) ∧
      t = { s with vres := t.vres, phase := t.phase })

/-- R108, R109, R138: where the next data bytes are one varint, of at most five bytes (a bound the spec marks as from
general knowledge, assumption log 19), as many steps as it has bytes (a number that is the model's choice, assumption
log 2) read its value modulo 2^32 and leave the cursor after it; nothing else changes. -/
def Obligations.VarintReadsItsValue : Prop :=
  ∀ (s : State) (bs : List Byte), IsVarint bs → s.events = [] → s.phase = .varintByte → s.vpos = 0 →
    s.vres = 0#32 → HoldsBytes s.mem (s.srcAddr s.cur) bs → s.cur + bs.length ≤ s.lim →
    ∃ t, runFor bs.length s = .next t ∧ t.vres = BitVec.ofNat 32 (varintNat bs) ∧ t.cur = s.cur + bs.length ∧
      t.phase = (if s.vuse = .sequence then .seqValue else .indexDelta) ∧
      t = { s with vres := t.vres, vpos := t.vpos, cur := t.cur, phase := t.phase }

/-- R135, R304 (case 3), R309, R310: a data byte needed at or past the limit ends the command with TruncatedSource at
the offset of that byte, with the bytes before it consumed and the target bytes drawn, each a free value of the draw's
number and the byte's offset (assumption log 7); outside the target region no byte of M changes. It is so for an
escape's literal, an aux byte, a varint byte, a literal, the packed bytes of a group, and the header bytes of a lane.
That the datapath, the cursors and the latched arguments keep their values after the end of the command is the model's
choice (assumption log 1). -/
def Obligations.ReadsPastTheLimitRaise : Prop :=
  ∀ s : State, s.mem.wf = true →
    (s.lim ≤ s.cur → ∀ i ∈ [Instr.vc2Escape, Instr.vc4Escape, Instr.triNewAux, Instr.triNewAuxVarint],
      ∃ t, exec i s = .next t ∧ TruncatedAt s.cur s t) ∧
    (s.lim ≤ s.cur → s.events = [] → s.phase = .varintByte ∨ (s.phase = .literal ∧ s.j < 16) →
      ∃ t, step s = .next t ∧ TruncatedAt s.cur s t) ∧
    (s.lim < s.cur + 4 → ∃ t, exec .vgMode1TwoBit s = .next t ∧ TruncatedAt (max s.cur s.lim) s t) ∧
    (s.lim < s.cur + 8 → ∃ t, exec .vgMode2FourBit s = .next t ∧ TruncatedAt (max s.cur s.lim) s t) ∧
    (s.events = [] → s.phase = .lane → s.k < s.args.stride.toNat → 1 ≤ s.blockRows →
      s.lim < s.cur + headerByteCount s.blockRows →
      ∃ t, step s = .next t ∧ TruncatedAt (max s.cur s.lim) s t)

/-! ### The end of a command -/

/-- R308, R311: raising an error and completing write STATUS and ERR_OFFSET as the rules say, leave the block idle, and
change nothing else. That the datapath, the cursors and the latched arguments keep their values after the end of the
command is the model's choice (assumption log 1). -/
def Obligations.RaiseAndCompleteReport : Prop :=
  (∀ (k : ErrorKind) (off : Nat) (s : State),
    FailedWith k (if k = .truncatedSource then off else 0) s (raise k off s) ∧
    StatusLegal (raise k off s).regs.status ∧
    raise k off s = { s with regs := (raise k off s).regs, phase := .idle }) ∧
  (∀ s : State, s.events = [] → s.phase = .done → ∃ t, step s = .next t ∧
    t.busy = false ∧ t.doneBit = true ∧ t.errBit = false ∧ t.errCode = 0#4 ∧ StatusLegal t.regs.status ∧
    t = { s with regs := { s.regs with status := t.regs.status, errOffset := 0#32 }, phase := .idle })

/-! ### The host commands -/

/-- R32: what a host write to CTRL does. While BUSY it is ignored. Else OP and FILTER are written; START with an OP
other than 0 latches the arguments, sets STATUS to running and ERR_OFFSET to 0 and begins the command, unless the launch
breaks a precondition, when it is refused (R324; the preconditions as assumption logs 8, 10 and 14 read them); without
START, or with OP = 0, nothing starts. -/
def Obligations.CtrlWriteFollowsItsRule : Prop :=
  ∀ (s : State) (v : Word) (es : List HostEvent),
    s.events = { delay := 0, action := .regWrite 0 4 v } :: es →
    (s.busy = true → step s = .next { s with events := es }) ∧
    (s.busy = false → v.getLsbD 31 = false ∨ v.extractLsb' 0 2 = 0#2 →
      step s = .next { s with events := es, regs := { s.regs with ctrl := v &&& 0xF#32 } }) ∧
    (s.busy = false → v.getLsbD 31 = true → v.extractLsb' 0 2 ≠ 0#2 →
      (¬ LaunchAllowed s → ∃ r, step s = .refused r) ∧
      (LaunchAllowed s → ∃ t, step s = .next t ∧ t.regs.ctrl = v &&& 0xF#32 ∧ t.regs.status = 0x1#32 ∧
        t.regs.errOffset = 0#32 ∧ t.args.cmd.op = v.extractLsb' 0 2 ∧ t.args.filter = v.extractLsb' 2 2 ∧
        t.args = s.regs.latch t.args.cmd t.args.filter ∧ t.phase = .tag ∧
        t = { s with
          events := es
          regs := { s.regs with ctrl := t.regs.ctrl, status := t.regs.status, errOffset := t.regs.errOffset }
          args := t.args, quiet := t.quiet, phase := t.phase }))

/-- R150, R220, R270 with R32 and R64: on an idle block, with a launch that keeps the preconditions (as assumption logs
8, 10 and 14 read them), each of the three commands starts: it answers a next state with its arguments latched, STATUS
running, and the launch's regions to stay quiet. The list of quiet regions is the model's, and so is that the entries of
earlier launches stay in it (assumption log 8). -/
def Obligations.CommandsStart : Prop :=
  ∀ (cmd : Command) (filter : BitVec 2) (s : State), s.busy = false → LaunchAllowed s →
    ∃ t, exec (cmd.start filter) s = .next t ∧ t.busy = true ∧ t.doneBit = false ∧ t.errBit = false ∧
      t.errCode = 0#4 ∧ t.args.cmd = cmd ∧ t.args.filter = filter ∧ t.args.srcBase = s.regs.srcBase ∧
      t.args.srcLen = s.regs.srcLen ∧ t.args.dstBase = s.regs.dstBase ∧ t.args.dstCap = s.regs.dstCap ∧
      t.args.count = s.regs.count ∧ t.args.stride = s.regs.stride ∧
      t.quiet = { srcBase := s.regs.srcBase.toNat, srcLen := s.regs.srcLen.toNat, dstBase := s.regs.dstBase.toNat,
                  dstLen := s.regs.count.toNat * s.regs.stride.toNat } :: s.quiet ∧
      t = { s with
        regs := { s.regs with ctrl := 0#28 ++ filter ++ cmd.op, status := 0x1#32, errOffset := 0#32 }
        args := t.args, quiet := t.quiet, phase := .tag }

/-- R32, R350: CMD_NONE on an idle block writes OP and FILTER and starts nothing; while BUSY it and every command are
ignored. -/
def Obligations.NoCommandStartsNothing : Prop :=
  ∀ (filter : BitVec 2) (s : State),
    (s.busy = false → exec (.cmdNone filter) s =
      .next { s with regs := { s.regs with ctrl := 0#28 ++ filter ++ 0#2 } }) ∧
    (s.busy = true → exec (.cmdNone filter) s = .next s ∧ ∀ cmd : Command, exec (cmd.start filter) s = .next s)

/-- R35, R36, R64, R83, R324: a START on an idle block is refused exactly when its launch breaks a host precondition.
That COUNT * STRIDE counts as the target length whatever check would fail later, and the lists of the other blocks'
running and quiet launches, are the model's (assumption logs 8, 10 and 14). -/
def Obligations.RefusedExactlyOnBrokenPrecondition : Prop :=
  ∀ (cmd : Command) (filter : BitVec 2) (s : State), s.busy = false →
    ((∃ r, exec (cmd.start filter) s = .refused r) ↔ ¬ LaunchAllowed s)

/-- R30, R40, R41, R77, with the model's list of quiet regions (assumption log 8): a 32-bit read of the window returns
the register of its offset, ID as its constant and a reserved offset as 0; only a read of STATUS with BUSY = 0 changes
anything else, ending the quiet of the launches. -/
def Obligations.WindowReads : Prop :=
  ∀ (s : State) (off : Nat) (es : List HostEvent),
    s.events = { delay := 0, action := .regRead off 4 } :: es → off < 64 → off % 4 = 0 →
    ∃ t, step s = .next t ∧
      (off = 0x00 → t.hostData = s.regs.ctrl) ∧ (off = 0x04 → t.hostData = s.regs.status) ∧
      (off = 0x08 → t.hostData = s.regs.srcBase) ∧ (off = 0x0C → t.hostData = s.regs.srcLen) ∧
      (off = 0x10 → t.hostData = s.regs.dstBase) ∧ (off = 0x14 → t.hostData = s.regs.dstCap) ∧
      (off = 0x18 → t.hostData = s.regs.count) ∧ (off = 0x1C → t.hostData = s.regs.stride) ∧
      (off = 0x20 → t.hostData = s.regs.errOffset) ∧ (off = 0x24 → t.hostData = 0x07D1E1A0#32) ∧
      (0x28 ≤ off → t.hostData = 0#32) ∧
      t.quiet = (if off = 0x04 ∧ s.busy = false then [] else s.quiet) ∧
      t = { s with events := es, hostData := t.hostData, quiet := t.quiet }

/-- R30, R33, R41, R350: a 32-bit write of the window other than to CTRL writes the register of its offset while the
block is idle; a read-only or reserved offset ignores it, and while BUSY every offset does. -/
def Obligations.WindowWrites : Prop :=
  ∀ (s : State) (off : Nat) (v : Word) (es : List HostEvent),
    s.events = { delay := 0, action := .regWrite off 4 v } :: es → 0 < off → off < 64 → off % 4 = 0 →
    ∃ t, step s = .next t ∧ t = { s with events := es, regs := t.regs } ∧
      (s.busy = true → t.regs = s.regs) ∧
      (s.busy = false →
        (off = 0x08 → t.regs = { s.regs with srcBase := v }) ∧ (off = 0x0C → t.regs = { s.regs with srcLen := v }) ∧
        (off = 0x10 → t.regs = { s.regs with dstBase := v }) ∧ (off = 0x14 → t.regs = { s.regs with dstCap := v }) ∧
        (off = 0x18 → t.regs = { s.regs with count := v }) ∧ (off = 0x1C → t.regs = { s.regs with stride := v }) ∧
        (off = 0x04 ∨ 0x20 ≤ off → t.regs = s.regs))

/-- R30, R41, R324 (D5), as assumption log 15 reads them: a register access is classed by the offset of its first byte;
one at 64 or more does not reach the block and a read there leaves the host's data as it was, and one below 64 that is
not an aligned 32-bit access is refused. The classing and the data of a read past the window are the model's. -/
def Obligations.OddRegisterAccesses : Prop :=
  ∀ (s : State) (off size : Nat) (v : Word) (es : List HostEvent) (a : HostAction),
    a = .regWrite off size v ∨ a = .regRead off size → s.events = { delay := 0, action := a } :: es →
    (64 ≤ off → step s = .next { s with events := es }) ∧
    (off < 64 → size ≠ 4 ∨ off % 4 ≠ 0 → step s = .refused .badRegisterAccess)

/-- R342, R340: a reset gives every register of the window its reset value and leaves the block idle. Of a command it
stops, every target byte takes an unspecified value, written as the free value of the draw's number and the byte's
offset (assumption log 7); no other byte of M changes, and none where no command runs. -/
def Obligations.ResetStopsTheCommand : Prop :=
  ∀ (s : State) (es : List HostEvent), s.events = { delay := 0, action := .reset } :: es →
    ∃ t, step s = .next t ∧
      t.regs = { ctrl := 0#32, status := 0#32, srcBase := 0#32, srcLen := 0#32, dstBase := 0#32, dstCap := 0#32,
                 count := 0#32, stride := 0#32, errOffset := 0#32 } ∧
      t.busy = false ∧ t.phase = .idle ∧ t.params = s.params ∧ t.events = es ∧
      (s.busy = false → MemUnchanged s t ∧ t.draws = s.draws) ∧
      (s.busy = true → t.draws = s.draws + 1 ∧ (s.mem.wf = true → TargetDrawn s t)) ∧
      MemUnchangedOutside s.args.dstBase.toNat (s.args.count.toNat * s.args.stride.toNat) s t

/-- R340: the window right after reset, by its offsets, an idle block, and a memory in canonical form. -/
def Obligations.ResetState : Prop :=
  (∀ off, off ≠ 0x24 → State.reset.regs.readAt off = 0#32) ∧ State.reset.regs.readAt 0x24 = 0x07D1E1A0#32 ∧
    State.reset.phase = .idle ∧ State.reset.busy = false ∧ State.reset.mem.wf = true

/-- R60, R64 (item 3), R348, R349, with the model's lists of quiet regions, of this block and of the others (assumption
logs 8 and 10): an agent's write that meets a source or target byte of a launch whose end the host has not yet read, and
an agent's read of one of its target bytes, are refused; every other access to existing addresses takes place. An access
that passes the last address of M, which does not exist, is a fault (assumption log 16). -/
def Obligations.QuietRegionsAreGuarded : Prop :=
  (∀ (s : State) (a : Nat) (bs : List Byte) (es : List HostEvent),
    s.events = { delay := 0, action := .memWrite a bs } :: es → s.mem.wf = true →
    (2 ^ s.params.addrW < a + bs.length → step s = .fault .noSuchAddress) ∧
    (a + bs.length ≤ 2 ^ s.params.addrW → (∃ r, IsQuiet s r ∧ ∃ b, a ≤ b ∧ b < a + bs.length ∧ (r.hasSource b ∨ r.hasTarget b)) →
      step s = .refused .quietRegionTouched) ∧
    (a + bs.length ≤ 2 ^ s.params.addrW →
      (∀ r, IsQuiet s r → ∀ b, a ≤ b → b < a + bs.length → ¬ (r.hasSource b ∨ r.hasTarget b)) →
      ∃ t, step s = .next t ∧ HoldsBytes t.mem a bs ∧ MemUnchangedOutside a bs.length s t ∧
        t = { s with events := es, mem := t.mem })) ∧
  (∀ (s : State) (a : Nat) (es : List HostEvent),
    s.events = { delay := 0, action := .memRead a } :: es →
    (2 ^ s.params.addrW ≤ a → step s = .fault .noSuchAddress) ∧
    (a < 2 ^ s.params.addrW → (∃ r, IsQuiet s r ∧ r.hasTarget a) → step s = .refused .quietRegionTouched) ∧
    (a < 2 ^ s.params.addrW → (∀ r, IsQuiet s r → ¬ r.hasTarget a) →
      step s = .next { s with events := es, hostData := (s.mem.read a).zeroExtend 32 }))

/-- R64, R83, R324, R351, with the model's events for other blocks (assumption logs 8, 10 and 14): a START of another
block that the system has is ignored while that block runs; else it is refused when its own regions break a
precondition, when they conflict with a command running at the same time, or when they conflict with the quiet regions
of a block other than its own; on every other launch it begins. Its command writes inside its target only, and the
regions stay quiet from its START until the host reads its STATUS after its end. -/
def Obligations.OtherBlocksStayDisjoint : Prop :=
  (∀ (s : State) (block : Nat) (r : Region) (es : List HostEvent),
    s.events = { delay := 0, action := .otherStart block r } :: es →
    (block = 0 ∨ s.params.nBlocks ≤ block → step s = .refused .noSuchBlock) ∧
    (1 ≤ block → block < s.params.nBlocks →
      ((∃ o ∈ s.others, o.block = block) → step s = .next { s with events := es }) ∧
      ((∀ o ∈ s.others, o.block ≠ block) →
        (¬ OtherLaunchAllowed s block r → ∃ x, step s = .refused x) ∧
        (OtherLaunchAllowed s block r → step s = .next { s with
          events := es
          others := { block := block, region := r } :: s.others
          othersQuiet := { block := block, region := r } :: s.othersQuiet })))) ∧
  (∀ (s : State) (o : OtherLaunch) (off : Nat) (bs : List Byte) (es : List HostEvent),
    s.events = { delay := 0, action := .otherWrite o.block off bs } :: es → s.mem.wf = true →
    ((∀ x ∈ s.others, x.block ≠ o.block) → step s = .refused .outsideOtherTarget) ∧
    (o ∈ s.others → (∀ x ∈ s.others, x.block = o.block → x = o) →
      (o.region.dstLen < off + bs.length → step s = .refused .outsideOtherTarget) ∧
      (off + bs.length ≤ o.region.dstLen → ∃ t, step s = .next t ∧ HoldsBytes t.mem (o.region.dstBase + off) bs ∧
        MemUnchangedOutside (o.region.dstBase + off) bs.length s t ∧ t = { s with events := es, mem := t.mem }))) ∧
  ∀ (s : State) (block : Nat) (es : List HostEvent),
    (s.events = { delay := 0, action := .otherEnd block } :: es → ∃ t, step s = .next t ∧
      (∀ o, o ∈ t.others ↔ o ∈ s.others ∧ o.block ≠ block) ∧ t = { s with events := es, others := t.others }) ∧
    (s.events = { delay := 0, action := .otherRead block } :: es → ∃ t, step s = .next t ∧
      (∀ o, o ∈ t.othersQuiet ↔ o ∈ s.othersQuiet ∧ (o.block ≠ block ∨ ∃ x ∈ s.others, x.block = block)) ∧
      t = { s with events := es, othersQuiet := t.othersQuiet })

/-! ### Tags, checks, and the initial state -/

/-- R94, R301, R171, R245, R277: the running command's own tag lets it go on to its checks; every other tag, and every
byte that is no tag, raises BadHeaderTag, and memory does not change. That the datapath, the cursors and the latched
arguments keep their values after the end of the command is the model's choice (assumption log 1). -/
def Obligations.TagsAcceptedOnlyByTheirCommand : Prop :=
  (∀ s : State, ∀ p ∈ [(Instr.tagVertex, Command.vertex), (Instr.tagIndex, Command.index),
      (Instr.tagSequence, Command.sequence)],
    (s.args.cmd = p.2 → exec p.1 s = .next { s with phase := .checks }) ∧
    (s.args.cmd ≠ p.2 → ∃ t, exec p.1 s = .next t ∧ FailedWith .badHeaderTag 0 s t ∧
      t = { s with regs := t.regs, phase := t.phase })) ∧
  (∀ (s : State) (b : Byte), ∃ t, exec (.tagOther b) s = .next t ∧ FailedWith .badHeaderTag 0 s t ∧
    t = { s with regs := t.regs, phase := t.phase })

/-- R191, R302, R304 to R307, R309: from its tag, a command reports the first of the checks 1 to 6 that fails, with
ERR_OFFSET as R304 and R307 say and without changing memory; when none fails it is ready to decode. The strides of a
command are written out from R191 and R302, with VTX_STRIDE_OK as any subset of 1 to 512 (assumption log 3). That this
takes two steps is the model's choice (assumption log 2). That the datapath, the cursors and the latched arguments keep
their values after the end of the command is the model's choice (assumption log 1). -/
def Obligations.FirstFailingCheckIsReported : Prop :=
  ∀ s : State, s.events = [] → s.phase = .tag →
    (∀ k off, firstError s = some (k, off) → ∃ t, runFor 2 s = .next t ∧ FailedWith k off s t ∧
      t = { s with regs := t.regs, phase := t.phase }) ∧
    (firstError s = none → ∃ t, runFor 2 s = .next t ∧ MemUnchanged s t ∧ t.regs = s.regs ∧ t.args = s.args ∧
      t.phase = (match s.args.cmd with | .vertex => .block | .index => .triangle | .sequence => .output))

/-- R223, R155, R272, R345: the initial state a command's checks lead to: the accumulators from the reference row, the
cleared caches and counters, the zero bases, and the cursors. That the items a command does not use keep their values,
which the spec leaves open, is the model's choice (assumption log 1). -/
def Obligations.InitialStateOfCommands : Prop :=
  ∀ s : State, s.events = [] → s.phase = .checks → commandCheck s = none →
    ∃ t, step s = .next t ∧
      (s.args.cmd = .vertex →
        (∀ k, k < 512 → slot t.acc k =
          if k < s.args.stride.toNat then
            s.mem.read (s.srcAddr (s.args.srcLen.toNat - s.args.stride.toNat + k))
          else slot s.acc k) ∧
        t = { s with
          acc := t.acc, cur := 1, lim := s.args.srcLen.toNat - s.args.stride.toNat, blockBase := 0, row := 0
          k := 0, g := 0, phase := .block }) ∧
      (s.args.cmd = .index →
        (∀ i, i < 32 → slot t.ec i = 0#32) ∧ (∀ i, i < 16 → slot t.vc i = 0#32) ∧
        t = { s with
          ec := t.ec, vc := t.vc, next := 0#32, last := 0#32, ccur := 1, cur := 1 + s.args.count.toNat / 3
          lim := s.args.srcLen.toNat - 16, t := 0, phase := .triangle }) ∧
      (s.args.cmd = .sequence →
        t = { s with
          seqLast0 := 0#32, seqLast1 := 0#32, cur := 1, lim := s.args.srcLen.toNat, n := 0, phase := .output })

/-! ### The vertex decoder -/

/-- R158, R165: a mode 0 group has sixteen zero deltas and consumes nothing; a mode 3 group goes on to its sixteen
literals. That the mode itself reads none of them, and each is a step of its own after it, is the model's cut into steps
(assumption log 2). -/
def Obligations.ZeroAndLiteralModes : Prop :=
  ∀ s : State,
    (∃ t, exec .vgMode0Zero s = .next t ∧ (∀ j, j < 16 → slot t.dbuf j = 0#8) ∧
      t = { s with dbuf := t.dbuf, phase := .apply }) ∧
    exec .vgMode3Literal s = .next { s with j := 0, phase := .literal }

/-- R159, R162: with enough data bytes before the limit, a mode 1 group reads four packed bytes and a mode 2 group
eight, and each goes on to its code 0. -/
def Obligations.PackedModesReadTheirBytes : Prop :=
  ∀ s : State,
    (s.cur + 4 ≤ s.lim → ∃ t, exec .vgMode1TwoBit s = .next t ∧
      (∀ i, i < 8 → slot t.packed i = if i < 4 then s.mem.read (s.srcAddr (s.cur + i)) else slot s.packed i) ∧
      t = { s with packed := t.packed, j := 0, cur := s.cur + 4, phase := .code2 }) ∧
    (s.cur + 8 ≤ s.lim → ∃ t, exec .vgMode2FourBit s = .next t ∧
      (∀ i, i < 8 → slot t.packed i = s.mem.read (s.srcAddr (s.cur + i))) ∧
      t = { s with packed := t.packed, j := 0, cur := s.cur + 8, phase := .code4 })

/-- R160, R163, R165 (R102): a code that is no sentinel, and a literal, is itself the zigzag-coded delta of its number.
-/
def Obligations.CodesAreTheirDelta : Prop :=
  ∀ s : State, s.j < 16 →
    (∀ c : BitVec 2, c.toNat ≤ 2 → ∃ t, exec (.vc2Value c) s = .next t ∧ (slot t.dbuf s.j).toNat = c.toNat ∧
      (∀ i, i ≠ s.j → slot t.dbuf i = slot s.dbuf i) ∧ t = { s with dbuf := t.dbuf, j := s.j + 1 }) ∧
    (∀ c : Nibble, c.toNat ≤ 14 → ∃ t, exec (.vc4Value c) s = .next t ∧ (slot t.dbuf s.j).toNat = c.toNat ∧
      (∀ i, i ≠ s.j → slot t.dbuf i = slot s.dbuf i) ∧ t = { s with dbuf := t.dbuf, j := s.j + 1 }) ∧
    (∀ z : Byte, ∃ t, exec (.vlit8 z) s = .next t ∧ slot t.dbuf s.j = z ∧
      (∀ i, i ≠ s.j → slot t.dbuf i = slot s.dbuf i) ∧ t = { s with dbuf := t.dbuf, j := s.j + 1 })

/-- R161, R164: an escape takes the next unread data byte as its delta. -/
def Obligations.EscapesTakeTheNextByte : Prop :=
  ∀ s : State, s.j < 16 → s.cur < s.lim → ∀ i ∈ [Instr.vc2Escape, Instr.vc4Escape],
    ∃ t, exec i s = .next t ∧ slot t.dbuf s.j = s.mem.read (s.srcAddr s.cur) ∧
      (∀ x, x ≠ s.j → slot t.dbuf x = slot s.dbuf x) ∧
      t = { s with dbuf := t.dbuf, j := s.j + 1, cur := s.cur + 1 }

/-- R101, R159, R162, R165: sixteen steps (a number that is the model's choice, assumption log 2) fill the delta buffer
of a group. The codes of a packed group come in code order, each sentinel with the next of the literals that follow the
packed bytes; the group consumes one byte for each sentinel. The literals of a mode 3 group are the next sixteen data
bytes in order. -/
def Obligations.GroupFillsTheDeltas : Prop :=
  ∀ s : State, s.events = [] → s.j = 0 →
    (s.phase = .code2 → s.cur + escapesBefore (fun j => decide (code2At s.packed j = 3#2)) 16 ≤ s.lim →
      ∃ t, runFor 16 s = .next t ∧
        (∀ j, j < 16 → slot t.dbuf j =
          if code2At s.packed j = 3#2 then
            s.mem.read (s.srcAddr (s.cur + escapesBefore (fun j => decide (code2At s.packed j = 3#2)) j))
          else (code2At s.packed j).zeroExtend 8) ∧
        t = { s with
          dbuf := t.dbuf, j := 16, cur := s.cur + escapesBefore (fun j => decide (code2At s.packed j = 3#2)) 16 }) ∧
    (s.phase = .code4 → s.cur + escapesBefore (fun j => decide (code4At s.packed j = 15#4)) 16 ≤ s.lim →
      ∃ t, runFor 16 s = .next t ∧
        (∀ j, j < 16 → slot t.dbuf j =
          if code4At s.packed j = 15#4 then
            s.mem.read (s.srcAddr (s.cur + escapesBefore (fun j => decide (code4At s.packed j = 15#4)) j))
          else (code4At s.packed j).zeroExtend 8) ∧
        t = { s with
          dbuf := t.dbuf, j := 16, cur := s.cur + escapesBefore (fun j => decide (code4At s.packed j = 15#4)) 16 }) ∧
    (s.phase = .literal → s.cur + 16 ≤ s.lim →
      ∃ t, runFor 16 s = .next t ∧ (∀ j, j < 16 → slot t.dbuf j = s.mem.read (s.srcAddr (s.cur + j))) ∧
        t = { s with dbuf := t.dbuf, j := 16, cur := s.cur + 16 })

/-- R166, R167: ApplyGroup writes to each row of the group that is in the block the accumulator plus the deltas up to
that row, modulo 2^8, leaves the accumulator at the last of them, and ignores the deltas of rows past the block. -/
def Obligations.ApplyGroupAddsDeltas : Prop :=
  ∀ s : State, s.events = [] → s.phase = .apply → s.mem.wf = true → s.k < s.args.stride.toNat → s.k < 512 →
    ∃ t, step s = .next t ∧
      (∀ j, j < 16 → 16 * s.g + j < s.blockRows →
        t.mem.read (s.dstAddr ((s.blockBase + (16 * s.g + j)) * s.args.stride.toNat + s.k)) =
          slot s.acc s.k + deltaSum s.dbuf (j + 1)) ∧
      (∀ a, (∀ j, j < 16 → 16 * s.g + j < s.blockRows →
          a ≠ s.dstAddr ((s.blockBase + (16 * s.g + j)) * s.args.stride.toNat + s.k)) →
        t.mem.read a = s.mem.read a) ∧
      slot t.acc s.k = slot s.acc s.k + deltaSum s.dbuf (min 16 (s.blockRows - 16 * s.g)) ∧
      (∀ i, i ≠ s.k → slot t.acc i = slot s.acc i) ∧
      t = { s with acc := t.acc, row := t.row, mem := t.mem, g := s.g + 1, phase := .group }

/-- R150, R153, R156, R159, R162, R165, R168, R220, R270, R311: how the loops of the decoders go on and end.
DECODE_VERTEX: the next block begins at lane 0 while rows are left, and the filter follows the last row; a lane reads
its header bytes and goes to group 0; after the sixteenth code or literal the group is applied; after the last group the
next lane follows, and after the last lane the next block; the accumulators are not touched. DECODE_INDEX after its last
triangle, and DECODE_SEQUENCE after its last output, complete with success; while outputs are left, the next output's
varint is read. Where the steps are cut is the model's choice (assumption log 2). That the datapath, the cursors and the
latched arguments keep their values after the end of the command is the model's choice (assumption log 1). -/
def Obligations.LoopsAdvance : Prop :=
  ∀ s : State, s.events = [] →
    (s.phase = .block → s.blockBase < s.args.count.toNat → step s = .next { s with k := 0, phase := .lane }) ∧
    (s.phase = .block → s.args.count.toNat ≤ s.blockBase → step s = .next { s with phase := .filter }) ∧
    (s.phase = .lane → s.k < s.args.stride.toNat → headerByteCount s.blockRows ≤ 4 →
      s.cur + headerByteCount s.blockRows ≤ s.lim → ∃ t, step s = .next t ∧
        (∀ h, h < 4 → slot t.hdr h =
          if h < headerByteCount s.blockRows then s.mem.read (s.srcAddr (s.cur + h)) else slot s.hdr h) ∧
        t = { s with hdr := t.hdr, cur := s.cur + headerByteCount s.blockRows, g := 0, phase := .group }) ∧
    (s.phase = .lane → s.args.stride.toNat ≤ s.k →
      step s = .next { s with blockBase := s.blockBase + s.blockRows, phase := .block }) ∧
    (s.phase = .group → groupCount s.blockRows ≤ s.g → step s = .next { s with k := s.k + 1, phase := .lane }) ∧
    (s.phase = .code2 ∨ s.phase = .code4 ∨ s.phase = .literal → 16 ≤ s.j →
      step s = .next { s with phase := .apply }) ∧
    (s.phase = .output → s.n < s.args.count.toNat →
      step s = .next { s with vuse := .sequence, vpos := 0, vres := 0#32, phase := .varintByte }) ∧
    ((s.phase = .triangle ∧ s.args.triCount ≤ s.t) ∨ (s.phase = .output ∧ s.args.count.toNat ≤ s.n) →
      step s = .next { s with phase := .done } ∧
      runFor 2 s = .next { s with regs := { s.regs with status := 0x2#32, errOffset := 0#32 }, phase := .idle })

/-- R150 as a whole with R158, R168, R173, R310 and R311: where every data byte is 0, so that every group is of mode 0,
DECODE_VERTEX without a filter ends, from its first block. Where the header bytes of all its blocks fit before the limit
it ends in success with every row equal to the reference row its accumulators held; where they do not, in
TruncatedSource at the limit, with the target drawn (assumption log 7). It changes no byte outside the target. -/
def Obligations.ZeroHeadersRepeatTheReference : Prop :=
  ∀ s : State, s.Inv → s.events = [] → s.phase = .block → s.blockBase = 0 → s.args.filter = 0#2 →
    (∀ off, s.cur ≤ off → off < s.lim → s.mem.read (s.srcAddr off) = 0#8) →
    ∃ k t, runFor k s = .next t ∧ t.phase = .idle ∧
      MemUnchangedOutside s.args.dstBase.toNat (s.args.count.toNat * s.args.stride.toNat) s t ∧
      (s.cur + vertexHeaderLength s ≤ s.lim →
        t.regs = { s.regs with status := 0x2#32, errOffset := 0#32 } ∧
          ∀ r i, r < s.args.count.toNat → i < s.args.stride.toNat →
            t.mem.read (s.dstAddr (r * s.args.stride.toNat + i)) = slot s.acc i) ∧
      (s.lim < s.cur + vertexHeaderLength s → FailedWith .truncatedSource s.lim s t ∧ TargetDrawn s t)

/-! ### The filters -/

/-- R195, R196 with R190 and R192: the octahedral filter rewrites lanes 0 to 2 of every row from that row's own lanes
and keeps lane 3, where lane i of row r is the signed value of the STRIDE / 4 bytes at target offset r * STRIDE + i *
STRIDE / 4; nothing outside the target region changes. -/
def Obligations.OctahedralPassRewritesRows : Prop :=
  ∀ (s : State) (w : Nat), s.mem.wf = true → s.args.stride.toNat = 4 ∨ s.args.stride.toNat = 8 →
    w = 8 * (s.args.stride.toNat / 4) →
    ∃ t, exec .filterOctahedral s = .next t ∧
      (∀ r, r < s.args.count.toNat →
        (∀ i, i < 3 → t.rowLane r i =
          (BitVec.ofInt w (octLane w (s.rowLane r 0) (s.rowLane r 1) (s.rowLane r 2) (s.rowLane r 3) i)).toInt) ∧
        t.rowLane r 3 = s.rowLane r 3) ∧
      MemUnchangedOutside s.args.dstBase.toNat (s.args.count.toNat * s.args.stride.toNat) s t ∧
      t = { s with mem := t.mem, phase := .done }

/-- R199, R200 with R192: the quaternion filter rewrites the four lanes of every row from that row's own lanes, the
signed values of its pairs of bytes, and nothing outside the target region changes. -/
def Obligations.QuaternionPassRewritesRows : Prop :=
  ∀ s : State, s.mem.wf = true → s.args.stride.toNat = 8 →
    ∃ t, exec .filterQuaternion s = .next t ∧
      (∀ r i, r < s.args.count.toNat → i < 4 →
        t.rowLane r i = (BitVec.ofInt 16 (quatLane (s.rowLane r 0) (s.rowLane r 1) (s.rowLane r 2)
          (BitVec.ofInt 16 (s.rowLane r 3)) i)).toInt) ∧
      MemUnchangedOutside s.args.dstBase.toNat (s.args.count.toNat * s.args.stride.toNat) s t ∧
      t = { s with mem := t.mem, phase := .done }

/-- R190, R202 with R192: FILTER_NONE leaves the target as it is; the exponential filter rewrites every word of the
target from that word, and nothing outside the target region changes. -/
def Obligations.NoneAndExponentialPasses : Prop :=
  (∀ s : State, exec .filterNone s = .next { s with phase := .done }) ∧
  ∀ s : State, s.mem.wf = true → s.args.stride.toNat % 4 = 0 →
    ∃ t, exec .filterExponential s = .next t ∧
      (∀ q, q < s.args.count.toNat * s.args.stride.toNat / 4 →
        HoldsLE t.mem (s.dstAddr (4 * q)) 4 (expWord (BitVec.ofNat 32 (leValue s.mem (s.dstAddr (4 * q)) 4)))) ∧
      MemUnchangedOutside s.args.dstBase.toNat (s.args.count.toNat * s.args.stride.toNat) s t ∧
      t = { s with mem := t.mem, phase := .done }

/-- R194, R195, R196: for `one` other than 0, each octahedral output lane is in the lane's range and within 1 of the
reference value: the value of R195, written here over the reals with its fold (sgn(0) = +1, which R196 marks as from
general knowledge, assumption log 19), rounded as R14 says (assumption log 5). It holds for every `OCT_NUM`. -/
def Obligations.OctahedralWithinOneOfReference : Prop :=
  ∀ (w : Nat) (l0 l1 l2 l3 : Int), w = 8 ∨ w = 16 → l2 ≠ 0 →
    ∀ X0 Y0 Z X Y : ℝ, X0 = (l0 : ℝ) / l2 → Y0 = (l1 : ℝ) / l2 → Z = 1 - |X0| - |Y0| →
      X = (if Z < 0 then X0 - (if 0 ≤ X0 then 1 else -1) * |Z| else X0) →
      Y = (if Z < 0 then Y0 - (if 0 ≤ Y0 then 1 else -1) * |Z| else Y0) →
      ∀ (lane : Nat) (v : ℝ), (lane = 0 ∧ v = X) ∨ (lane = 1 ∧ v = Y) ∨ (lane = 2 ∧ v = Z) →
        (∀ n : ℤ, RoundsAway (v * (((2 : ℝ) ^ (w - 1) - 1) / Real.sqrt (X ^ 2 + Y ^ 2 + Z ^ 2))) n →
          |octLane w l0 l1 l2 l3 lane - n| ≤ 1) ∧
        -(2 : Int) ^ (w - 1) ≤ octLane w l0 l1 l2 l3 lane ∧ octLane w l0 l1 l2 l3 lane < (2 : Int) ^ (w - 1)

/-- R194, R199, R200, R201: each quaternion output lane whose reference value, the value of R199 rounded as R14 says
(assumption logs 5 and 6), lies in -32768 to 32767 is in the lane's range and within 1 of it: x, y and z in the lanes
after mc in cyclic order, w in lane mc. It holds for every `QUAT_NUM`. -/
def Obligations.QuaternionWithinOneOfReference : Prop :=
  ∀ (l0 l1 l2 : Int) (l3 : BitVec 16), ∀ sc x y z w : ℝ,
    sc = Real.sqrt (1 / 2) / ((l3 ||| 0x3#16).toInt : ℝ) → x = l0 * sc → y = l1 * sc → z = l2 * sc →
    w = Real.sqrt (max 0 (1 - x ^ 2 - y ^ 2 - z ^ 2)) →
    ∀ (mc lane : Nat) (v : ℝ), mc = (l3.extractLsb' 0 2).toNat →
      (lane = (mc + 1) % 4 ∧ v = x) ∨ (lane = (mc + 2) % 4 ∧ v = y) ∨ (lane = (mc + 3) % 4 ∧ v = z) ∨
        (lane = mc ∧ v = w) →
      ∀ n : ℤ, RoundsAway (32767 * v) n → -32768 ≤ n → n ≤ 32767 →
        |quatLane l0 l1 l2 l3 lane - n| ≤ 1 ∧ -32768 ≤ quatLane l0 l1 l2 l3 lane ∧
        quatLane l0 l1 l2 l3 lane ≤ 32767

/-- R202, R203, R204: for an exponent e from -126 up, the exponential result of a mantissa m other than 0 is a normal
binary32 word (an encoding the spec marks as from general knowledge, assumption log 19) whose value is exactly m * 2^e
where that is below 2^128, and the infinity of m's sign otherwise; m = 0 gives +0.0 for every e, as R202 says, also for
-128 and -127, where R204 names EXP_LOW: there it is the model's reading (assumption log 18). -/
def Obligations.ExponentialIsExact : Prop :=
  ∀ (word : Word) (e m : Int), e = (word.extractLsb' 24 8).toInt → m = (word.extractLsb' 0 24).toInt →
    (m = 0 → expWord word = 0#32) ∧
    (m ≠ 0 → -126 ≤ e → |(m : ℚ)| * (2 : ℚ) ^ e < 2 ^ 128 →
      floatValue (expWord word) = m * (2 : ℚ) ^ e ∧ 1 ≤ ((expWord word).extractLsb' 23 8).toNat ∧
        ((expWord word).extractLsb' 23 8).toNat ≤ 254) ∧
    (-126 ≤ e → 2 ^ 128 ≤ |(m : ℚ)| * (2 : ℚ) ^ e →
      expWord word = if 0 < m then 0x7F800000#32 else 0xFF800000#32)

/-! ### The triangle decoder -/

/-- R226 with R225, R231 and R242: a and b are edge b0, c is the fresh index `next`, which then counts on; c is pushed
on the VertexCache, the two new edges go on the EdgeCache, and the triangle is written; nothing else changes. -/
def Obligations.EdgeNextTriangle : Prop :=
  ∀ (s : State) (b0 : Nibble), b0.toNat ≤ 14 → s.mem.wf = true →
    ∃ t a b c, a = slot s.ec (2 * b0.toNat) ∧ b = slot s.ec (2 * b0.toNat + 1) ∧ c = s.next ∧
      exec (.triEdgeNext b0) s = .next t ∧ t.next = s.next + 1#32 ∧ VertexPushed s.vc t.vc c ∧
      EdgesPushed s.ec t.ec [a, c, c, b] ∧ HoldsTriangle s t a b c ∧
      MemUnchangedOutside (s.dstAddr (3 * s.t * s.args.stride.toNat)) (3 * s.args.stride.toNat) s t ∧
      t = { s with next := t.next, vc := t.vc, ec := t.ec, mem := t.mem, t := s.t + 1, phase := .triangle }

/-- R227 with R225, R231 and R242: a and b are edge b0, c is cache slot b1 itself, and is not pushed; the two new edges
go on the EdgeCache, and the triangle is written; nothing else changes. -/
def Obligations.EdgeCacheTriangle : Prop :=
  ∀ (s : State) (b0 b1 : Nibble), b0.toNat ≤ 14 → 1 ≤ b1.toNat → b1.toNat ≤ 12 → s.mem.wf = true →
    ∃ t a b c, a = slot s.ec (2 * b0.toNat) ∧ b = slot s.ec (2 * b0.toNat + 1) ∧ c = slot s.vc b1.toNat ∧
      exec (.triEdgeCache b0 b1) s = .next t ∧ EdgesPushed s.ec t.ec [a, c, c, b] ∧ HoldsTriangle s t a b c ∧
      MemUnchangedOutside (s.dstAddr (3 * s.t * s.args.stride.toNat)) (3 * s.args.stride.toNat) s t ∧
      t = { s with ec := t.ec, mem := t.mem, t := s.t + 1, phase := .triangle }

/-- R228, R229 with R225, R231 and R242: a and b are edge b0, c is `last` decremented or incremented, modulo 2^32, and
is the new `last`; c is pushed on the VertexCache, the two new edges go on the EdgeCache, and the triangle is written;
nothing else changes. -/
def Obligations.EdgeDecAndIncTriangles : Prop :=
  ∀ (s : State) (b0 : Nibble), b0.toNat ≤ 14 → s.mem.wf = true →
    ∀ p ∈ [(Instr.triEdgeDec b0, s.last - 1#32), (Instr.triEdgeInc b0, s.last + 1#32)],
    ∃ t a b c, a = slot s.ec (2 * b0.toNat) ∧ b = slot s.ec (2 * b0.toNat + 1) ∧ c = p.2 ∧
      exec p.1 s = .next t ∧ t.last = c ∧ VertexPushed s.vc t.vc c ∧
      EdgesPushed s.ec t.ec [a, c, c, b] ∧ HoldsTriangle s t a b c ∧
      MemUnchangedOutside (s.dstAddr (3 * s.t * s.args.stride.toNat)) (3 * s.args.stride.toNat) s t ∧
      t = { s with last := t.last, vc := t.vc, ec := t.ec, mem := t.mem, t := s.t + 1, phase := .triangle }

/-- R230 with R140, R225, R231 and R242: from a code of this class, with its varint next in the data, of at most five
bytes (a bound the spec marks as from general knowledge, assumption log 19), the edge is fetched, the varint's zigzag
value is added to `last`, c is the new `last`, is pushed, and the triangle is completed: one step for the code, one for
each varint byte, one for the rest, a number of steps that is the model's choice (assumption log 2). -/
def Obligations.EdgeVarintTriangle : Prop :=
  (∀ (s : State) (b0 : Nibble), exec (.triEdgeVarint b0) s = .next { s with
    triA := slot s.ec (2 * b0.toNat), triB := slot s.ec (2 * b0.toNat + 1), vuse := .edgeC, vpos := 0
    vres := 0#32, phase := .varintByte }) ∧
  ∀ (s : State) (b0 : Nibble) (bs : List Byte), s.events = [] → s.phase = .triangle → s.t < s.args.triCount →
    s.mem.read (s.srcAddr s.ccur) = b0 ++ 15#4 → b0.toNat ≤ 14 → s.mem.wf = true → IsVarint bs →
    HoldsBytes s.mem (s.srcAddr s.cur) bs → s.cur + bs.length ≤ s.lim →
    ∃ t a b c, a = slot s.ec (2 * b0.toNat) ∧ b = slot s.ec (2 * b0.toNat + 1) ∧
      c = s.last + zigzag32 (BitVec.ofNat 32 (varintNat bs)) ∧
      runFor (bs.length + 2) s = .next t ∧ t.last = c ∧ VertexPushed s.vc t.vc c ∧
      EdgesPushed s.ec t.ec [a, c, c, b] ∧ HoldsTriangle s t a b c ∧
      MemUnchangedOutside (s.dstAddr (3 * s.t * s.args.stride.toNat)) (3 * s.args.stride.toNat) s t ∧
      t = { s with
        last := t.last, vc := t.vc, ec := t.ec, mem := t.mem, cur := s.cur + bs.length, ccur := s.ccur + 1
        t := s.t + 1, triA := a, triB := b, vuse := .edgeC, vpos := t.vpos, vres := t.vres, phase := .triangle }

/-- R232, R235, R236: the first step of a new-path triangle. 0xF0 to 0xFD: e is the codeaux entry and a is fresh. 0xFE
and 0xFF: the aux byte is read from the data region. -/
def Obligations.NewTrianglesBegin : Prop :=
  (∀ (s : State) (b1 : Nibble), b1.toNat ≤ 13 → 16 ≤ s.args.srcLen.toNat →
    exec (.triNewTable b1) s = .next { s with
      entry := s.mem.read (s.srcAddr (s.args.srcLen.toNat - 16 + b1.toNat)), triA := s.next, next := s.next + 1#32
      corner := .b, phase := .caux }) ∧
  ∀ s : State, s.cur < s.lim → ∀ p ∈ [(Instr.triNewAux, false), (Instr.triNewAuxVarint, true)],
    exec p.1 s = .next { s with
      entry := s.mem.read (s.srcAddr s.cur), cur := s.cur + 1, aFromVarint := p.2, phase := .auxByte }

/-- R237, R235, R236: the restart sets only `next`, to 0, before a is taken; then a is fresh for a code 0xFE, and the
varint of a is next for 0xFF. An aux byte other than 0x00 takes a without a restart. -/
def Obligations.RestartThenA : Prop :=
  (∀ s : State, exec .auxRestart s = .next { s with next := 0#32, phase := .takeA }) ∧
  (∀ s : State, s.events = [] → s.phase = .auxByte → s.entry ≠ 0#8 → step s = .next { s with phase := .takeA }) ∧
  (∀ s : State, s.events = [] → s.phase = .auxByte → s.entry = 0#8 →
    step s = .next { s with next := 0#32, phase := .takeA }) ∧
  ∀ s : State, s.events = [] → s.phase = .takeA →
    (s.aFromVarint = false →
      step s = .next { s with triA := s.next, next := s.next + 1#32, corner := .b, phase := .aux }) ∧
    (s.aFromVarint = true →
      step s = .next { s with vuse := .newA, vpos := 0, vres := 0#32, phase := .varintByte })

/-- R233, R234, R238, R239, R240: the vertex of a nibble of a new-path triangle. Nibble 0 takes a fresh index that is
to be pushed; a cache nibble n takes VC[n-1], not to be pushed; aux nibble 15 goes on to a varint. The first nibble
gives b, the second c. -/
def Obligations.NibblesGiveVertices : Prop :=
  (∀ s : State, ∀ i ∈ [Instr.cauxNext, Instr.auxNext],
    (s.corner = .b → exec i s = .next { s with next := s.next + 1#32, triB := s.next, pushB := true, corner := .c }) ∧
    (s.corner = .c → exec i s = .next { s with
      next := s.next + 1#32, triC := s.next, pushC := true, phase := .newDone })) ∧
  (∀ (s : State) (n : Nibble), 1 ≤ n.toNat → ∀ i ∈ [Instr.cauxCache n, Instr.auxCache n],
    (s.corner = .b → exec i s = .next { s with triB := slot s.vc (n.toNat - 1), pushB := false, corner := .c }) ∧
    (s.corner = .c → exec i s = .next { s with
      triC := slot s.vc (n.toNat - 1), pushC := false, phase := .newDone })) ∧
  ∀ s : State, exec .auxVarint s = .next { s with vuse := .newCorner, vpos := 0, vres := 0#32, phase := .varintByte }

/-- R140, R236, R240: once the varint of a new-path vertex is read, its zigzag value is added to `last` modulo 2^32,
and the new `last` is a, or b or c by the nibble it stands for, which is then to be pushed. -/
def Obligations.IndexDeltaGivesVertex : Prop :=
  ∀ (s : State) (v : Word), s.events = [] → s.phase = .indexDelta → v = s.last + zigzag32 s.vres →
    (s.vuse = .newA → step s = .next { s with last := v, triA := v, corner := .b, phase := .aux }) ∧
    (s.vuse = .newCorner → s.corner = .b →
      step s = .next { s with last := v, triB := v, pushB := true, corner := .c, phase := .aux }) ∧
    (s.vuse = .newCorner → s.corner = .c →
      step s = .next { s with last := v, triC := v, pushC := true, phase := .newDone })

/-- R232, R235, R241, R242, R244: the end of a new-path triangle. The vertices to be pushed go on the VertexCache, a
first, the three edges on the EdgeCache, and the triangle is written. -/
def Obligations.NewTriangleCompletes : Prop :=
  ∀ s : State, s.events = [] → s.phase = .newDone → s.mem.wf = true →
    ∃ t v1 v2, step s = .next t ∧ VertexPushed s.vc v1 s.triA ∧
      (if s.pushB then VertexPushed v1 v2 s.triB else v2 = v1) ∧
      (if s.pushC then VertexPushed v2 t.vc s.triC else t.vc = v2) ∧
      EdgesPushed s.ec t.ec [s.triA, s.triC, s.triC, s.triB, s.triB, s.triA] ∧
      HoldsTriangle s t s.triA s.triB s.triC ∧
      MemUnchangedOutside (s.dstAddr (3 * s.t * s.args.stride.toNat)) (3 * s.args.stride.toNat) s t ∧
      t = { s with vc := t.vc, ec := t.ec, mem := t.mem, t := s.t + 1, phase := .triangle }

/-- R232 as a whole, with R233, R234 and R244: a code 0xF0 to 0xFD and the three steps after it, a number that is the
model's choice (assumption log 2). a is fresh; b and c are fresh, in that order, for a nibble 0, and otherwise come from
the VertexCache as it was before the triangle; `next` counts the fresh ones. -/
def Obligations.NewTableTriangle : Prop :=
  ∀ (s : State) (b1 z w : Nibble), s.events = [] → s.phase = .triangle → s.t < s.args.triCount → s.mem.wf = true →
    b1.toNat ≤ 13 → 16 ≤ s.args.srcLen.toNat → s.mem.read (s.srcAddr s.ccur) = 15#4 ++ b1 →
    s.mem.read (s.srcAddr (s.args.srcLen.toNat - 16 + b1.toNat)) = z ++ w →
    ∃ t v1 v2 a b c, a = s.next ∧ b = (if z = 0#4 then s.next + 1#32 else slot s.vc (z.toNat - 1)) ∧
      c = (if w = 0#4 then (if z = 0#4 then s.next + 2#32 else s.next + 1#32) else slot s.vc (w.toNat - 1)) ∧
      runFor 4 s = .next t ∧
      t.next = s.next + 1#32 + (if z = 0#4 then 1#32 else 0#32) + (if w = 0#4 then 1#32 else 0#32) ∧
      EdgesPushed s.ec t.ec [a, c, c, b, b, a] ∧ HoldsTriangle s t a b c ∧
      MemUnchangedOutside (s.dstAddr (3 * s.t * s.args.stride.toNat)) (3 * s.args.stride.toNat) s t ∧
      VertexPushed s.vc v1 a ∧ (if z = 0#4 then VertexPushed v1 v2 b else v2 = v1) ∧
      (if w = 0#4 then VertexPushed v2 t.vc c else t.vc = v2) ∧
      t = { s with
        next := t.next, vc := t.vc, ec := t.ec, mem := t.mem, ccur := s.ccur + 1, t := s.t + 1, entry := z ++ w
        triA := a, triB := b, triC := c, pushB := t.pushB, pushC := t.pushC, corner := t.corner, phase := .triangle }

/-- R235 as a whole, with R140, R237 to R240, R243 and R244: a code 0xFE with its aux byte and its varints, of at most
five bytes each (a bound the spec marks as from general knowledge, assumption log 19), in a number of steps that is the
model's choice (assumption log 2). An aux byte 0x00 first sets `next` to 0; then a is fresh, and b and then c are fresh
for a nibble 0, come for a nibble 15 from the next varint, whose zigzag value is added to `last`, and otherwise from the
VertexCache as it was before the triangle. A b or c of a nibble 0 or 15 is pushed after a. -/
def Obligations.NewAuxTriangle : Prop :=
  ∀ (s : State) (z w : Nibble) (vb vc : List Byte) (first lastB lastC : Word), s.events = [] → s.phase = .triangle →
    s.t < s.args.triCount → s.mem.wf = true → s.mem.read (s.srcAddr s.ccur) = 0xFE#8 →
    s.mem.read (s.srcAddr s.cur) = z ++ w → (if z = 15#4 then IsVarint vb else vb = []) →
    (if w = 15#4 then IsVarint vc else vc = []) → HoldsBytes s.mem (s.srcAddr (s.cur + 1)) (vb ++ vc) →
    s.cur + 1 + (vb ++ vc).length ≤ s.lim → first = (if z = 0#4 ∧ w = 0#4 then 0#32 else s.next) →
    lastB = (if z = 15#4 then s.last + zigzag32 (BitVec.ofNat 32 (varintNat vb)) else s.last) →
    lastC = (if w = 15#4 then lastB + zigzag32 (BitVec.ofNat 32 (varintNat vc)) else lastB) →
    ∃ t v1 v2 a b c, a = first ∧
      b = (if z = 0#4 then first + 1#32 else if z = 15#4 then lastB else slot s.vc (z.toNat - 1)) ∧
      c = (if w = 0#4 then (if z = 0#4 then first + 2#32 else first + 1#32)
        else if w = 15#4 then lastC else slot s.vc (w.toNat - 1)) ∧
      runFor (6 + (if z = 15#4 then vb.length + 1 else 0) + (if w = 15#4 then vc.length + 1 else 0)) s = .next t ∧
      t.next = first + 1#32 + (if z = 0#4 then 1#32 else 0#32) + (if w = 0#4 then 1#32 else 0#32) ∧
      EdgesPushed s.ec t.ec [a, c, c, b, b, a] ∧ HoldsTriangle s t a b c ∧
      MemUnchangedOutside (s.dstAddr (3 * s.t * s.args.stride.toNat)) (3 * s.args.stride.toNat) s t ∧
      VertexPushed s.vc v1 a ∧ (if z = 0#4 ∨ z = 15#4 then VertexPushed v1 v2 b else v2 = v1) ∧
      (if w = 0#4 ∨ w = 15#4 then VertexPushed v2 t.vc c else t.vc = v2) ∧
      (z ≠ 15#4 → w ≠ 15#4 → t.vpos = s.vpos ∧ t.vres = s.vres) ∧
      t = { s with
        next := t.next, last := lastC, vc := t.vc, ec := t.ec, mem := t.mem, cur := s.cur + 1 + (vb ++ vc).length
        ccur := s.ccur + 1, t := s.t + 1, entry := z ++ w, aFromVarint := false, triA := a, triB := b, triC := c
        vuse := if z = 15#4 ∨ w = 15#4 then .newCorner else s.vuse, vpos := t.vpos, vres := t.vres
        pushB := t.pushB, pushC := t.pushC, corner := t.corner, phase := .triangle }

/-- R236 as a whole, with R140, R237 to R240, R243 and R244: a code 0xFF with its aux byte and its varints, of at most
five bytes each (a bound the spec marks as from general knowledge, assumption log 19), in a number of steps that is the
model's choice (assumption log 2). An aux byte 0x00 sets `next` to 0; a is `last` plus the zigzag value of the varint
after the aux byte, and is the new `last`; b and then c are fresh for a nibble 0, come for a nibble 15 from the next
varint, whose zigzag value is added to `last`, and otherwise from the VertexCache as it was before the triangle. A b or
c of a nibble 0 or 15 is pushed after a. -/
def Obligations.NewAuxVarintTriangle : Prop :=
  ∀ (s : State) (z w : Nibble) (va vb vc : List Byte) (first lastA lastB lastC : Word), s.events = [] →
    s.phase = .triangle → s.t < s.args.triCount → s.mem.wf = true → s.mem.read (s.srcAddr s.ccur) = 0xFF#8 →
    s.mem.read (s.srcAddr s.cur) = z ++ w → IsVarint va → (if z = 15#4 then IsVarint vb else vb = []) →
    (if w = 15#4 then IsVarint vc else vc = []) → HoldsBytes s.mem (s.srcAddr (s.cur + 1)) (va ++ vb ++ vc) →
    s.cur + 1 + (va ++ vb ++ vc).length ≤ s.lim → first = (if z = 0#4 ∧ w = 0#4 then 0#32 else s.next) →
    lastA = s.last + zigzag32 (BitVec.ofNat 32 (varintNat va)) →
    lastB = (if z = 15#4 then lastA + zigzag32 (BitVec.ofNat 32 (varintNat vb)) else lastA) →
    lastC = (if w = 15#4 then lastB + zigzag32 (BitVec.ofNat 32 (varintNat vc)) else lastB) →
    ∃ t v1 v2 a b c, a = lastA ∧
      b = (if z = 0#4 then first else if z = 15#4 then lastB else slot s.vc (z.toNat - 1)) ∧
      c = (if w = 0#4 then (if z = 0#4 then first + 1#32 else first)
        else if w = 15#4 then lastC else slot s.vc (w.toNat - 1)) ∧
      runFor (7 + va.length + (if z = 15#4 then vb.length + 1 else 0) + (if w = 15#4 then vc.length + 1 else 0)) s =
        .next t ∧
      t.next = first + (if z = 0#4 then 1#32 else 0#32) + (if w = 0#4 then 1#32 else 0#32) ∧
      EdgesPushed s.ec t.ec [a, c, c, b, b, a] ∧ HoldsTriangle s t a b c ∧
      MemUnchangedOutside (s.dstAddr (3 * s.t * s.args.stride.toNat)) (3 * s.args.stride.toNat) s t ∧
      VertexPushed s.vc v1 a ∧ (if z = 0#4 ∨ z = 15#4 then VertexPushed v1 v2 b else v2 = v1) ∧
      (if w = 0#4 ∨ w = 15#4 then VertexPushed v2 t.vc c else t.vc = v2) ∧
      t = { s with
        next := t.next, last := lastC, vc := t.vc, ec := t.ec, mem := t.mem
        cur := s.cur + 1 + (va ++ vb ++ vc).length, ccur := s.ccur + 1, t := s.t + 1, entry := z ++ w
        aFromVarint := true, triA := a, triB := b, triC := c
        vuse := if z = 15#4 ∨ w = 15#4 then .newCorner else .newA, vpos := t.vpos, vres := t.vres
        pushB := t.pushB, pushC := t.pushC, corner := t.corner, phase := .triangle }

/-! ### The sequence decoder -/

/-- R274, R275 with R273 and R276: the parity bit selects the base, the zigzag value of the other bits is added to it
modulo 2^32, the other base is unchanged, and the new base is written as output n. -/
def Obligations.SequenceBases : Prop :=
  ∀ (s : State) (dz : BitVec 31), s.mem.wf = true →
    (∃ t, exec (.seqBase0 dz) s = .next t ∧ t.seqLast0 = s.seqLast0 + BitVec.ofInt 32 (zigzag (dz.zeroExtend 32)) ∧
      HoldsLE t.mem (s.dstAddr (s.n * s.args.stride.toNat)) s.args.stride.toNat t.seqLast0 ∧
      MemUnchangedOutside (s.dstAddr (s.n * s.args.stride.toNat)) s.args.stride.toNat s t ∧
      t = { s with seqLast0 := t.seqLast0, mem := t.mem, n := s.n + 1, phase := .output }) ∧
    (∃ t, exec (.seqBase1 dz) s = .next t ∧ t.seqLast1 = s.seqLast1 + BitVec.ofInt 32 (zigzag (dz.zeroExtend 32)) ∧
      HoldsLE t.mem (s.dstAddr (s.n * s.args.stride.toNat)) s.args.stride.toNat t.seqLast1 ∧
      MemUnchangedOutside (s.dstAddr (s.n * s.args.stride.toNat)) s.args.stride.toNat s t ∧
      t = { s with seqLast1 := t.seqLast1, mem := t.mem, n := s.n + 1, phase := .output })

/-- R270 as a whole, with R273, R276 and R311: where the rest of the data begins with as many whole varints as outputs
are left, of at most five bytes each (a bound the spec marks as from general knowledge, assumption log 19),
DECODE_SEQUENCE ends with success and has written, for every output, the bytes of the value the two running bases give;
it changes no byte outside the target. -/
def Obligations.SequenceDecodesItsStream : Prop :=
  ∀ (s : State) (vs : List (List Byte)), s.Inv → s.events = [] → s.phase = .output →
    s.n + vs.length = s.args.count.toNat → (∀ bs ∈ vs, IsVarint bs) →
    HoldsBytes s.mem (s.srcAddr s.cur) vs.flatten → s.cur + vs.flatten.length ≤ s.lim →
    ∃ k t, runFor k s = .next t ∧ t.phase = .idle ∧ t.doneBit = true ∧ t.errBit = false ∧ t.regs.errOffset = 0#32 ∧
      (∀ i, i < vs.length → HoldsLE t.mem (s.dstAddr ((s.n + i) * s.args.stride.toNat)) s.args.stride.toNat
        ((sequenceOutputs s.seqLast0 s.seqLast1 (vs.map fun bs => BitVec.ofNat 32 (varintNat bs))).getD i 0#32)) ∧
      MemUnchangedOutside s.args.dstBase.toNat (s.args.count.toNat * s.args.stride.toNat) s t

/-! ### The machine -/

/-- R42, R90, R116, R117: a step runs the operation that the next element decodes to. The element comes from the stream
at the data or code cursor, which moves on by one, or from the register that holds it; with no access from outside
pending, the step is exactly `exec` of the operation. That each row is one step is the model's choice (assumption log
2). -/
def Obligations.StepRunsTheDecodedElement : Prop :=
  ∀ (s : State) (i : Instr), s.events = [] →
    (s.phase = .tag → s.args.srcLen ≠ 0#32 → decode (.tag (s.mem.read (s.srcAddr 0))) = .ok i → step s = exec i s) ∧
    (s.phase = .group → s.g < groupCount s.blockRows → decode (.mode (modeBits s.hdr s.g)) = .ok i →
      step s = exec i s) ∧
    (s.phase = .code2 → s.j < 16 → decode (.code2 (code2At s.packed s.j)) = .ok i → step s = exec i s) ∧
    (s.phase = .code4 → s.j < 16 → decode (.code4 (code4At s.packed s.j)) = .ok i → step s = exec i s) ∧
    (s.phase = .literal → s.j < 16 → s.cur < s.lim → decode (.literal (s.mem.read (s.srcAddr s.cur))) = .ok i →
      step s = exec i { s with cur := s.cur + 1 }) ∧
    (s.phase = .filter → decode (.cmdFilter (s.args.filter ++ 1#2)) = .ok i → step s = exec i s) ∧
    (s.phase = .triangle → s.t < s.args.triCount → decode (.triangle (s.mem.read (s.srcAddr s.ccur))) = .ok i →
      step s = exec i { s with ccur := s.ccur + 1 }) ∧
    (s.phase = .auxByte → decode (.auxByte s.entry) = .ok i → step s = exec i s) ∧
    (s.phase = .caux →
      decode (.caux (if s.corner = .b then s.entry.extractLsb' 4 4 else s.entry.extractLsb' 0 4)) = .ok i →
      step s = exec i s) ∧
    (s.phase = .aux →
      decode (.aux (if s.corner = .b then s.entry.extractLsb' 4 4 else s.entry.extractLsb' 0 4)) = .ok i →
      step s = exec i s) ∧
    (s.phase = .varintByte → s.cur < s.lim → decode (.varintByte (s.mem.read (s.srcAddr s.cur))) = .ok i →
      step s = exec i { s with cur := s.cur + 1 }) ∧
    (s.phase = .seqValue → decode (.seqValue s.vres) = .ok i → step s = exec i s) ∧
    (∀ (v : Word) (es : List HostEvent), decode (.cmd v) = .ok i →
      step { s with events := { delay := 0, action := .regWrite 0 4 v } :: es } = exec i { s with events := es })

/-- R33, R45, R60, R64: the invariant of the machine is kept by every step, the block's and the outside's. -/
def Obligations.EveryStepKeepsTheInvariant : Prop := ∀ s t : State, s.Inv → step s = .next t → t.Inv

/-- R340: the machine right after reset meets the invariant. -/
def Obligations.ResetMeetsTheInvariant : Prop := State.reset.Inv

/-- R61, R65, R309: the block's own steps write only the target region of the running command: they change no byte of M
outside it, so in particular no source byte. -/
def Obligations.BlockWritesOnlyItsTarget : Prop :=
  ∀ s t : State, s.Inv → BlockTurn s → step s = .next t →
    MemUnchangedOutside s.args.dstBase.toNat s.args.need s t ∧
    (s.phase ≠ .idle → ∀ off, off < s.args.srcLen.toNat → t.mem.read (s.srcAddr off) = s.mem.read (s.srcAddr off)) ∧
    (s.phase = .idle → MemUnchanged s t)

/-- R352: every started command ends: with no access from outside pending, finitely many steps lead to BUSY = 0. -/
def Obligations.EveryCommandEnds : Prop :=
  ∀ s : State, s.Inv → s.events = [] → ∃ k t, runFor k s = .next t ∧ t.busy = false

/-- R46, R84, R174, R316: a command reads no datapath value that an earlier command left. Two machines that agree on the
parameters, the registers, the latched arguments, M and the number of draws, both at the tag of a command, agree on the
registers, on M and on whether the command is over after any number of steps, whatever their datapath registers held.
That M agrees also in the target of a command that ended in TruncatedSource, which R310 and R316 leave unspecified, is
the model's: a draw is a function of its number and the offset (assumption log 7). So is that both take the same number
of steps (assumption log 2). -/
def Obligations.NothingCarriesOverBetweenCommands : Prop :=
  ∀ (s s' : State) (k : Nat) (t : State), s.phase = .tag → s'.phase = .tag → s.events = [] → s'.events = [] →
    s.params = s'.params → s.regs = s'.regs → s.args = s'.args → s.mem = s'.mem → s.draws = s'.draws →
    runFor k s = .next t →
    ∃ t', runFor k s' = .next t' ∧ t'.regs = t.regs ∧ t'.mem = t.mem ∧ t'.phase = t.phase
end

