-- ==== Sys2Proof/Laws/Memory.lean ====
section
/-! SUPPORT. The laws of the memory M: its canonical form is kept by every operation, a read after a write gives the
value written, and every other address reads as before (spec/20_memory.md R60, R63, R71). -/

namespace Sys2Proof.Machine

/-- The canonical form as two facts: no listed byte is the unlisted value, and addresses strictly rise. -/
theorem memory_wf_iff (m : Memory) :
    m.wf = true ↔ (∀ c ∈ m, c.2 ≠ Memory.unlisted) ∧ m.Pairwise (fun c d => c.1 < d.1) := by
  induction m with
  | nil => simp [Memory.wf]
  | cons c m ih =>
    cases m with
    | nil => simp [Memory.wf]
    | cons d m =>
      rw [Memory.wf, Bool.and_eq_true, Bool.and_eq_true, ih]
      simp only [decide_eq_true_eq, List.mem_cons, List.pairwise_cons]
      constructor
      · rintro ⟨⟨hc, hlt⟩, hv, hd, hp⟩
        refine ⟨?_, ?_, hd, hp⟩
        · rintro x (rfl | rfl | hx)
          · exact hc
          · exact hv _ (Or.inl rfl)
          · exact hv x (Or.inr hx)
        · rintro x (rfl | hx)
          · exact hlt
          · exact lt_trans hlt (hd x hx)
      · rintro ⟨hv, hc, hd, hp⟩
        exact ⟨⟨hv c (Or.inl rfl), hc d (Or.inl rfl)⟩, fun x hx => hv x (Or.inr hx), hd, hp⟩

/-- Where every listed address is above `a`, `a` reads as unlisted. -/
theorem memory_read_below (m : Memory) (a : Nat) (h : ∀ c ∈ m, a < c.1) : m.read a = Memory.unlisted := by
  induction m with
  | nil => rfl
  | cons c m ih =>
    obtain ⟨b, w⟩ := c
    have hb : a < b := h (b, w) (by simp)
    rw [Memory.read, if_neg (by omega)]
    exact ih fun d hd => h d (by simp [hd])

/-- A read after a write to the same address gives the value written. -/
theorem memory_read_write_same (m : Memory) (a : Nat) (v : Byte) (h : m.wf = true) :
    (m.write a v).read a = v := by
  rw [memory_wf_iff] at h
  obtain ⟨-, hp⟩ := h
  induction m with
  | nil => by_cases hv : v = Memory.unlisted <;> simp [Memory.write, Memory.read, hv]
  | cons c m ih =>
    obtain ⟨b, w⟩ := c
    rw [List.pairwise_cons] at hp
    rw [Memory.write]
    by_cases h1 : b < a
    · rw [if_pos h1, Memory.read, if_neg (by omega)]
      exact ih hp.2
    · rw [if_neg h1]
      by_cases h2 : b = a
      · rw [if_pos h2]
        subst h2
        by_cases hv : v = Memory.unlisted
        · rw [if_pos hv, hv]
          exact memory_read_below m b fun d hd => hp.1 d hd
        · simp [hv, Memory.read]
      · rw [if_neg h2]
        by_cases hv : v = Memory.unlisted
        · rw [if_pos hv, hv, Memory.read, if_neg h2]
          exact memory_read_below m a fun d hd => lt_trans (by omega) (hp.1 d hd)
        · simp [hv, Memory.read]

/-- A write leaves every other address alone. -/
theorem memory_read_write_other (m : Memory) (a b : Nat) (v : Byte) (h : b ≠ a) :
    (m.write a v).read b = m.read b := by
  induction m with
  | nil => by_cases hv : v = Memory.unlisted <;> simp [Memory.write, Memory.read, hv, Ne.symm h]
  | cons c m ih =>
    obtain ⟨d, w⟩ := c
    rw [Memory.write]
    by_cases h1 : d < a
    · rw [if_pos h1, Memory.read, Memory.read, ih]
    · rw [if_neg h1]
      by_cases h2 : d = a
      · subst h2
        by_cases hv : v = Memory.unlisted <;> simp [hv, Memory.read, Ne.symm h]
      · rw [if_neg h2]
        by_cases hv : v = Memory.unlisted <;> simp [hv, Memory.read, Ne.symm h]

/-- Every entry of a written memory is an old entry or the written one. -/
theorem memory_mem_write (m : Memory) (a : Nat) (v : Byte) (c : Host.Cell) (h : c ∈ m.write a v) :
    c ∈ m ∨ (c = (a, v) ∧ v ≠ Memory.unlisted) := by
  induction m with
  | nil =>
    by_cases hv : v = Memory.unlisted <;> simp_all [Memory.write]
  | cons d m ih =>
    obtain ⟨b, w⟩ := d
    rw [Memory.write] at h
    split at h
    · rcases List.mem_cons.mp h with rfl | h
      · exact Or.inl (by simp)
      · exact (ih h).imp (fun h => by simp [h]) id
    · split at h
      · split at h
        · exact Or.inl (by simp [h])
        · rcases List.mem_cons.mp h with rfl | h
          · exact Or.inr ⟨rfl, by assumption⟩
          · exact Or.inl (by simp [h])
      · split at h
        · exact Or.inl h
        · rcases List.mem_cons.mp h with rfl | h
          · exact Or.inr ⟨rfl, by assumption⟩
          · exact Or.inl h

/-- A write keeps the canonical form. -/
theorem memory_write_wf (m : Memory) (a : Nat) (v : Byte) (h : m.wf = true) : (m.write a v).wf = true := by
  rw [memory_wf_iff] at h ⊢
  obtain ⟨hn, hp⟩ := h
  refine ⟨fun c hc => ?_, ?_⟩
  · rcases memory_mem_write m a v c hc with h | ⟨rfl, h⟩
    · exact hn c h
    · exact h
  · clear hn
    induction m with
    | nil => by_cases hv : v = Memory.unlisted <;> simp [Memory.write, hv]
    | cons d m ih =>
      obtain ⟨b, w⟩ := d
      rw [List.pairwise_cons] at hp
      rw [Memory.write]
      split
      · rw [List.pairwise_cons]
        refine ⟨fun c hc => ?_, ih hp.2⟩
        rcases memory_mem_write m a v c hc with h | ⟨rfl, -⟩
        · exact hp.1 c h
        · assumption
      · split
        · split
          · exact hp.2
          · rw [List.pairwise_cons]
            exact ⟨fun c hc => by have := hp.1 c hc; simp only at this ⊢; omega, hp.2⟩
        · split
          · exact List.pairwise_cons.mpr hp
          · refine List.pairwise_cons.mpr ⟨fun c hc => ?_, List.pairwise_cons.mpr hp⟩
            rcases List.mem_cons.mp hc with rfl | hc
            · simp only; omega
            · have := hp.1 c hc
              simp only at this ⊢
              omega

/-- Writing bytes keeps the canonical form. -/
theorem memory_writeBytes_wf (bs : List Byte) (m : Memory) (a : Nat) (h : m.wf = true) :
    (m.writeBytes a bs).wf = true := by
  induction bs generalizing m a with
  | nil => exact h
  | cons b bs ih => exact ih _ _ (memory_write_wf m a b h)

/-- Writing bytes leaves every address outside them alone. -/
theorem memory_read_writeBytes_outside (bs : List Byte) (m : Memory) (a b : Nat)
    (h : b < a ∨ a + bs.length ≤ b) : (m.writeBytes a bs).read b = m.read b := by
  induction bs generalizing m a with
  | nil => rfl
  | cons v bs ih =>
    rw [List.length_cons] at h
    rw [Memory.writeBytes, ih _ _ (by omega), memory_read_write_other _ _ _ _ (by omega)]

/-- After writing bytes, each of their addresses reads as its byte. -/
theorem memory_read_writeBytes_inside (bs : List Byte) (m : Memory) (a i : Nat) (hm : m.wf = true)
    (h : i < bs.length) : (m.writeBytes a bs).read (a + i) = bs[i] := by
  induction bs generalizing m a i with
  | nil => simp at h
  | cons v bs ih =>
    rw [Memory.writeBytes]
    cases i with
    | zero =>
      rw [memory_read_writeBytes_outside _ _ _ _ (by omega)]
      exact memory_read_write_same m a v hm
    | succ i =>
      have := ih (m.write a v) (a + 1) i (memory_write_wf m a v hm) (by simpa using h)
      rw [show a + (i + 1) = a + 1 + i by omega, this]
      rfl

/-- A draw keeps the canonical form. -/
theorem memory_drawBytes_wf (n : Nat) (m : Memory) (base d off : Nat) (h : m.wf = true) :
    (m.drawBytes base d off n).wf = true := by
  induction n generalizing m off with
  | zero => exact h
  | succ n ih => exact ih _ _ (memory_write_wf m _ _ h)

/-- A draw leaves every address outside its bytes alone. -/
theorem memory_read_drawBytes_outside (n : Nat) (m : Memory) (base d off b : Nat)
    (h : b < base + off ∨ base + off + n ≤ b) : (m.drawBytes base d off n).read b = m.read b := by
  induction n generalizing m off with
  | zero => rfl
  | succ n ih =>
    rw [Memory.drawBytes, ih _ _ (by omega), memory_read_write_other _ _ _ _ (by omega)]

/-- After a draw, each of its bytes is the free value of its number and offset. -/
theorem memory_read_drawBytes_inside (n : Nat) (m : Memory) (base d off i : Nat) (hm : m.wf = true)
    (h : i < n) : (m.drawBytes base d off n).read (base + off + i) = Config.drawByte d (off + i) := by
  induction n generalizing m off i with
  | zero => omega
  | succ n ih =>
    rw [Memory.drawBytes]
    cases i with
    | zero =>
      rw [memory_read_drawBytes_outside _ _ _ _ _ _ (by omega)]
      exact memory_read_write_same m _ _ hm
    | succ i =>
      have := ih (m.write (base + off) (Config.drawByte d off)) (off + 1) i (memory_write_wf _ _ _ hm) (by omega)
      rw [show base + off + (i + 1) = base + (off + 1) + i by omega, this,
        show off + (i + 1) = off + 1 + i by omega]

@[simp] theorem bytesLE_length (v : Word) (n : Nat) : (bytesLE v n).length = n := by
  induction n generalizing v with
  | zero => rfl
  | succ n ih => rw [bytesLE, List.length_cons, ih]

/-- Byte `i` of `bytes_le(v, n)` (R11) is bits 8i+7 to 8i of v. -/
theorem bytesLE_getElem (v : Word) (n i : Nat) (h : i < (bytesLE v n).length) :
    (bytesLE v n)[i] = v.extractLsb' (8 * i) 8 := by
  induction n generalizing v i with
  | zero => simp at h
  | succ n ih =>
    cases i with
    | zero => simp [bytesLE]
    | succ i =>
      rw [bytesLE_length] at h
      have := ih (v >>> 8) i (by simp; omega)
      simp only [bytesLE, List.getElem_cons_succ, this]
      apply BitVec.eq_of_getLsbD_eq
      intro j hj
      simp only [BitVec.getLsbD_extractLsb', BitVec.getLsbD_ushiftRight, hj, decide_true, Bool.true_and]
      congr 1
      omega

/-- `Memory.readBytes` reads as many bytes as asked. -/
@[simp] theorem memory_readBytes_length (m : Memory) (a n : Nat) : (m.readBytes a n).length = n := by
  induction n generalizing a with
  | zero => rfl
  | succ n ih => rw [Memory.readBytes, List.length_cons, ih]

/-- Memories that agree on the bytes read give the same bytes. -/
theorem memory_readBytes_congr (m m' : Memory) (a n : Nat)
    (h : ∀ b, a ≤ b → b < a + n → m.read b = m'.read b) : m.readBytes a n = m'.readBytes a n := by
  induction n generalizing a with
  | zero => rfl
  | succ n ih =>
    rw [Memory.readBytes, Memory.readBytes, h a (by omega) (by omega), ih (a + 1) fun b h1 h2 => h b (by omega) (by omega)]

end Sys2Proof.Machine
end

