-- ==== Sys2Proof/Laws/Registers.lean ====
section
/-! SUPPORT. The laws of register files: what `slot` reads after a slot is set, after a shift, a push, or a load
(spec/40_primitives.md R132, R133). -/

namespace Sys2Proof.Machine

variable {w n : Nat}

/-- A slot reads as set, inside the file. -/
theorem slot_set_same (v : Vector (BitVec w) n) (i : Nat) (x : BitVec w) (h : i < n) :
    slot (v.setIfInBounds i x) i = x := by
  simp [slot, h]

/-- Setting a slot leaves the others. -/
theorem slot_set_other (v : Vector (BitVec w) n) (i j : Nat) (x : BitVec w) (h : i ≠ j) :
    slot (v.setIfInBounds i x) j = slot v j := by
  simp [slot, h]

/-- `shift(F, n)` (R132), slot by slot. -/
theorem slot_shiftSlots (v : Vector (BitVec w) n) (k i : Nat) (h : i < n) :
    slot (shiftSlots v k) i = if i < k then slot v i else slot v (i - k) := by
  simp [slot, shiftSlots, h]

/-- `push(F, v)` (R133), slot by slot. -/
theorem slot_pushSlot (v : Vector (BitVec w) n) (x : BitVec w) (i : Nat) (h : i < n) :
    slot (pushSlot v x) i = if i = 0 then x else slot v (i - 1) := by
  by_cases hi : i = 0
  · subst hi
    simp [pushSlot, slot_set_same _ _ _ h]
  · rw [pushSlot, slot_set_other _ _ _ _ (Ne.symm hi), slot_shiftSlots _ _ _ h, if_neg (by omega), if_neg hi]

/-- Slots put from `i` up: inside the list the list's values, elsewhere as before. -/
theorem slot_putSlots (xs : List (BitVec w)) (v : Vector (BitVec w) n) (i j : Nat) (hj : j < n) :
    slot (putSlots v i xs) j = if i ≤ j ∧ j < i + xs.length then xs.getD (j - i) 0#w else slot v j := by
  induction xs generalizing v i with
  | nil => simp [putSlots]
  | cons x xs ih =>
    rw [putSlots, ih, List.length_cons]
    by_cases h1 : i = j
    · subst h1
      simp [slot_set_same _ _ _ hj]
    · rw [slot_set_other _ _ _ _ h1]
      by_cases h2 : i + 1 ≤ j ∧ j < i + 1 + xs.length
      · rw [if_pos h2, if_pos (by omega), show j - i = (j - (i + 1)) + 1 by omega, List.getD_cons_succ]
      · rw [if_neg h2, if_neg (by omega)]

/-- Every slot of a constant file reads as the constant. -/
theorem slot_replicate (x : BitVec w) (i : Nat) (h : i < n) : slot (Vector.replicate n x) i = x := by
  simp [slot, h]

end Sys2Proof.Machine
end

