-- ==== Sys2Proof/Laws/State.lean ====
section
/-! SUPPORT. One lemma for each field of the state under each shared update, true by rfl: no later proof unfolds a
record update. -/

namespace Sys2Proof.Machine

@[simp] theorem setCtrl_params (filter op : BitVec 2) (s : State) : (setCtrl filter op s).params = s.params := rfl
@[simp] theorem setCtrl_regs (filter op : BitVec 2) (s : State) : (setCtrl filter op s).regs = { s.regs with ctrl := ctrlWord filter op } := rfl
@[simp] theorem setCtrl_args (filter op : BitVec 2) (s : State) : (setCtrl filter op s).args = s.args := rfl
@[simp] theorem setCtrl_acc (filter op : BitVec 2) (s : State) : (setCtrl filter op s).acc = s.acc := rfl
@[simp] theorem setCtrl_dbuf (filter op : BitVec 2) (s : State) : (setCtrl filter op s).dbuf = s.dbuf := rfl
@[simp] theorem setCtrl_hdr (filter op : BitVec 2) (s : State) : (setCtrl filter op s).hdr = s.hdr := rfl
@[simp] theorem setCtrl_ec (filter op : BitVec 2) (s : State) : (setCtrl filter op s).ec = s.ec := rfl
@[simp] theorem setCtrl_vc (filter op : BitVec 2) (s : State) : (setCtrl filter op s).vc = s.vc := rfl
@[simp] theorem setCtrl_next (filter op : BitVec 2) (s : State) : (setCtrl filter op s).next = s.next := rfl
@[simp] theorem setCtrl_last (filter op : BitVec 2) (s : State) : (setCtrl filter op s).last = s.last := rfl
@[simp] theorem setCtrl_seqLast0 (filter op : BitVec 2) (s : State) : (setCtrl filter op s).seqLast0 = s.seqLast0 := rfl
@[simp] theorem setCtrl_seqLast1 (filter op : BitVec 2) (s : State) : (setCtrl filter op s).seqLast1 = s.seqLast1 := rfl
@[simp] theorem setCtrl_cur (filter op : BitVec 2) (s : State) : (setCtrl filter op s).cur = s.cur := rfl
@[simp] theorem setCtrl_lim (filter op : BitVec 2) (s : State) : (setCtrl filter op s).lim = s.lim := rfl
@[simp] theorem setCtrl_ccur (filter op : BitVec 2) (s : State) : (setCtrl filter op s).ccur = s.ccur := rfl
@[simp] theorem setCtrl_row (filter op : BitVec 2) (s : State) : (setCtrl filter op s).row = s.row := rfl
@[simp] theorem setCtrl_blockBase (filter op : BitVec 2) (s : State) : (setCtrl filter op s).blockBase = s.blockBase := rfl
@[simp] theorem setCtrl_k (filter op : BitVec 2) (s : State) : (setCtrl filter op s).k = s.k := rfl
@[simp] theorem setCtrl_g (filter op : BitVec 2) (s : State) : (setCtrl filter op s).g = s.g := rfl
@[simp] theorem setCtrl_t (filter op : BitVec 2) (s : State) : (setCtrl filter op s).t = s.t := rfl
@[simp] theorem setCtrl_n (filter op : BitVec 2) (s : State) : (setCtrl filter op s).n = s.n := rfl
@[simp] theorem setCtrl_packed (filter op : BitVec 2) (s : State) : (setCtrl filter op s).packed = s.packed := rfl
@[simp] theorem setCtrl_j (filter op : BitVec 2) (s : State) : (setCtrl filter op s).j = s.j := rfl
@[simp] theorem setCtrl_triA (filter op : BitVec 2) (s : State) : (setCtrl filter op s).triA = s.triA := rfl
@[simp] theorem setCtrl_triB (filter op : BitVec 2) (s : State) : (setCtrl filter op s).triB = s.triB := rfl
@[simp] theorem setCtrl_triC (filter op : BitVec 2) (s : State) : (setCtrl filter op s).triC = s.triC := rfl
@[simp] theorem setCtrl_entry (filter op : BitVec 2) (s : State) : (setCtrl filter op s).entry = s.entry := rfl
@[simp] theorem setCtrl_corner (filter op : BitVec 2) (s : State) : (setCtrl filter op s).corner = s.corner := rfl
@[simp] theorem setCtrl_pushB (filter op : BitVec 2) (s : State) : (setCtrl filter op s).pushB = s.pushB := rfl
@[simp] theorem setCtrl_pushC (filter op : BitVec 2) (s : State) : (setCtrl filter op s).pushC = s.pushC := rfl
@[simp] theorem setCtrl_aFromVarint (filter op : BitVec 2) (s : State) : (setCtrl filter op s).aFromVarint = s.aFromVarint := rfl
@[simp] theorem setCtrl_vpos (filter op : BitVec 2) (s : State) : (setCtrl filter op s).vpos = s.vpos := rfl
@[simp] theorem setCtrl_vres (filter op : BitVec 2) (s : State) : (setCtrl filter op s).vres = s.vres := rfl
@[simp] theorem setCtrl_vuse (filter op : BitVec 2) (s : State) : (setCtrl filter op s).vuse = s.vuse := rfl
@[simp] theorem setCtrl_phase (filter op : BitVec 2) (s : State) : (setCtrl filter op s).phase = s.phase := rfl
@[simp] theorem setCtrl_mem (filter op : BitVec 2) (s : State) : (setCtrl filter op s).mem = s.mem := rfl
@[simp] theorem setCtrl_events (filter op : BitVec 2) (s : State) : (setCtrl filter op s).events = s.events := rfl
@[simp] theorem setCtrl_hostData (filter op : BitVec 2) (s : State) : (setCtrl filter op s).hostData = s.hostData := rfl
@[simp] theorem setCtrl_quiet (filter op : BitVec 2) (s : State) : (setCtrl filter op s).quiet = s.quiet := rfl
@[simp] theorem setCtrl_others (filter op : BitVec 2) (s : State) : (setCtrl filter op s).others = s.others := rfl
@[simp] theorem setCtrl_othersQuiet (filter op : BitVec 2) (s : State) : (setCtrl filter op s).othersQuiet = s.othersQuiet := rfl
@[simp] theorem setCtrl_draws (filter op : BitVec 2) (s : State) : (setCtrl filter op s).draws = s.draws := rfl

@[simp] theorem drawTarget_params (s : State) : (drawTarget s).params = s.params := rfl
@[simp] theorem drawTarget_regs (s : State) : (drawTarget s).regs = s.regs := rfl
@[simp] theorem drawTarget_args (s : State) : (drawTarget s).args = s.args := rfl
@[simp] theorem drawTarget_acc (s : State) : (drawTarget s).acc = s.acc := rfl
@[simp] theorem drawTarget_dbuf (s : State) : (drawTarget s).dbuf = s.dbuf := rfl
@[simp] theorem drawTarget_hdr (s : State) : (drawTarget s).hdr = s.hdr := rfl
@[simp] theorem drawTarget_ec (s : State) : (drawTarget s).ec = s.ec := rfl
@[simp] theorem drawTarget_vc (s : State) : (drawTarget s).vc = s.vc := rfl
@[simp] theorem drawTarget_next (s : State) : (drawTarget s).next = s.next := rfl
@[simp] theorem drawTarget_last (s : State) : (drawTarget s).last = s.last := rfl
@[simp] theorem drawTarget_seqLast0 (s : State) : (drawTarget s).seqLast0 = s.seqLast0 := rfl
@[simp] theorem drawTarget_seqLast1 (s : State) : (drawTarget s).seqLast1 = s.seqLast1 := rfl
@[simp] theorem drawTarget_cur (s : State) : (drawTarget s).cur = s.cur := rfl
@[simp] theorem drawTarget_lim (s : State) : (drawTarget s).lim = s.lim := rfl
@[simp] theorem drawTarget_ccur (s : State) : (drawTarget s).ccur = s.ccur := rfl
@[simp] theorem drawTarget_row (s : State) : (drawTarget s).row = s.row := rfl
@[simp] theorem drawTarget_blockBase (s : State) : (drawTarget s).blockBase = s.blockBase := rfl
@[simp] theorem drawTarget_k (s : State) : (drawTarget s).k = s.k := rfl
@[simp] theorem drawTarget_g (s : State) : (drawTarget s).g = s.g := rfl
@[simp] theorem drawTarget_t (s : State) : (drawTarget s).t = s.t := rfl
@[simp] theorem drawTarget_n (s : State) : (drawTarget s).n = s.n := rfl
@[simp] theorem drawTarget_packed (s : State) : (drawTarget s).packed = s.packed := rfl
@[simp] theorem drawTarget_j (s : State) : (drawTarget s).j = s.j := rfl
@[simp] theorem drawTarget_triA (s : State) : (drawTarget s).triA = s.triA := rfl
@[simp] theorem drawTarget_triB (s : State) : (drawTarget s).triB = s.triB := rfl
@[simp] theorem drawTarget_triC (s : State) : (drawTarget s).triC = s.triC := rfl
@[simp] theorem drawTarget_entry (s : State) : (drawTarget s).entry = s.entry := rfl
@[simp] theorem drawTarget_corner (s : State) : (drawTarget s).corner = s.corner := rfl
@[simp] theorem drawTarget_pushB (s : State) : (drawTarget s).pushB = s.pushB := rfl
@[simp] theorem drawTarget_pushC (s : State) : (drawTarget s).pushC = s.pushC := rfl
@[simp] theorem drawTarget_aFromVarint (s : State) : (drawTarget s).aFromVarint = s.aFromVarint := rfl
@[simp] theorem drawTarget_vpos (s : State) : (drawTarget s).vpos = s.vpos := rfl
@[simp] theorem drawTarget_vres (s : State) : (drawTarget s).vres = s.vres := rfl
@[simp] theorem drawTarget_vuse (s : State) : (drawTarget s).vuse = s.vuse := rfl
@[simp] theorem drawTarget_phase (s : State) : (drawTarget s).phase = s.phase := rfl
@[simp] theorem drawTarget_mem (s : State) : (drawTarget s).mem = s.mem.drawBytes s.args.dstBase.toNat s.draws 0 s.args.need := rfl
@[simp] theorem drawTarget_events (s : State) : (drawTarget s).events = s.events := rfl
@[simp] theorem drawTarget_hostData (s : State) : (drawTarget s).hostData = s.hostData := rfl
@[simp] theorem drawTarget_quiet (s : State) : (drawTarget s).quiet = s.quiet := rfl
@[simp] theorem drawTarget_others (s : State) : (drawTarget s).others = s.others := rfl
@[simp] theorem drawTarget_othersQuiet (s : State) : (drawTarget s).othersQuiet = s.othersQuiet := rfl
@[simp] theorem drawTarget_draws (s : State) : (drawTarget s).draws = s.draws + 1 := rfl

@[simp] theorem raise_params (e : ErrorKind) (off : Nat) (s : State) : (raise e off s).params = s.params := rfl
@[simp] theorem raise_regs (e : ErrorKind) (off : Nat) (s : State) : (raise e off s).regs = { s.regs with status := statusFailure e, errOffset := if e = .truncatedSource then BitVec.ofNat 32 off else 0#32 } := rfl
@[simp] theorem raise_args (e : ErrorKind) (off : Nat) (s : State) : (raise e off s).args = s.args := rfl
@[simp] theorem raise_acc (e : ErrorKind) (off : Nat) (s : State) : (raise e off s).acc = s.acc := rfl
@[simp] theorem raise_dbuf (e : ErrorKind) (off : Nat) (s : State) : (raise e off s).dbuf = s.dbuf := rfl
@[simp] theorem raise_hdr (e : ErrorKind) (off : Nat) (s : State) : (raise e off s).hdr = s.hdr := rfl
@[simp] theorem raise_ec (e : ErrorKind) (off : Nat) (s : State) : (raise e off s).ec = s.ec := rfl
@[simp] theorem raise_vc (e : ErrorKind) (off : Nat) (s : State) : (raise e off s).vc = s.vc := rfl
@[simp] theorem raise_next (e : ErrorKind) (off : Nat) (s : State) : (raise e off s).next = s.next := rfl
@[simp] theorem raise_last (e : ErrorKind) (off : Nat) (s : State) : (raise e off s).last = s.last := rfl
@[simp] theorem raise_seqLast0 (e : ErrorKind) (off : Nat) (s : State) : (raise e off s).seqLast0 = s.seqLast0 := rfl
@[simp] theorem raise_seqLast1 (e : ErrorKind) (off : Nat) (s : State) : (raise e off s).seqLast1 = s.seqLast1 := rfl
@[simp] theorem raise_cur (e : ErrorKind) (off : Nat) (s : State) : (raise e off s).cur = s.cur := rfl
@[simp] theorem raise_lim (e : ErrorKind) (off : Nat) (s : State) : (raise e off s).lim = s.lim := rfl
@[simp] theorem raise_ccur (e : ErrorKind) (off : Nat) (s : State) : (raise e off s).ccur = s.ccur := rfl
@[simp] theorem raise_row (e : ErrorKind) (off : Nat) (s : State) : (raise e off s).row = s.row := rfl
@[simp] theorem raise_blockBase (e : ErrorKind) (off : Nat) (s : State) : (raise e off s).blockBase = s.blockBase := rfl
@[simp] theorem raise_k (e : ErrorKind) (off : Nat) (s : State) : (raise e off s).k = s.k := rfl
@[simp] theorem raise_g (e : ErrorKind) (off : Nat) (s : State) : (raise e off s).g = s.g := rfl
@[simp] theorem raise_t (e : ErrorKind) (off : Nat) (s : State) : (raise e off s).t = s.t := rfl
@[simp] theorem raise_n (e : ErrorKind) (off : Nat) (s : State) : (raise e off s).n = s.n := rfl
@[simp] theorem raise_packed (e : ErrorKind) (off : Nat) (s : State) : (raise e off s).packed = s.packed := rfl
@[simp] theorem raise_j (e : ErrorKind) (off : Nat) (s : State) : (raise e off s).j = s.j := rfl
@[simp] theorem raise_triA (e : ErrorKind) (off : Nat) (s : State) : (raise e off s).triA = s.triA := rfl
@[simp] theorem raise_triB (e : ErrorKind) (off : Nat) (s : State) : (raise e off s).triB = s.triB := rfl
@[simp] theorem raise_triC (e : ErrorKind) (off : Nat) (s : State) : (raise e off s).triC = s.triC := rfl
@[simp] theorem raise_entry (e : ErrorKind) (off : Nat) (s : State) : (raise e off s).entry = s.entry := rfl
@[simp] theorem raise_corner (e : ErrorKind) (off : Nat) (s : State) : (raise e off s).corner = s.corner := rfl
@[simp] theorem raise_pushB (e : ErrorKind) (off : Nat) (s : State) : (raise e off s).pushB = s.pushB := rfl
@[simp] theorem raise_pushC (e : ErrorKind) (off : Nat) (s : State) : (raise e off s).pushC = s.pushC := rfl
@[simp] theorem raise_aFromVarint (e : ErrorKind) (off : Nat) (s : State) : (raise e off s).aFromVarint = s.aFromVarint := rfl
@[simp] theorem raise_vpos (e : ErrorKind) (off : Nat) (s : State) : (raise e off s).vpos = s.vpos := rfl
@[simp] theorem raise_vres (e : ErrorKind) (off : Nat) (s : State) : (raise e off s).vres = s.vres := rfl
@[simp] theorem raise_vuse (e : ErrorKind) (off : Nat) (s : State) : (raise e off s).vuse = s.vuse := rfl
@[simp] theorem raise_phase (e : ErrorKind) (off : Nat) (s : State) : (raise e off s).phase = .idle := rfl
@[simp] theorem raise_mem (e : ErrorKind) (off : Nat) (s : State) : (raise e off s).mem = s.mem := rfl
@[simp] theorem raise_events (e : ErrorKind) (off : Nat) (s : State) : (raise e off s).events = s.events := rfl
@[simp] theorem raise_hostData (e : ErrorKind) (off : Nat) (s : State) : (raise e off s).hostData = s.hostData := rfl
@[simp] theorem raise_quiet (e : ErrorKind) (off : Nat) (s : State) : (raise e off s).quiet = s.quiet := rfl
@[simp] theorem raise_others (e : ErrorKind) (off : Nat) (s : State) : (raise e off s).others = s.others := rfl
@[simp] theorem raise_othersQuiet (e : ErrorKind) (off : Nat) (s : State) : (raise e off s).othersQuiet = s.othersQuiet := rfl
@[simp] theorem raise_draws (e : ErrorKind) (off : Nat) (s : State) : (raise e off s).draws = s.draws := rfl

@[simp] theorem complete_params (s : State) : (complete s).params = s.params := rfl
@[simp] theorem complete_regs (s : State) : (complete s).regs = { s.regs with status := statusSuccess, errOffset := 0#32 } := rfl
@[simp] theorem complete_args (s : State) : (complete s).args = s.args := rfl
@[simp] theorem complete_acc (s : State) : (complete s).acc = s.acc := rfl
@[simp] theorem complete_dbuf (s : State) : (complete s).dbuf = s.dbuf := rfl
@[simp] theorem complete_hdr (s : State) : (complete s).hdr = s.hdr := rfl
@[simp] theorem complete_ec (s : State) : (complete s).ec = s.ec := rfl
@[simp] theorem complete_vc (s : State) : (complete s).vc = s.vc := rfl
@[simp] theorem complete_next (s : State) : (complete s).next = s.next := rfl
@[simp] theorem complete_last (s : State) : (complete s).last = s.last := rfl
@[simp] theorem complete_seqLast0 (s : State) : (complete s).seqLast0 = s.seqLast0 := rfl
@[simp] theorem complete_seqLast1 (s : State) : (complete s).seqLast1 = s.seqLast1 := rfl
@[simp] theorem complete_cur (s : State) : (complete s).cur = s.cur := rfl
@[simp] theorem complete_lim (s : State) : (complete s).lim = s.lim := rfl
@[simp] theorem complete_ccur (s : State) : (complete s).ccur = s.ccur := rfl
@[simp] theorem complete_row (s : State) : (complete s).row = s.row := rfl
@[simp] theorem complete_blockBase (s : State) : (complete s).blockBase = s.blockBase := rfl
@[simp] theorem complete_k (s : State) : (complete s).k = s.k := rfl
@[simp] theorem complete_g (s : State) : (complete s).g = s.g := rfl
@[simp] theorem complete_t (s : State) : (complete s).t = s.t := rfl
@[simp] theorem complete_n (s : State) : (complete s).n = s.n := rfl
@[simp] theorem complete_packed (s : State) : (complete s).packed = s.packed := rfl
@[simp] theorem complete_j (s : State) : (complete s).j = s.j := rfl
@[simp] theorem complete_triA (s : State) : (complete s).triA = s.triA := rfl
@[simp] theorem complete_triB (s : State) : (complete s).triB = s.triB := rfl
@[simp] theorem complete_triC (s : State) : (complete s).triC = s.triC := rfl
@[simp] theorem complete_entry (s : State) : (complete s).entry = s.entry := rfl
@[simp] theorem complete_corner (s : State) : (complete s).corner = s.corner := rfl
@[simp] theorem complete_pushB (s : State) : (complete s).pushB = s.pushB := rfl
@[simp] theorem complete_pushC (s : State) : (complete s).pushC = s.pushC := rfl
@[simp] theorem complete_aFromVarint (s : State) : (complete s).aFromVarint = s.aFromVarint := rfl
@[simp] theorem complete_vpos (s : State) : (complete s).vpos = s.vpos := rfl
@[simp] theorem complete_vres (s : State) : (complete s).vres = s.vres := rfl
@[simp] theorem complete_vuse (s : State) : (complete s).vuse = s.vuse := rfl
@[simp] theorem complete_phase (s : State) : (complete s).phase = .idle := rfl
@[simp] theorem complete_mem (s : State) : (complete s).mem = s.mem := rfl
@[simp] theorem complete_events (s : State) : (complete s).events = s.events := rfl
@[simp] theorem complete_hostData (s : State) : (complete s).hostData = s.hostData := rfl
@[simp] theorem complete_quiet (s : State) : (complete s).quiet = s.quiet := rfl
@[simp] theorem complete_others (s : State) : (complete s).others = s.others := rfl
@[simp] theorem complete_othersQuiet (s : State) : (complete s).othersQuiet = s.othersQuiet := rfl
@[simp] theorem complete_draws (s : State) : (complete s).draws = s.draws := rfl

@[simp] theorem launch_params (cmd : Command) (filter : BitVec 2) (s : State) : (launch cmd filter s).params = s.params := rfl
@[simp] theorem launch_regs (cmd : Command) (filter : BitVec 2) (s : State) : (launch cmd filter s).regs = { s.regs with status := statusRunning, errOffset := 0#32 } := rfl
@[simp] theorem launch_args (cmd : Command) (filter : BitVec 2) (s : State) : (launch cmd filter s).args = s.regs.latch cmd filter := rfl
@[simp] theorem launch_acc (cmd : Command) (filter : BitVec 2) (s : State) : (launch cmd filter s).acc = s.acc := rfl
@[simp] theorem launch_dbuf (cmd : Command) (filter : BitVec 2) (s : State) : (launch cmd filter s).dbuf = s.dbuf := rfl
@[simp] theorem launch_hdr (cmd : Command) (filter : BitVec 2) (s : State) : (launch cmd filter s).hdr = s.hdr := rfl
@[simp] theorem launch_ec (cmd : Command) (filter : BitVec 2) (s : State) : (launch cmd filter s).ec = s.ec := rfl
@[simp] theorem launch_vc (cmd : Command) (filter : BitVec 2) (s : State) : (launch cmd filter s).vc = s.vc := rfl
@[simp] theorem launch_next (cmd : Command) (filter : BitVec 2) (s : State) : (launch cmd filter s).next = s.next := rfl
@[simp] theorem launch_last (cmd : Command) (filter : BitVec 2) (s : State) : (launch cmd filter s).last = s.last := rfl
@[simp] theorem launch_seqLast0 (cmd : Command) (filter : BitVec 2) (s : State) : (launch cmd filter s).seqLast0 = s.seqLast0 := rfl
@[simp] theorem launch_seqLast1 (cmd : Command) (filter : BitVec 2) (s : State) : (launch cmd filter s).seqLast1 = s.seqLast1 := rfl
@[simp] theorem launch_cur (cmd : Command) (filter : BitVec 2) (s : State) : (launch cmd filter s).cur = s.cur := rfl
@[simp] theorem launch_lim (cmd : Command) (filter : BitVec 2) (s : State) : (launch cmd filter s).lim = s.lim := rfl
@[simp] theorem launch_ccur (cmd : Command) (filter : BitVec 2) (s : State) : (launch cmd filter s).ccur = s.ccur := rfl
@[simp] theorem launch_row (cmd : Command) (filter : BitVec 2) (s : State) : (launch cmd filter s).row = s.row := rfl
@[simp] theorem launch_blockBase (cmd : Command) (filter : BitVec 2) (s : State) : (launch cmd filter s).blockBase = s.blockBase := rfl
@[simp] theorem launch_k (cmd : Command) (filter : BitVec 2) (s : State) : (launch cmd filter s).k = s.k := rfl
@[simp] theorem launch_g (cmd : Command) (filter : BitVec 2) (s : State) : (launch cmd filter s).g = s.g := rfl
@[simp] theorem launch_t (cmd : Command) (filter : BitVec 2) (s : State) : (launch cmd filter s).t = s.t := rfl
@[simp] theorem launch_n (cmd : Command) (filter : BitVec 2) (s : State) : (launch cmd filter s).n = s.n := rfl
@[simp] theorem launch_packed (cmd : Command) (filter : BitVec 2) (s : State) : (launch cmd filter s).packed = s.packed := rfl
@[simp] theorem launch_j (cmd : Command) (filter : BitVec 2) (s : State) : (launch cmd filter s).j = s.j := rfl
@[simp] theorem launch_triA (cmd : Command) (filter : BitVec 2) (s : State) : (launch cmd filter s).triA = s.triA := rfl
@[simp] theorem launch_triB (cmd : Command) (filter : BitVec 2) (s : State) : (launch cmd filter s).triB = s.triB := rfl
@[simp] theorem launch_triC (cmd : Command) (filter : BitVec 2) (s : State) : (launch cmd filter s).triC = s.triC := rfl
@[simp] theorem launch_entry (cmd : Command) (filter : BitVec 2) (s : State) : (launch cmd filter s).entry = s.entry := rfl
@[simp] theorem launch_corner (cmd : Command) (filter : BitVec 2) (s : State) : (launch cmd filter s).corner = s.corner := rfl
@[simp] theorem launch_pushB (cmd : Command) (filter : BitVec 2) (s : State) : (launch cmd filter s).pushB = s.pushB := rfl
@[simp] theorem launch_pushC (cmd : Command) (filter : BitVec 2) (s : State) : (launch cmd filter s).pushC = s.pushC := rfl
@[simp] theorem launch_aFromVarint (cmd : Command) (filter : BitVec 2) (s : State) : (launch cmd filter s).aFromVarint = s.aFromVarint := rfl
@[simp] theorem launch_vpos (cmd : Command) (filter : BitVec 2) (s : State) : (launch cmd filter s).vpos = s.vpos := rfl
@[simp] theorem launch_vres (cmd : Command) (filter : BitVec 2) (s : State) : (launch cmd filter s).vres = s.vres := rfl
@[simp] theorem launch_vuse (cmd : Command) (filter : BitVec 2) (s : State) : (launch cmd filter s).vuse = s.vuse := rfl
@[simp] theorem launch_phase (cmd : Command) (filter : BitVec 2) (s : State) : (launch cmd filter s).phase = .tag := rfl
@[simp] theorem launch_mem (cmd : Command) (filter : BitVec 2) (s : State) : (launch cmd filter s).mem = s.mem := rfl
@[simp] theorem launch_events (cmd : Command) (filter : BitVec 2) (s : State) : (launch cmd filter s).events = s.events := rfl
@[simp] theorem launch_hostData (cmd : Command) (filter : BitVec 2) (s : State) : (launch cmd filter s).hostData = s.hostData := rfl
@[simp] theorem launch_quiet (cmd : Command) (filter : BitVec 2) (s : State) : (launch cmd filter s).quiet = s.regs.region :: s.quiet := rfl
@[simp] theorem launch_others (cmd : Command) (filter : BitVec 2) (s : State) : (launch cmd filter s).others = s.others := rfl
@[simp] theorem launch_othersQuiet (cmd : Command) (filter : BitVec 2) (s : State) : (launch cmd filter s).othersQuiet = s.othersQuiet := rfl
@[simp] theorem launch_draws (cmd : Command) (filter : BitVec 2) (s : State) : (launch cmd filter s).draws = s.draws := rfl

@[simp] theorem tgtWrite_params (off m : Nat) (v : Word) (s : State) : (tgtWrite off m v s).params = s.params := rfl
@[simp] theorem tgtWrite_regs (off m : Nat) (v : Word) (s : State) : (tgtWrite off m v s).regs = s.regs := rfl
@[simp] theorem tgtWrite_args (off m : Nat) (v : Word) (s : State) : (tgtWrite off m v s).args = s.args := rfl
@[simp] theorem tgtWrite_acc (off m : Nat) (v : Word) (s : State) : (tgtWrite off m v s).acc = s.acc := rfl
@[simp] theorem tgtWrite_dbuf (off m : Nat) (v : Word) (s : State) : (tgtWrite off m v s).dbuf = s.dbuf := rfl
@[simp] theorem tgtWrite_hdr (off m : Nat) (v : Word) (s : State) : (tgtWrite off m v s).hdr = s.hdr := rfl
@[simp] theorem tgtWrite_ec (off m : Nat) (v : Word) (s : State) : (tgtWrite off m v s).ec = s.ec := rfl
@[simp] theorem tgtWrite_vc (off m : Nat) (v : Word) (s : State) : (tgtWrite off m v s).vc = s.vc := rfl
@[simp] theorem tgtWrite_next (off m : Nat) (v : Word) (s : State) : (tgtWrite off m v s).next = s.next := rfl
@[simp] theorem tgtWrite_last (off m : Nat) (v : Word) (s : State) : (tgtWrite off m v s).last = s.last := rfl
@[simp] theorem tgtWrite_seqLast0 (off m : Nat) (v : Word) (s : State) : (tgtWrite off m v s).seqLast0 = s.seqLast0 := rfl
@[simp] theorem tgtWrite_seqLast1 (off m : Nat) (v : Word) (s : State) : (tgtWrite off m v s).seqLast1 = s.seqLast1 := rfl
@[simp] theorem tgtWrite_cur (off m : Nat) (v : Word) (s : State) : (tgtWrite off m v s).cur = s.cur := rfl
@[simp] theorem tgtWrite_lim (off m : Nat) (v : Word) (s : State) : (tgtWrite off m v s).lim = s.lim := rfl
@[simp] theorem tgtWrite_ccur (off m : Nat) (v : Word) (s : State) : (tgtWrite off m v s).ccur = s.ccur := rfl
@[simp] theorem tgtWrite_row (off m : Nat) (v : Word) (s : State) : (tgtWrite off m v s).row = s.row := rfl
@[simp] theorem tgtWrite_blockBase (off m : Nat) (v : Word) (s : State) : (tgtWrite off m v s).blockBase = s.blockBase := rfl
@[simp] theorem tgtWrite_k (off m : Nat) (v : Word) (s : State) : (tgtWrite off m v s).k = s.k := rfl
@[simp] theorem tgtWrite_g (off m : Nat) (v : Word) (s : State) : (tgtWrite off m v s).g = s.g := rfl
@[simp] theorem tgtWrite_t (off m : Nat) (v : Word) (s : State) : (tgtWrite off m v s).t = s.t := rfl
@[simp] theorem tgtWrite_n (off m : Nat) (v : Word) (s : State) : (tgtWrite off m v s).n = s.n := rfl
@[simp] theorem tgtWrite_packed (off m : Nat) (v : Word) (s : State) : (tgtWrite off m v s).packed = s.packed := rfl
@[simp] theorem tgtWrite_j (off m : Nat) (v : Word) (s : State) : (tgtWrite off m v s).j = s.j := rfl
@[simp] theorem tgtWrite_triA (off m : Nat) (v : Word) (s : State) : (tgtWrite off m v s).triA = s.triA := rfl
@[simp] theorem tgtWrite_triB (off m : Nat) (v : Word) (s : State) : (tgtWrite off m v s).triB = s.triB := rfl
@[simp] theorem tgtWrite_triC (off m : Nat) (v : Word) (s : State) : (tgtWrite off m v s).triC = s.triC := rfl
@[simp] theorem tgtWrite_entry (off m : Nat) (v : Word) (s : State) : (tgtWrite off m v s).entry = s.entry := rfl
@[simp] theorem tgtWrite_corner (off m : Nat) (v : Word) (s : State) : (tgtWrite off m v s).corner = s.corner := rfl
@[simp] theorem tgtWrite_pushB (off m : Nat) (v : Word) (s : State) : (tgtWrite off m v s).pushB = s.pushB := rfl
@[simp] theorem tgtWrite_pushC (off m : Nat) (v : Word) (s : State) : (tgtWrite off m v s).pushC = s.pushC := rfl
@[simp] theorem tgtWrite_aFromVarint (off m : Nat) (v : Word) (s : State) : (tgtWrite off m v s).aFromVarint = s.aFromVarint := rfl
@[simp] theorem tgtWrite_vpos (off m : Nat) (v : Word) (s : State) : (tgtWrite off m v s).vpos = s.vpos := rfl
@[simp] theorem tgtWrite_vres (off m : Nat) (v : Word) (s : State) : (tgtWrite off m v s).vres = s.vres := rfl
@[simp] theorem tgtWrite_vuse (off m : Nat) (v : Word) (s : State) : (tgtWrite off m v s).vuse = s.vuse := rfl
@[simp] theorem tgtWrite_phase (off m : Nat) (v : Word) (s : State) : (tgtWrite off m v s).phase = s.phase := rfl
@[simp] theorem tgtWrite_mem (off m : Nat) (v : Word) (s : State) : (tgtWrite off m v s).mem = s.mem.writeBytes (s.dstAddr off) (bytesLE v m) := rfl
@[simp] theorem tgtWrite_events (off m : Nat) (v : Word) (s : State) : (tgtWrite off m v s).events = s.events := rfl
@[simp] theorem tgtWrite_hostData (off m : Nat) (v : Word) (s : State) : (tgtWrite off m v s).hostData = s.hostData := rfl
@[simp] theorem tgtWrite_quiet (off m : Nat) (v : Word) (s : State) : (tgtWrite off m v s).quiet = s.quiet := rfl
@[simp] theorem tgtWrite_others (off m : Nat) (v : Word) (s : State) : (tgtWrite off m v s).others = s.others := rfl
@[simp] theorem tgtWrite_othersQuiet (off m : Nat) (v : Word) (s : State) : (tgtWrite off m v s).othersQuiet = s.othersQuiet := rfl
@[simp] theorem tgtWrite_draws (off m : Nat) (v : Word) (s : State) : (tgtWrite off m v s).draws = s.draws := rfl

@[simp] theorem putDelta_params (x : Byte) (s : State) : (putDelta x s).params = s.params := rfl
@[simp] theorem putDelta_regs (x : Byte) (s : State) : (putDelta x s).regs = s.regs := rfl
@[simp] theorem putDelta_args (x : Byte) (s : State) : (putDelta x s).args = s.args := rfl
@[simp] theorem putDelta_acc (x : Byte) (s : State) : (putDelta x s).acc = s.acc := rfl
@[simp] theorem putDelta_dbuf (x : Byte) (s : State) : (putDelta x s).dbuf = s.dbuf.setIfInBounds s.j x := rfl
@[simp] theorem putDelta_hdr (x : Byte) (s : State) : (putDelta x s).hdr = s.hdr := rfl
@[simp] theorem putDelta_ec (x : Byte) (s : State) : (putDelta x s).ec = s.ec := rfl
@[simp] theorem putDelta_vc (x : Byte) (s : State) : (putDelta x s).vc = s.vc := rfl
@[simp] theorem putDelta_next (x : Byte) (s : State) : (putDelta x s).next = s.next := rfl
@[simp] theorem putDelta_last (x : Byte) (s : State) : (putDelta x s).last = s.last := rfl
@[simp] theorem putDelta_seqLast0 (x : Byte) (s : State) : (putDelta x s).seqLast0 = s.seqLast0 := rfl
@[simp] theorem putDelta_seqLast1 (x : Byte) (s : State) : (putDelta x s).seqLast1 = s.seqLast1 := rfl
@[simp] theorem putDelta_cur (x : Byte) (s : State) : (putDelta x s).cur = s.cur := rfl
@[simp] theorem putDelta_lim (x : Byte) (s : State) : (putDelta x s).lim = s.lim := rfl
@[simp] theorem putDelta_ccur (x : Byte) (s : State) : (putDelta x s).ccur = s.ccur := rfl
@[simp] theorem putDelta_row (x : Byte) (s : State) : (putDelta x s).row = s.row := rfl
@[simp] theorem putDelta_blockBase (x : Byte) (s : State) : (putDelta x s).blockBase = s.blockBase := rfl
@[simp] theorem putDelta_k (x : Byte) (s : State) : (putDelta x s).k = s.k := rfl
@[simp] theorem putDelta_g (x : Byte) (s : State) : (putDelta x s).g = s.g := rfl
@[simp] theorem putDelta_t (x : Byte) (s : State) : (putDelta x s).t = s.t := rfl
@[simp] theorem putDelta_n (x : Byte) (s : State) : (putDelta x s).n = s.n := rfl
@[simp] theorem putDelta_packed (x : Byte) (s : State) : (putDelta x s).packed = s.packed := rfl
@[simp] theorem putDelta_j (x : Byte) (s : State) : (putDelta x s).j = s.j + 1 := rfl
@[simp] theorem putDelta_triA (x : Byte) (s : State) : (putDelta x s).triA = s.triA := rfl
@[simp] theorem putDelta_triB (x : Byte) (s : State) : (putDelta x s).triB = s.triB := rfl
@[simp] theorem putDelta_triC (x : Byte) (s : State) : (putDelta x s).triC = s.triC := rfl
@[simp] theorem putDelta_entry (x : Byte) (s : State) : (putDelta x s).entry = s.entry := rfl
@[simp] theorem putDelta_corner (x : Byte) (s : State) : (putDelta x s).corner = s.corner := rfl
@[simp] theorem putDelta_pushB (x : Byte) (s : State) : (putDelta x s).pushB = s.pushB := rfl
@[simp] theorem putDelta_pushC (x : Byte) (s : State) : (putDelta x s).pushC = s.pushC := rfl
@[simp] theorem putDelta_aFromVarint (x : Byte) (s : State) : (putDelta x s).aFromVarint = s.aFromVarint := rfl
@[simp] theorem putDelta_vpos (x : Byte) (s : State) : (putDelta x s).vpos = s.vpos := rfl
@[simp] theorem putDelta_vres (x : Byte) (s : State) : (putDelta x s).vres = s.vres := rfl
@[simp] theorem putDelta_vuse (x : Byte) (s : State) : (putDelta x s).vuse = s.vuse := rfl
@[simp] theorem putDelta_phase (x : Byte) (s : State) : (putDelta x s).phase = s.phase := rfl
@[simp] theorem putDelta_mem (x : Byte) (s : State) : (putDelta x s).mem = s.mem := rfl
@[simp] theorem putDelta_events (x : Byte) (s : State) : (putDelta x s).events = s.events := rfl
@[simp] theorem putDelta_hostData (x : Byte) (s : State) : (putDelta x s).hostData = s.hostData := rfl
@[simp] theorem putDelta_quiet (x : Byte) (s : State) : (putDelta x s).quiet = s.quiet := rfl
@[simp] theorem putDelta_others (x : Byte) (s : State) : (putDelta x s).others = s.others := rfl
@[simp] theorem putDelta_othersQuiet (x : Byte) (s : State) : (putDelta x s).othersQuiet = s.othersQuiet := rfl
@[simp] theorem putDelta_draws (x : Byte) (s : State) : (putDelta x s).draws = s.draws := rfl

@[simp] theorem startVarint_params (u : VarintUse) (s : State) : (startVarint u s).params = s.params := rfl
@[simp] theorem startVarint_regs (u : VarintUse) (s : State) : (startVarint u s).regs = s.regs := rfl
@[simp] theorem startVarint_args (u : VarintUse) (s : State) : (startVarint u s).args = s.args := rfl
@[simp] theorem startVarint_acc (u : VarintUse) (s : State) : (startVarint u s).acc = s.acc := rfl
@[simp] theorem startVarint_dbuf (u : VarintUse) (s : State) : (startVarint u s).dbuf = s.dbuf := rfl
@[simp] theorem startVarint_hdr (u : VarintUse) (s : State) : (startVarint u s).hdr = s.hdr := rfl
@[simp] theorem startVarint_ec (u : VarintUse) (s : State) : (startVarint u s).ec = s.ec := rfl
@[simp] theorem startVarint_vc (u : VarintUse) (s : State) : (startVarint u s).vc = s.vc := rfl
@[simp] theorem startVarint_next (u : VarintUse) (s : State) : (startVarint u s).next = s.next := rfl
@[simp] theorem startVarint_last (u : VarintUse) (s : State) : (startVarint u s).last = s.last := rfl
@[simp] theorem startVarint_seqLast0 (u : VarintUse) (s : State) : (startVarint u s).seqLast0 = s.seqLast0 := rfl
@[simp] theorem startVarint_seqLast1 (u : VarintUse) (s : State) : (startVarint u s).seqLast1 = s.seqLast1 := rfl
@[simp] theorem startVarint_cur (u : VarintUse) (s : State) : (startVarint u s).cur = s.cur := rfl
@[simp] theorem startVarint_lim (u : VarintUse) (s : State) : (startVarint u s).lim = s.lim := rfl
@[simp] theorem startVarint_ccur (u : VarintUse) (s : State) : (startVarint u s).ccur = s.ccur := rfl
@[simp] theorem startVarint_row (u : VarintUse) (s : State) : (startVarint u s).row = s.row := rfl
@[simp] theorem startVarint_blockBase (u : VarintUse) (s : State) : (startVarint u s).blockBase = s.blockBase := rfl
@[simp] theorem startVarint_k (u : VarintUse) (s : State) : (startVarint u s).k = s.k := rfl
@[simp] theorem startVarint_g (u : VarintUse) (s : State) : (startVarint u s).g = s.g := rfl
@[simp] theorem startVarint_t (u : VarintUse) (s : State) : (startVarint u s).t = s.t := rfl
@[simp] theorem startVarint_n (u : VarintUse) (s : State) : (startVarint u s).n = s.n := rfl
@[simp] theorem startVarint_packed (u : VarintUse) (s : State) : (startVarint u s).packed = s.packed := rfl
@[simp] theorem startVarint_j (u : VarintUse) (s : State) : (startVarint u s).j = s.j := rfl
@[simp] theorem startVarint_triA (u : VarintUse) (s : State) : (startVarint u s).triA = s.triA := rfl
@[simp] theorem startVarint_triB (u : VarintUse) (s : State) : (startVarint u s).triB = s.triB := rfl
@[simp] theorem startVarint_triC (u : VarintUse) (s : State) : (startVarint u s).triC = s.triC := rfl
@[simp] theorem startVarint_entry (u : VarintUse) (s : State) : (startVarint u s).entry = s.entry := rfl
@[simp] theorem startVarint_corner (u : VarintUse) (s : State) : (startVarint u s).corner = s.corner := rfl
@[simp] theorem startVarint_pushB (u : VarintUse) (s : State) : (startVarint u s).pushB = s.pushB := rfl
@[simp] theorem startVarint_pushC (u : VarintUse) (s : State) : (startVarint u s).pushC = s.pushC := rfl
@[simp] theorem startVarint_aFromVarint (u : VarintUse) (s : State) : (startVarint u s).aFromVarint = s.aFromVarint := rfl
@[simp] theorem startVarint_vpos (u : VarintUse) (s : State) : (startVarint u s).vpos = 0 := rfl
@[simp] theorem startVarint_vres (u : VarintUse) (s : State) : (startVarint u s).vres = 0#32 := rfl
@[simp] theorem startVarint_vuse (u : VarintUse) (s : State) : (startVarint u s).vuse = u := rfl
@[simp] theorem startVarint_phase (u : VarintUse) (s : State) : (startVarint u s).phase = .varintByte := rfl
@[simp] theorem startVarint_mem (u : VarintUse) (s : State) : (startVarint u s).mem = s.mem := rfl
@[simp] theorem startVarint_events (u : VarintUse) (s : State) : (startVarint u s).events = s.events := rfl
@[simp] theorem startVarint_hostData (u : VarintUse) (s : State) : (startVarint u s).hostData = s.hostData := rfl
@[simp] theorem startVarint_quiet (u : VarintUse) (s : State) : (startVarint u s).quiet = s.quiet := rfl
@[simp] theorem startVarint_others (u : VarintUse) (s : State) : (startVarint u s).others = s.others := rfl
@[simp] theorem startVarint_othersQuiet (u : VarintUse) (s : State) : (startVarint u s).othersQuiet = s.othersQuiet := rfl
@[simp] theorem startVarint_draws (u : VarintUse) (s : State) : (startVarint u s).draws = s.draws := rfl

@[simp] theorem endVarint_params (s : State) : (endVarint s).params = s.params := rfl
@[simp] theorem endVarint_regs (s : State) : (endVarint s).regs = s.regs := rfl
@[simp] theorem endVarint_args (s : State) : (endVarint s).args = s.args := rfl
@[simp] theorem endVarint_acc (s : State) : (endVarint s).acc = s.acc := rfl
@[simp] theorem endVarint_dbuf (s : State) : (endVarint s).dbuf = s.dbuf := rfl
@[simp] theorem endVarint_hdr (s : State) : (endVarint s).hdr = s.hdr := rfl
@[simp] theorem endVarint_ec (s : State) : (endVarint s).ec = s.ec := rfl
@[simp] theorem endVarint_vc (s : State) : (endVarint s).vc = s.vc := rfl
@[simp] theorem endVarint_next (s : State) : (endVarint s).next = s.next := rfl
@[simp] theorem endVarint_last (s : State) : (endVarint s).last = s.last := rfl
@[simp] theorem endVarint_seqLast0 (s : State) : (endVarint s).seqLast0 = s.seqLast0 := rfl
@[simp] theorem endVarint_seqLast1 (s : State) : (endVarint s).seqLast1 = s.seqLast1 := rfl
@[simp] theorem endVarint_cur (s : State) : (endVarint s).cur = s.cur := rfl
@[simp] theorem endVarint_lim (s : State) : (endVarint s).lim = s.lim := rfl
@[simp] theorem endVarint_ccur (s : State) : (endVarint s).ccur = s.ccur := rfl
@[simp] theorem endVarint_row (s : State) : (endVarint s).row = s.row := rfl
@[simp] theorem endVarint_blockBase (s : State) : (endVarint s).blockBase = s.blockBase := rfl
@[simp] theorem endVarint_k (s : State) : (endVarint s).k = s.k := rfl
@[simp] theorem endVarint_g (s : State) : (endVarint s).g = s.g := rfl
@[simp] theorem endVarint_t (s : State) : (endVarint s).t = s.t := rfl
@[simp] theorem endVarint_n (s : State) : (endVarint s).n = s.n := rfl
@[simp] theorem endVarint_packed (s : State) : (endVarint s).packed = s.packed := rfl
@[simp] theorem endVarint_j (s : State) : (endVarint s).j = s.j := rfl
@[simp] theorem endVarint_triA (s : State) : (endVarint s).triA = s.triA := rfl
@[simp] theorem endVarint_triB (s : State) : (endVarint s).triB = s.triB := rfl
@[simp] theorem endVarint_triC (s : State) : (endVarint s).triC = s.triC := rfl
@[simp] theorem endVarint_entry (s : State) : (endVarint s).entry = s.entry := rfl
@[simp] theorem endVarint_corner (s : State) : (endVarint s).corner = s.corner := rfl
@[simp] theorem endVarint_pushB (s : State) : (endVarint s).pushB = s.pushB := rfl
@[simp] theorem endVarint_pushC (s : State) : (endVarint s).pushC = s.pushC := rfl
@[simp] theorem endVarint_aFromVarint (s : State) : (endVarint s).aFromVarint = s.aFromVarint := rfl
@[simp] theorem endVarint_vpos (s : State) : (endVarint s).vpos = s.vpos := rfl
@[simp] theorem endVarint_vres (s : State) : (endVarint s).vres = s.vres := rfl
@[simp] theorem endVarint_vuse (s : State) : (endVarint s).vuse = s.vuse := rfl
@[simp] theorem endVarint_phase (s : State) : (endVarint s).phase = if s.vuse = .sequence then .seqValue else .indexDelta := rfl
@[simp] theorem endVarint_mem (s : State) : (endVarint s).mem = s.mem := rfl
@[simp] theorem endVarint_events (s : State) : (endVarint s).events = s.events := rfl
@[simp] theorem endVarint_hostData (s : State) : (endVarint s).hostData = s.hostData := rfl
@[simp] theorem endVarint_quiet (s : State) : (endVarint s).quiet = s.quiet := rfl
@[simp] theorem endVarint_others (s : State) : (endVarint s).others = s.others := rfl
@[simp] theorem endVarint_othersQuiet (s : State) : (endVarint s).othersQuiet = s.othersQuiet := rfl
@[simp] theorem endVarint_draws (s : State) : (endVarint s).draws = s.draws := rfl

@[simp] theorem joinVarint_params (p : BitVec 7) (s : State) : (joinVarint p s).params = s.params := rfl
@[simp] theorem joinVarint_regs (p : BitVec 7) (s : State) : (joinVarint p s).regs = s.regs := rfl
@[simp] theorem joinVarint_args (p : BitVec 7) (s : State) : (joinVarint p s).args = s.args := rfl
@[simp] theorem joinVarint_acc (p : BitVec 7) (s : State) : (joinVarint p s).acc = s.acc := rfl
@[simp] theorem joinVarint_dbuf (p : BitVec 7) (s : State) : (joinVarint p s).dbuf = s.dbuf := rfl
@[simp] theorem joinVarint_hdr (p : BitVec 7) (s : State) : (joinVarint p s).hdr = s.hdr := rfl
@[simp] theorem joinVarint_ec (p : BitVec 7) (s : State) : (joinVarint p s).ec = s.ec := rfl
@[simp] theorem joinVarint_vc (p : BitVec 7) (s : State) : (joinVarint p s).vc = s.vc := rfl
@[simp] theorem joinVarint_next (p : BitVec 7) (s : State) : (joinVarint p s).next = s.next := rfl
@[simp] theorem joinVarint_last (p : BitVec 7) (s : State) : (joinVarint p s).last = s.last := rfl
@[simp] theorem joinVarint_seqLast0 (p : BitVec 7) (s : State) : (joinVarint p s).seqLast0 = s.seqLast0 := rfl
@[simp] theorem joinVarint_seqLast1 (p : BitVec 7) (s : State) : (joinVarint p s).seqLast1 = s.seqLast1 := rfl
@[simp] theorem joinVarint_cur (p : BitVec 7) (s : State) : (joinVarint p s).cur = s.cur := rfl
@[simp] theorem joinVarint_lim (p : BitVec 7) (s : State) : (joinVarint p s).lim = s.lim := rfl
@[simp] theorem joinVarint_ccur (p : BitVec 7) (s : State) : (joinVarint p s).ccur = s.ccur := rfl
@[simp] theorem joinVarint_row (p : BitVec 7) (s : State) : (joinVarint p s).row = s.row := rfl
@[simp] theorem joinVarint_blockBase (p : BitVec 7) (s : State) : (joinVarint p s).blockBase = s.blockBase := rfl
@[simp] theorem joinVarint_k (p : BitVec 7) (s : State) : (joinVarint p s).k = s.k := rfl
@[simp] theorem joinVarint_g (p : BitVec 7) (s : State) : (joinVarint p s).g = s.g := rfl
@[simp] theorem joinVarint_t (p : BitVec 7) (s : State) : (joinVarint p s).t = s.t := rfl
@[simp] theorem joinVarint_n (p : BitVec 7) (s : State) : (joinVarint p s).n = s.n := rfl
@[simp] theorem joinVarint_packed (p : BitVec 7) (s : State) : (joinVarint p s).packed = s.packed := rfl
@[simp] theorem joinVarint_j (p : BitVec 7) (s : State) : (joinVarint p s).j = s.j := rfl
@[simp] theorem joinVarint_triA (p : BitVec 7) (s : State) : (joinVarint p s).triA = s.triA := rfl
@[simp] theorem joinVarint_triB (p : BitVec 7) (s : State) : (joinVarint p s).triB = s.triB := rfl
@[simp] theorem joinVarint_triC (p : BitVec 7) (s : State) : (joinVarint p s).triC = s.triC := rfl
@[simp] theorem joinVarint_entry (p : BitVec 7) (s : State) : (joinVarint p s).entry = s.entry := rfl
@[simp] theorem joinVarint_corner (p : BitVec 7) (s : State) : (joinVarint p s).corner = s.corner := rfl
@[simp] theorem joinVarint_pushB (p : BitVec 7) (s : State) : (joinVarint p s).pushB = s.pushB := rfl
@[simp] theorem joinVarint_pushC (p : BitVec 7) (s : State) : (joinVarint p s).pushC = s.pushC := rfl
@[simp] theorem joinVarint_aFromVarint (p : BitVec 7) (s : State) : (joinVarint p s).aFromVarint = s.aFromVarint := rfl
@[simp] theorem joinVarint_vpos (p : BitVec 7) (s : State) : (joinVarint p s).vpos = s.vpos := rfl
@[simp] theorem joinVarint_vres (p : BitVec 7) (s : State) : (joinVarint p s).vres = varintJoin s.vres s.vpos p := rfl
@[simp] theorem joinVarint_vuse (p : BitVec 7) (s : State) : (joinVarint p s).vuse = s.vuse := rfl
@[simp] theorem joinVarint_phase (p : BitVec 7) (s : State) : (joinVarint p s).phase = s.phase := rfl
@[simp] theorem joinVarint_mem (p : BitVec 7) (s : State) : (joinVarint p s).mem = s.mem := rfl
@[simp] theorem joinVarint_events (p : BitVec 7) (s : State) : (joinVarint p s).events = s.events := rfl
@[simp] theorem joinVarint_hostData (p : BitVec 7) (s : State) : (joinVarint p s).hostData = s.hostData := rfl
@[simp] theorem joinVarint_quiet (p : BitVec 7) (s : State) : (joinVarint p s).quiet = s.quiet := rfl
@[simp] theorem joinVarint_others (p : BitVec 7) (s : State) : (joinVarint p s).others = s.others := rfl
@[simp] theorem joinVarint_othersQuiet (p : BitVec 7) (s : State) : (joinVarint p s).othersQuiet = s.othersQuiet := rfl
@[simp] theorem joinVarint_draws (p : BitVec 7) (s : State) : (joinVarint p s).draws = s.draws := rfl

@[simp] theorem pushEdges_params (m : Nat) (edges : List Word) (s : State) : (pushEdges m edges s).params = s.params := rfl
@[simp] theorem pushEdges_regs (m : Nat) (edges : List Word) (s : State) : (pushEdges m edges s).regs = s.regs := rfl
@[simp] theorem pushEdges_args (m : Nat) (edges : List Word) (s : State) : (pushEdges m edges s).args = s.args := rfl
@[simp] theorem pushEdges_acc (m : Nat) (edges : List Word) (s : State) : (pushEdges m edges s).acc = s.acc := rfl
@[simp] theorem pushEdges_dbuf (m : Nat) (edges : List Word) (s : State) : (pushEdges m edges s).dbuf = s.dbuf := rfl
@[simp] theorem pushEdges_hdr (m : Nat) (edges : List Word) (s : State) : (pushEdges m edges s).hdr = s.hdr := rfl
@[simp] theorem pushEdges_ec (m : Nat) (edges : List Word) (s : State) : (pushEdges m edges s).ec = putSlots (shiftSlots s.ec m) 0 edges := rfl
@[simp] theorem pushEdges_vc (m : Nat) (edges : List Word) (s : State) : (pushEdges m edges s).vc = s.vc := rfl
@[simp] theorem pushEdges_next (m : Nat) (edges : List Word) (s : State) : (pushEdges m edges s).next = s.next := rfl
@[simp] theorem pushEdges_last (m : Nat) (edges : List Word) (s : State) : (pushEdges m edges s).last = s.last := rfl
@[simp] theorem pushEdges_seqLast0 (m : Nat) (edges : List Word) (s : State) : (pushEdges m edges s).seqLast0 = s.seqLast0 := rfl
@[simp] theorem pushEdges_seqLast1 (m : Nat) (edges : List Word) (s : State) : (pushEdges m edges s).seqLast1 = s.seqLast1 := rfl
@[simp] theorem pushEdges_cur (m : Nat) (edges : List Word) (s : State) : (pushEdges m edges s).cur = s.cur := rfl
@[simp] theorem pushEdges_lim (m : Nat) (edges : List Word) (s : State) : (pushEdges m edges s).lim = s.lim := rfl
@[simp] theorem pushEdges_ccur (m : Nat) (edges : List Word) (s : State) : (pushEdges m edges s).ccur = s.ccur := rfl
@[simp] theorem pushEdges_row (m : Nat) (edges : List Word) (s : State) : (pushEdges m edges s).row = s.row := rfl
@[simp] theorem pushEdges_blockBase (m : Nat) (edges : List Word) (s : State) : (pushEdges m edges s).blockBase = s.blockBase := rfl
@[simp] theorem pushEdges_k (m : Nat) (edges : List Word) (s : State) : (pushEdges m edges s).k = s.k := rfl
@[simp] theorem pushEdges_g (m : Nat) (edges : List Word) (s : State) : (pushEdges m edges s).g = s.g := rfl
@[simp] theorem pushEdges_t (m : Nat) (edges : List Word) (s : State) : (pushEdges m edges s).t = s.t := rfl
@[simp] theorem pushEdges_n (m : Nat) (edges : List Word) (s : State) : (pushEdges m edges s).n = s.n := rfl
@[simp] theorem pushEdges_packed (m : Nat) (edges : List Word) (s : State) : (pushEdges m edges s).packed = s.packed := rfl
@[simp] theorem pushEdges_j (m : Nat) (edges : List Word) (s : State) : (pushEdges m edges s).j = s.j := rfl
@[simp] theorem pushEdges_triA (m : Nat) (edges : List Word) (s : State) : (pushEdges m edges s).triA = s.triA := rfl
@[simp] theorem pushEdges_triB (m : Nat) (edges : List Word) (s : State) : (pushEdges m edges s).triB = s.triB := rfl
@[simp] theorem pushEdges_triC (m : Nat) (edges : List Word) (s : State) : (pushEdges m edges s).triC = s.triC := rfl
@[simp] theorem pushEdges_entry (m : Nat) (edges : List Word) (s : State) : (pushEdges m edges s).entry = s.entry := rfl
@[simp] theorem pushEdges_corner (m : Nat) (edges : List Word) (s : State) : (pushEdges m edges s).corner = s.corner := rfl
@[simp] theorem pushEdges_pushB (m : Nat) (edges : List Word) (s : State) : (pushEdges m edges s).pushB = s.pushB := rfl
@[simp] theorem pushEdges_pushC (m : Nat) (edges : List Word) (s : State) : (pushEdges m edges s).pushC = s.pushC := rfl
@[simp] theorem pushEdges_aFromVarint (m : Nat) (edges : List Word) (s : State) : (pushEdges m edges s).aFromVarint = s.aFromVarint := rfl
@[simp] theorem pushEdges_vpos (m : Nat) (edges : List Word) (s : State) : (pushEdges m edges s).vpos = s.vpos := rfl
@[simp] theorem pushEdges_vres (m : Nat) (edges : List Word) (s : State) : (pushEdges m edges s).vres = s.vres := rfl
@[simp] theorem pushEdges_vuse (m : Nat) (edges : List Word) (s : State) : (pushEdges m edges s).vuse = s.vuse := rfl
@[simp] theorem pushEdges_phase (m : Nat) (edges : List Word) (s : State) : (pushEdges m edges s).phase = s.phase := rfl
@[simp] theorem pushEdges_mem (m : Nat) (edges : List Word) (s : State) : (pushEdges m edges s).mem = s.mem := rfl
@[simp] theorem pushEdges_events (m : Nat) (edges : List Word) (s : State) : (pushEdges m edges s).events = s.events := rfl
@[simp] theorem pushEdges_hostData (m : Nat) (edges : List Word) (s : State) : (pushEdges m edges s).hostData = s.hostData := rfl
@[simp] theorem pushEdges_quiet (m : Nat) (edges : List Word) (s : State) : (pushEdges m edges s).quiet = s.quiet := rfl
@[simp] theorem pushEdges_others (m : Nat) (edges : List Word) (s : State) : (pushEdges m edges s).others = s.others := rfl
@[simp] theorem pushEdges_othersQuiet (m : Nat) (edges : List Word) (s : State) : (pushEdges m edges s).othersQuiet = s.othersQuiet := rfl
@[simp] theorem pushEdges_draws (m : Nat) (edges : List Word) (s : State) : (pushEdges m edges s).draws = s.draws := rfl

@[simp] theorem pushVertex_params (v : Word) (s : State) : (pushVertex v s).params = s.params := rfl
@[simp] theorem pushVertex_regs (v : Word) (s : State) : (pushVertex v s).regs = s.regs := rfl
@[simp] theorem pushVertex_args (v : Word) (s : State) : (pushVertex v s).args = s.args := rfl
@[simp] theorem pushVertex_acc (v : Word) (s : State) : (pushVertex v s).acc = s.acc := rfl
@[simp] theorem pushVertex_dbuf (v : Word) (s : State) : (pushVertex v s).dbuf = s.dbuf := rfl
@[simp] theorem pushVertex_hdr (v : Word) (s : State) : (pushVertex v s).hdr = s.hdr := rfl
@[simp] theorem pushVertex_ec (v : Word) (s : State) : (pushVertex v s).ec = s.ec := rfl
@[simp] theorem pushVertex_vc (v : Word) (s : State) : (pushVertex v s).vc = pushSlot s.vc v := rfl
@[simp] theorem pushVertex_next (v : Word) (s : State) : (pushVertex v s).next = s.next := rfl
@[simp] theorem pushVertex_last (v : Word) (s : State) : (pushVertex v s).last = s.last := rfl
@[simp] theorem pushVertex_seqLast0 (v : Word) (s : State) : (pushVertex v s).seqLast0 = s.seqLast0 := rfl
@[simp] theorem pushVertex_seqLast1 (v : Word) (s : State) : (pushVertex v s).seqLast1 = s.seqLast1 := rfl
@[simp] theorem pushVertex_cur (v : Word) (s : State) : (pushVertex v s).cur = s.cur := rfl
@[simp] theorem pushVertex_lim (v : Word) (s : State) : (pushVertex v s).lim = s.lim := rfl
@[simp] theorem pushVertex_ccur (v : Word) (s : State) : (pushVertex v s).ccur = s.ccur := rfl
@[simp] theorem pushVertex_row (v : Word) (s : State) : (pushVertex v s).row = s.row := rfl
@[simp] theorem pushVertex_blockBase (v : Word) (s : State) : (pushVertex v s).blockBase = s.blockBase := rfl
@[simp] theorem pushVertex_k (v : Word) (s : State) : (pushVertex v s).k = s.k := rfl
@[simp] theorem pushVertex_g (v : Word) (s : State) : (pushVertex v s).g = s.g := rfl
@[simp] theorem pushVertex_t (v : Word) (s : State) : (pushVertex v s).t = s.t := rfl
@[simp] theorem pushVertex_n (v : Word) (s : State) : (pushVertex v s).n = s.n := rfl
@[simp] theorem pushVertex_packed (v : Word) (s : State) : (pushVertex v s).packed = s.packed := rfl
@[simp] theorem pushVertex_j (v : Word) (s : State) : (pushVertex v s).j = s.j := rfl
@[simp] theorem pushVertex_triA (v : Word) (s : State) : (pushVertex v s).triA = s.triA := rfl
@[simp] theorem pushVertex_triB (v : Word) (s : State) : (pushVertex v s).triB = s.triB := rfl
@[simp] theorem pushVertex_triC (v : Word) (s : State) : (pushVertex v s).triC = s.triC := rfl
@[simp] theorem pushVertex_entry (v : Word) (s : State) : (pushVertex v s).entry = s.entry := rfl
@[simp] theorem pushVertex_corner (v : Word) (s : State) : (pushVertex v s).corner = s.corner := rfl
@[simp] theorem pushVertex_pushB (v : Word) (s : State) : (pushVertex v s).pushB = s.pushB := rfl
@[simp] theorem pushVertex_pushC (v : Word) (s : State) : (pushVertex v s).pushC = s.pushC := rfl
@[simp] theorem pushVertex_aFromVarint (v : Word) (s : State) : (pushVertex v s).aFromVarint = s.aFromVarint := rfl
@[simp] theorem pushVertex_vpos (v : Word) (s : State) : (pushVertex v s).vpos = s.vpos := rfl
@[simp] theorem pushVertex_vres (v : Word) (s : State) : (pushVertex v s).vres = s.vres := rfl
@[simp] theorem pushVertex_vuse (v : Word) (s : State) : (pushVertex v s).vuse = s.vuse := rfl
@[simp] theorem pushVertex_phase (v : Word) (s : State) : (pushVertex v s).phase = s.phase := rfl
@[simp] theorem pushVertex_mem (v : Word) (s : State) : (pushVertex v s).mem = s.mem := rfl
@[simp] theorem pushVertex_events (v : Word) (s : State) : (pushVertex v s).events = s.events := rfl
@[simp] theorem pushVertex_hostData (v : Word) (s : State) : (pushVertex v s).hostData = s.hostData := rfl
@[simp] theorem pushVertex_quiet (v : Word) (s : State) : (pushVertex v s).quiet = s.quiet := rfl
@[simp] theorem pushVertex_others (v : Word) (s : State) : (pushVertex v s).others = s.others := rfl
@[simp] theorem pushVertex_othersQuiet (v : Word) (s : State) : (pushVertex v s).othersQuiet = s.othersQuiet := rfl
@[simp] theorem pushVertex_draws (v : Word) (s : State) : (pushVertex v s).draws = s.draws := rfl

@[simp] theorem takeFreshA_params (p : Phase) (s : State) : (takeFreshA p s).params = s.params := rfl
@[simp] theorem takeFreshA_regs (p : Phase) (s : State) : (takeFreshA p s).regs = s.regs := rfl
@[simp] theorem takeFreshA_args (p : Phase) (s : State) : (takeFreshA p s).args = s.args := rfl
@[simp] theorem takeFreshA_acc (p : Phase) (s : State) : (takeFreshA p s).acc = s.acc := rfl
@[simp] theorem takeFreshA_dbuf (p : Phase) (s : State) : (takeFreshA p s).dbuf = s.dbuf := rfl
@[simp] theorem takeFreshA_hdr (p : Phase) (s : State) : (takeFreshA p s).hdr = s.hdr := rfl
@[simp] theorem takeFreshA_ec (p : Phase) (s : State) : (takeFreshA p s).ec = s.ec := rfl
@[simp] theorem takeFreshA_vc (p : Phase) (s : State) : (takeFreshA p s).vc = s.vc := rfl
@[simp] theorem takeFreshA_next (p : Phase) (s : State) : (takeFreshA p s).next = s.next + 1#32 := rfl
@[simp] theorem takeFreshA_last (p : Phase) (s : State) : (takeFreshA p s).last = s.last := rfl
@[simp] theorem takeFreshA_seqLast0 (p : Phase) (s : State) : (takeFreshA p s).seqLast0 = s.seqLast0 := rfl
@[simp] theorem takeFreshA_seqLast1 (p : Phase) (s : State) : (takeFreshA p s).seqLast1 = s.seqLast1 := rfl
@[simp] theorem takeFreshA_cur (p : Phase) (s : State) : (takeFreshA p s).cur = s.cur := rfl
@[simp] theorem takeFreshA_lim (p : Phase) (s : State) : (takeFreshA p s).lim = s.lim := rfl
@[simp] theorem takeFreshA_ccur (p : Phase) (s : State) : (takeFreshA p s).ccur = s.ccur := rfl
@[simp] theorem takeFreshA_row (p : Phase) (s : State) : (takeFreshA p s).row = s.row := rfl
@[simp] theorem takeFreshA_blockBase (p : Phase) (s : State) : (takeFreshA p s).blockBase = s.blockBase := rfl
@[simp] theorem takeFreshA_k (p : Phase) (s : State) : (takeFreshA p s).k = s.k := rfl
@[simp] theorem takeFreshA_g (p : Phase) (s : State) : (takeFreshA p s).g = s.g := rfl
@[simp] theorem takeFreshA_t (p : Phase) (s : State) : (takeFreshA p s).t = s.t := rfl
@[simp] theorem takeFreshA_n (p : Phase) (s : State) : (takeFreshA p s).n = s.n := rfl
@[simp] theorem takeFreshA_packed (p : Phase) (s : State) : (takeFreshA p s).packed = s.packed := rfl
@[simp] theorem takeFreshA_j (p : Phase) (s : State) : (takeFreshA p s).j = s.j := rfl
@[simp] theorem takeFreshA_triA (p : Phase) (s : State) : (takeFreshA p s).triA = s.next := rfl
@[simp] theorem takeFreshA_triB (p : Phase) (s : State) : (takeFreshA p s).triB = s.triB := rfl
@[simp] theorem takeFreshA_triC (p : Phase) (s : State) : (takeFreshA p s).triC = s.triC := rfl
@[simp] theorem takeFreshA_entry (p : Phase) (s : State) : (takeFreshA p s).entry = s.entry := rfl
@[simp] theorem takeFreshA_corner (p : Phase) (s : State) : (takeFreshA p s).corner = .b := rfl
@[simp] theorem takeFreshA_pushB (p : Phase) (s : State) : (takeFreshA p s).pushB = s.pushB := rfl
@[simp] theorem takeFreshA_pushC (p : Phase) (s : State) : (takeFreshA p s).pushC = s.pushC := rfl
@[simp] theorem takeFreshA_aFromVarint (p : Phase) (s : State) : (takeFreshA p s).aFromVarint = s.aFromVarint := rfl
@[simp] theorem takeFreshA_vpos (p : Phase) (s : State) : (takeFreshA p s).vpos = s.vpos := rfl
@[simp] theorem takeFreshA_vres (p : Phase) (s : State) : (takeFreshA p s).vres = s.vres := rfl
@[simp] theorem takeFreshA_vuse (p : Phase) (s : State) : (takeFreshA p s).vuse = s.vuse := rfl
@[simp] theorem takeFreshA_phase (p : Phase) (s : State) : (takeFreshA p s).phase = p := rfl
@[simp] theorem takeFreshA_mem (p : Phase) (s : State) : (takeFreshA p s).mem = s.mem := rfl
@[simp] theorem takeFreshA_events (p : Phase) (s : State) : (takeFreshA p s).events = s.events := rfl
@[simp] theorem takeFreshA_hostData (p : Phase) (s : State) : (takeFreshA p s).hostData = s.hostData := rfl
@[simp] theorem takeFreshA_quiet (p : Phase) (s : State) : (takeFreshA p s).quiet = s.quiet := rfl
@[simp] theorem takeFreshA_others (p : Phase) (s : State) : (takeFreshA p s).others = s.others := rfl
@[simp] theorem takeFreshA_othersQuiet (p : Phase) (s : State) : (takeFreshA p s).othersQuiet = s.othersQuiet := rfl
@[simp] theorem takeFreshA_draws (p : Phase) (s : State) : (takeFreshA p s).draws = s.draws := rfl

@[simp] theorem filterDone_params (s : State) : (filterDone s).params = s.params := rfl
@[simp] theorem filterDone_regs (s : State) : (filterDone s).regs = s.regs := rfl
@[simp] theorem filterDone_args (s : State) : (filterDone s).args = s.args := rfl
@[simp] theorem filterDone_acc (s : State) : (filterDone s).acc = s.acc := rfl
@[simp] theorem filterDone_dbuf (s : State) : (filterDone s).dbuf = s.dbuf := rfl
@[simp] theorem filterDone_hdr (s : State) : (filterDone s).hdr = s.hdr := rfl
@[simp] theorem filterDone_ec (s : State) : (filterDone s).ec = s.ec := rfl
@[simp] theorem filterDone_vc (s : State) : (filterDone s).vc = s.vc := rfl
@[simp] theorem filterDone_next (s : State) : (filterDone s).next = s.next := rfl
@[simp] theorem filterDone_last (s : State) : (filterDone s).last = s.last := rfl
@[simp] theorem filterDone_seqLast0 (s : State) : (filterDone s).seqLast0 = s.seqLast0 := rfl
@[simp] theorem filterDone_seqLast1 (s : State) : (filterDone s).seqLast1 = s.seqLast1 := rfl
@[simp] theorem filterDone_cur (s : State) : (filterDone s).cur = s.cur := rfl
@[simp] theorem filterDone_lim (s : State) : (filterDone s).lim = s.lim := rfl
@[simp] theorem filterDone_ccur (s : State) : (filterDone s).ccur = s.ccur := rfl
@[simp] theorem filterDone_row (s : State) : (filterDone s).row = s.row := rfl
@[simp] theorem filterDone_blockBase (s : State) : (filterDone s).blockBase = s.blockBase := rfl
@[simp] theorem filterDone_k (s : State) : (filterDone s).k = s.k := rfl
@[simp] theorem filterDone_g (s : State) : (filterDone s).g = s.g := rfl
@[simp] theorem filterDone_t (s : State) : (filterDone s).t = s.t := rfl
@[simp] theorem filterDone_n (s : State) : (filterDone s).n = s.n := rfl
@[simp] theorem filterDone_packed (s : State) : (filterDone s).packed = s.packed := rfl
@[simp] theorem filterDone_j (s : State) : (filterDone s).j = s.j := rfl
@[simp] theorem filterDone_triA (s : State) : (filterDone s).triA = s.triA := rfl
@[simp] theorem filterDone_triB (s : State) : (filterDone s).triB = s.triB := rfl
@[simp] theorem filterDone_triC (s : State) : (filterDone s).triC = s.triC := rfl
@[simp] theorem filterDone_entry (s : State) : (filterDone s).entry = s.entry := rfl
@[simp] theorem filterDone_corner (s : State) : (filterDone s).corner = s.corner := rfl
@[simp] theorem filterDone_pushB (s : State) : (filterDone s).pushB = s.pushB := rfl
@[simp] theorem filterDone_pushC (s : State) : (filterDone s).pushC = s.pushC := rfl
@[simp] theorem filterDone_aFromVarint (s : State) : (filterDone s).aFromVarint = s.aFromVarint := rfl
@[simp] theorem filterDone_vpos (s : State) : (filterDone s).vpos = s.vpos := rfl
@[simp] theorem filterDone_vres (s : State) : (filterDone s).vres = s.vres := rfl
@[simp] theorem filterDone_vuse (s : State) : (filterDone s).vuse = s.vuse := rfl
@[simp] theorem filterDone_phase (s : State) : (filterDone s).phase = .done := rfl
@[simp] theorem filterDone_mem (s : State) : (filterDone s).mem = s.mem := rfl
@[simp] theorem filterDone_events (s : State) : (filterDone s).events = s.events := rfl
@[simp] theorem filterDone_hostData (s : State) : (filterDone s).hostData = s.hostData := rfl
@[simp] theorem filterDone_quiet (s : State) : (filterDone s).quiet = s.quiet := rfl
@[simp] theorem filterDone_others (s : State) : (filterDone s).others = s.others := rfl
@[simp] theorem filterDone_othersQuiet (s : State) : (filterDone s).othersQuiet = s.othersQuiet := rfl
@[simp] theorem filterDone_draws (s : State) : (filterDone s).draws = s.draws := rfl

end Sys2Proof.Machine
end

