-- ==== Sys2Proof/Laws/Ops.lean ====
section
/-! SUPPORT. For each shared operation, one lemma that says once everything it can do; later proofs cite these and
unfold no operation. -/

namespace Sys2Proof.Machine

/-! ### Source reads -/

/-- `ReadByte()` below the limit (R135). -/
theorem readByte_ok (s : State) (h : s.cur < s.lim) :
    readByte s = .ok (s.mem.read (s.srcAddr s.cur)) { s with cur := s.cur + 1 } := by
  simp [readByte, h, State.sourceByte]

/-- `ReadByte()` at or past the limit (R135). -/
theorem readByte_truncated (s : State) (h : s.lim ≤ s.cur) : readByte s = .truncated s := by
  simp [readByte, Nat.not_lt.mpr h]

/-- A list of bytes that lies below the limit is read whole. -/
theorem readByteList_ok (n : Nat) (s : State) (h : s.cur + n ≤ s.lim) :
    readByteList n s = .ok (s.mem.readBytes (s.srcAddr s.cur) n) { s with cur := s.cur + n } := by
  induction n generalizing s with
  | zero => simp [readByteList, Memory.readBytes]
  | succ n ih =>
    rw [readByteList, readByte_ok s (by omega)]
    simp only []
    rw [ih { s with cur := s.cur + 1 } (by simp only; omega)]
    simp only [Memory.readBytes, State.srcAddr, Nat.add_assoc, Nat.add_comm 1 n]

/-- A list of bytes that passes the limit ends at the first byte that cannot be read. -/
theorem readByteList_truncated (n : Nat) (s : State) (hn : 0 < n) (h : s.lim < s.cur + n) :
    readByteList n s = .truncated { s with cur := max s.cur s.lim } := by
  induction n generalizing s with
  | zero => omega
  | succ n ih =>
    rw [readByteList]
    by_cases hc : s.cur < s.lim
    · rw [readByte_ok s hc]
      simp only []
      rw [ih { s with cur := s.cur + 1 } (by omega) (by simp only; omega)]
      simp only [Nat.max_eq_right (Nat.succ_le_of_lt hc), Nat.max_eq_right (Nat.le_of_lt hc)]
    · rw [readByte_truncated s (by omega), Nat.max_eq_left (by omega)]

/-- A draw (R310, R342): every target byte takes its free value, and no other byte changes. -/
theorem drawTarget_spec (s : State) (h : s.mem.wf = true) : TargetDrawn s (drawTarget s) := by
  refine ⟨fun i hi => ?_, fun a ha => ?_⟩
  · have hd := memory_read_drawBytes_inside s.args.need s.mem s.args.dstBase.toNat s.draws 0 i h hi
    simpa only [drawTarget_mem, Nat.add_zero, Nat.zero_add] using hd
  · rw [drawTarget_mem]
    exact memory_read_drawBytes_outside _ _ _ _ _ _ (by simpa [Args.need] using ha)

/-- A TruncatedSource found while decoding (R308, R310). -/
theorem raiseTruncated_truncatedAt (s t : State) (c : Nat) (hw : t.mem.wf = true) (h : s = { t with cur := c }) :
    TruncatedAt c t (raiseTruncated s) := by
  subst h
  refine ⟨⟨?_, ?_, ?_, ?_, ?_, rfl⟩, ?_, rfl⟩
  · simp only [State.busy, raiseTruncated, raise_regs]; decide
  · simp only [State.doneBit, raiseTruncated, raise_regs]; decide
  · simp only [State.errBit, raiseTruncated, raise_regs]; decide
  · simp only [State.errCode, raiseTruncated, raise_regs]; decide
  · simp only [raiseTruncated, raise_regs, drawTarget_regs, if_pos]
  · have hd := drawTarget_spec { t with cur := c } hw
    simpa only [TargetDrawn, MemUnchangedOutside, raiseTruncated, raise_mem] using hd

/-! ### Target writes -/

/-- `TgtWrite(off, n, v)` (R141): the bytes hold v, and no other byte changes. -/
theorem tgtWrite_spec (off n : Nat) (v : Word) (s : State) (h : s.mem.wf = true) :
    (tgtWrite off n v s).mem.wf = true ∧ HoldsLE (tgtWrite off n v s).mem (s.dstAddr off) n v ∧
      MemUnchangedOutside (s.dstAddr off) n s (tgtWrite off n v s) := by
  refine ⟨memory_writeBytes_wf _ _ _ h, fun i hi => ?_, fun a ha => ?_⟩
  · rw [tgtWrite_mem, memory_read_writeBytes_inside _ _ _ _ h (by simpa using hi), bytesLE_getElem]
  · rw [tgtWrite_mem, memory_read_writeBytes_outside _ _ _ _ (by simpa using ha)]

/-- A write of other bytes keeps what a range holds. -/
theorem HoldsLE.outside {s t : State} {a n b k : Nat} {v : Word} (h : HoldsLE s.mem a n v)
    (hu : MemUnchangedOutside b k s t) (hd : a + n ≤ b ∨ b + k ≤ a) : HoldsLE t.mem a n v := by
  intro i hi
  rw [hu _ (by omega), h i hi]

/-- `Emit(a, b, c)` (R242): the triangle's indices are written, and no other byte changes. -/
theorem emit_spec (a b c : Word) (s : State) (h : s.mem.wf = true) :
    (emit a b c s).mem.wf = true ∧ HoldsTriangle s (emit a b c s) a b c ∧
      MemUnchangedOutside (s.dstAddr (3 * s.t * s.args.stride.toNat)) (3 * s.args.stride.toNat) s (emit a b c s) ∧
      emit a b c s = { s with mem := (emit a b c s).mem, t := s.t + 1, phase := .triangle } := by
  have e0 : (3 * s.t + 1) * s.args.stride.toNat = 3 * s.t * s.args.stride.toNat + s.args.stride.toNat := by ring
  have e1 : (3 * s.t + 2) * s.args.stride.toNat = 3 * s.t * s.args.stride.toNat + 2 * s.args.stride.toNat := by ring
  obtain ⟨w1, h1, u1⟩ := tgtWrite_spec (3 * s.t * s.args.stride.toNat) s.args.stride.toNat a s h
  obtain ⟨w2, h2, u2⟩ := tgtWrite_spec ((3 * s.t + 1) * s.args.stride.toNat) s.args.stride.toNat b _ w1
  obtain ⟨w3, h3, u3⟩ := tgtWrite_spec ((3 * s.t + 2) * s.args.stride.toNat) s.args.stride.toNat c _ w2
  simp only [State.dstAddr, tgtWrite_args, e0, e1] at h1 u1 h2 u2 h3 u3
  have hm : (emit a b c s).mem = (tgtWrite ((3 * s.t + 2) * s.args.stride.toNat) s.args.stride.toNat c
      (tgtWrite ((3 * s.t + 1) * s.args.stride.toNat) s.args.stride.toNat b
        (tgtWrite (3 * s.t * s.args.stride.toNat) s.args.stride.toNat a s))).mem := by
    simp only [emit, tgtWriteIndex, tgtWrite_args]
  refine ⟨by rw [hm]; exact w3, ⟨?_, ?_, ?_⟩, ?_, ?_⟩
  · rw [hm]
    simp only [State.dstAddr, e0, e1]
    exact (h1.outside u2 (by omega)).outside u3 (by omega)
  · rw [hm]
    simp only [State.dstAddr, e0, e1]
    exact h2.outside u3 (by omega)
  · rw [hm]
    simp only [State.dstAddr, e0, e1]
    exact h3
  · intro x hx
    rw [hm]
    simp only [State.dstAddr, e0, e1] at hx ⊢
    rw [u3 x (by omega), u2 x (by omega), u1 x (by omega)]
  · simp only [emit, tgtWriteIndex, tgtWrite]

/-! ### Triangles -/

/-- `shift(EC, n)` and the new edges (R231, R241). -/
theorem pushEdges_spec (n : Nat) (edges : List Word) (s : State) (hn : edges.length = n) :
    EdgesPushed s.ec (pushEdges n edges s).ec edges := by
  subst hn
  intro i hi
  rw [pushEdges_ec, slot_putSlots _ _ _ _ hi, slot_shiftSlots _ _ _ hi]
  by_cases h : i < edges.length
  · simp [h]
  · simp [h]

/-- `push(VC, v)` (R133). -/
theorem pushVertex_spec (v : Word) (s : State) : VertexPushed s.vc (pushVertex v s).vc v := by
  intro i hi
  rw [pushVertex_vc, slot_pushSlot _ _ _ hi]

/-- The end of every triangle (R231, R241): the edges are pushed, the indices written, and nothing else changes. -/
theorem emit_pushEdges_spec (n : Nat) (edges : List Word) (hn : edges.length = n) (a b c : Word) (s t : State)
    (h : s.mem.wf = true) (ht : t = emit a b c (pushEdges n edges s)) :
    t.mem.wf = true ∧ EdgesPushed s.ec t.ec edges ∧ HoldsTriangle s t a b c ∧
      MemUnchangedOutside (s.dstAddr (3 * s.t * s.args.stride.toNat)) (3 * s.args.stride.toNat) s t ∧
      t = { s with ec := t.ec, mem := t.mem, t := s.t + 1, phase := .triangle } := by
  subst ht
  obtain ⟨hw, ht, hu, he⟩ := emit_spec a b c (pushEdges n edges s) h
  refine ⟨hw, ?_, ht, hu, ?_⟩
  · rw [he]
    exact pushEdges_spec n edges s hn
  · rw [he]
    simp only [pushEdges]

/-- `EdgeComplete(a, b, c)` (R231): the edges, the indices, and nothing else. -/
theorem edgeComplete_spec (a b c : Word) (s t : State) (h : s.mem.wf = true) (ht : t = edgeComplete a b c s) :
    t.mem.wf = true ∧ EdgesPushed s.ec t.ec [a, c, c, b] ∧ HoldsTriangle s t a b c ∧
      MemUnchangedOutside (s.dstAddr (3 * s.t * s.args.stride.toNat)) (3 * s.args.stride.toNat) s t ∧
      t = { s with ec := t.ec, mem := t.mem, t := s.t + 1, phase := .triangle } :=
  emit_pushEdges_spec 4 [a, c, c, b] (by simp only [List.length_cons, List.length_nil]) a b c s t h
    (by rw [ht, edgeComplete])

/-- `NewComplete(a, b, c)` (R241): the edges, the indices, and nothing else. -/
theorem newComplete_spec (a b c : Word) (s t : State) (h : s.mem.wf = true) (ht : t = newComplete a b c s) :
    t.mem.wf = true ∧ EdgesPushed s.ec t.ec [a, c, c, b, b, a] ∧ HoldsTriangle s t a b c ∧
      MemUnchangedOutside (s.dstAddr (3 * s.t * s.args.stride.toNat)) (3 * s.args.stride.toNat) s t ∧
      t = { s with ec := t.ec, mem := t.mem, t := s.t + 1, phase := .triangle } :=
  emit_pushEdges_spec 6 [a, c, c, b, b, a] (by simp only [List.length_cons, List.length_nil]) a b c s t h
    (by rw [ht, newComplete])

/-- An edge triangle whose third vertex is pushed (R226, R228 to R230). -/
theorem edgeWithPush_spec (a b c : Word) (s t : State) (h : s.mem.wf = true) (ht : t = edgeWithPush a b c s) :
    t.mem.wf = true ∧ VertexPushed s.vc t.vc c ∧ EdgesPushed s.ec t.ec [a, c, c, b] ∧ HoldsTriangle s t a b c ∧
      MemUnchangedOutside (s.dstAddr (3 * s.t * s.args.stride.toNat)) (3 * s.args.stride.toNat) s t ∧
      t = { s with vc := t.vc, ec := t.ec, mem := t.mem, t := s.t + 1, phase := .triangle } := by
  obtain ⟨hw, hec, htr, hu, he⟩ := edgeComplete_spec a b c (pushVertex c s) t h ht
  refine ⟨hw, ?_, hec, htr, hu, ?_⟩
  · rw [he]
    exact pushVertex_spec c s
  · rw [he]
    simp only [pushVertex]

/-! ### Groups -/

/-- `dbuf[j] <- x` (R160, R161): delta j takes x, and the others keep their values. -/
theorem putDelta_spec (x : Byte) (s : State) (h : s.j < 16) :
    slot (putDelta x s).dbuf s.j = x ∧ (∀ i, i ≠ s.j → slot (putDelta x s).dbuf i = slot s.dbuf i) ∧
      putDelta x s = { s with dbuf := (putDelta x s).dbuf, j := s.j + 1 } := by
  refine ⟨?_, fun i hi => ?_, by simp only [putDelta]⟩
  · rw [putDelta_dbuf, slot_set_same _ _ _ h]
  · rw [putDelta_dbuf, slot_set_other _ _ _ _ (Ne.symm hi)]

/-- An escape (R161, R164): the next byte is the delta, or the command ends with TruncatedSource. -/
theorem escapeDelta_spec (s : State) :
    (s.cur < s.lim →
      escapeDelta s = putDelta (s.mem.read (s.srcAddr s.cur)) { s with cur := s.cur + 1 }) ∧
    (s.lim ≤ s.cur → escapeDelta s = raiseTruncated s) :=
  ⟨fun h => by rw [escapeDelta, readByte_ok s h], fun h => by rw [escapeDelta, readByte_truncated s h]⟩

/-- The packed bytes of a group (R159, R162): all of them, or the command ends with TruncatedSource. -/
theorem readPacked_spec (n : Nat) (codes : Phase) (s : State) :
    (s.cur + n ≤ s.lim → readPacked n codes s = { s with
      packed := putSlots s.packed 0 (s.mem.readBytes (s.srcAddr s.cur) n), cur := s.cur + n, j := 0
      phase := codes }) ∧
    (0 < n → s.lim < s.cur + n → readPacked n codes s = raiseTruncated { s with cur := max s.cur s.lim }) :=
  ⟨fun h => by rw [readPacked, readByteList_ok n s h], fun hn h => by rw [readPacked, readByteList_truncated n s hn h]⟩

/-! ### Passes over rows -/

/-- A pass of `n + 1` items is the pass of the first n and then item n. -/
theorem forEach_succ (n : Nat) (f : Nat → State → State) (s : State) :
    forEach (n + 1) f s = f n (forEach n f s) := by
  simp [forEach, List.range_succ]

/-- What holds at the start and is kept by every item holds at the end of a pass. -/
theorem forEach_induct (P : Nat → State → Prop) (n : Nat) (f : Nat → State → State) (s : State) (h0 : P 0 s)
    (h : ∀ i t, i < n → P i t → P (i + 1) (f i t)) : P n (forEach n f s) := by
  have : ∀ m, m ≤ n → P m (forEach m f s) := by
    intro m
    induction m with
    | zero => exact fun _ => h0
    | succ m ih => exact fun hm => by rw [forEach_succ]; exact h m _ (by omega) (ih (by omega))
  exact this n (Nat.le_refl n)

/-- Delta j of a group (R166, R167): applied to its row, or ignored past the block. -/
theorem applyDelta_spec (j : Nat) (s : State) (h : s.mem.wf = true) :
    (applyDelta j s).mem.wf = true ∧
    (16 * s.g + j < s.blockRows →
      applyDelta j s = { s with
        acc := s.acc.setIfInBounds s.k (slot s.acc s.k + zigzag8 (slot s.dbuf j))
        row := max s.row (s.blockBase + (16 * s.g + j))
        mem := s.mem.write (s.dstAddr ((s.blockBase + (16 * s.g + j)) * s.args.stride.toNat + s.k))
          (slot s.acc s.k + zigzag8 (slot s.dbuf j)) }) ∧
    (s.blockRows ≤ 16 * s.g + j → applyDelta j s = s) := by
  have hx : ∀ x : Byte, (x.zeroExtend 32).extractLsb' 0 8 = x := by
    intro x
    apply BitVec.eq_of_getLsbD_eq
    intro i hi
    simp [hi]
    omega
  have h1 : 16 * s.g + j < s.blockRows →
      applyDelta j s = { s with
        acc := s.acc.setIfInBounds s.k (slot s.acc s.k + zigzag8 (slot s.dbuf j))
        row := max s.row (s.blockBase + (16 * s.g + j))
        mem := s.mem.write (s.dstAddr ((s.blockBase + (16 * s.g + j)) * s.args.stride.toNat + s.k))
          (slot s.acc s.k + zigzag8 (slot s.dbuf j)) } := by
    intro hr
    simp only [applyDelta, if_pos hr, tgtWrite, bytesLE, Memory.writeBytes, hx, State.dstAddr]
  have h2 : s.blockRows ≤ 16 * s.g + j → applyDelta j s = s := by
    intro hr
    simp only [applyDelta, if_neg (Nat.not_lt.mpr hr)]
  refine ⟨?_, h1, h2⟩
  by_cases hr : 16 * s.g + j < s.blockRows
  · rw [h1 hr]
    exact memory_write_wf _ _ _ h
  · rw [h2 (by omega)]
    exact h

/-! ### Strides -/

/-- The stride test that DECODE_VERTEX makes (R151) is the one of R191 and R302. -/
theorem strideSupported_vertex (s : State) (h : s.args.cmd = .vertex) :
    strideSupported s = (s.params.vtxStrideOk s.args.stride.toNat && filterStrideOk s.args.filter s.args.stride.toNat) := by
  have hf : s.args.filter = 0#2 ∨ s.args.filter = 1#2 ∨ s.args.filter = 2#2 ∨ s.args.filter = 3#2 := by
    generalize s.args.filter = f
    revert f
    decide
  rw [Bool.eq_iff_iff]
  simp only [strideSupported, h, Config.Params.vtxStrideOk, filterStrideOk, Bool.and_eq_true, decide_eq_true_eq,
    Bool.not_eq_true', List.contains_eq_mem, decide_eq_false_iff_not]
  rcases hf with hf | hf | hf | hf
  all_goals simp [hf, and_assoc]

/-! ### Lanes -/

/-- Target bytes composed little-endian (R69). -/
theorem targetWord_eq_leValue (s : State) (off n : Nat) : s.targetWord off n = leValue s.mem (s.dstAddr off) n := by
  have h : ∀ n a, natOfBytesLE (s.mem.readBytes a n) = leValue s.mem a n := by
    intro n
    induction n with
    | zero => exact fun a => rfl
    | succ n ih => exact fun a => by rw [Memory.readBytes, natOfBytesLE, leValue, ih]
  exact h n _

/-- The lanes the octahedral pass reads and writes are those of R192. -/
theorem laneValue_eq_rowLane (s : State) (r i : Nat) (h : s.args.stride.toNat = 4 ∨ s.args.stride.toNat = 8) :
    s.laneValue (laneOffset s r i) (laneBytes s) = s.rowLane r i := by
  have hb : laneBytes s = s.args.stride.toNat / 4 := by
    rcases h with h | h
    · simp [laneBytes, h]
    · simp [laneBytes, h]
  rw [State.laneValue, targetWord_eq_leValue, laneOffset, hb, State.rowLane, State.dstAddr]

/-- The lanes the quaternion pass reads are those of R192. -/
theorem quatLaneBits_toInt (s : State) (r i : Nat) (h : s.args.stride.toNat = 8) :
    (quatLaneBits s r i).toInt = s.rowLane r i := by
  rw [quatLaneBits, targetWord_eq_leValue, State.rowLane, State.dstAddr, h]
  simp only [Nat.mul_comm r 8, Nat.mul_comm i (8 / 4), Nat.reduceDiv, Nat.reduceMul]

/-! ### Launches -/

/-- Two ranges share an address exactly when `rangesMeet` says so. -/
theorem rangesMeet_iff (a la b lb : Nat) :
    rangesMeet a la b lb = true ↔ ∃ x, (a ≤ x ∧ x < a + la) ∧ (b ≤ x ∧ x < b + lb) := by
  simp only [rangesMeet, Bool.and_eq_true, decide_eq_true_eq]
  constructor
  · rintro ⟨⟨⟨h1, h2⟩, h3⟩, h4⟩
    exact ⟨max a b, by omega, by omega⟩
  · rintro ⟨x, h1, h2⟩
    omega

/-- Two regions conflict exactly when a target address of one is a target or source address of the other (R83). -/
theorem conflicts_iff (x y : Region) : x.conflicts y = true ↔ x.Conflicts y := by
  simp only [Region.Conflicts, Region.conflicts, Bool.or_eq_true, rangesMeet_iff, Region.hasTarget, Region.hasSource]
  constructor
  · rintro ((⟨a, h⟩ | ⟨a, h⟩) | ⟨a, h⟩)
    · exact ⟨a, Or.inl h⟩
    · exact ⟨a, Or.inr (Or.inl h)⟩
    · exact ⟨a, Or.inr (Or.inr h.symm)⟩
  · rintro ⟨a, h | h | h⟩
    · exact Or.inl (Or.inl ⟨a, h⟩)
    · exact Or.inl (Or.inr ⟨a, h⟩)
    · exact Or.inr ⟨a, h.symm⟩

/-- A launch's own regions break no precondition exactly when they are allowed (R35, R36, R64). -/
theorem regionProblem_iff (p : Config.Params) (r : Region) : regionProblem p r = none ↔ RegionAllowed p r := by
  unfold regionProblem
  simp only []
  split
  · rename_i h
    exact ⟨nofun, fun e => absurd h (by have h1 := e.srcBase; have h2 := e.dstBase; omega)⟩
  · split
    · rename_i h
      exact ⟨nofun, fun e => absurd h (by have h1 := e.source; have h2 := e.target; omega)⟩
    · split
      · rename_i h
        obtain ⟨a, h1, h2⟩ := (rangesMeet_iff _ _ _ _).mp h
        exact ⟨nofun, fun e => absurd ⟨h1, h2⟩ (e.disjoint a)⟩
      · rename_i h1 h2 h3
        refine ⟨fun _ => ⟨by omega, by omega, by omega, by omega, fun a ha => h3 ?_⟩, fun _ => rfl⟩
        exact (rangesMeet_iff _ _ _ _).mpr ⟨a, ha.1, ha.2⟩

/-- A launch of this block breaks no precondition exactly when it is allowed (R324). -/
theorem launchProblem_iff (s : State) : launchProblem s = none ↔ LaunchAllowed s := by
  have hr := regionProblem_iff s.params s.regs.region
  unfold launchProblem
  cases hp : regionProblem s.params s.regs.region with
  | some x => exact ⟨nofun, fun h => by rw [hr.mpr h.region] at hp; cases hp⟩
  | none =>
    simp only []
    split
    · rename_i hc
      simp only [List.any_eq_true, conflicts_iff] at hc
      obtain ⟨o, ho, h⟩ := hc
      exact ⟨nofun, fun hh => absurd h (hh.others o ho)⟩
    · rename_i h1
      split
      · rename_i hc
        simp only [List.any_eq_true, conflicts_iff] at hc
        obtain ⟨o, ho, h⟩ := hc
        exact ⟨nofun, fun hh => absurd h (hh.othersQuiet o ho)⟩
      · rename_i h2
        simp only [List.any_eq_true, conflicts_iff, not_exists, not_and] at h1 h2
        exact ⟨fun _ => ⟨hr.mp hp, h1, h2⟩, fun _ => rfl⟩

/-- A launch of another block breaks no precondition exactly when it is allowed (R83, R324). -/
theorem otherLaunchProblem_iff (block : Nat) (r : Region) (s : State) :
    otherLaunchProblem block r s = none ↔ OtherLaunchAllowed s block r := by
  have hr := regionProblem_iff s.params r
  unfold otherLaunchProblem
  cases hp : regionProblem s.params r with
  | some x => exact ⟨nofun, fun h => by rw [hr.mpr h.region] at hp; cases hp⟩
  | none =>
    simp only []
    split
    · rename_i hc
      simp only [Bool.or_eq_true, Bool.and_eq_true, List.any_eq_true, conflicts_iff] at hc
      rcases hc with ⟨hb, h⟩ | ⟨o, ho, h⟩
      · exact ⟨nofun, fun hh => absurd h (hh.running hb)⟩
      · exact ⟨nofun, fun hh => absurd h (hh.others o ho)⟩
    · rename_i h1
      split
      · rename_i hc
        simp only [Bool.or_eq_true, Bool.and_eq_true, List.any_eq_true, conflicts_iff, decide_eq_true_eq] at hc
        rcases hc with ⟨x, hx, h⟩ | ⟨o, ho, hb, h⟩
        · exact ⟨nofun, fun hh => absurd h (hh.quiet x hx)⟩
        · exact ⟨nofun, fun hh => absurd h (hh.othersQuiet o ho hb)⟩
      · rename_i h2
        simp only [Bool.or_eq_true, Bool.and_eq_true, List.any_eq_true, conflicts_iff, decide_eq_true_eq, not_or,
          not_exists, not_and] at h1 h2
        exact ⟨fun _ => ⟨hr.mp hp, h1.1, h1.2, h2.1, h2.2⟩, fun _ => rfl⟩

/-- A START (R32, R324): ignored while BUSY, refused with a reason, or the command begins. -/
theorem startCommand_spec (cmd : Command) (filter op : BitVec 2) (s : State) :
    (s.busy = true ∧ startCommand cmd filter op s = .next s) ∨
    (s.busy = false ∧ ∃ r, launchProblem s = some r ∧ startCommand cmd filter op s = .refused r) ∨
    (s.busy = false ∧ launchProblem s = none ∧
      startCommand cmd filter op s = .next (launch cmd filter (setCtrl filter op s))) := by
  rw [startCommand]
  by_cases hb : s.busy = true
  · simp [hb]
  · rw [if_neg hb]
    cases h : launchProblem s with
    | none => simp [hb]
    | some r => simp [hb]

end Sys2Proof.Machine
end

