-- ==== Sys2Proof/Laws/PerInstr.lean ====
section
/-! SUPPORT. One lemma for each operation about its encoding: it is an element of its row's format, and its fixed bits
are the row's (spec/opcode_table.json, spec/30_encoding.md R90, R112). -/

namespace Sys2Proof

/-- The formats of R90 that have rows in the opcode table. -/
inductive RowFormat where
  | cmd
  | cmdFilter
  | tag8
  | hdr2
  | c2
  | c4
  | lit8
  | tri8
  | caux4
  | aux8
  | aux4
  | vb8
  | seqv
  deriving DecidableEq, Repr

/-- A row of the opcode table: its format, and the mask and value of its fixed bits. -/
structure TableRow where
  format : RowFormat
  mask : Nat
  value : Nat
  deriving DecidableEq, Repr

/-- The format of an element. -/
def Element.format : Element → RowFormat
  | .cmd _ => .cmd
  | .cmdFilter _ => .cmdFilter
  | .tag _ => .tag8
  | .mode _ => .hdr2
  | .code2 _ => .c2
  | .code4 _ => .c4
  | .literal _ => .lit8
  | .triangle _ => .tri8
  | .caux _ => .caux4
  | .auxByte _ => .aux8
  | .aux _ => .aux4
  | .varintByte _ => .vb8
  | .seqValue _ => .seqv

/-- The bits of an element as a number. -/
def Element.bits : Element → Nat
  | .cmd v => v.toNat
  | .cmdFilter v => v.toNat
  | .tag v => v.toNat
  | .mode v => v.toNat
  | .code2 v => v.toNat
  | .code4 v => v.toNat
  | .literal v => v.toNat
  | .triangle v => v.toNat
  | .caux v => v.toNat
  | .auxByte v => v.toNat
  | .aux v => v.toNat
  | .varintByte v => v.toNat
  | .seqValue v => v.toNat

/-- The operation's row of the opcode table, copied from its "format", "mask" and "match". -/
def Instr.row : Instr → TableRow
  | .cmdNone _ => { format := .cmd, mask := 0x80000003, value := 0x80000000 }
  | .decodeVertex _ => { format := .cmd, mask := 0x80000003, value := 0x80000001 }
  | .decodeIndex _ => { format := .cmd, mask := 0x80000003, value := 0x80000002 }
  | .decodeSequence _ => { format := .cmd, mask := 0x80000003, value := 0x80000003 }
  | .filterNone => { format := .cmdFilter, mask := 0xc, value := 0x0 }
  | .filterOctahedral => { format := .cmdFilter, mask := 0xc, value := 0x4 }
  | .filterQuaternion => { format := .cmdFilter, mask := 0xc, value := 0x8 }
  | .filterExponential => { format := .cmdFilter, mask := 0xc, value := 0xc }
  | .tagVertex => { format := .tag8, mask := 0xff, value := 0xa0 }
  | .tagIndex => { format := .tag8, mask := 0xff, value := 0xe1 }
  | .tagSequence => { format := .tag8, mask := 0xff, value := 0xd1 }
  | .tagOther _ => { format := .tag8, mask := 0x0, value := 0x0 }
  | .vgMode0Zero => { format := .hdr2, mask := 0x3, value := 0x0 }
  | .vgMode1TwoBit => { format := .hdr2, mask := 0x3, value := 0x1 }
  | .vgMode2FourBit => { format := .hdr2, mask := 0x3, value := 0x2 }
  | .vgMode3Literal => { format := .hdr2, mask := 0x3, value := 0x3 }
  | .vc2Value _ => { format := .c2, mask := 0x0, value := 0x0 }
  | .vc2Escape => { format := .c2, mask := 0x3, value := 0x3 }
  | .vc4Value _ => { format := .c4, mask := 0x0, value := 0x0 }
  | .vc4Escape => { format := .c4, mask := 0xf, value := 0xf }
  | .vlit8 _ => { format := .lit8, mask := 0x0, value := 0x0 }
  | .triNewTable _ => { format := .tri8, mask := 0xf0, value := 0xf0 }
  | .triNewAux => { format := .tri8, mask := 0xff, value := 0xfe }
  | .triNewAuxVarint => { format := .tri8, mask := 0xff, value := 0xff }
  | .triEdgeNext _ => { format := .tri8, mask := 0xf, value := 0x0 }
  | .triEdgeCache _ _ => { format := .tri8, mask := 0x0, value := 0x0 }
  | .triEdgeDec _ => { format := .tri8, mask := 0xf, value := 0xd }
  | .triEdgeInc _ => { format := .tri8, mask := 0xf, value := 0xe }
  | .triEdgeVarint _ => { format := .tri8, mask := 0xf, value := 0xf }
  | .cauxNext => { format := .caux4, mask := 0xf, value := 0x0 }
  | .cauxCache _ => { format := .caux4, mask := 0x0, value := 0x0 }
  | .auxRestart => { format := .aux8, mask := 0xff, value := 0x0 }
  | .auxNext => { format := .aux4, mask := 0xf, value := 0x0 }
  | .auxCache _ => { format := .aux4, mask := 0x0, value := 0x0 }
  | .auxVarint => { format := .aux4, mask := 0xf, value := 0xf }
  | .varintCont _ => { format := .vb8, mask := 0x80, value := 0x80 }
  | .varintEnd _ => { format := .vb8, mask := 0x80, value := 0x0 }
  | .seqBase0 _ => { format := .seqv, mask := 0x1, value := 0x0 }
  | .seqBase1 _ => { format := .seqv, mask := 0x1, value := 0x1 }

end Sys2Proof

namespace Sys2Proof.Laws.InTable

/-- The operation's encoding is an element of its row's format and carries the row's fixed bits. -/
def Statement (i : Instr) : Prop :=
  (encode i).format = i.row.format ∧ (encode i).bits &&& i.row.mask = i.row.value

/-- The lowest bit of a sequence value is its parity bit (R110). -/
theorem seqBits (dz : BitVec 31) (p : BitVec 1) : (dz ++ p).toNat &&& 1 = p.toNat := by
  have := p.isLt
  rw [BitVec.toNat_append, Nat.and_one_is_mod, Nat.shiftLeft_eq, Nat.mul_comm,
    ← Nat.two_pow_add_eq_or_of_lt (by omega)]
  omega

theorem cmdNone (filter : BitVec 2) : Statement (.cmdNone filter) := by
  exact ⟨rfl, by revert filter; decide⟩

theorem decodeVertex (filter : BitVec 2) : Statement (.decodeVertex filter) := by
  exact ⟨rfl, by revert filter; decide⟩

theorem decodeIndex (filter : BitVec 2) : Statement (.decodeIndex filter) := by
  exact ⟨rfl, by revert filter; decide⟩

theorem decodeSequence (filter : BitVec 2) : Statement (.decodeSequence filter) := by
  exact ⟨rfl, by revert filter; decide⟩

theorem filterNone : Statement .filterNone := by
  exact ⟨rfl, by decide⟩

theorem filterOctahedral : Statement .filterOctahedral := by
  exact ⟨rfl, by decide⟩

theorem filterQuaternion : Statement .filterQuaternion := by
  exact ⟨rfl, by decide⟩

theorem filterExponential : Statement .filterExponential := by
  exact ⟨rfl, by decide⟩

theorem tagVertex : Statement .tagVertex := by
  exact ⟨rfl, by decide⟩

theorem tagIndex : Statement .tagIndex := by
  exact ⟨rfl, by decide⟩

theorem tagSequence : Statement .tagSequence := by
  exact ⟨rfl, by decide⟩

theorem tagOther (tag : Byte) : Statement (.tagOther tag) := by
  exact ⟨rfl, Nat.and_zero _⟩

theorem vgMode0Zero : Statement .vgMode0Zero := by
  exact ⟨rfl, by decide⟩

theorem vgMode1TwoBit : Statement .vgMode1TwoBit := by
  exact ⟨rfl, by decide⟩

theorem vgMode2FourBit : Statement .vgMode2FourBit := by
  exact ⟨rfl, by decide⟩

theorem vgMode3Literal : Statement .vgMode3Literal := by
  exact ⟨rfl, by decide⟩

theorem vc2Value (code : BitVec 2) : Statement (.vc2Value code) := by
  exact ⟨rfl, Nat.and_zero _⟩

theorem vc2Escape : Statement .vc2Escape := by
  exact ⟨rfl, by decide⟩

theorem vc4Value (code : Nibble) : Statement (.vc4Value code) := by
  exact ⟨rfl, Nat.and_zero _⟩

theorem vc4Escape : Statement .vc4Escape := by
  exact ⟨rfl, by decide⟩

theorem vlit8 (zz : Byte) : Statement (.vlit8 zz) := by
  exact ⟨rfl, Nat.and_zero _⟩

theorem triNewTable (b1 : Nibble) : Statement (.triNewTable b1) := by
  exact ⟨rfl, by revert b1; decide⟩

theorem triNewAux : Statement .triNewAux := by
  exact ⟨rfl, by decide⟩

theorem triNewAuxVarint : Statement .triNewAuxVarint := by
  exact ⟨rfl, by decide⟩

theorem triEdgeNext (b0 : Nibble) : Statement (.triEdgeNext b0) := by
  exact ⟨rfl, by revert b0; decide⟩

theorem triEdgeCache (b0 : Nibble) (b1 : Nibble) : Statement (.triEdgeCache b0 b1) := by
  exact ⟨rfl, Nat.and_zero _⟩

theorem triEdgeDec (b0 : Nibble) : Statement (.triEdgeDec b0) := by
  exact ⟨rfl, by revert b0; decide⟩

theorem triEdgeInc (b0 : Nibble) : Statement (.triEdgeInc b0) := by
  exact ⟨rfl, by revert b0; decide⟩

theorem triEdgeVarint (b0 : Nibble) : Statement (.triEdgeVarint b0) := by
  exact ⟨rfl, by revert b0; decide⟩

theorem cauxNext : Statement .cauxNext := by
  exact ⟨rfl, by decide⟩

theorem cauxCache (n : Nibble) : Statement (.cauxCache n) := by
  exact ⟨rfl, Nat.and_zero _⟩

theorem auxRestart : Statement .auxRestart := by
  exact ⟨rfl, by decide⟩

theorem auxNext : Statement .auxNext := by
  exact ⟨rfl, by decide⟩

theorem auxCache (n : Nibble) : Statement (.auxCache n) := by
  exact ⟨rfl, Nat.and_zero _⟩

theorem auxVarint : Statement .auxVarint := by
  exact ⟨rfl, by decide⟩

theorem varintCont (payload : BitVec 7) : Statement (.varintCont payload) := by
  exact ⟨rfl, by revert payload; decide⟩

theorem varintEnd (payload : BitVec 7) : Statement (.varintEnd payload) := by
  exact ⟨rfl, by revert payload; decide⟩

theorem seqBase0 (dz : BitVec 31) : Statement (.seqBase0 dz) := by
  exact ⟨rfl, seqBits _ _⟩

theorem seqBase1 (dz : BitVec 31) : Statement (.seqBase1 dz) := by
  exact ⟨rfl, seqBits _ _⟩

end Sys2Proof.Laws.InTable
end

