-- ==== Sys2Proof/Tests/Slice0.lean ====
section
/-! SUPPORT. Tests: ill-formed terms are refused, words written out from spec/30_encoding.md decode, one step of every
operation on a small state, and for each statement with hypotheses a concrete state that meets them. Expected values
are worked out by hand from the rule named, or come from the examples in the rules or spec/95_test_vectors.md. -/

namespace Sys2Proof.Tests

-- One theorem at a time: as many threads as there are evaluations would pass the memory limit of the check.
set_option Elab.async false

open Sys2Proof Sys2Proof.Machine

/-- The result is a next state with the given property. -/
def nextIs (r : Result) (p : State → Bool) : Bool :=
  match r with
  | .next t => p t
  | .fault _ => false
  | .refused _ => false

/-- The result is the given refusal. -/
def refusedWith (r : Result) (x : Refusal) : Bool :=
  match r with
  | .next _ => false
  | .fault _ => false
  | .refused y => decide (x = y)

/-- The error a state reports in STATUS and ERR_OFFSET. -/
def reports (t : State) (k : ErrorKind) (off : Nat) : Bool :=
  decide (t.regs.status = statusFailure k) && decide (t.regs.errOffset.toNat = off) && decide (t.phase = .idle)

/-! ### Ill-formed operations are refused (R102, R105 to R107, R117) -/

theorem test_wf_tagOther_vertex : (Instr.tagOther 0xA0#8).wf = false := by decide
theorem test_wf_tagOther_index : (Instr.tagOther 0xE1#8).wf = false := by decide
theorem test_wf_tagOther_sequence : (Instr.tagOther 0xD1#8).wf = false := by decide
theorem test_wf_vc2Value_sentinel : (Instr.vc2Value 3#2).wf = false := by decide
theorem test_wf_vc4Value_sentinel : (Instr.vc4Value 15#4).wf = false := by decide
theorem test_wf_triNewTable_high : (Instr.triNewTable 14#4).wf = false := by decide
theorem test_wf_triEdgeNext_high : (Instr.triEdgeNext 15#4).wf = false := by decide
theorem test_wf_triEdgeCache_edge : (Instr.triEdgeCache 15#4 1#4).wf = false := by decide
theorem test_wf_triEdgeCache_low : (Instr.triEdgeCache 0#4 0#4).wf = false := by decide
theorem test_wf_triEdgeCache_high : (Instr.triEdgeCache 0#4 13#4).wf = false := by decide
theorem test_wf_triEdgeDec_high : (Instr.triEdgeDec 15#4).wf = false := by decide
theorem test_wf_triEdgeInc_high : (Instr.triEdgeInc 15#4).wf = false := by decide
theorem test_wf_triEdgeVarint_high : (Instr.triEdgeVarint 15#4).wf = false := by decide
theorem test_wf_cauxCache_zero : (Instr.cauxCache 0#4).wf = false := by decide
theorem test_wf_auxCache_zero : (Instr.auxCache 0#4).wf = false := by decide
theorem test_wf_auxCache_high : (Instr.auxCache 15#4).wf = false := by decide

/-! ### A word of every operation, written out bit by bit from spec/30_encoding.md -/

theorem test_decode_cmdNone : decode (.cmd 0b1000000000000000000000000000_10_00#32) = .ok (.cmdNone 2#2) := by decide
theorem test_decode_decodeVertex :
    decode (.cmd 0b1111111111111111111111111111_11_01#32) = .ok (.decodeVertex 3#2) := by decide
theorem test_decode_decodeIndex :
    decode (.cmd 0b1000000000000000000000000000_01_10#32) = .ok (.decodeIndex 1#2) := by decide
theorem test_decode_decodeSequence :
    decode (.cmd 0b1000000000000000000000000000_00_11#32) = .ok (.decodeSequence 0#2) := by decide
theorem test_decode_no_start :
    decode (.cmd 0b0000000000000000000000000000_00_01#32) = .error .noStart := by decide
theorem test_decode_filterNone : decode (.cmdFilter 0b00_01#4) = .ok .filterNone := by decide
theorem test_decode_filterOctahedral : decode (.cmdFilter 0b01_01#4) = .ok .filterOctahedral := by decide
theorem test_decode_filterQuaternion : decode (.cmdFilter 0b10_01#4) = .ok .filterQuaternion := by decide
theorem test_decode_filterExponential : decode (.cmdFilter 0b11_01#4) = .ok .filterExponential := by decide
theorem test_decode_tagVertex : decode (.tag 0b10100000#8) = .ok .tagVertex := by decide
theorem test_decode_tagIndex : decode (.tag 0b11100001#8) = .ok .tagIndex := by decide
theorem test_decode_tagSequence : decode (.tag 0b11010001#8) = .ok .tagSequence := by decide
theorem test_decode_tagOther : decode (.tag 0b11100000#8) = .ok (.tagOther 0xE0#8) := by decide
theorem test_decode_vgMode0Zero : decode (.mode 0b00#2) = .ok .vgMode0Zero := by decide
theorem test_decode_vgMode1TwoBit : decode (.mode 0b01#2) = .ok .vgMode1TwoBit := by decide
theorem test_decode_vgMode2FourBit : decode (.mode 0b10#2) = .ok .vgMode2FourBit := by decide
theorem test_decode_vgMode3Literal : decode (.mode 0b11#2) = .ok .vgMode3Literal := by decide
theorem test_decode_vc2Value : decode (.code2 0b10#2) = .ok (.vc2Value 2#2) := by decide
theorem test_decode_vc2Escape : decode (.code2 0b11#2) = .ok .vc2Escape := by decide
theorem test_decode_vc4Value : decode (.code4 0b1110#4) = .ok (.vc4Value 14#4) := by decide
theorem test_decode_vc4Escape : decode (.code4 0b1111#4) = .ok .vc4Escape := by decide
theorem test_decode_vlit8 : decode (.literal 0b11111111#8) = .ok (.vlit8 0xFF#8) := by decide
theorem test_decode_triNewTable : decode (.triangle 0b1111_1101#8) = .ok (.triNewTable 13#4) := by decide
theorem test_decode_triNewAux : decode (.triangle 0b1111_1110#8) = .ok .triNewAux := by decide
theorem test_decode_triNewAuxVarint : decode (.triangle 0b1111_1111#8) = .ok .triNewAuxVarint := by decide
theorem test_decode_triEdgeNext : decode (.triangle 0b1110_0000#8) = .ok (.triEdgeNext 14#4) := by decide
theorem test_decode_triEdgeCache : decode (.triangle 0b0010_1100#8) = .ok (.triEdgeCache 2#4 12#4) := by decide
theorem test_decode_triEdgeDec : decode (.triangle 0b0101_1101#8) = .ok (.triEdgeDec 5#4) := by decide
theorem test_decode_triEdgeInc : decode (.triangle 0b0101_1110#8) = .ok (.triEdgeInc 5#4) := by decide
theorem test_decode_triEdgeVarint : decode (.triangle 0b0101_1111#8) = .ok (.triEdgeVarint 5#4) := by decide
theorem test_decode_cauxNext : decode (.caux 0b0000#4) = .ok .cauxNext := by decide
theorem test_decode_cauxCache : decode (.caux 0b1111#4) = .ok (.cauxCache 15#4) := by decide
theorem test_decode_auxRestart : decode (.auxByte 0b00000000#8) = .ok .auxRestart := by decide
theorem test_decode_aux_without_row : decode (.auxByte 0b00010000#8) = .error .auxByteWithoutRow := by decide
theorem test_decode_auxNext : decode (.aux 0b0000#4) = .ok .auxNext := by decide
theorem test_decode_auxCache : decode (.aux 0b1110#4) = .ok (.auxCache 14#4) := by decide
theorem test_decode_auxVarint : decode (.aux 0b1111#4) = .ok .auxVarint := by decide
theorem test_decode_varintCont : decode (.varintByte 0b1_0101100#8) = .ok (.varintCont 0x2C#7) := by decide
theorem test_decode_varintEnd : decode (.varintByte 0b0_1111111#8) = .ok (.varintEnd 0x7F#7) := by decide
theorem test_decode_seqBase0 : decode (.seqValue 0b110010000_0#32) = .ok (.seqBase0 400#31) := by decide
theorem test_decode_seqBase1 : decode (.seqValue 0b110010000_1#32) = .ok (.seqBase1 400#31) := by decide

/-! ### Small states -/

/-- An idle block with registers for a launch whose target region ends where its source region begins, and whose
source region ends at 2^32. -/
def armed : State := { State.reset with
  regs := { srcBase := 0xFFFFFFF0#32, srcLen := 16#32, dstBase := 0xFFFFFFE4#32, dstCap := 12#32, count := 3#32
            stride := 4#32 } }

/-- A running command at a phase, with source region 0x100 to 0x11F, target region 0x200 up, four-byte rows. -/
def running (cmd : Command) (count : Nat) (p : Phase) : State := { State.reset with
  regs := { ctrl := 0#30 ++ cmd.op, status := statusRunning, srcBase := 0x100#32, srcLen := 32#32
            dstBase := 0x200#32, dstCap := 64#32, count := BitVec.ofNat 32 count, stride := 4#32 }
  args := { cmd := cmd, filter := 0#2, srcBase := 0x100#32, srcLen := 32#32, dstBase := 0x200#32, dstCap := 64#32
            count := BitVec.ofNat 32 count, stride := 4#32 }
  cur := 1
  lim := 32
  phase := p }

/-- A triangle is being decoded, with distinct values in the caches. -/
def triangle (p : Phase) : State := { running .index 3 p with
  ec := Vector.ofFn fun i => BitVec.ofNat 32 (100 + i.val)
  vc := Vector.ofFn fun i => BitVec.ofNat 32 (200 + i.val)
  next := 7#32
  last := 9#32
  ccur := 2
  lim := 16 }

/-! ### One step of each operation -/

theorem test_cmdNone_writes_ctrl : nextIs (exec (.cmdNone 2#2) armed) fun t =>
    decide (t.regs.ctrl = 8#32) && decide (t.phase = .idle) && decide (t.regs.status = 0#32) := by decide +kernel

theorem test_decodeVertex_starts : nextIs (exec (.decodeVertex 1#2) armed) fun t =>
    decide (t.regs.status = 1#32) && decide (t.regs.ctrl = 5#32) && decide (t.args.stride = 4#32) := by decide +kernel

theorem test_decodeIndex_ignored_while_busy : nextIs (exec (.decodeIndex 1#2) (running .vertex 1 .block)) fun t =>
    decide (t.regs.ctrl = 1#32) && decide (t.args.cmd = .vertex) && decide (t.phase = .block) := by decide +kernel

theorem test_decodeIndex_starts : nextIs (exec (.decodeIndex 0#2) armed) fun t =>
    decide (t.args.cmd = .index) && decide (t.regs.ctrl = 2#32) && decide (t.phase = .tag) := by decide +kernel

/-- R64 item 2, R324: one more target byte than `armed` has reaches the source region. -/
theorem test_decodeSequence_refused :
    refusedWith (exec (.decodeSequence 0#2) { armed with regs := { armed.regs with dstBase := 0xFFFFFFE5#32 } })
      .regionsOverlap := by decide +kernel

theorem test_decodeSequence_starts : nextIs (exec (.decodeSequence 0#2) armed) fun t =>
    decide (t.args.cmd = .sequence) && decide (t.regs.ctrl = 3#32) && decide (t.args.srcLen = 16#32) := by
  decide +kernel

theorem test_filterNone_keeps_memory :
    nextIs (exec .filterNone { running .vertex 1 .filter with mem := [(0x201, 5#8)] }) fun t =>
      decide (t.mem = [(0x201, 5#8)]) && decide (t.phase = .done) := by decide +kernel

/-- R195's and R196's examples, before the ±1 of R194: (0, 0, 127), and X = Y = 100/127. -/
theorem test_filterOctahedral_reference :
    (octRef 8 0 0 127 2).roundAway = 127 ∧ (octRef 8 100 100 127 0).roundAway = 42 ∧
      (octRef 8 100 100 127 1).roundAway = 42 ∧ (octRef 8 100 100 127 2).roundAway = -113 := by decide +kernel

theorem test_filterOctahedral_no_rows :
    nextIs (exec .filterOctahedral (running .vertex 0 .filter)) fun t => decide (t.phase = .done) := by decide +kernel

/-- R200's example, before the ±1 of R194: (-5000, 0, 0, 0x1001) gives (0, 16580, -28263, 0). -/
theorem test_filterQuaternion_reference :
    (quatRef (-5000) 0 0 0x1001#16 0).roundAway = 0 ∧ (quatRef (-5000) 0 0 0x1001#16 1).roundAway = 16580 ∧
      (quatRef (-5000) 0 0 0x1001#16 2).roundAway = -28263 ∧ (quatRef (-5000) 0 0 0x1001#16 3).roundAway = 0 := by
  decide +kernel

/-- R201's example: the reference of lane 3 is out of range; F-Q4 of 95_test_vectors.md: 32767.3992 is not. -/
theorem test_filterQuaternion_range :
    laneRange 16 (quatRef 0 0 23170 0x3FFC#16 3).roundAway = false ∧
      (quatRef 0 0 23175 0x4000#16 3).roundAway = 32767 := by decide +kernel

/-- R202's example: word 0x01000003 becomes 0x40C00000. -/
theorem test_filterExponential_word :
    nextIs (exec .filterExponential { running .vertex 1 .filter with mem := [(0x200, 3#8), (0x203, 1#8)] }) fun t =>
      decide (t.mem = [(0x202, 0xC0#8), (0x203, 0x40#8)]) := by decide +kernel

/-- R203's examples: overflow to infinity, and -1.0. -/
theorem test_filterExponential_corners :
    expWord 0x7F7FFFFF#32 = 0x7F800000#32 ∧ expWord 0x00FFFFFF#32 = 0xBF800000#32 := by decide +kernel

theorem test_tagVertex_accepted : nextIs (exec .tagVertex (running .vertex 1 .tag)) fun t =>
    decide (t.phase = .checks) := by decide +kernel
theorem test_tagIndex_wrong_command : nextIs (exec .tagIndex (running .vertex 1 .tag)) fun t =>
    reports t .badHeaderTag 0 := by decide +kernel
theorem test_tagIndex_accepted : nextIs (exec .tagIndex (running .index 3 .tag)) fun t =>
    decide (t.phase = .checks) := by decide +kernel
theorem test_tagSequence_accepted : nextIs (exec .tagSequence (running .sequence 1 .tag)) fun t =>
    decide (t.phase = .checks) := by decide +kernel
theorem test_tagOther_raises : nextIs (exec (.tagOther 0#8) (running .vertex 1 .tag)) fun t =>
    reports t .badHeaderTag 0 := by decide +kernel

theorem test_vgMode0Zero_clears :
    nextIs (exec .vgMode0Zero { running .vertex 1 .group with dbuf := Vector.replicate 16 1#8 }) fun t =>
      decide (slot t.dbuf 15 = 0#8) && decide (t.cur = 1) && decide (t.phase = .apply) := by decide +kernel
theorem test_vgMode1TwoBit_reads_four :
    nextIs (exec .vgMode1TwoBit { running .vertex 1 .group with mem := [(0x101, 7#8), (0x104, 9#8)] }) fun t =>
      decide (slot t.packed 0 = 7#8) && decide (slot t.packed 3 = 9#8) && decide (t.cur = 5) := by decide +kernel
theorem test_vgMode2FourBit_reads_eight :
    nextIs (exec .vgMode2FourBit { running .vertex 1 .group with mem := [(0x101, 7#8), (0x108, 9#8)] }) fun t =>
      decide (slot t.packed 0 = 7#8) && decide (slot t.packed 7 = 9#8) && decide (t.cur = 9) := by decide +kernel
theorem test_vgMode3Literal_begins :
    nextIs (exec .vgMode3Literal { running .vertex 1 .group with j := 16 }) fun t =>
      decide (t.j = 0) && decide (t.phase = .literal) && decide (t.cur = 1) := by decide +kernel
theorem test_vc2Value_is_delta : nextIs (exec (.vc2Value 2#2) { running .vertex 1 .code2 with j := 5 }) fun t =>
    decide (slot t.dbuf 5 = 2#8) && decide (t.j = 6) && decide (t.cur = 1) := by decide +kernel
theorem test_vc2Escape_reads :
    nextIs (exec .vc2Escape { running .vertex 1 .code2 with j := 15, mem := [(0x101, 0x85#8)] }) fun t =>
      decide (slot t.dbuf 15 = 0x85#8) && decide (t.j = 16) && decide (t.cur = 2) := by decide +kernel
theorem test_vc4Value_is_delta : nextIs (exec (.vc4Value 14#4) { running .vertex 1 .code4 with j := 0 }) fun t =>
    decide (slot t.dbuf 0 = 14#8) && decide (t.j = 1) := by decide +kernel
theorem test_vc4Escape_reads :
    nextIs (exec .vc4Escape { running .vertex 1 .code4 with j := 3, mem := [(0x101, 0xFF#8)] }) fun t =>
      decide (slot t.dbuf 3 = 0xFF#8) && decide (t.cur = 2) := by decide +kernel
/-- R310, R135: no byte before the limit is left. -/
theorem test_vc4Escape_truncated :
    nextIs (exec .vc4Escape { running .vertex 0 .code4 with cur := 28, lim := 28 }) fun t =>
      reports t .truncatedSource 28 := by decide +kernel
theorem test_vlit8_is_delta : nextIs (exec (.vlit8 0x81#8) { running .vertex 1 .literal with j := 2 }) fun t =>
    decide (slot t.dbuf 2 = 0x81#8) && decide (t.j = 3) := by decide +kernel

/-- R232: e is source byte SRC_LEN - 16 + B1, a is fresh. -/
theorem test_triNewTable_takes :
    nextIs (exec (.triNewTable 13#4) { triangle .triangle with mem := [(0x11D, 0x15#8)] }) fun t =>
      decide (t.entry = 0x15#8) && decide (t.triA = 7#32) && decide (t.next = 8#32) && decide (t.phase = .caux) := by
  decide +kernel
theorem test_triNewAux_reads :
    nextIs (exec .triNewAux { triangle .triangle with mem := [(0x101, 0x20#8)] }) fun t =>
      decide (t.entry = 0x20#8) && decide (t.cur = 2) && !t.aFromVarint && decide (t.phase = .auxByte) := by
  decide +kernel
theorem test_triNewAuxVarint_reads :
    nextIs (exec .triNewAuxVarint { triangle .triangle with mem := [(0x101, 0x20#8)] }) fun t =>
      decide (t.entry = 0x20#8) && decide (t.cur = 2) && t.aFromVarint && decide (t.next = 7#32) := by decide +kernel
/-- R226, R231, R242: edge 14 is (128, 129), c is 7; triangle 0 is written as 80 00 00 00 81 00 00 00 07 00 00 00. -/
theorem test_triEdgeNext_triangle : nextIs (exec (.triEdgeNext 14#4) (triangle .triangle)) fun t =>
    decide (t.mem = [(0x200, 128#8), (0x204, 129#8), (0x208, 7#8)]) && decide (t.next = 8#32) &&
      decide (slot t.vc 0 = 7#32) && decide (slot t.vc 1 = 200#32) := by decide +kernel
theorem test_triEdgeNext_edges : nextIs (exec (.triEdgeNext 14#4) (triangle .triangle)) fun t =>
    decide ([slot t.ec 0, slot t.ec 1, slot t.ec 2, slot t.ec 3, slot t.ec 4, slot t.ec 31] =
      [128#32, 7#32, 7#32, 129#32, 100#32, 127#32]) && decide (t.t = 1) := by decide +kernel
/-- R227: c is cache slot 12 itself, 212. -/
theorem test_triEdgeCache_triangle : nextIs (exec (.triEdgeCache 0#4 12#4) (triangle .triangle)) fun t =>
    decide (t.mem = [(0x200, 100#8), (0x204, 101#8), (0x208, 212#8)]) && decide (slot t.vc 0 = 200#32) &&
      decide (t.next = 7#32) := by decide +kernel
theorem test_triEdgeDec_wraps : nextIs (exec (.triEdgeDec 0#4) { triangle .triangle with last := 0#32 }) fun t =>
    decide (t.last = 0xFFFFFFFF#32) && decide (slot t.vc 0 = 0xFFFFFFFF#32) && decide (slot t.ec 1 = 0xFFFFFFFF#32) := by
  decide +kernel
theorem test_triEdgeInc_wraps :
    nextIs (exec (.triEdgeInc 1#4) { triangle .triangle with last := 0xFFFFFFFF#32 }) fun t =>
      decide (t.last = 0#32) && decide (slot t.vc 0 = 0#32) &&
        decide (t.mem = [(0x200, 102#8), (0x204, 103#8)]) := by decide +kernel
theorem test_triEdgeVarint_begins : nextIs (exec (.triEdgeVarint 2#4) (triangle .triangle)) fun t =>
    decide (t.triA = 104#32) && decide (t.triB = 105#32) && decide (t.phase = .varintByte) &&
      decide (t.vuse = .edgeC) && decide (t.last = 9#32) := by decide +kernel
theorem test_cauxNext_b : nextIs (exec .cauxNext (triangle .caux)) fun t =>
    decide (t.triB = 7#32) && t.pushB && decide (t.next = 8#32) && decide (t.corner = .c) := by decide +kernel
/-- R234: nibble n takes slot n - 1. -/
theorem test_cauxCache_c : nextIs (exec (.cauxCache 15#4) { triangle .caux with corner := .c, pushC := true }) fun t =>
    decide (t.triC = 214#32) && !t.pushC && decide (t.next = 7#32) && decide (t.phase = .newDone) := by decide +kernel
theorem test_auxRestart_next : nextIs (exec .auxRestart (triangle .auxByte)) fun t =>
    decide (t.next = 0#32) && decide (t.last = 9#32) && decide (slot t.vc 0 = 200#32) && decide (t.phase = .takeA) := by
  decide +kernel
theorem test_auxNext_c : nextIs (exec .auxNext { triangle .aux with corner := .c }) fun t =>
    decide (t.triC = 7#32) && t.pushC && decide (t.next = 8#32) && decide (t.phase = .newDone) := by decide +kernel
theorem test_auxCache_b : nextIs (exec (.auxCache 1#4) { triangle .aux with pushB := true }) fun t =>
    decide (t.triB = 200#32) && !t.pushB && decide (t.corner = .c) && decide (t.phase = .aux) := by decide +kernel
theorem test_auxVarint_begins : nextIs (exec .auxVarint { triangle .aux with vpos := 3, vres := 5#32 }) fun t =>
    decide (t.vpos = 0) && decide (t.vres = 0#32) && decide (t.vuse = .newCorner) && decide (t.phase = .varintByte) := by
  decide +kernel
theorem test_varintCont_joins :
    nextIs (exec (.varintCont 0x2C#7) { running .sequence 1 .varintByte with vpos := 1, vres := 5#32 }) fun t =>
      decide (t.vres = 0x1605#32) && decide (t.vpos = 2) && decide (t.phase = .varintByte) := by decide +kernel
/-- R137 (D35): at position 4 the byte ends the varint; its high payload bits are lost. -/
theorem test_varintCont_fifth :
    nextIs (exec (.varintCont 0x7F#7) { running .sequence 1 .varintByte with vpos := 4, vres := 1#32 }) fun t =>
      decide (t.vres = 0xF0000001#32) && decide (t.phase = .seqValue) := by decide +kernel
theorem test_varintEnd_index :
    nextIs (exec (.varintEnd 3#7) { triangle .varintByte with vuse := .edgeC, vpos := 1, vres := 1#32 }) fun t =>
      decide (t.vres = 0x181#32) && decide (t.phase = .indexDelta) := by decide +kernel
/-- R274, R273: dz = 3 is -2; output 1 is written. -/
theorem test_seqBase0_output :
    nextIs (exec (.seqBase0 3#31) { running .sequence 2 .seqValue with seqLast0 := 12#32, seqLast1 := 40#32, n := 1 })
      fun t => decide (t.seqLast0 = 10#32) && decide (t.seqLast1 = 40#32) && decide (t.mem = [(0x204, 10#8)]) &&
        decide (t.n = 2) := by decide +kernel
theorem test_seqBase1_output :
    nextIs (exec (.seqBase1 4#31) { running .sequence 2 .seqValue with seqLast0 := 12#32, seqLast1 := 40#32 })
      fun t => decide (t.seqLast0 = 12#32) && decide (t.seqLast1 = 42#32) && decide (t.mem = [(0x200, 42#8)]) := by
  decide +kernel

/-! ### A step fetches and runs the element placed for it -/

theorem test_fetch_word_cmd : nextIs (step (State.reset.withFetchWord 32 0x80000001)) fun t =>
    decide (t.args.cmd = .vertex) && decide (t.regs.status = 1#32) := by decide +kernel
theorem test_fetch_word_triangle : nextIs (step (State.reset.withFetchWord 8 0xF0)) fun t =>
    decide (t.next = 1#32) && decide (t.ccur = 1) && decide (t.phase = .caux) := by decide +kernel
theorem test_idle_step : step State.reset = .next State.reset := rfl

/-! ### Witnesses: states and operands that meet the hypotheses of each statement -/

/-- A list of bytes is a varint when a bounded check says so. -/
theorem isVarint_of (bs : List Byte) (h1 : 1 ≤ bs.length) (h2 : bs.length ≤ 5)
    (h3 : ∀ i, i < 5 → i + 1 < bs.length → (bs.getD i 0#8).getLsbD 7 = true)
    (h4 : (bs.getD (bs.length - 1) 0#8).getLsbD 7 = false ∨ bs.length = 5) : IsVarint bs :=
  ⟨h1, h2, fun i hi => h3 i (by omega) hi, h4⟩

/-- A DECODE_SEQUENCE at its first output, with two one-byte varints in its stream. -/
def sequenceRun : State := { running .sequence 2 .output with
  regs := { (running .sequence 2 .output).regs with srcLen := 3#32 }
  args := { (running .sequence 2 .output).args with srcLen := 3#32 }
  lim := 3
  mem := [(0x100, 0xD1#8), (0x101, 2#8), (0x102, 7#8)] }

/-- Two regions of four bytes, source at 0x10 and target at 0x20. -/
def region : Region := { srcBase := 0x10, srcLen := 4, dstBase := 0x20, dstLen := 4 }

/-- A state in which one access from outside is due. -/
def due (a : HostAction) (s : State) : State := { s with events := [{ delay := 0, action := a }] }

theorem test_witness_EncodedOperationsDecodeBack :
    (Instr.tagOther 0x9F#8).wf = true ∧ (Instr.vc2Value 2#2).wf = true ∧ (Instr.vc4Value 14#4).wf = true ∧
      (Instr.triNewTable 13#4).wf = true ∧ (Instr.triEdgeCache 14#4 1#4).wf = true ∧
      (Instr.triEdgeCache 0#4 12#4).wf = true ∧ (Instr.cauxCache 15#4).wf = true ∧ (Instr.auxCache 1#4).wf = true ∧
      (Instr.auxCache 14#4).wf = true := by decide

theorem test_witness_ElementsHaveOneOperation :
    decode (.cmd 0xFFFFFFFF#32) = .ok (.decodeSequence 3#2) ∧ decode (.triangle 0x01#8) = .ok (.triEdgeCache 0#4 1#4) := by
  decide

theorem test_witness_FifoShiftAndPush : 1 ≤ 6 ∧ 6 ≤ 32 ∧ 31 < 32 ∧ 1 ≤ 16 ∧ 16 ≤ 16 ∧ 0 < 16 := by decide

theorem test_witness_BlockGeometry :
    attrBlockMaxElementCount 1 = 256 ∧ attrBlockMaxElementCount 512 = 16 ∧ attrBlockMaxElementCount 32 = 256 ∧
      attrBlockMaxElementCount 33 = 240 ∧ attrBlockMaxElementCount 48 = 160 ∧ attrBlockMaxElementCount 100 = 80 ∧
      attrBlockMaxElementCount 400 = 16 ∧ { running .vertex 17 .block with blockBase := 17 }.blockBase ≤ 17 ∧
      240 % 16 = 0 ∧ 240 ≤ 256 ∧ 240 * 33 ≤ 8192 ∧ groupCount 256 = 16 ∧
      headerByteCount 256 = 4 ∧ groupCount 1 = 1 ∧ headerByteCount 1 = 1 := by decide

theorem test_witness_TargetIndexIsLittleEndian : State.reset.mem.wf = true ∧ sequenceRun.mem.wf = true := by
  decide +kernel

theorem test_witness_VarintBytesJoin :
    { State.reset with vpos := 3 }.vpos < 4 ∧ 4 ≤ { State.reset with vpos := 4 }.vpos := by decide +kernel

/-- Five bytes, the last with CONT set, up to the limit; and one byte. -/
theorem test_witness_VarintReadsItsValue_five :
    let s := { running .sequence 2 .varintByte with
      mem := [(0x101, 0xFF#8), (0x102, 0xFF#8), (0x103, 0xFF#8), (0x104, 0xFF#8), (0x105, 0x8F#8)], lim := 6 }
    IsVarint [0xFF#8, 0xFF#8, 0xFF#8, 0xFF#8, 0x8F#8] ∧ s.events = [] ∧ s.phase = .varintByte ∧ s.vpos = 0 ∧
      s.vres = 0#32 ∧ HoldsBytes s.mem (s.srcAddr s.cur) [0xFF#8, 0xFF#8, 0xFF#8, 0xFF#8, 0x8F#8] ∧
      s.cur + 5 ≤ s.lim :=
  ⟨isVarint_of _ (by decide) (by decide) (by decide) (by decide), rfl, rfl, rfl, rfl,
    by unfold HoldsBytes; decide +kernel, by decide⟩

theorem test_witness_VarintReadsItsValue_one : IsVarint [0x7F#8] :=
  isVarint_of _ (by decide) (by decide) (by decide) (by decide)

theorem test_witness_ReadsPastTheLimitRaise :
    let s := { running .vertex 16 .lane with cur := 28, lim := 28 }
    s.mem.wf = true ∧
    let t := { running .vertex 16 .literal with cur := 28, lim := 28, j := 15 }
    let u := { running .vertex 16 .group with cur := 25, lim := 28 }
    let v := { running .sequence 1 .varintByte with cur := 32 }
    s.lim ≤ s.cur ∧ s.events = [] ∧ s.phase = .lane ∧ s.k < s.args.stride.toNat ∧ 1 ≤ s.blockRows ∧
      s.lim < s.cur + headerByteCount s.blockRows ∧ t.lim ≤ t.cur ∧ t.events = [] ∧ t.phase = .literal ∧ t.j < 16 ∧
      u.lim < u.cur + 4 ∧ u.lim < u.cur + 8 ∧ v.lim ≤ v.cur ∧ v.events = [] ∧ v.phase = .varintByte := by
  decide +kernel

theorem test_witness_RaiseAndCompleteReport :
    (running .vertex 1 .done).events = [] ∧ (running .vertex 1 .done).phase = .done := ⟨rfl, rfl⟩

/-- `armed` keeps every precondition, at the boundary of each. -/
theorem test_witness_armed : armed.busy = false ∧ LaunchAllowed armed where
  left := by decide
  right :=
    { region :=
        { srcBase := by decide, dstBase := by decide, source := by decide, target := by decide
          disjoint := fun a h => by
            have h1 : 4294967280 ≤ a := h.1.1
            have h2 : a < 4294967268 + 12 := h.2.2
            omega }
      others := fun r hr => by simp [armed, State.reset] at hr
      othersQuiet := fun r hr => by simp [armed, State.reset] at hr }

/-- One more source byte passes 2^32. -/
theorem test_witness_not_allowed :
    { armed with regs := { armed.regs with srcLen := 17#32 } }.busy = false ∧
      ¬ LaunchAllowed { armed with regs := { armed.regs with srcLen := 17#32 } } :=
  ⟨by decide, fun h => absurd h.region.source (by decide)⟩

/-- R64 item 3, R324: a START whose target touches the quiet target of another block's ended launch. -/
theorem test_start_quiet_of_other_block :
    refusedWith (exec (.decodeIndex 0#2) { armed with
      othersQuiet := [{ block := 1, region := { srcBase := 0, srcLen := 0, dstBase := 0xFFFFFFE4, dstLen := 1 } }] })
      .quietRegionTouched := by decide +kernel

/-- CTRL writes on `armed`: while BUSY, without START, with OP = 0, and with a command. -/
theorem test_witness_CtrlWriteFollowsItsRule :
    (due (.regWrite 0 4 0x80000001#32) (running .vertex 1 .block)).busy = true ∧
      (due (.regWrite 0 4 0x7FFFFFFF#32) armed).busy = false ∧ (0x7FFFFFFF#32).getLsbD 31 = false ∧
      (0x80000000#32).extractLsb' 0 2 = 0#2 ∧ (0x80000001#32).getLsbD 31 = true ∧
      (0x80000001#32).extractLsb' 0 2 ≠ 0#2 ∧ LaunchAllowed (due (.regWrite 0 4 0x80000001#32) armed) :=
  ⟨by decide, by decide, by decide, by decide, by decide, by decide,
    { region := test_witness_armed.2.region, others := test_witness_armed.2.others
      othersQuiet := test_witness_armed.2.othersQuiet }⟩

theorem test_witness_CommandsStart : armed.busy = false ∧ LaunchAllowed armed := test_witness_armed

theorem test_witness_NoCommandStartsNothing :
    armed.busy = false ∧ (running .vertex 1 .block).busy = true := by decide

theorem test_witness_RefusedExactlyOnBrokenPrecondition : armed.busy = false := by decide

theorem test_witness_WindowReads :
    (due (.regRead 0x3C 4) armed).events = [{ delay := 0, action := .regRead 0x3C 4 }] ∧ 0x3C < 64 ∧ 0x3C % 4 = 0 ∧
      (due (.regRead 0x04 4) armed).busy = false ∧ 0x28 ≤ 0x3C := by decide +kernel

theorem test_witness_WindowWrites :
    (due (.regWrite 0x1C 4 5#32) armed).events = [{ delay := 0, action := .regWrite 0x1C 4 5#32 }] ∧ 0 < 4 ∧
      0x3C < 64 ∧ 0x3C % 4 = 0 ∧ armed.busy = false ∧ (running .vertex 1 .block).busy = true := by decide +kernel

theorem test_witness_OddRegisterAccesses :
    (due (.regRead 63 4) armed).events = [{ delay := 0, action := .regRead 63 4 }] ∧ 64 ≤ 64 ∧ 63 < 64 ∧ 63 % 4 ≠ 0 ∧
      2 ≠ 4 := by decide +kernel

theorem test_witness_ResetStopsTheCommand :
    (due .reset (running .vertex 1 .block)).events = [{ delay := 0, action := .reset }] ∧
      (due .reset (running .vertex 1 .block)).busy = true ∧ (due .reset armed).busy = false := by decide +kernel

/-- Writes and reads of one byte at the edges of a quiet region: 0x13 and 0x23 lie in it, 0x14 and 0x24 do not. -/
theorem test_witness_QuietRegionsAreGuarded :
    let s := { State.reset with othersQuiet := [{ block := 1, region := region }] }
    0xFFFFFFFF + 1 ≤ 2 ^ s.params.addrW ∧ s.mem.wf = true ∧
      (∃ r, IsQuiet s r ∧ ∃ b, 0x13 ≤ b ∧ b < 0x13 + 1 ∧ (r.hasSource b ∨ r.hasTarget b)) ∧
      (∀ r, IsQuiet s r → ∀ b, 0x14 ≤ b → b < 0x14 + 1 → ¬ (r.hasSource b ∨ r.hasTarget b)) ∧
      (∃ r, IsQuiet s r ∧ r.hasTarget 0x23) ∧ (∀ r, IsQuiet s r → ¬ r.hasTarget 0x24) ∧
      2 ^ s.params.addrW < 0xFFFFFFFF + 2 ∧ 2 ^ s.params.addrW ≤ 0x100000000 := by
  have hq : ∀ r, IsQuiet { State.reset with othersQuiet := [{ block := 1, region := region }] } r ↔ r = region := by
    intro r
    simp [IsQuiet, State.reset, eq_comm]
  simp only [hq]
  refine ⟨by decide, by decide, ⟨region, rfl, 0x13, by omega, by omega, ?_⟩, ?_, ⟨region, rfl, ?_⟩, ?_, by decide, by decide⟩
  · exact Or.inl ⟨by decide, by decide⟩
  · rintro r rfl b h1 h2
    simp only [Region.hasSource, Region.hasTarget, region]
    omega
  · exact ⟨by decide, by decide⟩
  · rintro r rfl
    simp only [Region.hasTarget, region]
    omega

/-- Three blocks, block 1 running on `region`. -/
def twoBlocks : State := { State.reset with
  params := { addrW := 32, vtxRejected := [], nBlocks := 3 }
  others := [{ block := 1, region := region }]
  othersQuiet := [{ block := 1, region := region }] }

/-- Block 2 may begin beside block 1: it shares source bytes, and its target begins where block 1's ends. -/
theorem test_witness_OtherBlocksStayDisjoint :
    1 ≤ 2 ∧ 2 < twoBlocks.params.nBlocks ∧ (∃ o ∈ twoBlocks.others, o.block = 1) ∧
      (∀ o ∈ twoBlocks.others, o.block ≠ 2) ∧ twoBlocks.mem.wf = true ∧
      OtherLaunchAllowed twoBlocks 2 { srcBase := 0x10, srcLen := 4, dstBase := 0x24, dstLen := 4 } := by
  have hc : ¬ ({ srcBase := 0x10, srcLen := 4, dstBase := 0x24, dstLen := 4 } : Region).Conflicts region := by
    rw [← conflicts_iff]
    decide
  refine ⟨by decide, by decide, by decide, by decide, by decide, ⟨?_, ?_, ?_, ?_, ?_⟩⟩
  · rw [← regionProblem_iff]
    decide
  · exact fun h => absurd h (by decide)
  · simpa [twoBlocks] using hc
  · simp [twoBlocks, State.reset]
  · simpa [twoBlocks] using hc

/-- R64 item 2, R83: another block's launch whose target meets its own source breaks a precondition. -/
theorem test_witness_OtherBlocksStayDisjoint_refused :
    ¬ OtherLaunchAllowed twoBlocks 2 { srcBase := 0x40, srcLen := 4, dstBase := 0x43, dstLen := 4 } ∧
      refusedWith (step (due (.otherStart 2 { srcBase := 0x40, srcLen := 4, dstBase := 0x43, dstLen := 4 }) twoBlocks))
        .regionsOverlap := by
  refine ⟨fun h => h.region.disjoint 0x43 ⟨⟨by decide, by decide⟩, ⟨by decide, by decide⟩⟩, by decide +kernel⟩

/-- Block 1 writes the last byte of its target, and not past it. -/
theorem test_witness_OtherBlocksStayDisjoint_writes :
    (∀ x ∈ twoBlocks.others, x.block = 1 → x = { block := 1, region := region }) ∧ 3 + [7#8].length ≤ region.dstLen ∧
      region.dstLen < 4 + [7#8].length ∧
      nextIs (step (due (.otherWrite 1 3 [7#8]) twoBlocks)) fun t => decide (t.mem = [(0x23, 7#8)]) := by
  decide +kernel

theorem test_witness_TagsAcceptedOnlyByTheirCommand :
    (running .vertex 1 .tag).args.cmd = .vertex ∧ (running .vertex 1 .tag).args.cmd ≠ .index := by decide

/-- R191, R302: the filters' strides, and VTX_STRIDE_OK, at their boundaries. -/
theorem test_strideSupported :
    let v := fun f n => strideSupported { running .vertex 1 .tag with
      args := { (running .vertex 1 .tag).args with filter := f, stride := n } }
    v 0#2 512#32 = true ∧ v 0#2 513#32 = false ∧ v 0#2 0#32 = false ∧ v 1#2 4#32 = true ∧ v 1#2 8#32 = true ∧
      v 1#2 12#32 = false ∧ v 2#2 8#32 = true ∧ v 2#2 4#32 = false ∧ v 3#2 12#32 = true ∧ v 3#2 6#32 = false := by
  decide +kernel

/-- Each check of R306 as the first to fail, at its boundary, and none. -/
theorem test_witness_FirstFailingCheckIsReported :
    let v := { running .vertex 16 .tag with mem := [(0x100, 0xA0#8)] }
    let x := { running .index 3 .tag with mem := [(0x100, 0xE1#8)] }
    v.events = [] ∧ v.phase = .tag ∧
      firstError { v with args := { v.args with srcLen := 0#32 } } = some (.truncatedSource, 0) ∧
      firstError x = none ∧ firstError { x with mem := [(0x100, 0xA0#8)] } = some (.badHeaderTag, 0) ∧
      firstError { x with args := { x.args with stride := 3#32 } } = some (.unsupportedStride, 0) ∧
      firstError { x with args := { x.args with count := 4#32 } } = some (.invalidIndexCount, 0) ∧
      firstError { v with args := { v.args with dstCap := 63#32 } } = some (.destinationTooSmall, 0) ∧
      firstError { v with args := { v.args with srcLen := 4#32 } } = some (.truncatedSource, 4) ∧
      firstError { v with args := { v.args with srcLen := 5#32 } } = none := by decide +kernel

theorem test_witness_InitialStateOfCommands :
    commandCheck (running .vertex 16 .checks) = none ∧ commandCheck (running .index 3 .checks) = none ∧
      commandCheck (running .sequence 16 .checks) = none := by decide +kernel

theorem test_witness_PackedModesReadTheirBytes :
    let s := { running .vertex 16 .group with cur := 20, lim := 28 }
    s.cur + 4 ≤ s.lim ∧ s.cur + 8 ≤ s.lim := by decide

theorem test_witness_CodesAreTheirDelta :
    { State.reset with j := 15 }.j < 16 ∧ (2#2).toNat ≤ 2 ∧ (14#4).toNat ≤ 14 := by decide

theorem test_witness_EscapesTakeTheNextByte :
    let s := { running .vertex 16 .code2 with j := 15, cur := 27, lim := 28 }
    s.j < 16 ∧ s.cur < s.lim := by decide

/-- Sixteen escapes that reach the limit, none, and sixteen literals that reach it. -/
theorem test_witness_GroupFillsTheDeltas :
    let s := { running .vertex 16 .code2 with packed := Vector.replicate 8 0xFF#8, cur := 12, lim := 28 }
    let u := { running .vertex 16 .code4 with cur := 28, lim := 28 }
    let v := { running .vertex 16 .literal with cur := 12, lim := 28 }
    s.events = [] ∧ s.j = 0 ∧ s.phase = .code2 ∧
      s.cur + escapesBefore (fun j => decide (code2At s.packed j = 3#2)) 16 ≤ s.lim ∧ u.events = [] ∧ u.j = 0 ∧
      u.phase = .code4 ∧ u.cur + escapesBefore (fun j => decide (code4At u.packed j = 15#4)) 16 ≤ u.lim ∧
      v.events = [] ∧ v.j = 0 ∧ v.phase = .literal ∧ v.cur + 16 ≤ v.lim := by
  decide +kernel

/-- A block of 17 rows: group 1 has one row in the block, row 16, in the last lane. -/
theorem test_witness_ApplyGroupAddsDeltas :
    let s := { running .vertex 17 .apply with g := 1, k := 3 }
    s.events = [] ∧ s.phase = .apply ∧ s.mem.wf = true ∧ s.k < s.args.stride.toNat ∧ s.k < 512 ∧
      16 * s.g + 0 < s.blockRows ∧ ¬ 16 * s.g + 1 < s.blockRows := by decide +kernel

theorem test_witness_LoopsAdvance :
    let b := running .vertex 17 .block
    let l := { running .vertex 17 .lane with k := 3, cur := 27, lim := 28 }
    b.events = [] ∧ b.phase = .block ∧ b.blockBase < b.args.count.toNat ∧
      { b with blockBase := 17 }.args.count.toNat ≤ { b with blockBase := 17 }.blockBase ∧ l.phase = .lane ∧
      l.k < l.args.stride.toNat ∧ headerByteCount l.blockRows ≤ 4 ∧ l.cur + headerByteCount l.blockRows ≤ l.lim ∧
      { l with k := 4 }.args.stride.toNat ≤ { l with k := 4 }.k ∧
      groupCount { running .vertex 17 .group with g := 2 }.blockRows ≤ 2 ∧
      16 ≤ { running .vertex 17 .literal with j := 16 }.j ∧
      (triangle .triangle).args.triCount ≤ { triangle .triangle with t := 1 }.t ∧
      { running .sequence 2 .output with n := 1 }.n < (running .sequence 2 .output).args.count.toNat ∧
      (running .sequence 2 .output).args.count.toNat ≤ { running .sequence 2 .output with n := 2 }.n := by
  decide +kernel

/-- Both strides: 8-bit lanes at stride 4, 16-bit lanes at stride 8. -/
theorem test_witness_OctahedralPassRewritesRows :
    let s := running .vertex 1 .filter
    let u := { s with args := { s.args with stride := 8#32 } }
    s.mem.wf = true ∧ s.args.stride.toNat = 4 ∧ 8 = 8 * (s.args.stride.toNat / 4) ∧ u.mem.wf = true ∧
      u.args.stride.toNat = 8 ∧ 16 = 8 * (u.args.stride.toNat / 4) := by decide

/-- R192 at stride 8: lane 1 of row 1 is the bytes 10 and 11 of the target, lowest byte first. -/
theorem test_rowLane_stride_8 :
    let s := running .vertex 2 .filter
    { s with args := { s.args with stride := 8#32 }, mem := [(0x20A, 0x34#8), (0x20B, 0x82#8)] }.rowLane 1 1 =
      0x8234 - 0x10000 := by decide +kernel

theorem test_witness_QuaternionPassRewritesRows :
    let s := { running .vertex 1 .filter with args := { (running .vertex 1 .filter).args with stride := 8#32 } }
    s.mem.wf = true ∧ s.args.stride.toNat = 8 := by decide

theorem test_witness_NoneAndExponentialPasses :
    (running .vertex 1 .filter).mem.wf = true ∧ (running .vertex 1 .filter).args.stride.toNat % 4 = 0 := by decide

/-- Every real number has a rounded value (R14). -/
theorem roundsAway_exists (x : ℝ) : ∃ n : ℤ, RoundsAway x n := by
  by_cases h : 0 ≤ x
  · exact ⟨_, fun _ => rfl, fun h2 => absurd h (not_le.mpr h2)⟩
  · exact ⟨_, fun h2 => absurd h2 h, fun _ => rfl⟩

/-- Both widths; `one` = -1 with l0 = 1: the fold happens, Z = -1. Every real number has its rounding. -/
theorem test_witness_OctahedralWithinOneOfReference :
    ((8 : Nat) = 8 ∨ (8 : Nat) = 16) ∧ ((16 : Nat) = 8 ∨ (16 : Nat) = 16) ∧ (-1 : Int) ≠ 0 ∧
      ∃ X0 Y0 Z X Y : ℝ, X0 = ((1 : Int) : ℝ) / ((-1 : Int) : ℝ) ∧ Y0 = ((1 : Int) : ℝ) / ((-1 : Int) : ℝ) ∧
        Z = 1 - |X0| - |Y0| ∧ X = (if Z < 0 then X0 - (if 0 ≤ X0 then 1 else -1) * |Z| else X0) ∧
        Y = (if Z < 0 then Y0 - (if 0 ≤ Y0 then 1 else -1) * |Z| else Y0) ∧
        (∃ n : ℤ, RoundsAway (Z * (((2 : ℝ) ^ (8 - 1) - 1) / Real.sqrt (X ^ 2 + Y ^ 2 + Z ^ 2))) n) ∧
        ∃ n : ℤ, RoundsAway (X * (((2 : ℝ) ^ (16 - 1) - 1) / Real.sqrt (X ^ 2 + Y ^ 2 + Z ^ 2))) n :=
  ⟨Or.inl rfl, Or.inr rfl, by decide, _, _, _, _, _, rfl, rfl, rfl, rfl, rfl, roundsAway_exists _,
    roundsAway_exists _⟩

/-- R199's example (0, 0, 0, 3): lane mc = 3 has the reference 32767, the top of the range, and x is 0. -/
theorem test_witness_QuaternionWithinOneOfReference :
    ∃ sc x w : ℝ, sc = Real.sqrt (1 / 2) / (((3#16 ||| 0x3#16 : BitVec 16).toInt : Int) : ℝ) ∧
      x = ((0 : Int) : ℝ) * sc ∧ w = Real.sqrt (max 0 (1 - x ^ 2 - x ^ 2 - x ^ 2)) ∧
      ((3#16 : BitVec 16).extractLsb' 0 2).toNat = 3 ∧ RoundsAway (32767 * w) 32767 ∧ RoundsAway (32767 * x) 0 := by
  refine ⟨_, 0, 1, rfl, by simp, by norm_num, by decide, ⟨fun _ => ?_, fun h => ?_⟩, ⟨fun _ => ?_, fun h => ?_⟩⟩
  · symm
    rw [Int.floor_eq_iff]
    norm_num
  · norm_num at h
  · symm
    rw [Int.floor_eq_iff]
    norm_num
  · norm_num at h

/-- m = 0; e = -126; and the smallest and largest overflows, m * 2^e = 2^128 and m = -2^23 at e = 127. -/
theorem test_witness_ExponentialIsExact :
    ((0x80000000#32).extractLsb' 0 24).toInt = 0 ∧ ((0x82000001#32).extractLsb' 24 8).toInt = -126 ∧
      ((0x82000001#32).extractLsb' 0 24).toInt = 1 ∧ (|((1 : Int) : ℚ)| * (2 : ℚ) ^ (-126 : Int) < 2 ^ 128) ∧
      ((0x7F000002#32).extractLsb' 24 8).toInt = 127 ∧ ((0x7F000002#32).extractLsb' 0 24).toInt = 2 ∧
      (2 ^ 128 ≤ |((2 : Int) : ℚ)| * (2 : ℚ) ^ (127 : Int)) := by
  refine ⟨by decide, by decide, by decide, by norm_num, by decide, by decide, by norm_num⟩

theorem test_witness_EdgeTriangles :
    (14#4).toNat ≤ 14 ∧ 1 ≤ (1#4).toNat ∧ (12#4).toNat ≤ 12 ∧ (triangle .triangle).mem.wf = true := by
  decide +kernel

/-- A code 0xEF with a two-byte varint up to the limit. -/
theorem test_witness_EdgeVarintTriangle :
    let s := { running .index 3 .triangle with
      mem := [(0x101, 0xEF#8), (0x102, 0x80#8), (0x103, 0x01#8)], ccur := 1, cur := 2, lim := 4 }
    s.events = [] ∧ s.phase = .triangle ∧ s.t < s.args.triCount ∧
      s.mem.read (s.srcAddr s.ccur) = (14#4 ++ 15#4 : Byte) ∧ (14#4).toNat ≤ 14 ∧ s.mem.wf = true ∧
      IsVarint [0x80#8, 0x01#8] ∧ HoldsBytes s.mem (s.srcAddr s.cur) [0x80#8, 0x01#8] ∧ s.cur + 2 ≤ s.lim :=
  ⟨rfl, rfl, by decide, by decide +kernel, by decide, by decide,
    isVarint_of _ (by decide) (by decide) (by decide) (by decide), by unfold HoldsBytes; decide +kernel, by decide⟩

theorem test_witness_NewTrianglesBegin :
    (13#4).toNat ≤ 13 ∧ 16 ≤ (triangle .triangle).args.srcLen.toNat ∧
      { triangle .triangle with cur := 15 }.cur < { triangle .triangle with cur := 15 }.lim := by decide

theorem test_witness_RestartThenA :
    let s := triangle .auxByte
    s.events = [] ∧ s.phase = .auxByte ∧ { s with entry := 0x10#8 }.entry ≠ 0#8 ∧ s.entry = 0#8 ∧
      (triangle .takeA).aFromVarint = false ∧ { triangle .takeA with aFromVarint := true }.aFromVarint = true := by
  decide +kernel

theorem test_witness_NibblesGiveVertices :
    (triangle .caux).corner = .b ∧ { triangle .caux with corner := .c }.corner = .c ∧ 1 ≤ (1#4).toNat := by decide

theorem test_witness_IndexDeltaGivesVertex :
    let s := { triangle .indexDelta with vuse := .newCorner }
    s.events = [] ∧ s.phase = .indexDelta ∧ s.vuse = .newCorner ∧ s.corner = .b ∧
      { s with corner := .c }.corner = .c ∧ { s with vuse := .newA }.vuse = .newA := by decide +kernel

theorem test_witness_NewTriangleCompletes :
    (triangle .newDone).events = [] ∧ (triangle .newDone).phase = .newDone ∧ (triangle .newDone).mem.wf = true := by
  decide +kernel

theorem test_witness_NewTableTriangle :
    let s := { running .index 3 .triangle with mem := [(0x101, 0xFD#8), (0x11D, 0x0F#8)], ccur := 1 }
    s.events = [] ∧ s.phase = .triangle ∧ s.t < s.args.triCount ∧ s.mem.wf = true ∧ (13#4).toNat ≤ 13 ∧
      16 ≤ s.args.srcLen.toNat ∧ s.mem.read (s.srcAddr s.ccur) = (15#4 ++ 13#4 : Byte) ∧
      s.mem.read (s.srcAddr (s.args.srcLen.toNat - 16 + (13#4).toNat)) = (0#4 ++ 15#4 : Byte) := by decide +kernel

/-- Nibbles 14 and 0 at the last data byte, a restart, and two nibbles 15 with varints up to the limit. -/
theorem test_witness_NewAuxTriangle :
    let s := { running .index 3 .triangle with mem := [(0x101, 0xFE#8), (0x102, 0xE0#8)], ccur := 1, cur := 2, lim := 3 }
    let v := { s with mem := [(0x101, 0xFE#8), (0x102, 0xFF#8), (0x103, 0x80#8), (0x104, 1#8), (0x105, 5#8)], lim := 6 }
    s.events = [] ∧ s.phase = .triangle ∧ s.t < s.args.triCount ∧ s.mem.wf = true ∧
      s.mem.read (s.srcAddr s.ccur) = 0xFE#8 ∧ s.cur + 1 ≤ s.lim ∧
      s.mem.read (s.srcAddr s.cur) = (14#4 ++ 0#4 : Byte) ∧ HoldsBytes s.mem (s.srcAddr (s.cur + 1)) [] ∧
      { s with mem := [(0x101, 0xFE#8)] }.mem.read (s.srcAddr s.cur) = (0#4 ++ 0#4 : Byte) ∧ v.mem.wf = true ∧
      v.mem.read (v.srcAddr v.cur) = (15#4 ++ 15#4 : Byte) ∧ IsVarint [0x80#8, 1#8] ∧ IsVarint [5#8] ∧
      HoldsBytes v.mem (v.srcAddr (v.cur + 1)) ([0x80#8, 1#8] ++ [5#8]) ∧ v.cur + 1 + 3 ≤ v.lim :=
  ⟨rfl, rfl, by decide, by decide, by decide +kernel, by decide, by decide +kernel, by unfold HoldsBytes; decide +kernel,
    by decide +kernel, by decide, by decide +kernel, isVarint_of _ (by decide) (by decide) (by decide) (by decide),
    isVarint_of _ (by decide) (by decide) (by decide) (by decide), by unfold HoldsBytes; decide +kernel, by decide⟩

/-- A varint for a, none for b, and one for c, up to the limit. -/
theorem test_witness_NewAuxVarintTriangle :
    let s := { running .index 3 .triangle with
      mem := [(0x101, 0xFF#8), (0x102, 0x0F#8), (0x103, 0x80#8), (0x104, 0x01#8), (0x105, 5#8)]
      ccur := 1, cur := 2, lim := 6 }
    s.events = [] ∧ s.phase = .triangle ∧ s.t < s.args.triCount ∧ s.mem.wf = true ∧
      s.mem.read (s.srcAddr s.ccur) = 0xFF#8 ∧ s.mem.read (s.srcAddr s.cur) = (0#4 ++ 15#4 : Byte) ∧
      IsVarint [0x80#8, 0x01#8] ∧ IsVarint [5#8] ∧
      HoldsBytes s.mem (s.srcAddr (s.cur + 1)) ([0x80#8, 0x01#8] ++ [] ++ [5#8]) ∧ s.cur + 1 + 3 ≤ s.lim :=
  ⟨rfl, rfl, by decide, by decide, by decide +kernel, by decide +kernel,
    isVarint_of _ (by decide) (by decide) (by decide) (by decide),
    isVarint_of _ (by decide) (by decide) (by decide) (by decide), by unfold HoldsBytes; decide +kernel, by decide⟩

/-- A nibble 15 for b and a cache nibble for c, with varints for a and b up to the limit. -/
theorem test_witness_NewAuxVarintTriangle_b :
    let s := { running .index 3 .triangle with
      mem := [(0x101, 0xFF#8), (0x102, 0xFE#8), (0x103, 0x80#8), (0x104, 0x01#8), (0x105, 5#8)]
      ccur := 1, cur := 2, lim := 6 }
    s.events = [] ∧ s.phase = .triangle ∧ s.t < s.args.triCount ∧ s.mem.wf = true ∧
      s.mem.read (s.srcAddr s.ccur) = 0xFF#8 ∧ s.mem.read (s.srcAddr s.cur) = (15#4 ++ 14#4 : Byte) ∧
      IsVarint [0x80#8, 0x01#8] ∧ IsVarint [5#8] ∧
      HoldsBytes s.mem (s.srcAddr (s.cur + 1)) ([0x80#8, 0x01#8] ++ [5#8] ++ []) ∧ s.cur + 1 + 3 ≤ s.lim :=
  ⟨rfl, rfl, by decide, by decide, by decide +kernel, by decide +kernel,
    isVarint_of _ (by decide) (by decide) (by decide) (by decide),
    isVarint_of _ (by decide) (by decide) (by decide) (by decide), by unfold HoldsBytes; decide +kernel, by decide⟩

/-- The restart, both nibbles 0, with the varint for a alone (T6 of 95_test_vectors.md). -/
theorem test_witness_NewAuxVarintTriangle_restart :
    let s := { running .index 3 .triangle with
      mem := [(0x101, 0xFF#8), (0x103, 0xFE#8), (0x104, 0xFF#8), (0x105, 7#8)], ccur := 1, cur := 2, lim := 6 }
    s.events = [] ∧ s.phase = .triangle ∧ s.t < s.args.triCount ∧ s.mem.wf = true ∧
      s.mem.read (s.srcAddr s.ccur) = 0xFF#8 ∧ s.mem.read (s.srcAddr s.cur) = (0#4 ++ 0#4 : Byte) ∧
      IsVarint [0xFE#8, 0xFF#8, 7#8] ∧
      HoldsBytes s.mem (s.srcAddr (s.cur + 1)) ([0xFE#8, 0xFF#8, 7#8] ++ [] ++ []) ∧ s.cur + 1 + 3 ≤ s.lim :=
  ⟨rfl, rfl, by decide, by decide, by decide +kernel, by decide +kernel,
    isVarint_of _ (by decide) (by decide) (by decide) (by decide), by unfold HoldsBytes; decide +kernel, by decide⟩

theorem test_witness_SequenceBases : (running .sequence 1 .seqValue).mem.wf = true := by decide

/-- `sequenceRun` meets the invariant. -/
theorem test_witness_sequenceRun_inv : sequenceRun.Inv where
  mem := by decide +kernel
  registers :=
    { status := Or.inr (Or.inl rfl)
      busy := by constructor <;> intro _ <;> decide
      ctrl := by decide +kernel
      errOffset := fun h => absurd rfl h }
  launch := fun _ =>
    { latched := rfl
      ctrl := by decide +kernel
      source := by decide +kernel
      target := by decide +kernel
      disjoint := fun a h1 h2 h3 => by
        have e1 : a < 0x100 + 3 := h2
        have e2 : 0x200 ≤ a := h3.1
        omega }
  phase := ⟨rfl, by decide +kernel, rfl, by decide, by decide, by decide⟩

/-- A DECODE_VERTEX of three rows at its first block, every data byte 0. -/
def vertexRun : State := { running .vertex 3 .block with lim := 28, mem := [(0x100, 0xA0#8)] }

/-- A DECODE_INDEX of one triangle at its first code. -/
def indexRun : State := { running .index 3 .triangle with lim := 16, cur := 2, ccur := 1, mem := [(0x100, 0xE1#8)] }

theorem test_witness_vertexRun_inv : vertexRun.Inv where
  mem := by decide +kernel
  registers :=
    { status := Or.inr (Or.inl rfl)
      busy := by constructor <;> intro _ <;> decide
      ctrl := by decide +kernel
      errOffset := fun h => absurd rfl h }
  launch := fun _ =>
    { latched := rfl
      ctrl := by decide +kernel
      source := by decide +kernel
      target := by decide +kernel
      disjoint := fun a h1 h2 h3 => by
        have e1 : a < 0x100 + 32 := h2
        have e2 : 0x200 ≤ a := h3.1
        omega }
  phase := ⟨rfl, by decide +kernel, rfl, by decide, by decide, by decide⟩

theorem test_witness_indexRun_inv : indexRun.Inv where
  mem := by decide +kernel
  registers :=
    { status := Or.inr (Or.inl rfl)
      busy := by constructor <;> intro _ <;> decide
      ctrl := by decide +kernel
      errOffset := fun h => absurd rfl h }
  launch := fun _ =>
    { latched := rfl
      ctrl := by decide +kernel
      source := by decide +kernel
      target := by decide +kernel
      disjoint := fun a h1 h2 h3 => by
        have e1 : a < 0x100 + 32 := h2
        have e2 : 0x200 ≤ a := h3.1
        omega }
  phase := ⟨rfl, by decide +kernel, rfl, by decide, by decide, by decide⟩

/-- `vertexRun` with a limit that cuts its last lane's header byte off: four are needed. -/
def vertexRunShort : State := { vertexRun with
  regs := { vertexRun.regs with srcLen := 8#32 }
  args := { vertexRun.args with srcLen := 8#32 }
  lim := 4 }

theorem test_witness_vertexRunShort_inv : vertexRunShort.Inv where
  mem := by decide +kernel
  registers :=
    { status := Or.inr (Or.inl rfl)
      busy := by constructor <;> intro _ <;> decide
      ctrl := by decide +kernel
      errOffset := fun h => absurd rfl h }
  launch := fun _ =>
    { latched := rfl
      ctrl := by decide +kernel
      source := by decide +kernel
      target := by decide +kernel
      disjoint := fun a h1 h2 h3 => by
        have e1 : a < 0x100 + 8 := h2
        have e2 : 0x200 ≤ a := h3.1
        omega }
  phase := ⟨rfl, by decide +kernel, rfl, by decide, by decide, by decide⟩

/-- The header bytes of `vertexRun` fit; one byte fewer than they need does not. -/
theorem test_witness_ZeroHeaders_lengths :
    vertexRun.cur + vertexHeaderLength vertexRun ≤ vertexRun.lim ∧
      vertexRunShort.lim + 1 = vertexRunShort.cur + vertexHeaderLength vertexRunShort := by decide +kernel

theorem test_witness_ZeroHeadersRepeatTheReference :
    vertexRun.Inv ∧ vertexRun.events = [] ∧ vertexRun.phase = .block ∧ vertexRun.blockBase = 0 ∧
      vertexRun.args.filter = 0#2 ∧
      ∀ off, vertexRun.cur ≤ off → off < vertexRun.lim → vertexRun.mem.read (vertexRun.srcAddr off) = 0#8 := by
  refine ⟨test_witness_vertexRun_inv, rfl, rfl, rfl, rfl, fun off h1 _ => ?_⟩
  have h : 1 ≤ off := h1
  have e : vertexRun.srcAddr off = 0x100 + off := rfl
  rw [e]
  simp only [vertexRun, Memory.read, Memory.unlisted]
  rw [if_neg (by omega)]

theorem test_witness_SequenceDecodesItsStream :
    sequenceRun.Inv ∧ sequenceRun.events = [] ∧ sequenceRun.phase = .output ∧
      sequenceRun.n + [[2#8], [7#8]].length = sequenceRun.args.count.toNat ∧
      (∀ bs ∈ [[2#8], [7#8]], IsVarint bs) ∧
      HoldsBytes sequenceRun.mem (sequenceRun.srcAddr sequenceRun.cur) [[2#8], [7#8]].flatten ∧
      sequenceRun.cur + [[2#8], [7#8]].flatten.length ≤ sequenceRun.lim := by
  refine ⟨test_witness_sequenceRun_inv, rfl, rfl, by decide, fun bs hbs => ?_, ?_, by decide⟩
  · simp only [List.mem_cons, List.mem_nil_iff, or_false] at hbs
    rcases hbs with rfl | rfl
    · exact isVarint_of _ (by decide) (by decide) (by decide) (by decide)
    · exact isVarint_of _ (by decide) (by decide) (by decide) (by decide)
  · unfold HoldsBytes
    decide +kernel

/-- One place for each clause: an element of each format, at the last place it is decoded. -/
theorem test_witness_StepRunsTheDecodedElement :
    let v := running .vertex 17 .group
    let x := { triangle .literal with cur := 15, j := 15 }
    v.events = [] ∧ v.args.srcLen ≠ 0#32 ∧ { v with g := 1 }.g < groupCount { v with g := 1 }.blockRows ∧ x.j < 16 ∧
      x.cur < x.lim ∧ (triangle .triangle).t < (triangle .triangle).args.triCount ∧
      decode (.tag ({ v with mem := [(0x100, 0xA0#8)] }.mem.read (v.srcAddr 0))) = .ok .tagVertex ∧
      decode (.cmdFilter (v.args.filter ++ 1#2)) = .ok .filterNone ∧
      decode (.cmd 0x80000001#32) = .ok (.decodeVertex 0#2) := by decide +kernel

theorem test_witness_EveryStepKeepsTheInvariant :
    sequenceRun.Inv ∧ step sequenceRun = .next (startVarint .sequence sequenceRun) :=
  ⟨test_witness_sequenceRun_inv, rfl⟩

theorem test_witness_BlockWritesOnlyItsTarget :
    sequenceRun.Inv ∧ BlockTurn sequenceRun ∧ step sequenceRun = .next (startVarint .sequence sequenceRun) ∧
      sequenceRun.phase ≠ .idle ∧ 2 < sequenceRun.args.srcLen.toNat :=
  ⟨test_witness_sequenceRun_inv, fun _ _ h => by simp [sequenceRun, running, State.reset] at h, rfl, by decide,
    by decide⟩

theorem test_witness_EveryCommandEnds : sequenceRun.Inv ∧ sequenceRun.events = [] :=
  ⟨test_witness_sequenceRun_inv, rfl⟩

theorem test_witness_NothingCarriesOverBetweenCommands :
    let s := running .index 3 .tag
    let s' := triangle .tag
    s.phase = .tag ∧ s'.phase = .tag ∧ s.events = [] ∧ s'.events = [] ∧ s.params = s'.params ∧ s.regs = s'.regs ∧
      s.args = s'.args ∧ s.mem = s'.mem ∧ s.draws = s'.draws ∧ s.next ≠ s'.next ∧ runFor 0 s = .next s :=
  ⟨rfl, rfl, rfl, rfl, rfl, rfl, rfl, rfl, rfl, by decide, rfl⟩

end Sys2Proof.Tests
end

section
/-! Proofs of O38 and O39: the octahedral and quaternion lanes lie within the bound of R194 (spec/42_vertex_filters.md
R194 to R201). The model holds a reference value as a signed square root of a rational number and rounds it on integers;
`RootRef.Denotes` ties such a value to a real number, and `RootRef.Denotes.roundAway_eq` shows that the model's rounding
is R14's. What is left for each filter is that its `RootRef` denotes the real value of its rule. -/

namespace Sys2Proof.Machine

/-! ### The integer square root -/

theorem isqrtFrom_eq_sqrt (bits n r : Nat) (hlo : r * r ≤ n) (hhi : n < (r + 2 ^ bits) * (r + 2 ^ bits)) :
    isqrtFrom bits n r = Nat.sqrt n := by
  induction bits generalizing r with
  | zero =>
    rw [pow_zero] at hhi
    exact Nat.eq_sqrt.mpr ⟨hlo, hhi⟩
  | succ bits ih =>
    rw [isqrtFrom]
    split
    next hbit => exact ih _ hbit (by rwa [add_assoc, ← two_mul, ← pow_succ'])
    next hbit => exact ih _ hlo (not_le.mp hbit)

theorem isqrt_eq_sqrt (n : Nat) : isqrt n = Nat.sqrt n := by
  refine isqrtFrom_eq_sqrt _ n 0 (Nat.zero_le n) ?_
  calc n < 2 ^ (n.log2 + 1) := Nat.lt_log2_self
    _ ≤ 2 ^ ((n.log2 / 2 + 1) + (n.log2 / 2 + 1)) := Nat.pow_le_pow_right two_pos (by omega)
    _ = (0 + 2 ^ (n.log2 / 2 + 1)) * (0 + 2 ^ (n.log2 / 2 + 1)) := by rw [zero_add, pow_add]

/-! ### Exact values and their rounding (R14) -/

/-- The real number `x` is the exact value that `r` holds: the root of num / den, under the sign. -/
def RootRef.Denotes (r : RootRef) (x : ℝ) : Prop :=
  0 < r.den ∧ x ^ 2 = (r.num : ℝ) / r.den ∧ (r.neg = true ↔ x < 0)

/-- The doubled root lies between the integer root of 4 num / den and the next integer. -/
theorem isqrt_brackets_double {num den : Nat} (hden : 0 < den) {y : ℝ} (hy : 0 ≤ y)
    (hsq : y ^ 2 = (num : ℝ) / den) :
    (isqrt (4 * num / den) : ℝ) ≤ 2 * y ∧ 2 * y < (isqrt (4 * num / den) : ℝ) + 1 := by
  have hfour : (2 * y) ^ 2 = ((4 * num : ℕ) : ℝ) / den := by
    push_cast
    rw [mul_pow, hsq]
    ring
  have hden' : (0 : ℝ) < den := Nat.cast_pos.mpr hden
  rw [isqrt_eq_sqrt]
  constructor
  · refine le_of_sq_le_sq ?_ (by positivity)
    rw [hfour, le_div_iff₀ hden']
    exact_mod_cast (Nat.le_div_iff_mul_le hden).mp (Nat.sqrt_le' (4 * num / den))
  · refine lt_of_pow_lt_pow_left₀ 2 (by positivity) ?_
    rw [hfour, div_lt_iff₀ hden']
    exact_mod_cast (Nat.div_lt_iff_lt_mul hden).mp (Nat.lt_succ_sqrt' (4 * num / den))

theorem floor_add_half_eq {num den : Nat} (hden : 0 < den) {y : ℝ} (hy : 0 ≤ y)
    (hsq : y ^ 2 = (num : ℝ) / den) : ⌊y + 1 / 2⌋ = (((isqrt (4 * num / den) + 1) / 2 : ℕ) : ℤ) := by
  obtain ⟨hlo, hhi⟩ := isqrt_brackets_double hden hy hsq
  generalize isqrt (4 * num / den) = k at hlo hhi
  have hhalf : (2 * ((k + 1) / 2 : ℕ) : ℝ) ≤ k + 1 := by exact_mod_cast Nat.mul_div_le (k + 1) 2
  have hhalf' : (k : ℝ) ≤ 2 * ((k + 1) / 2 : ℕ) := by
    exact_mod_cast (by omega : k ≤ 2 * ((k + 1) / 2))
  rw [Int.floor_eq_iff, Int.cast_natCast]
  constructor <;> linarith

/-- The model's rounding on integers is `round_away` of R14. -/
theorem RootRef.Denotes.roundAway_eq {r : RootRef} {x : ℝ} (h : r.Denotes x) {n : ℤ} (hn : RoundsAway x n) :
    r.roundAway = n := by
  obtain ⟨hden, hsq, hneg⟩ := h
  obtain ⟨hpos, hlt⟩ := hn
  rw [roundAway, signed]
  split
  next hs =>
    have hx := hneg.mp hs
    rw [hlt hx, floor_add_half_eq hden (neg_nonneg.mpr hx.le) (by rwa [neg_sq])]
  next hs =>
    have hx := not_lt.mp (mt hneg.mpr hs)
    rw [hpos hx, floor_add_half_eq hden hx hsq]

theorem RootRef.ofRatio_denotes (p : Int) {q : Nat} (hq : 0 < q) :
    (RootRef.ofRatio p q).Denotes ((p : ℝ) / √(q : ℝ)) := by
  have hroot : 0 < √(q : ℝ) := Real.sqrt_pos.mpr (Nat.cast_pos.mpr hq)
  refine ⟨hq, ?_, ?_⟩
  · rw [div_pow, Real.sq_sqrt (Nat.cast_nonneg q), ofRatio, Nat.cast_pow, Nat.cast_natAbs, Int.cast_abs, sq_abs]
  · simp [ofRatio, div_neg_iff, hroot, hroot.not_gt]

/-- A value of magnitude at most the integer `m` rounds to one of magnitude at most `m`. -/
theorem RootRef.abs_roundAway_le (r : RootRef) (m : Nat) (h : r.num ≤ m ^ 2 * r.den) : |r.roundAway| ≤ m := by
  have hroot : isqrt (4 * r.num / r.den) ≤ 2 * m := by
    rw [isqrt_eq_sqrt, ← Nat.sqrt_eq' (2 * m)]
    exact Nat.sqrt_le_sqrt (Nat.div_le_of_le_mul (by linarith))
  have habs : |r.roundAway| = ((isqrt (4 * r.num / r.den) + 1) / 2 : ℕ) := by
    rw [roundAway, signed]
    split <;> simp only [abs_neg, Nat.abs_cast]
  rw [habs]
  omega

/-! ### The bound of R194 -/

theorem laneRange_iff (w : Nat) (v : Int) :
    laneRange w v = true ↔ -(2 : Int) ^ (w - 1) ≤ v ∧ v < (2 : Int) ^ (w - 1) := by
  simp [laneRange]

/-- Whatever the free value is, the lane keeps the bound of R194 where the reference is in range. -/
theorem boundedLane_spec {w : Nat} {ref : RootRef} (href : laneRange w ref.roundAway = true) (free : Int) :
    |boundedLane w ref free - ref.roundAway| ≤ 1 ∧ laneRange w (boundedLane w ref free) = true := by
  rw [boundedLane]
  split
  next hfree =>
    obtain ⟨hrange, hnear⟩ := Bool.and_eq_true_iff.mp hfree
    rw [decide_eq_true_iff, ← Int.ofNat_le, Int.natCast_natAbs] at hnear
    exact ⟨hnear, hrange⟩
  next => exact ⟨by simp, href⟩

theorem intMax_add_one (w : Nat) : intMax w + 1 = 2 ^ (w - 1) := Nat.sub_add_cancel Nat.one_le_two_pow

/-! ### The octahedral vector (R195, R196) -/

/-- A lane under the sign of `one`. -/
def octFlip (l2 l : Int) : Int := if l2 < 0 then -l else l

/-- The fold of R196 of one component, by the third component `z`. -/
def octFold (z x : Int) : Int := if z < 0 then x - foldSign x * (z.natAbs : Int) else x

/-- The third component of the octahedral vector, multiplied by |l2|. -/
def octRest (l0 l1 l2 : Int) : Int :=
  (l2.natAbs : Int) - ((octFlip l2 l0).natAbs : Int) - ((octFlip l2 l1).natAbs : Int)

theorem octVector_eq (l0 l1 l2 : Int) :
    octVector l0 l1 l2 = (octFold (octRest l0 l1 l2) (octFlip l2 l0), octFold (octRest l0 l1 l2) (octFlip l2 l1),
      octRest l0 l1 l2) := by
  unfold octFold
  split
  next hz => exact if_pos hz
  next hz => exact if_neg hz

/-- The sum of the squares of the octahedral vector's components. -/
def octLengthSq (l0 l1 l2 : Int) : Nat :=
  (octVector l0 l1 l2).1.natAbs ^ 2 + (octVector l0 l1 l2).2.1.natAbs ^ 2 + (octVector l0 l1 l2).2.2.natAbs ^ 2

theorem octRef_eq (w : Nat) (l0 l1 l2 : Int) (lane : Nat) :
    octRef w l0 l1 l2 lane =
      RootRef.ofRatio (component (octVector l0 l1 l2) lane * (intMax w : Int)) (octLengthSq l0 l1 l2) := rfl

/-- R195: the length is never 0 when `one` is not. -/
theorem octLengthSq_pos (l0 l1 : Int) {l2 : Int} (h : l2 ≠ 0) : 0 < octLengthSq l0 l1 l2 := by
  refine Nat.pos_of_ne_zero fun hzero => h ?_
  simp only [octLengthSq, octVector_eq, Nat.add_eq_zero_iff, pow_eq_zero_iff two_ne_zero, Int.natAbs_eq_zero] at hzero
  obtain ⟨⟨hx, hy⟩, hz⟩ := hzero
  simp only [hz, octFold, lt_irrefl, if_false] at hx hy
  rw [octRest, hx, hy] at hz
  omega

theorem component_natAbs_sq_le (l0 l1 l2 : Int) (lane : Nat) :
    (component (octVector l0 l1 l2) lane).natAbs ^ 2 ≤ octLengthSq l0 l1 l2 := by
  unfold octLengthSq
  match lane with
  | 0 => exact (Nat.le_add_right _ _).trans (Nat.le_add_right _ _)
  | 1 => exact (Nat.le_add_left _ _).trans (Nat.le_add_right _ _)
  | _ + 2 => exact Nat.le_add_left _ _

/-- R195: every reference value lies in -intMax to intMax, so in the lane's range. -/
theorem octRef_laneRange (w : Nat) (l0 l1 l2 : Int) (lane : Nat) :
    laneRange w (octRef w l0 l1 l2 lane).roundAway = true := by
  have habs : |(octRef w l0 l1 l2 lane).roundAway| ≤ intMax w := by
    refine RootRef.abs_roundAway_le _ _ ?_
    simp only [octRef_eq, RootRef.ofRatio, Int.natAbs_mul, Int.natAbs_natCast, mul_pow]
    rw [mul_comm]
    exact Nat.mul_le_mul_left _ (component_natAbs_sq_le l0 l1 l2 lane)
  have hmax : (intMax w : Int) + 1 = (2 : Int) ^ (w - 1) := by exact_mod_cast intMax_add_one w
  obtain ⟨hlo, hhi⟩ := abs_le.mp habs
  exact (laneRange_iff w _).mpr ⟨by omega, by omega⟩

theorem cast_natAbs_real (a : Int) : ((a.natAbs : Int) : ℝ) = |(a : ℝ)| := by
  rw [Int.natCast_natAbs, Int.cast_abs]

theorem octFlip_div_abs (l2 l : Int) : (octFlip l2 l : ℝ) / |(l2 : ℝ)| = (l : ℝ) / l2 := by
  rw [octFlip]
  split
  next hneg => rw [abs_of_neg (Int.cast_lt_zero.mpr hneg), Int.cast_neg, neg_div_neg_eq]
  next hneg => rw [abs_of_nonneg (Int.cast_nonneg (not_lt.mp hneg))]

theorem octRest_div_abs (l0 l1 : Int) {l2 : Int} (h : l2 ≠ 0) :
    (octRest l0 l1 l2 : ℝ) / |(l2 : ℝ)| = 1 - |(l0 : ℝ) / l2| - |(l1 : ℝ) / l2| := by
  have hd : |(l2 : ℝ)| ≠ 0 := abs_ne_zero.mpr (Int.cast_ne_zero.mpr h)
  rw [← octFlip_div_abs l2 l0, ← octFlip_div_abs l2 l1, octRest]
  push_cast [cast_natAbs_real]
  rw [sub_div, sub_div, div_self hd, abs_div, abs_div, abs_abs]

/-- The fold of R196 over the reals, on a vector divided by a positive length. -/
theorem octFold_div (z x : Int) {d : ℝ} (hd : 0 < d) :
    (octFold z x : ℝ) / d = if (z : ℝ) / d < 0 then
      (x : ℝ) / d - (if 0 ≤ (x : ℝ) / d then 1 else -1) * |(z : ℝ) / d| else (x : ℝ) / d := by
  have hz : (z : ℝ) / d < 0 ↔ z < 0 := by rw [div_lt_iff₀ hd, zero_mul, Int.cast_lt_zero]
  have hx : 0 ≤ (x : ℝ) / d ↔ 0 ≤ x := by rw [le_div_iff₀ hd, zero_mul, Int.cast_nonneg_iff]
  have habs : |(z : ℝ) / d| = |(z : ℝ)| / d := by rw [abs_div, abs_of_pos hd]
  simp only [octFold, foldSign, hz, hx, habs]
  split
  next =>
    push_cast [cast_natAbs_real]
    split <;> ring
  next => rfl

/-- The vector of R195 over the reals is the model's, divided by |l2|. -/
theorem octVector_div_abs {l0 l1 l2 : Int} (h : l2 ≠ 0) {X0 Y0 Z X Y : ℝ} (hX0 : X0 = (l0 : ℝ) / l2)
    (hY0 : Y0 = (l1 : ℝ) / l2) (hZ : Z = 1 - |X0| - |Y0|)
    (hX : X = if Z < 0 then X0 - (if 0 ≤ X0 then 1 else -1) * |Z| else X0)
    (hY : Y = if Z < 0 then Y0 - (if 0 ≤ Y0 then 1 else -1) * |Z| else Y0) :
    X = ((octVector l0 l1 l2).1 : ℝ) / |(l2 : ℝ)| ∧ Y = ((octVector l0 l1 l2).2.1 : ℝ) / |(l2 : ℝ)| ∧
      Z = ((octVector l0 l1 l2).2.2 : ℝ) / |(l2 : ℝ)| := by
  have hd : 0 < |(l2 : ℝ)| := abs_pos.mpr (Int.cast_ne_zero.mpr h)
  have hZ' : Z = (octRest l0 l1 l2 : ℝ) / |(l2 : ℝ)| := by rw [octRest_div_abs l0 l1 h, hZ, hX0, hY0]
  rw [← octFlip_div_abs] at hX0 hY0
  simp only [octVector_eq, octFold_div _ _ hd]
  rw [← hZ', ← hX0, ← hY0]
  exact ⟨hX, hY, rfl⟩

/-- A component over the length does not see a common positive divisor. -/
theorem div_mul_div_sqrt_div (c m q : ℝ) {d : ℝ} (hd : 0 < d) (hq : 0 ≤ q) :
    c / d * (m / √(q / d ^ 2)) = c * m / √q := by
  rw [Real.sqrt_div hq, Real.sqrt_sq hd.le]
  field_simp

theorem octRef_denotes (w : Nat) (l0 l1 : Int) {l2 : Int} (h : l2 ≠ 0) (lane : Nat) :
    (octRef w l0 l1 l2 lane).Denotes ((component (octVector l0 l1 l2) lane : ℝ) / |(l2 : ℝ)| *
      (((2 : ℝ) ^ (w - 1) - 1) / √((octLengthSq l0 l1 l2 : ℝ) / |(l2 : ℝ)| ^ 2))) := by
  have hmax : (intMax w : ℝ) = (2 : ℝ) ^ (w - 1) - 1 := eq_sub_of_add_eq (by exact_mod_cast intMax_add_one w)
  rw [div_mul_div_sqrt_div _ _ _ (abs_pos.mpr (Int.cast_ne_zero.mpr h)) (Nat.cast_nonneg _), ← hmax]
  have hden := RootRef.ofRatio_denotes (component (octVector l0 l1 l2) lane * (intMax w : Int))
    (octLengthSq_pos l0 l1 h)
  rw [octRef_eq]
  exact_mod_cast hden

/-- Settles O38: the model's reference is the real value of R195 (`octVector_div_abs`, `octRef_denotes`), it is in the
lane's range, and the lane stays within the bound of R194 of it. -/
theorem octahedralWithinOneOfReference : Obligations.OctahedralWithinOneOfReference := by
  intro w l0 l1 l2 l3 _ hone X0 Y0 Z X Y hX0 hY0 hZ hX hY lane v hlane
  obtain ⟨hXv, hYv, hZv⟩ := octVector_div_abs hone hX0 hY0 hZ hX hY
  have hsq : X ^ 2 + Y ^ 2 + Z ^ 2 = (octLengthSq l0 l1 l2 : ℝ) / |(l2 : ℝ)| ^ 2 := by
    rw [hXv, hYv, hZv, octLengthSq, div_pow, div_pow, div_pow, ← add_div, ← add_div]
    push_cast [Nat.cast_natAbs, sq_abs]
    rfl
  have hv : v = (component (octVector l0 l1 l2) lane : ℝ) / |(l2 : ℝ)| := by
    obtain ⟨rfl, rfl⟩ | ⟨rfl, rfl⟩ | ⟨rfl, rfl⟩ := hlane
    · exact hXv
    · exact hYv
    · exact hZv
  obtain ⟨hnear, hrange⟩ := boundedLane_spec (octRef_laneRange w l0 l1 l2 lane) (Config.octNum w l0 l1 l2 l3 lane)
  rw [octLane, if_neg hone]
  refine ⟨fun n hn => ?_, (laneRange_iff w _).mp hrange⟩
  rw [hsq, hv] at hn
  rwa [← (octRef_denotes w l0 l1 hone lane).roundAway_eq hn]

/-! ### The quaternion components (R199, R200) -/

/-- R199: `l3 | 0x3` is never 0, because its lowest bit is set. -/
theorem quatScale_ne_zero (l3 : BitVec 16) : quatScale l3 ≠ 0 := by
  intro hzero
  have hword : l3 ||| 0x3#16 = 0#16 := BitVec.toInt_inj.mp hzero
  have hbit : (l3 ||| 0x3#16).getLsbD 0 = true := by simp
  simp [hword] at hbit

theorem quatStoredRef_denotes (l : Int) {scale : Int} (h : scale ≠ 0) :
    (quatStoredRef l scale).Denotes (32767 * (l * (√(1 / 2) / (scale : ℝ)))) := by
  have hval : 32767 * (l * (√(1 / 2) / (scale : ℝ))) =
      ((32767 * l * (if scale < 0 then -1 else 1) : ℤ) : ℝ) / √((2 * scale.natAbs ^ 2 : ℕ) : ℝ) := by
    have hs : (scale : ℝ) ≠ 0 := Int.cast_ne_zero.mpr h
    have hroot : √((2 * scale.natAbs ^ 2 : ℕ) : ℝ) = √2 * |(scale : ℝ)| := by
      push_cast [Nat.cast_natAbs, sq_abs]
      rw [Real.sqrt_mul zero_le_two, Real.sqrt_sq_eq_abs]
    rw [hroot, Real.sqrt_div zero_le_one, Real.sqrt_one]
    split
    next hneg =>
      rw [abs_of_neg (Int.cast_lt_zero.mpr hneg)]
      push_cast
      field_simp
    next hneg =>
      rw [abs_of_nonneg (Int.cast_nonneg (not_lt.mp hneg))]
      push_cast
      field_simp
  rw [hval]
  exact RootRef.ofRatio_denotes _ (by positivity)

theorem cast_sub_eq_max (a b : Nat) : ((a - b : ℕ) : ℝ) = max 0 ((a : ℝ) - b) := by
  obtain h | h := le_total a b
  · rw [Nat.sub_eq_zero_of_le h, Nat.cast_zero, max_eq_left (sub_nonpos.mpr (Nat.cast_le.mpr h))]
  · rw [Nat.cast_sub h, max_eq_right (sub_nonneg.mpr (Nat.cast_le.mpr h))]

theorem quatRestRef_denotes (l0 l1 l2 : Int) {scale : Int} (h : scale ≠ 0) {sc : ℝ}
    (hsc : sc = √(1 / 2) / (scale : ℝ)) :
    (quatRestRef l0 l1 l2 scale).Denotes
      (32767 * √(max 0 (1 - (l0 * sc) ^ 2 - (l1 * sc) ^ 2 - (l2 * sc) ^ 2))) := by
  have hden : (0 : ℝ) < 2 * (scale : ℝ) ^ 2 := by positivity
  have hscsq : sc ^ 2 = 1 / (2 * (scale : ℝ) ^ 2) := by
    rw [hsc, div_pow, Real.sq_sqrt (by norm_num)]
    field_simp
  have hrest : 1 - (l0 * sc) ^ 2 - (l1 * sc) ^ 2 - (l2 * sc) ^ 2 =
      (2 * (scale : ℝ) ^ 2 - ((l0 : ℝ) ^ 2 + (l1 : ℝ) ^ 2 + (l2 : ℝ) ^ 2)) / (2 * (scale : ℝ) ^ 2) := by
    simp only [mul_pow, hscsq]
    field_simp
    ring
  have hmax : max 0 (1 - (l0 * sc) ^ 2 - (l1 * sc) ^ 2 - (l2 * sc) ^ 2) =
      max 0 (2 * (scale : ℝ) ^ 2 - ((l0 : ℝ) ^ 2 + (l1 : ℝ) ^ 2 + (l2 : ℝ) ^ 2)) / (2 * (scale : ℝ) ^ 2) := by
    rw [hrest, ← max_div_div_right hden.le, zero_div]
  refine ⟨by simp only [quatRestRef]; positivity, ?_, ?_⟩
  · rw [mul_pow, Real.sq_sqrt (le_max_left _ _), hmax]
    simp only [quatRestRef, Nat.cast_mul, cast_sub_eq_max]
    push_cast [Nat.cast_natAbs, sq_abs]
    ring
  · simp only [quatRestRef, Bool.false_eq_true, false_iff, not_lt]
    positivity

theorem quatLane_spec {l0 l1 l2 : Int} {l3 : BitVec 16} {lane : Nat} {v : ℝ}
    (h : (quatRef l0 l1 l2 l3 lane).Denotes v) {n : ℤ} (hn : RoundsAway v n) (hlo : -32768 ≤ n) (hhi : n ≤ 32767) :
    |quatLane l0 l1 l2 l3 lane - n| ≤ 1 ∧ -32768 ≤ quatLane l0 l1 l2 l3 lane ∧
      quatLane l0 l1 l2 l3 lane ≤ 32767 := by
  obtain rfl := h.roundAway_eq hn
  have href : laneRange 16 (quatRef l0 l1 l2 l3 lane).roundAway = true :=
    (laneRange_iff 16 _).mpr ⟨by omega, by omega⟩
  obtain ⟨hnear, hrange⟩ := boundedLane_spec href (Config.quatNum l0 l1 l2 l3.toInt lane)
  obtain ⟨hmin, hmax⟩ := (laneRange_iff 16 _).mp hrange
  rw [quatLane, if_pos href]
  exact ⟨hnear, by omega, by omega⟩

/-- R200: the lanes after mc hold x, y and z in cyclic order, lane mc holds w. -/
theorem quatRef_lanes (l0 l1 l2 : Int) (l3 : BitVec 16) :
    quatRef l0 l1 l2 l3 ((maxComponent l3 + 1) % 4) = quatStoredRef l0 (quatScale l3) ∧
      quatRef l0 l1 l2 l3 ((maxComponent l3 + 2) % 4) = quatStoredRef l1 (quatScale l3) ∧
      quatRef l0 l1 l2 l3 ((maxComponent l3 + 3) % 4) = quatStoredRef l2 (quatScale l3) ∧
      quatRef l0 l1 l2 l3 (maxComponent l3) = quatRestRef l0 l1 l2 (quatScale l3) := by
  have hmc : maxComponent l3 < 4 := (l3.extractLsb' 0 2).isLt
  unfold quatRef
  generalize maxComponent l3 = mc at hmc
  interval_cases mc <;> exact ⟨rfl, rfl, rfl, rfl⟩

/-- Settles O39: the `RootRef` that R200 places in a lane denotes the real value of R199 for that lane, and the lane
stays within the bound of R194 where that value rounds into the range. -/
theorem quaternionWithinOneOfReference : Obligations.QuaternionWithinOneOfReference := by
  intro l0 l1 l2 l3 sc x y z w hsc hx hy hz hw mc lane v hmc hlane n hn hlo hhi
  have hscale := quatScale_ne_zero l3
  obtain ⟨hlane0, hlane1, hlane2, hlane3⟩ := quatRef_lanes l0 l1 l2 l3
  refine quatLane_spec (v := 32767 * v) ?_ hn hlo hhi
  change mc = maxComponent l3 at hmc
  change sc = √(1 / 2) / (quatScale l3 : ℝ) at hsc
  subst hmc hx hy hz hw
  obtain ⟨rfl, rfl⟩ | ⟨rfl, rfl⟩ | ⟨rfl, rfl⟩ | ⟨rfl, rfl⟩ := hlane
  · rw [hlane0, hsc]
    exact quatStoredRef_denotes l0 hscale
  · rw [hlane1, hsc]
    exact quatStoredRef_denotes l1 hscale
  · rw [hlane2, hsc]
    exact quatStoredRef_denotes l2 hscale
  · rw [hlane3]
    exact quatRestRef_denotes l0 l1 l2 hscale hsc

end Sys2Proof.Machine
end

section
/-! Proofs about one step of the machine (spec/10_state.md, spec/20_memory.md R83): what comes next is run, either an
access from outside or the element or piece of pseudocode of the running command. `Fetched.run` names that run, so that
a statement about a step is one about what is fetched. -/

namespace Sys2Proof.Machine

/-! ### What a step runs -/

/-- What the machine does with what it fetched: an element is decoded and run, or passed over where it has no row. -/
def Fetched.run : Fetched → Result
  | .move r => r
  | .element e s =>
    match decode e with
    | .ok i => exec i s
    | .error _ => .next (passOver e s)

theorem step_eq_run_fetch (s : State) : step s = (fetch s).run := by
  rw [step]
  cases fetch s with
  | move r => rfl
  | element e s1 => cases h : decode e <;> simp only [Fetched.run, h]

@[simp] theorem Fetched.run_move (r : Result) : (Fetched.move r).run = r := rfl

theorem Fetched.run_element {e : Element} {i : Instr} (s : State) (h : decode e = .ok i) :
    (Fetched.element e s).run = exec i s := by
  simp only [Fetched.run, h]

theorem Fetched.run_element_error {e : Element} {x : DecodeError} (s : State) (h : decode e = .error x) :
    (Fetched.element e s).run = .next (passOver e s) := by
  simp only [Fetched.run, h]

/-- With no access from outside pending, the step is the block's own. -/
theorem step_eq_run_fetchBlock (s : State) (h : s.events = []) : step s = (fetchBlock s).run := by
  rw [step_eq_run_fetch, fetch, h]

/-- An access from outside that is due is the step. -/
theorem step_eq_run_fetchHost {s : State} {a : HostAction} {es : List HostEvent}
    (h : s.events = { delay := 0, action := a } :: es) :
    step s = (fetchHost a { s with events := es }).run := by
  rw [step_eq_run_fetch, fetch, h]

/-- A later access from outside lets one step of the block pass. -/
theorem step_eq_run_fetchBlock_of_delay {s : State} {d : Nat} {a : HostAction} {es : List HostEvent}
    (h : s.events = { delay := d + 1, action := a } :: es) :
    step s = (fetchBlock { s with events := { delay := d, action := a } :: es }).run := by
  rw [step_eq_run_fetch, fetch, h]

/-! ### What the block fetches, phase by phase -/

section
variable {s : State}

theorem fetchBlock_idle (h : s.phase = .idle) : fetchBlock s = .move (.next s) := by simp only [fetchBlock, h]

theorem fetchBlock_tag (h : s.phase = .tag) (hl : s.args.srcLen ≠ 0#32) :
    fetchBlock s = .element (.tag (s.sourceByte 0)) s := by simp only [fetchBlock, h, if_neg hl]

theorem fetchBlock_tag_truncated (h : s.phase = .tag) (hl : s.args.srcLen = 0#32) :
    fetchBlock s = .move (.next (raise .truncatedSource 0 s)) := by simp only [fetchBlock, h, if_pos hl]

theorem fetchBlock_checks (h : s.phase = .checks) : fetchBlock s = .move (.next (runChecks s)) := by
  simp only [fetchBlock, h]

theorem fetchBlock_block (h : s.phase = .block) : fetchBlock s = .move (.next (blockHead s)) := by
  simp only [fetchBlock, h]

theorem fetchBlock_lane (h : s.phase = .lane) : fetchBlock s = .move (.next (laneHead s)) := by
  simp only [fetchBlock, h]

theorem fetchBlock_group (h : s.phase = .group) (hg : s.g < groupCount s.blockRows) :
    fetchBlock s = .element (.mode (modeBits s.hdr s.g)) s := by simp only [fetchBlock, h, if_pos hg]

theorem fetchBlock_group_end (h : s.phase = .group) (hg : groupCount s.blockRows ≤ s.g) :
    fetchBlock s = .move (.next { s with k := s.k + 1, phase := .lane }) := by
  simp only [fetchBlock, h, if_neg (Nat.not_lt.mpr hg)]

theorem fetchBlock_code2 (h : s.phase = .code2) (hj : s.j < 16) :
    fetchBlock s = .element (.code2 (code2At s.packed s.j)) s := by simp only [fetchBlock, h, if_pos hj]

theorem fetchBlock_code4 (h : s.phase = .code4) (hj : s.j < 16) :
    fetchBlock s = .element (.code4 (code4At s.packed s.j)) s := by simp only [fetchBlock, h, if_pos hj]

/-- After sixteen deltas, of any of the three kinds, the group is applied. -/
theorem fetchBlock_deltas_end (h : s.phase = .code2 ∨ s.phase = .code4 ∨ s.phase = .literal) (hj : 16 ≤ s.j) :
    fetchBlock s = .move (.next { s with phase := .apply }) := by
  obtain h | h | h := h
  · simp only [fetchBlock, h, if_neg (Nat.not_lt.mpr hj)]
  · simp only [fetchBlock, h, if_neg (Nat.not_lt.mpr hj)]
  · simp only [fetchBlock, h, if_neg (Nat.not_lt.mpr hj)]

theorem fetchByte_ok (element : Byte → Element) (hc : s.cur < s.lim) :
    fetchByte element s = .element (element (s.mem.read (s.srcAddr s.cur))) { s with cur := s.cur + 1 } := by
  rw [fetchByte, readByte_ok s hc]

theorem fetchByte_truncated (element : Byte → Element) (hc : s.lim ≤ s.cur) :
    fetchByte element s = .move (.next (raiseTruncated s)) := by
  rw [fetchByte, readByte_truncated s hc]

theorem fetchBlock_literal (h : s.phase = .literal) (hj : s.j < 16) : fetchBlock s = fetchByte .literal s := by
  simp only [fetchBlock, h, if_pos hj]

theorem fetchBlock_apply (h : s.phase = .apply) : fetchBlock s = .move (.next (applyGroup s)) := by
  simp only [fetchBlock, h]

theorem fetchBlock_filter (h : s.phase = .filter) :
    fetchBlock s = .element (.cmdFilter (s.args.filter ++ 1#2)) s := by simp only [fetchBlock, h]

theorem fetchBlock_triangle (h : s.phase = .triangle) (ht : s.t < s.args.triCount) :
    fetchBlock s = .element (.triangle (s.sourceByte s.ccur)) { s with ccur := s.ccur + 1 } := by
  simp only [fetchBlock, h, if_pos ht]

theorem fetchBlock_triangle_end (h : s.phase = .triangle) (ht : s.args.triCount ≤ s.t) :
    fetchBlock s = .move (.next { s with phase := .done }) := by
  simp only [fetchBlock, h, if_neg (Nat.not_lt.mpr ht)]

theorem fetchBlock_auxByte (h : s.phase = .auxByte) : fetchBlock s = .element (.auxByte s.entry) s := by
  simp only [fetchBlock, h]

theorem fetchBlock_takeA (h : s.phase = .takeA) : fetchBlock s = .move (.next (takeA s)) := by
  simp only [fetchBlock, h]

theorem fetchBlock_caux (h : s.phase = .caux) :
    fetchBlock s = .element (.caux (if s.corner = .b then highNibble s.entry else lowNibble s.entry)) s := by
  simp only [fetchBlock, h]

theorem fetchBlock_aux (h : s.phase = .aux) :
    fetchBlock s = .element (.aux (if s.corner = .b then highNibble s.entry else lowNibble s.entry)) s := by
  simp only [fetchBlock, h]

theorem fetchBlock_newDone (h : s.phase = .newDone) : fetchBlock s = .move (.next (newDone s)) := by
  simp only [fetchBlock, h]

theorem fetchBlock_output (h : s.phase = .output) : fetchBlock s = .move (.next (outputHead s)) := by
  simp only [fetchBlock, h]

theorem fetchBlock_varintByte (h : s.phase = .varintByte) : fetchBlock s = fetchByte .varintByte s := by
  simp only [fetchBlock, h]

theorem fetchBlock_indexDelta (h : s.phase = .indexDelta) : fetchBlock s = .move (.next (indexDelta s)) := by
  simp only [fetchBlock, h]

theorem fetchBlock_seqValue (h : s.phase = .seqValue) : fetchBlock s = .element (.seqValue s.vres) s := by
  simp only [fetchBlock, h]

theorem fetchBlock_done (h : s.phase = .done) : fetchBlock s = .move (.next (complete s)) := by
  simp only [fetchBlock, h]

end

/-! ### What each format decodes to -/

theorem decodeCmdFilter_cases {P : Instr → Prop} (v : Nibble) (none : P .filterNone) (oct : P .filterOctahedral)
    (quat : P .filterQuaternion) (exp : P .filterExponential) : P (decodeCmdFilter v) := by
  unfold decodeCmdFilter
  split_ifs <;> assumption

theorem decodeTag_cases {P : Instr → Prop} (b : Byte) (vertex : P .tagVertex) (index : P .tagIndex)
    (sequence : P .tagSequence) (other : P (.tagOther b)) : P (decodeTag b) := by
  unfold decodeTag
  split_ifs <;> assumption

theorem decodeMode_cases {P : Instr → Prop} (m : BitVec 2) (zero : P .vgMode0Zero) (two : P .vgMode1TwoBit)
    (four : P .vgMode2FourBit) (literal : P .vgMode3Literal) : P (decodeMode m) := by
  unfold decodeMode
  split_ifs <;> assumption

theorem decodeCode2_cases {P : Instr → Prop} (c : BitVec 2) (escape : P .vc2Escape) (value : P (.vc2Value c)) :
    P (decodeCode2 c) := by
  unfold decodeCode2
  split_ifs <;> assumption

theorem decodeCode4_cases {P : Instr → Prop} (c : Nibble) (escape : P .vc4Escape) (value : P (.vc4Value c)) :
    P (decodeCode4 c) := by
  unfold decodeCode4
  split_ifs <;> assumption

theorem decodeTriangle_cases {P : Instr → Prop} (b : Byte) (table : ∀ b1, P (.triNewTable b1)) (aux : P .triNewAux)
    (auxVarint : P .triNewAuxVarint) (next : ∀ b0, P (.triEdgeNext b0)) (cache : ∀ b0 b1, P (.triEdgeCache b0 b1))
    (dec : ∀ b0, P (.triEdgeDec b0)) (inc : ∀ b0, P (.triEdgeInc b0)) (varint : ∀ b0, P (.triEdgeVarint b0)) :
    P (decodeTriangle b) := by
  unfold decodeTriangle
  dsimp only
  split_ifs
  exacts [table _, aux, auxVarint, next _, cache _ _, dec _, inc _, varint _]

theorem decodeCaux_cases {P : Instr → Prop} (n : Nibble) (next : P .cauxNext) (cache : P (.cauxCache n)) :
    P (decodeCaux n) := by
  unfold decodeCaux
  split_ifs <;> assumption

theorem decodeAux_cases {P : Instr → Prop} (n : Nibble) (next : P .auxNext) (varint : P .auxVarint)
    (cache : P (.auxCache n)) : P (decodeAux n) := by
  unfold decodeAux
  split_ifs <;> assumption

theorem decodeVarintByte_cases {P : Instr → Prop} (b : Byte) (cont : ∀ p, P (.varintCont p))
    (fin : ∀ p, P (.varintEnd p)) : P (decodeVarintByte b) := by
  unfold decodeVarintByte
  split_ifs
  exacts [cont _, fin _]

theorem decodeSeqValue_cases {P : Instr → Prop} (v : Word) (base0 : ∀ dz, P (.seqBase0 dz))
    (base1 : ∀ dz, P (.seqBase1 dz)) : P (decodeSeqValue v) := by
  unfold decodeSeqValue
  split_ifs
  exacts [base1 _, base0 _]

/-! ### A step runs the decoded element (R116, R117) -/

/-- Settles O55: in each phase that decodes an element, the step is the run of the block's fetch. -/
theorem stepRunsTheDecodedElement : Obligations.StepRunsTheDecodedElement := by
  intro s i he
  rw [step_eq_run_fetchBlock s he]
  refine ⟨?tag, ?group, ?code2, ?code4, ?literal, ?filter, ?triangle, ?auxByte, ?caux, ?aux, ?varint, ?seq, ?cmd⟩
  case tag => exact fun hp hl hd => by rw [fetchBlock_tag hp hl]; exact Fetched.run_element s hd
  case group => exact fun hp hg hd => by rw [fetchBlock_group hp hg]; exact Fetched.run_element s hd
  case code2 => exact fun hp hj hd => by rw [fetchBlock_code2 hp hj]; exact Fetched.run_element s hd
  case code4 => exact fun hp hj hd => by rw [fetchBlock_code4 hp hj]; exact Fetched.run_element s hd
  case literal =>
    exact fun hp hj hc hd => by rw [fetchBlock_literal hp hj, fetchByte_ok _ hc]; exact Fetched.run_element _ hd
  case filter => exact fun hp hd => by rw [fetchBlock_filter hp]; exact Fetched.run_element s hd
  case triangle => exact fun hp ht hd => by rw [fetchBlock_triangle hp ht]; exact Fetched.run_element _ hd
  case auxByte => exact fun hp hd => by rw [fetchBlock_auxByte hp]; exact Fetched.run_element s hd
  case caux => exact fun hp hd => by rw [fetchBlock_caux hp]; exact Fetched.run_element s hd
  case aux => exact fun hp hd => by rw [fetchBlock_aux hp]; exact Fetched.run_element s hd
  case varint =>
    exact fun hp hc hd => by rw [fetchBlock_varintByte hp, fetchByte_ok _ hc]; exact Fetched.run_element _ hd
  case seq => exact fun hp hd => by rw [fetchBlock_seqValue hp]; exact Fetched.run_element s hd
  case cmd =>
    intro v es hd
    rw [step_eq_run_fetchHost rfl]
    exact Fetched.run_element _ hd

end Sys2Proof.Machine
end

section
/-! Proofs about what comes to the block from outside: the CTRL write and the START of a command (spec/10_state.md R32,
R45, spec/60_exceptions.md R324), the other accesses of the register window (R30, R33, R41), and the commands of other
blocks (spec/20_memory.md R83). -/

namespace Sys2Proof.Machine

/-! ### The fields of a CTRL write (R31, R91, R92) -/

theorem ctrlWord_extract (v : Word) : ctrlWord (v.extractLsb' 2 2) (v.extractLsb' 0 2) = v &&& 0xF#32 := by
  apply BitVec.eq_of_getLsbD_eq
  intro i hi
  simp only [ctrlWord, BitVec.getLsbD_append, BitVec.getLsbD_extractLsb', BitVec.getLsbD_and]
  interval_cases i <;> simp

theorem decode_cmd_noStart {v : Word} (h : v.getLsbD 31 = false) : decode (.cmd v) = .error .noStart := by
  simp only [decode, decodeCmd, h, Bool.false_eq_true, if_false]

theorem decode_cmd_none {v : Word} (h : v.getLsbD 31 = true) (ho : v.extractLsb' 0 2 = 0#2) :
    decode (.cmd v) = .ok (.cmdNone (v.extractLsb' 2 2)) := by
  simp only [decode, decodeCmd, h, ho, if_true]

/-- START with an OP other than 0 is the START of the command with that OP (R92). -/
theorem decode_cmd_start {v : Word} (h : v.getLsbD 31 = true) (ho : v.extractLsb' 0 2 ≠ 0#2) :
    ∃ cmd : Command, cmd.op = v.extractLsb' 0 2 ∧ decode (.cmd v) = .ok (cmd.start (v.extractLsb' 2 2)) := by
  have hop : ∀ x : BitVec 2, x ≠ 0#2 → x = 1#2 ∨ x = 2#2 ∨ x = 3#2 := by decide
  obtain h1 | h2 | h3 := hop _ ho
  · exact ⟨.vertex, h1.symm, by simp [decode, decodeCmd, h, h1, Command.start]⟩
  · exact ⟨.index, h2.symm, by simp [decode, decodeCmd, h, h2, Command.start]⟩
  · exact ⟨.sequence, h3.symm, by simp [decode, decodeCmd, h, h3, Command.start]⟩

/-! ### The START of a command (R32, R324) -/

theorem exec_start (cmd : Command) (filter : BitVec 2) (s : State) :
    exec (cmd.start filter) s = startCommand cmd filter cmd.op s := by
  cases cmd <;> rfl

theorem exec_cmdNone (filter : BitVec 2) (s : State) :
    exec (.cmdNone filter) s = if s.busy then .next s else .next (setCtrl filter 0#2 s) := rfl

theorem startCommand_busy (cmd : Command) (filter op : BitVec 2) {s : State} (hb : s.busy = true) :
    startCommand cmd filter op s = .next s := by
  rw [startCommand, if_pos hb]

theorem startCommand_allowed (cmd : Command) (filter op : BitVec 2) {s : State} (hb : s.busy = false)
    (ha : LaunchAllowed s) :
    startCommand cmd filter op s = .next (launch cmd filter (setCtrl filter op s)) := by
  simp only [startCommand, hb, Bool.false_eq_true, if_false, (launchProblem_iff s).mpr ha]

theorem startCommand_notAllowed (cmd : Command) (filter op : BitVec 2) {s : State} (hb : s.busy = false)
    (ha : ¬ LaunchAllowed s) : ∃ r, startCommand cmd filter op s = .refused r := by
  obtain ⟨r, hr⟩ := Option.ne_none_iff_exists'.mp (mt (launchProblem_iff s).mp ha)
  exact ⟨r, by simp only [startCommand, hb, Bool.false_eq_true, if_false, hr]⟩

/-- The preconditions of a launch are about the registers and the other blocks, not about what is still to come. -/
theorem launchAllowed_events (s : State) (es : List HostEvent) :
    LaunchAllowed { s with events := es } ↔ LaunchAllowed s := by
  rw [← launchProblem_iff, ← launchProblem_iff]
  rfl

theorem statusRunning_fields : statusRunning.getLsbD 0 = true ∧ statusRunning.getLsbD 1 = false ∧
    statusRunning.getLsbD 2 = false ∧ statusRunning.extractLsb' 4 4 = 0#4 := by decide

/-- Settles O16. -/
theorem refusedExactlyOnBrokenPrecondition : Obligations.RefusedExactlyOnBrokenPrecondition := by
  intro cmd filter s hb
  rw [exec_start]
  constructor
  · rintro ⟨r, hr⟩ ha
    rw [startCommand_allowed cmd filter cmd.op hb ha] at hr
    cases hr
  · exact startCommand_notAllowed cmd filter cmd.op hb

/-- Settles O14. -/
theorem commandsStart : Obligations.CommandsStart := by
  intro cmd filter s hb ha
  obtain ⟨hbusy, hdone, herr, hcode⟩ := statusRunning_fields
  refine ⟨launch cmd filter (setCtrl filter cmd.op s), ?_, hbusy, hdone, herr, hcode, rfl, rfl, rfl, rfl,
    rfl, rfl, rfl, rfl, rfl, rfl⟩
  rw [exec_start, startCommand_allowed cmd filter cmd.op hb ha]

/-- Settles O15. -/
theorem noCommandStartsNothing : Obligations.NoCommandStartsNothing := by
  intro filter s
  refine ⟨fun hb => ?_, fun hb => ⟨?_, fun cmd => ?_⟩⟩
  · rw [exec_cmdNone, hb]
    rfl
  · rw [exec_cmdNone, if_pos hb]
  · rw [exec_start, startCommand_busy cmd filter cmd.op hb]

/-! ### The register window (R30, R41) -/

section
variable {s : State} {off size : Nat} {v : Word} {es : List HostEvent}

theorem windowAccessOk_iff (off size : Nat) : windowAccessOk off size = true ↔ size = 4 ∧ off % 4 = 0 := by
  simp only [windowAccessOk, Bool.and_eq_true, decide_eq_true_eq]

theorem fetchHost_regWrite (hw : off < 64) (hk : off % 4 = 0) (h0 : off ≠ 0) :
    fetchHost (.regWrite off 4 v) s = .move (.next (regWrite off v s)) := by
  simp only [fetchHost, if_neg (Nat.not_le.mpr hw), (windowAccessOk_iff off 4).mpr ⟨rfl, hk⟩, if_neg h0,
    Bool.not_true, Bool.false_eq_true, if_false]

theorem fetchHost_ctrlWrite : fetchHost (.regWrite 0 4 v) s = .element (.cmd v) s := by
  simp [fetchHost, (windowAccessOk_iff 0 4).mpr ⟨rfl, rfl⟩]

theorem fetchHost_regRead (hw : off < 64) (hk : off % 4 = 0) :
    fetchHost (.regRead off 4) s = .move (.next (regRead off s)) := by
  simp only [fetchHost, if_neg (Nat.not_le.mpr hw), (windowAccessOk_iff off 4).mpr ⟨rfl, hk⟩,
    Bool.not_true, Bool.false_eq_true, if_false]

/-- A register access past the window does not reach the block (R41). -/
theorem fetchHost_pastWindow {a : HostAction} (ha : a = .regWrite off size v ∨ a = .regRead off size)
    (hw : 64 ≤ off) : fetchHost a s = .move (.next s) := by
  obtain rfl | rfl := ha
  · rw [fetchHost, if_pos hw]
  · rw [fetchHost, if_pos hw]

/-- An access inside the window that is not an aligned 32-bit access is refused (D5). -/
theorem fetchHost_unaligned {a : HostAction} (ha : a = .regWrite off size v ∨ a = .regRead off size)
    (hw : off < 64) (hk : size ≠ 4 ∨ off % 4 ≠ 0) : fetchHost a s = .move (.refused .badRegisterAccess) := by
  have hbad : windowAccessOk off size = false :=
    Bool.eq_false_iff.mpr (mt (windowAccessOk_iff off size).mp (by omega))
  obtain rfl | rfl := ha
  · simp only [fetchHost, if_neg (Nat.not_le.mpr hw), hbad, Bool.not_false, if_true]
  · simp only [fetchHost, if_neg (Nat.not_le.mpr hw), hbad, Bool.not_false, if_true]

theorem regWrite_busy (off : Nat) (v : Word) (hb : s.busy = true) : regWrite off v s = s := by
  rw [regWrite, if_pos hb]

theorem regWrite_idle (off : Nat) (v : Word) (hb : s.busy = false) :
    regWrite off v s = { s with regs := s.regs.writeAt off v } := by
  simp only [regWrite, hb, Bool.false_eq_true, if_false]

theorem readAt_reserved (r : Regs) (h : 0x28 ≤ off) : r.readAt off = 0#32 := by
  unfold Regs.readAt
  split
  case h_11 => rfl
  all_goals omega

theorem writeAt_readOnly (r : Regs) (v : Word) (h : off = 0x04 ∨ 0x20 ≤ off) : r.writeAt off v = r := by
  unfold Regs.writeAt
  split
  case h_7 => rfl
  all_goals omega

end

/-- Settles O17. -/
theorem windowReads : Obligations.WindowReads := by
  intro s off es he hw hk
  have hquiet : (regRead off { s with events := es }).quiet = if off = 0x04 ∧ s.busy = false then [] else s.quiet := by
    rw [regRead]
    simp only [Bool.not_eq_true]
    rfl
  rw [step_eq_run_fetchHost he, fetchHost_regRead hw hk, Fetched.run_move]
  refine ⟨_, rfl, ?_, ?_, ?_, ?_, ?_, ?_, ?_, ?_, ?_, ?_, readAt_reserved s.regs, hquiet, rfl⟩
  all_goals
    rintro rfl
    rfl

/-- Settles O18. -/
theorem windowWrites : Obligations.WindowWrites := by
  intro s off v es he h0 hw hk
  rw [step_eq_run_fetchHost he, fetchHost_regWrite hw hk (by omega), Fetched.run_move]
  cases hb : s.busy with
  | true =>
    rw [regWrite_busy (s := { s with events := es }) off v hb]
    exact ⟨_, rfl, rfl, fun _ => rfl, nofun⟩
  | false =>
    rw [regWrite_idle (s := { s with events := es }) off v hb]
    refine ⟨_, rfl, rfl, nofun, fun _ => ⟨?_, ?_, ?_, ?_, ?_, ?_, writeAt_readOnly s.regs v⟩⟩
    all_goals
      rintro rfl
      rfl

/-- Settles O19. -/
theorem oddRegisterAccesses : Obligations.OddRegisterAccesses := by
  intro s off size v es a ha he
  rw [step_eq_run_fetchHost he]
  refine ⟨fun hw => ?_, fun hw hk => ?_⟩
  · rw [fetchHost_pastWindow ha hw, Fetched.run_move]
  · rw [fetchHost_unaligned ha hw hk, Fetched.run_move]

/-- A CTRL write that starts no command: while BUSY it is ignored, else OP and FILTER are written (R32). -/
theorem run_ctrlWrite_noCommand {v : Word} (s : State) (h : v.getLsbD 31 = false ∨ v.extractLsb' 0 2 = 0#2) :
    (Fetched.element (.cmd v) s).run =
      .next (if s.busy then s else { s with regs := { s.regs with ctrl := v &&& 0xF#32 } }) := by
  have hset : setCtrl (v.extractLsb' 2 2) (v.extractLsb' 0 2) s =
      { s with regs := { s.regs with ctrl := v &&& 0xF#32 } } := by
    rw [← ctrlWord_extract, setCtrl]
  cases hv : v.getLsbD 31 with
  | false => rw [Fetched.run_element_error s (decode_cmd_noStart hv), passOver, hset]
  | true =>
    have ho := h.resolve_left (by simp [hv])
    rw [Fetched.run_element s (decode_cmd_none hv ho), exec_cmdNone, ← ho, hset]
    split <;> rfl

/-- Settles O13: the CTRL word starts no command, or it decodes to the START of the command its OP names. -/
theorem ctrlWriteFollowsItsRule : Obligations.CtrlWriteFollowsItsRule := by
  intro s v es he
  have hstep : step s = (Fetched.element (.cmd v) { s with events := es }).run := by
    rw [step_eq_run_fetchHost he, fetchHost_ctrlWrite]
  rw [hstep]
  refine ⟨fun hb => ?_, fun hb hn => ?_, fun hb hv ho => ?_⟩
  · by_cases hn : v.getLsbD 31 = false ∨ v.extractLsb' 0 2 = 0#2
    · rw [run_ctrlWrite_noCommand _ hn, if_pos (by exact hb)]
    · rw [not_or, Bool.not_eq_false] at hn
      obtain ⟨cmd, -, hd⟩ := decode_cmd_start hn.1 hn.2
      rw [Fetched.run_element _ hd, exec_start]
      exact startCommand_busy _ _ _ hb
  · rw [run_ctrlWrite_noCommand _ hn, if_neg (by exact Bool.eq_false_iff.mp hb)]
  · obtain ⟨cmd, hop, hd⟩ := decode_cmd_start hv ho
    rw [Fetched.run_element _ hd, exec_start, hop]
    refine ⟨fun ha => ?_, fun ha => ?_⟩
    · exact startCommand_notAllowed _ _ _ hb (mt (launchAllowed_events s es).mp ha)
    · rw [startCommand_allowed _ _ _ (by exact hb) ((launchAllowed_events s es).mpr ha)]
      exact ⟨_, rfl, ctrlWord_extract v, rfl, rfl, hop, rfl, rfl, rfl, rfl⟩

/-! ### The commands of other blocks (R83, R321, R351) -/

section
variable (s : State) (block : Nat)

theorem hasOther_iff : s.hasOther block = true ↔ 1 ≤ block ∧ block < s.params.nBlocks := by
  simp only [State.hasOther, Bool.and_eq_true, decide_eq_true_eq]

theorem otherRuns_iff : s.otherRuns block = true ↔ ∃ o ∈ s.others, o.block = block := by
  simp only [State.otherRuns, List.any_eq_true, decide_eq_true_eq]

theorem otherStart_noSuchBlock (r : Region) (h : block = 0 ∨ s.params.nBlocks ≤ block) :
    otherStart block r s = .refused .noSuchBlock := by
  have hno : s.hasOther block = false := Bool.eq_false_iff.mpr (mt (hasOther_iff s block).mp (by omega))
  simp only [otherStart, hno, Bool.not_false, if_true]

theorem otherStart_running (r : Region) (h : s.hasOther block = true) (hr : s.otherRuns block = true) :
    otherStart block r s = .next s := by
  simp only [otherStart, h, hr, Bool.not_true, Bool.false_eq_true, if_false, if_true]

/-- A START of another block that runs no command is decided by the preconditions of its launch alone (R324). -/
theorem otherStart_idle (r : Region) (h : s.hasOther block = true) (hr : s.otherRuns block = false) :
    (¬ OtherLaunchAllowed s block r → ∃ x, otherStart block r s = .refused x) ∧
    (OtherLaunchAllowed s block r → otherStart block r s = .next { s with
      others := { block := block, region := r } :: s.others
      othersQuiet := { block := block, region := r } :: s.othersQuiet }) := by
  simp only [otherStart, h, hr, Bool.not_true, Bool.false_eq_true, if_false, ← otherLaunchProblem_iff]
  cases otherLaunchProblem block r s with
  | none => exact ⟨fun hn => absurd rfl hn, fun _ => rfl⟩
  | some x => exact ⟨fun _ => ⟨x, rfl⟩, nofun⟩

theorem otherLaunchAllowed_events (r : Region) (es : List HostEvent) :
    OtherLaunchAllowed { s with events := es } block r ↔ OtherLaunchAllowed s block r := by
  rw [← otherLaunchProblem_iff, ← otherLaunchProblem_iff]
  rfl

theorem otherWrite_notRunning (off : Nat) (bs : List Byte) (h : ∀ x ∈ s.others, x.block ≠ block) :
    otherWrite block off bs s = .refused .outsideOtherTarget := by
  have hf : (s.others.find? fun o => decide (o.block = block)) = none :=
    List.find?_eq_none.mpr fun x hx => by simpa using h x hx
  rw [otherWrite, hf]

/-- A write of a running block goes by the launch of that block. -/
theorem otherWrite_running {s : State} {o : OtherLaunch} (off : Nat) (bs : List Byte) (ho : o ∈ s.others)
    (hu : ∀ x ∈ s.others, x.block = o.block → x = o) :
    otherWrite o.block off bs s =
      if o.region.dstLen < off + bs.length then .refused .outsideOtherTarget
      else .next { s with mem := s.mem.writeBytes (o.region.dstBase + off) bs } := by
  have hf : (s.others.find? fun x => decide (x.block = o.block)) = some o := by
    cases hx : s.others.find? fun x => decide (x.block = o.block) with
    | none => exact absurd (List.find?_eq_none.mp hx o ho) (by simp)
    | some x => rw [hu x (List.mem_of_find?_eq_some hx) (by simpa using List.find?_some hx)]
  rw [otherWrite, hf]

theorem mem_otherEnd (o : OtherLaunch) : o ∈ (otherEnd block s).others ↔ o ∈ s.others ∧ o.block ≠ block := by
  simp only [otherEnd, List.mem_filter, decide_eq_true_eq]

theorem mem_otherRead (o : OtherLaunch) :
    o ∈ (otherRead block s).othersQuiet ↔
      o ∈ s.othersQuiet ∧ (o.block ≠ block ∨ ∃ x ∈ s.others, x.block = block) := by
  rw [← otherRuns_iff, otherRead]
  split
  next hr => simp only [hr, or_true, and_true]
  next hr => simp only [hr, List.mem_filter, decide_eq_true_eq, Bool.false_eq_true, or_false]

theorem otherRead_frame : otherRead block s = { s with othersQuiet := (otherRead block s).othersQuiet } := by
  rw [otherRead]
  split <;> rfl

/-- Bytes written to M stand there afterwards, and no other byte changes (R71). -/
theorem writeBytes_holds {s : State} (a : Nat) (bs : List Byte) (h : s.mem.wf = true) :
    HoldsBytes (s.mem.writeBytes a bs) a bs ∧
      MemUnchangedOutside a bs.length s { s with mem := s.mem.writeBytes a bs } := by
  refine ⟨fun i hi => ?_, fun x hx => memory_read_writeBytes_outside bs s.mem a x hx⟩
  rw [memory_read_writeBytes_inside bs s.mem a i h hi, List.getD_eq_getElem bs _ hi]

end

/-- Settles O23. -/
theorem otherBlocksStayDisjoint : Obligations.OtherBlocksStayDisjoint := by
  refine ⟨fun s block r es he => ?start, fun s o off bs es he hw => ?write, fun s block es =>
    ⟨fun he => ?ends, fun he => ?read⟩⟩
  case start =>
    rw [step_eq_run_fetchHost he]
    refine ⟨otherStart_noSuchBlock { s with events := es } block r, fun h1 h2 => ?_⟩
    have hhas := (hasOther_iff s block).mpr ⟨h1, h2⟩
    refine ⟨fun hr => ?_, fun hr => ?_⟩
    · exact otherStart_running { s with events := es } block r hhas ((otherRuns_iff s block).mpr hr)
    · have hidle : s.otherRuns block = false :=
        Bool.eq_false_iff.mpr (mt (otherRuns_iff s block).mp fun ⟨o, ho, hb⟩ => hr o ho hb)
      rw [← otherLaunchAllowed_events s block r es]
      exact otherStart_idle { s with events := es } block r hhas hidle
  case write =>
    rw [step_eq_run_fetchHost he]
    refine ⟨otherWrite_notRunning { s with events := es } o.block off bs, fun ho hu => ?_⟩
    have hrun : (fetchHost (.otherWrite o.block off bs) { s with events := es }).run = _ :=
      otherWrite_running (s := { s with events := es }) off bs ho hu
    obtain ⟨hin, hout⟩ := writeBytes_holds (o.region.dstBase + off) bs hw
    rw [hrun]
    refine ⟨fun hl => if_pos hl, fun hl => ⟨_, if_neg (Nat.not_lt.mpr hl), hin, hout, rfl⟩⟩
  case ends =>
    rw [step_eq_run_fetchHost he]
    exact ⟨_, rfl, mem_otherEnd { s with events := es } block, rfl⟩
  case read =>
    rw [step_eq_run_fetchHost he]
    exact ⟨_, rfl, mem_otherRead { s with events := es } block, otherRead_frame _ block⟩

end Sys2Proof.Machine
end

section
/-! Proof of O56: every step keeps the invariant of the machine (spec/10_state.md R31 to R45, spec/20_memory.md R64).
A step of a running command goes on with the same registers, arguments and parameters (`GoesOn`), or it ends the
command; what is left is the place it reaches. So `Running` holds what `GoesOn` carries over, and for each of the three
decoders one lemma (`Running.inGroup`, `Running.insideTriangle`, `Running.insideOutput`) says when the new place keeps
the invariant. An access from outside changes no running command but by ending it (a reset). -/

namespace Sys2Proof.Machine

/-! ### Going on with a command, and ending it -/

/-- A step goes on with the command of `s`: parameters, registers and latched arguments stay, and M stays canonical. -/
structure GoesOn (s t : State) : Prop where
  params : t.params = s.params
  regs : t.regs = s.regs
  args : t.args = s.args
  mem : s.mem.wf = true → t.mem.wf = true

theorem GoesOn.refl (s : State) : GoesOn s s := ⟨rfl, rfl, rfl, id⟩

theorem GoesOn.trans {s t u : State} (h : GoesOn s t) (h' : GoesOn t u) : GoesOn s u :=
  ⟨h'.params.trans h.params, h'.regs.trans h.regs, h'.args.trans h.args, fun hw => h'.mem (h.mem hw)⟩

/-- What the invariant says of a running command, wherever it stands. -/
structure Running (s : State) : Prop where
  mem : s.mem.wf = true
  status : StatusLegal s.regs.status
  busy : s.busy = true
  ctrl : s.regs.ctrl.extractLsb' 4 28 = 0#28
  errOffset : s.regs.errOffset ≠ 0#32 → s.regs.status = statusFailure .truncatedSource
  launch : LaunchKept s

/-- The block runs no command, and its registers keep their rules. -/
structure Resting (s : State) : Prop where
  mem : s.mem.wf = true
  phase : s.phase = .idle
  busy : s.busy = false
  status : StatusLegal s.regs.status
  ctrl : s.regs.ctrl.extractLsb' 4 28 = 0#28
  errOffset : s.regs.errOffset ≠ 0#32 → s.regs.status = statusFailure .truncatedSource

theorem Resting.inv {s : State} (h : Resting s) : s.Inv where
  mem := h.mem
  registers := ⟨h.status, by simp [h.phase, h.busy], h.ctrl, h.errOffset⟩
  launch := fun hp => absurd h.phase hp
  phase := by simp only [PhaseKept, h.phase]

theorem State.Inv.resting {s : State} (h : s.Inv) (hp : s.phase = .idle) : Resting s where
  mem := h.mem
  phase := hp
  busy := Bool.eq_false_iff.mpr (mt h.registers.busy.mp (not_not.mpr hp))
  status := h.registers.status
  ctrl := h.registers.ctrl
  errOffset := h.registers.errOffset

theorem State.Inv.running {s : State} (h : s.Inv) (hp : s.phase ≠ .idle) : Running s :=
  ⟨h.mem, h.registers.status, h.registers.busy.mpr hp, h.registers.ctrl, h.registers.errOffset, h.launch hp⟩

theorem State.Inv.phase_idle_iff {s : State} (h : s.Inv) : s.phase = .idle ↔ s.busy = false := by
  rw [← Bool.not_eq_true, h.registers.busy, not_not]

section
variable {s t : State}

theorem LaunchKept.goesOn (h : LaunchKept s) (g : GoesOn s t) : LaunchKept t := by
  obtain ⟨hp, hr, ha, -⟩ := g
  constructor
  · rw [ha, hr]; exact h.latched
  · rw [ha, hr]; exact h.ctrl
  · rw [ha, hp]; exact h.source
  · rw [ha, hp]; exact h.target
  · rw [ha]; exact h.disjoint

theorem Running.goesOn (h : Running s) (g : GoesOn s t) : Running t := by
  refine ⟨g.mem h.mem, ?_, ?_, ?_, ?_, h.launch.goesOn g⟩
  · rw [g.regs]; exact h.status
  · rw [State.busy, g.regs]; exact h.busy
  · rw [g.regs]; exact h.ctrl
  · rw [g.regs]; exact h.errOffset

/-- A running command at a place it keeps meets the invariant. -/
theorem Running.inv (h : Running s) (hp : s.phase ≠ .idle) (hk : PhaseKept s) : s.Inv :=
  ⟨h.mem, ⟨h.status, by simp [h.busy, hp], h.ctrl, h.errOffset⟩, fun _ => h.launch, hk⟩

theorem statusFailure_legal (k : ErrorKind) : StatusLegal (statusFailure k) := by
  cases k <;> simp [StatusLegal, statusFailure, statusWord, ErrorKind.code]

theorem statusFailure_busy (k : ErrorKind) : (statusFailure k).getLsbD 0 = false := by
  cases k <;> decide

theorem Running.raise (h : Running s) (k : ErrorKind) (off : Nat) : (raise k off s).Inv :=
  Resting.inv
    { mem := h.mem
      phase := rfl
      busy := statusFailure_busy k
      status := statusFailure_legal k
      ctrl := h.ctrl
      errOffset := fun he => by
        rw [raise_regs] at he ⊢
        by_cases hk : k = .truncatedSource
        · rw [hk]
        · exact absurd (if_neg hk) he }

theorem goesOn_drawTarget (s : State) : GoesOn s (drawTarget s) :=
  ⟨rfl, rfl, rfl, fun h => memory_drawBytes_wf _ _ _ _ _ h⟩

theorem Running.raiseTruncated (h : Running s) : (raiseTruncated s).Inv :=
  (h.goesOn (goesOn_drawTarget s)).raise _ _

theorem Running.complete (h : Running s) : (complete s).Inv := by
  have hb : statusSuccess.getLsbD 0 = false := by decide
  exact Resting.inv ⟨h.mem, rfl, hb, Or.inr (Or.inr (Or.inl rfl)), h.ctrl, fun he => absurd rfl he⟩

end

/-! ### What the shared operations go on with -/

theorem goesOn_tgtWrite (off n : Nat) (v : Word) (s : State) : GoesOn s (tgtWrite off n v s) :=
  ⟨rfl, rfl, rfl, fun h => (tgtWrite_spec off n v s h).1⟩

theorem emit_frame (a b c : Word) (s : State) :
    emit a b c s = { s with mem := (emit a b c s).mem, t := s.t + 1, phase := .triangle } := by
  simp only [emit, tgtWriteIndex, tgtWrite]

theorem goesOn_emit (a b c : Word) (s : State) : GoesOn s (emit a b c s) := by
  rw [emit_frame]
  exact ⟨rfl, rfl, rfl, fun h => (emit_spec a b c s h).1⟩

theorem goesOn_forEach (n : Nat) (f : Nat → State → State) (s : State) (h : ∀ i t, GoesOn t (f i t)) :
    GoesOn s (forEach n f s) :=
  forEach_induct (fun _ t => GoesOn s t) n f s (GoesOn.refl s) fun i t _ ht => ht.trans (h i t)

theorem goesOn_octRow (r : Nat) (s : State) : GoesOn s (octRow r s) :=
  (goesOn_tgtWrite _ _ _ _).trans ((goesOn_tgtWrite _ _ _ _).trans (goesOn_tgtWrite _ _ _ _))

theorem goesOn_quatRow (r : Nat) (s : State) : GoesOn s (quatRow r s) :=
  (goesOn_tgtWrite _ _ _ _).trans
    ((goesOn_tgtWrite _ _ _ _).trans ((goesOn_tgtWrite _ _ _ _).trans (goesOn_tgtWrite _ _ _ _)))

theorem goesOn_expStep (q : Nat) (s : State) : GoesOn s (expStep q s) := goesOn_tgtWrite _ _ _ _

/-- The deltas of a group change the accumulators, the rows reached, and M, and nothing else. -/
theorem forEach_applyDelta_frame (n : Nat) (s : State) (h : s.mem.wf = true) :
    (forEach n applyDelta s).mem.wf = true ∧ ∃ acc row mem, forEach n applyDelta s = { s with acc, row, mem } := by
  refine forEach_induct (fun _ t => t.mem.wf = true ∧ ∃ acc row mem, t = { s with acc, row, mem }) n applyDelta s
    ⟨h, s.acc, s.row, s.mem, rfl⟩ ?_
  rintro i t - ⟨hw, acc, row, mem, rfl⟩
  obtain ⟨hw', hin, hpast⟩ := applyDelta_spec i _ hw
  refine ⟨hw', ?_⟩
  obtain hr | hr := Nat.lt_or_ge (16 * s.g + i) s.blockRows
  · exact ⟨_, _, _, hin hr⟩
  · exact ⟨_, _, _, hpast hr⟩

/-! ### The places of the three decoders -/

/-- The phases in which a group of a lane is decoded. -/
def Phase.inGroup : Phase → Bool
  | .group | .code2 | .code4 | .literal | .apply => true
  | _ => false

/-- A group of DECODE_VERTEX is being decoded. -/
def InGroup (s : State) : Prop :=
  VertexDecoding s ∧ s.blockBase < s.args.count.toNat ∧ s.k < s.args.stride.toNat

/-- A triangle of DECODE_INDEX is being decoded, its code read. -/
def State.insideTriangle (s : State) : Bool :=
  match s.phase with
  | .auxByte | .takeA | .caux | .aux | .newDone => true
  | .varintByte | .indexDelta => decide (s.vuse ≠ .sequence)
  | _ => false

/-- An output of DECODE_SEQUENCE is being decoded. -/
def State.insideOutput (s : State) : Bool :=
  match s.phase with
  | .varintByte => decide (s.vuse = .sequence)
  | .seqValue => true
  | _ => false

section
variable {s t : State}

theorem phaseKept_iff_inGroup (h : s.phase.inGroup = true) : PhaseKept s ↔ InGroup s := by
  cases hp : s.phase <;> simp_all [Phase.inGroup, PhaseKept, InGroup]

theorem phaseKept_iff_insideTriangle (h : s.insideTriangle = true) : PhaseKept s ↔ IndexDecoding s true := by
  cases hp : s.phase <;> simp_all [State.insideTriangle, PhaseKept]

theorem phaseKept_iff_insideOutput (h : s.insideOutput = true) : PhaseKept s ↔ SequenceDecoding s true := by
  cases hp : s.phase <;> simp_all [State.insideOutput, PhaseKept]

theorem phase_ne_idle_of_inGroup (h : s.phase.inGroup = true) : s.phase ≠ .idle := by
  intro hp
  rw [hp] at h
  cases h

theorem phase_ne_idle_of_insideTriangle (h : s.insideTriangle = true) : s.phase ≠ .idle := by
  intro hp
  rw [State.insideTriangle, hp] at h
  cases h

theorem phase_ne_idle_of_insideOutput (h : s.insideOutput = true) : s.phase ≠ .idle := by
  intro hp
  rw [State.insideOutput, hp] at h
  cases h

/-- DECODE_VERTEX goes on: the cursor has not passed the limit. -/
theorem VertexDecoding.goesOn (h : VertexDecoding s) (g : GoesOn s t) (hlim : t.lim = s.lim) (hlo : s.cur ≤ t.cur)
    (hhi : t.cur ≤ s.lim) (hb : t.blockBase ≤ s.args.count.toNat) : VertexDecoding t := by
  obtain ⟨hcmd, hcheck, hl, h1, -, -⟩ := h
  refine ⟨?_, ?_, ?_, h1.trans hlo, ?_, ?_⟩
  · rw [g.args]; exact hcmd
  · rw [vertexCheck, g.params, g.args]; exact hcheck
  · rw [g.args, hlim]; exact hl
  · rw [hlim]; exact hhi
  · rw [g.args]; exact hb

/-- DECODE_INDEX goes on: the cursor has not passed the limit. -/
theorem IndexDecoding.goesOn {i j : Bool} (h : IndexDecoding s i) (g : GoesOn s t) (hlim : t.lim = s.lim)
    (hlo : s.cur ≤ t.cur) (hhi : t.cur ≤ s.lim)
    (ht : if j then t.t < s.args.triCount ∧ t.ccur = 2 + t.t else t.t ≤ s.args.triCount ∧ t.ccur = 1 + t.t) :
    IndexDecoding t j := by
  obtain ⟨hcmd, hcheck, hl, h1, -, -⟩ := h
  refine ⟨?_, ?_, ?_, ?_, ?_, ?_⟩
  · rw [g.args]; exact hcmd
  · rw [indexCheck, g.args]; exact hcheck
  · rw [g.args, hlim]; exact hl
  · rw [g.args]; exact h1.trans hlo
  · rw [hlim]; exact hhi
  · rw [g.args]; exact ht

/-- DECODE_SEQUENCE goes on: the cursor has not passed the limit. -/
theorem SequenceDecoding.goesOn {i j : Bool} (h : SequenceDecoding s i) (g : GoesOn s t) (hlim : t.lim = s.lim)
    (hlo : s.cur ≤ t.cur) (hhi : t.cur ≤ s.lim)
    (hn : if j then t.n < s.args.count.toNat else t.n ≤ s.args.count.toNat) : SequenceDecoding t j := by
  obtain ⟨hcmd, hcheck, hl, h1, -, -⟩ := h
  refine ⟨?_, ?_, ?_, h1.trans hlo, ?_, ?_⟩
  · rw [g.args]; exact hcmd
  · rw [sequenceCheck, g.args]; exact hcheck
  · rw [g.args, hlim]; exact hl
  · rw [hlim]; exact hhi
  · rw [g.args]; exact hn

theorem VertexDecoding.cur_le (h : VertexDecoding s) : s.cur ≤ s.lim := h.2.2.2.2.1

theorem VertexDecoding.blockBase_le (h : VertexDecoding s) : s.blockBase ≤ s.args.count.toNat := h.2.2.2.2.2

theorem IndexDecoding.cur_le {i : Bool} (h : IndexDecoding s i) : s.cur ≤ s.lim := h.2.2.2.2.1

theorem IndexDecoding.inside (h : IndexDecoding s true) : s.t < s.args.triCount ∧ s.ccur = 2 + s.t := h.2.2.2.2.2

theorem IndexDecoding.between (h : IndexDecoding s false) : s.t ≤ s.args.triCount ∧ s.ccur = 1 + s.t := h.2.2.2.2.2

theorem SequenceDecoding.cur_le {i : Bool} (h : SequenceDecoding s i) : s.cur ≤ s.lim := h.2.2.2.2.1

theorem SequenceDecoding.inside (h : SequenceDecoding s true) : s.n < s.args.count.toNat := h.2.2.2.2.2

/-- A step within a group keeps the invariant. -/
theorem Running.inGroup (h : Running s) (hp : InGroup s) (g : GoesOn s t) (ht : t.phase.inGroup = true)
    (hlim : t.lim = s.lim) (hlo : s.cur ≤ t.cur) (hhi : t.cur ≤ s.lim) (hb : t.blockBase = s.blockBase)
    (hk : t.k = s.k) : t.Inv := by
  obtain ⟨hd, hbase, hlane⟩ := hp
  refine (h.goesOn g).inv (phase_ne_idle_of_inGroup ht) ((phaseKept_iff_inGroup ht).mpr ⟨?_, ?_, ?_⟩)
  · exact hd.goesOn g hlim hlo hhi (by rw [hb]; exact hd.blockBase_le)
  · rw [g.args, hb]; exact hbase
  · rw [g.args, hk]; exact hlane

/-- A step within a triangle keeps the invariant. -/
theorem Running.insideTriangle (h : Running s) (hp : IndexDecoding s true) (g : GoesOn s t)
    (ht : t.insideTriangle = true) (hlim : t.lim = s.lim) (hlo : s.cur ≤ t.cur) (hhi : t.cur ≤ s.lim)
    (htri : t.t = s.t) (hccur : t.ccur = s.ccur) : t.Inv := by
  refine (h.goesOn g).inv (phase_ne_idle_of_insideTriangle ht) ((phaseKept_iff_insideTriangle ht).mpr ?_)
  refine hp.goesOn g hlim hlo hhi ?_
  rw [htri, hccur]
  exact hp.inside

/-- A step within a sequence output keeps the invariant. -/
theorem Running.insideOutput (h : Running s) (hp : SequenceDecoding s true) (g : GoesOn s t)
    (ht : t.insideOutput = true) (hlim : t.lim = s.lim) (hlo : s.cur ≤ t.cur) (hhi : t.cur ≤ s.lim)
    (hn : t.n = s.n) : t.Inv := by
  refine (h.goesOn g).inv (phase_ne_idle_of_insideOutput ht) ((phaseKept_iff_insideOutput ht).mpr ?_)
  refine hp.goesOn g hlim hlo hhi ?_
  rw [hn]
  exact hp.inside

end

end Sys2Proof.Machine
end

section
/-! Proof of O56, continued: each step of the block keeps the invariant, phase by phase, and so does each access from
outside. -/

namespace Sys2Proof.Machine

/-- The machine answers a next state, and it meets the invariant. -/
def KeepsInv (r : Result) : Prop := ∃ t, r = .next t ∧ t.Inv

theorem keepsInv_next {t : State} (h : t.Inv) : KeepsInv (.next t) := ⟨t, rfl, h⟩

section
variable {s : State}

/-! ### Tags and checks -/

theorem acceptTag_inv (cmd : Command) (h : Running s) (hl : 1 ≤ s.args.srcLen.toNat) : (acceptTag cmd s).Inv := by
  rw [acceptTag]
  split
  · exact (h.goesOn (t := { s with phase := .checks }) ⟨rfl, rfl, rfl, id⟩).inv nofun hl
  · exact h.raise _ _

theorem keepsInv_tag (b : Byte) (h : Running s) (hl : 1 ≤ s.args.srcLen.toNat) :
    KeepsInv (Fetched.element (.tag b) s).run := by
  rw [Fetched.run_element s rfl]
  refine decodeTag_cases (P := fun i => KeepsInv (exec i s)) b ?_ ?_ ?_ ?_
  · exact keepsInv_next (acceptTag_inv _ h hl)
  · exact keepsInv_next (acceptTag_inv _ h hl)
  · exact keepsInv_next (acceptTag_inv _ h hl)
  · exact keepsInv_next (h.raise _ _)

/-- What the checks of DECODE_VERTEX leave of the layout (R151). -/
theorem vertexCheck_layout (h : vertexCheck s = none) : 1 + s.args.stride.toNat ≤ s.args.srcLen.toNat := by
  unfold vertexCheck at h
  split_ifs at h
  omega

/-- What the checks of DECODE_INDEX leave of the layout (R221). -/
theorem indexCheck_layout (h : indexCheck s = none) : 17 + s.args.triCount ≤ s.args.srcLen.toNat := by
  unfold indexCheck at h
  split_ifs at h
  omega

theorem runChecks_inv (h : Running s) (hl : 1 ≤ s.args.srcLen.toNat) : (runChecks s).Inv := by
  rw [runChecks]
  cases hc : commandCheck s with
  | some e => exact h.raise _ _
  | none =>
    change (initCommand s).Inv
    unfold commandCheck at hc
    unfold initCommand
    cases hcmd : s.args.cmd with
    | vertex =>
      simp only [hcmd] at hc
      have hlay := vertexCheck_layout hc
      exact (h.goesOn (t := initVertex s) ⟨rfl, rfl, rfl, id⟩).inv nofun
        ⟨hcmd, hc, rfl, Nat.le_refl 1, Nat.le_sub_of_add_le hlay, Nat.zero_le _⟩
    | index =>
      simp only [hcmd] at hc
      have hlim : 1 + s.args.triCount ≤ s.args.srcLen.toNat - 16 := by
        have hlay := indexCheck_layout hc
        omega
      exact (h.goesOn (t := initIndex s) ⟨rfl, rfl, rfl, id⟩).inv nofun
        ⟨hcmd, hc, rfl, Nat.le_refl _, hlim, Nat.zero_le _, rfl⟩
    | sequence =>
      simp only [hcmd] at hc
      exact (h.goesOn (t := initSequence s) ⟨rfl, rfl, rfl, id⟩).inv nofun
        ⟨hcmd, hc, rfl, Nat.le_refl 1, hl, Nat.zero_le _⟩

/-! ### DECODE_VERTEX -/

theorem blockHead_inv (h : Running s) (hp : VertexDecoding s) : (blockHead s).Inv := by
  rw [blockHead]
  split
  next hb => exact (h.goesOn (t := { s with k := 0, phase := .lane }) ⟨rfl, rfl, rfl, id⟩).inv nofun ⟨hp, hb⟩
  next => exact (h.goesOn (t := { s with phase := .filter }) ⟨rfl, rfl, rfl, id⟩).inv nofun hp

theorem laneHead_inv (h : Running s) (hp : VertexDecoding s) (hb : s.blockBase < s.args.count.toNat) :
    (laneHead s).Inv := by
  rw [laneHead]
  split
  next hk =>
    obtain hr | hr := Nat.lt_or_ge s.lim (s.cur + headerByteCount s.blockRows)
    · rw [readByteList_truncated _ s (by have := hp.cur_le; omega) hr]
      exact (h.goesOn (t := { s with cur := max s.cur s.lim }) ⟨rfl, rfl, rfl, id⟩).raiseTruncated
    · rw [readByteList_ok _ s hr]
      exact h.inGroup ⟨hp, hb, hk⟩ ⟨rfl, rfl, rfl, id⟩ rfl rfl (Nat.le_add_right _ _) hr rfl rfl
  next =>
    have hrows : s.blockBase + s.blockRows ≤ s.args.count.toNat := by
      have hmin : s.blockRows ≤ s.args.count.toNat - s.blockBase := Nat.min_le_right _ _
      omega
    exact (h.goesOn (t := { s with blockBase := s.blockBase + s.blockRows, phase := .block })
      ⟨rfl, rfl, rfl, id⟩).inv nofun (hp.goesOn ⟨rfl, rfl, rfl, id⟩ rfl (Nat.le_refl _) hp.cur_le hrows)

theorem groupEnd_inv (h : Running s) (hp : InGroup s) : { s with k := s.k + 1, phase := .lane }.Inv :=
  (h.goesOn (t := { s with k := s.k + 1, phase := .lane }) ⟨rfl, rfl, rfl, id⟩).inv nofun
    ⟨hp.1.goesOn ⟨rfl, rfl, rfl, id⟩ rfl (Nat.le_refl _) hp.1.cur_le hp.1.blockBase_le, hp.2.1⟩

theorem readPacked_inv (n : Nat) (codes : Phase) (h : Running s) (hp : InGroup s) (hn : 0 < n)
    (hc : codes.inGroup = true) : (readPacked n codes s).Inv := by
  obtain ⟨hok, htrunc⟩ := readPacked_spec n codes s
  obtain hr | hr := Nat.lt_or_ge s.lim (s.cur + n)
  · rw [htrunc hn hr]
    exact (h.goesOn (t := { s with cur := max s.cur s.lim }) ⟨rfl, rfl, rfl, id⟩).raiseTruncated
  · rw [hok hr]
    exact h.inGroup hp ⟨rfl, rfl, rfl, id⟩ hc rfl (Nat.le_add_right _ _) hr rfl rfl

theorem keepsInv_mode (m : BitVec 2) (h : Running s) (hp : InGroup s) :
    KeepsInv (Fetched.element (.mode m) s).run := by
  rw [Fetched.run_element s rfl]
  refine decodeMode_cases (P := fun i => KeepsInv (exec i s)) m ?_ ?_ ?_ ?_
  · exact keepsInv_next (h.inGroup hp ⟨rfl, rfl, rfl, id⟩ rfl rfl (Nat.le_refl _) hp.1.cur_le rfl rfl)
  · exact keepsInv_next (readPacked_inv 4 .code2 h hp (by decide) rfl)
  · exact keepsInv_next (readPacked_inv 8 .code4 h hp (by decide) rfl)
  · exact keepsInv_next (h.inGroup hp ⟨rfl, rfl, rfl, id⟩ rfl rfl (Nat.le_refl _) hp.1.cur_le rfl rfl)

theorem putDelta_inv (x : Byte) (h : Running s) (hp : InGroup s) (hg : s.phase.inGroup = true) :
    (putDelta x s).Inv :=
  h.inGroup hp ⟨rfl, rfl, rfl, id⟩ hg rfl (Nat.le_refl _) hp.1.cur_le rfl rfl

theorem InGroup.nextByte (hp : InGroup s) (hc : s.cur < s.lim) : InGroup { s with cur := s.cur + 1 } :=
  ⟨hp.1.goesOn ⟨rfl, rfl, rfl, id⟩ rfl (Nat.le_succ _) hc hp.1.blockBase_le, hp.2⟩

theorem escapeDelta_inv (h : Running s) (hp : InGroup s) (hg : s.phase.inGroup = true) : (escapeDelta s).Inv := by
  obtain ⟨hok, htrunc⟩ := escapeDelta_spec s
  obtain hc | hc := Nat.lt_or_ge s.cur s.lim
  · rw [hok hc]
    exact putDelta_inv _ (h.goesOn ⟨rfl, rfl, rfl, id⟩) (hp.nextByte hc) hg
  · rw [htrunc hc]
    exact h.raiseTruncated

theorem keepsInv_code2 (c : BitVec 2) (h : Running s) (hp : InGroup s) (hg : s.phase.inGroup = true) :
    KeepsInv (Fetched.element (.code2 c) s).run := by
  rw [Fetched.run_element s rfl]
  refine decodeCode2_cases (P := fun i => KeepsInv (exec i s)) c ?_ ?_
  · exact keepsInv_next (escapeDelta_inv h hp hg)
  · exact keepsInv_next (putDelta_inv _ h hp hg)

theorem keepsInv_code4 (c : Nibble) (h : Running s) (hp : InGroup s) (hg : s.phase.inGroup = true) :
    KeepsInv (Fetched.element (.code4 c) s).run := by
  rw [Fetched.run_element s rfl]
  refine decodeCode4_cases (P := fun i => KeepsInv (exec i s)) c ?_ ?_
  · exact keepsInv_next (escapeDelta_inv h hp hg)
  · exact keepsInv_next (putDelta_inv _ h hp hg)

theorem keepsInv_literal (h : Running s) (hp : InGroup s) (hg : s.phase.inGroup = true) :
    KeepsInv (fetchByte .literal s).run := by
  obtain hc | hc := Nat.lt_or_ge s.cur s.lim
  · rw [fetchByte_ok _ hc, Fetched.run_element _ rfl]
    exact keepsInv_next (putDelta_inv _ (h.goesOn ⟨rfl, rfl, rfl, id⟩) (hp.nextByte hc) hg)
  · rw [fetchByte_truncated _ hc]
    exact keepsInv_next h.raiseTruncated

theorem deltasEnd_inv (h : Running s) (hp : InGroup s) : { s with phase := .apply }.Inv :=
  h.inGroup hp ⟨rfl, rfl, rfl, id⟩ rfl rfl (Nat.le_refl _) hp.1.cur_le rfl rfl

theorem applyGroup_inv (h : Running s) (hp : InGroup s) : (applyGroup s).Inv := by
  obtain ⟨hw, acc, row, mem, he⟩ := forEach_applyDelta_frame 16 s h.mem
  rw [applyGroup, he]
  rw [he] at hw
  exact h.inGroup hp ⟨rfl, rfl, rfl, fun _ => hw⟩ rfl rfl (Nat.le_refl _) hp.1.cur_le rfl rfl

theorem filterDone_inv {t : State} (h : Running s) (g : GoesOn s t) : (filterDone t).Inv :=
  (h.goesOn (g.trans (u := filterDone t) ⟨rfl, rfl, rfl, id⟩)).inv nofun trivial

theorem keepsInv_filter (v : Nibble) (h : Running s) : KeepsInv (Fetched.element (.cmdFilter v) s).run := by
  rw [Fetched.run_element s rfl]
  refine decodeCmdFilter_cases (P := fun i => KeepsInv (exec i s)) v ?_ ?_ ?_ ?_
  · exact keepsInv_next (filterDone_inv h (GoesOn.refl s))
  · exact keepsInv_next (filterDone_inv h (goesOn_forEach _ _ s goesOn_octRow))
  · exact keepsInv_next (filterDone_inv h (goesOn_forEach _ _ s goesOn_quatRow))
  · exact keepsInv_next (filterDone_inv h (goesOn_forEach _ _ s goesOn_expStep))

/-! ### DECODE_INDEX -/

/-- The end of a triangle: its indices are written, and the next code is decoded. -/
theorem emit_inv (a b c : Word) (h : Running s) (hp : IndexDecoding s true) : (emit a b c s).Inv := by
  have hg := goesOn_emit a b c s
  obtain ⟨ht, hccur⟩ := hp.inside
  rw [emit_frame] at hg ⊢
  refine (h.goesOn hg).inv nofun (hp.goesOn hg rfl (Nat.le_refl _) hp.cur_le ⟨ht, ?_⟩)
  change s.ccur = 1 + (s.t + 1)
  omega

/-- A step that keeps the cursors and the triangle keeps the place in it. -/
theorem Running.samePlace {t : State} (h : Running s) (hp : IndexDecoding s true) (g : GoesOn s t)
    (hlim : t.lim = s.lim) (hcur : t.cur = s.cur) (ht : t.t = s.t) (hccur : t.ccur = s.ccur) :
    Running t ∧ IndexDecoding t true := by
  refine ⟨h.goesOn g, hp.goesOn g hlim hcur.ge (hcur ▸ hp.cur_le) ?_⟩
  rw [ht, hccur]
  exact hp.inside

theorem pushEdges_place (n : Nat) (edges : List Word) (h : Running s) (hp : IndexDecoding s true) :
    Running (pushEdges n edges s) ∧ IndexDecoding (pushEdges n edges s) true :=
  h.samePlace hp ⟨rfl, rfl, rfl, id⟩ rfl rfl rfl rfl

theorem pushVertex_place (v : Word) (h : Running s) (hp : IndexDecoding s true) :
    Running (pushVertex v s) ∧ IndexDecoding (pushVertex v s) true :=
  h.samePlace hp ⟨rfl, rfl, rfl, id⟩ rfl rfl rfl rfl

theorem edgeComplete_inv (a b c : Word) (h : Running s) (hp : IndexDecoding s true) : (edgeComplete a b c s).Inv := by
  obtain ⟨h', hp'⟩ := pushEdges_place 4 [a, c, c, b] h hp
  exact emit_inv a b c h' hp'

theorem newComplete_inv (a b c : Word) (h : Running s) (hp : IndexDecoding s true) : (newComplete a b c s).Inv := by
  obtain ⟨h', hp'⟩ := pushEdges_place 6 [a, c, c, b, b, a] h hp
  exact emit_inv a b c h' hp'

theorem edgeWithPush_inv (a b c : Word) (h : Running s) (hp : IndexDecoding s true) : (edgeWithPush a b c s).Inv := by
  obtain ⟨h', hp'⟩ := pushVertex_place c h hp
  exact edgeComplete_inv a b c h' hp'

/-- A step that keeps the cursors and the triangle, and stays within it. -/
theorem Running.sameTriangle {t : State} (h : Running s) (hp : IndexDecoding s true) (g : GoesOn s t)
    (ht : t.insideTriangle = true) (hlim : t.lim = s.lim) (hcur : t.cur = s.cur) (htri : t.t = s.t)
    (hccur : t.ccur = s.ccur) : t.Inv :=
  h.insideTriangle hp g ht hlim (Nat.le_of_eq hcur.symm) (hcur ▸ hp.cur_le) htri hccur

theorem readAuxByte_inv (x : Bool) (h : Running s) (hp : IndexDecoding s true) : (readAuxByte x s).Inv := by
  rw [readAuxByte]
  obtain hc | hc := Nat.lt_or_ge s.cur s.lim
  · rw [readByte_ok s hc]
    exact h.insideTriangle hp ⟨rfl, rfl, rfl, id⟩ rfl rfl (Nat.le_succ _) hc rfl rfl
  · rw [readByte_truncated s hc]
    exact h.raiseTruncated

theorem takeFreshA_inv (p : Phase) (h : Running s) (hp : IndexDecoding s true) (hx : p = .caux ∨ p = .aux) :
    (takeFreshA p s).Inv := by
  obtain rfl | rfl := hx
  · exact h.sameTriangle hp ⟨rfl, rfl, rfl, id⟩ rfl rfl rfl rfl rfl
  · exact h.sameTriangle hp ⟨rfl, rfl, rfl, id⟩ rfl rfl rfl rfl rfl

theorem startVarint_inv (use : VarintUse) (h : Running s) (hp : IndexDecoding s true) (hu : use ≠ .sequence) :
    (startVarint use s).Inv :=
  h.sameTriangle hp ⟨rfl, rfl, rfl, id⟩ (decide_eq_true hu) rfl rfl rfl rfl

theorem keepsInv_triangle (b : Byte) (h : Running s) (hp : IndexDecoding s true) :
    KeepsInv (Fetched.element (.triangle b) s).run := by
  rw [Fetched.run_element s rfl]
  refine decodeTriangle_cases (P := fun i => KeepsInv (exec i s)) b ?_ ?_ ?_ ?_ ?_ ?_ ?_ ?_
  · intro b1
    obtain ⟨h', hp'⟩ := h.samePlace (t := { s with entry := s.sourceByte (s.args.srcLen.toNat - 16 + b1.toNat) }) hp
      ⟨rfl, rfl, rfl, id⟩ rfl rfl rfl rfl
    exact keepsInv_next (takeFreshA_inv .caux h' hp' (Or.inl rfl))
  · exact keepsInv_next (readAuxByte_inv false h hp)
  · exact keepsInv_next (readAuxByte_inv true h hp)
  · intro b0
    obtain ⟨h', hp'⟩ := h.samePlace (t := { s with next := s.next + 1#32 }) hp ⟨rfl, rfl, rfl, id⟩ rfl rfl rfl rfl
    exact keepsInv_next (edgeWithPush_inv _ _ _ h' hp')
  · exact fun b0 b1 => keepsInv_next (edgeComplete_inv _ _ _ h hp)
  · intro b0
    obtain ⟨h', hp'⟩ := h.samePlace (t := { s with last := s.last - 1#32 }) hp ⟨rfl, rfl, rfl, id⟩ rfl rfl rfl rfl
    exact keepsInv_next (edgeWithPush_inv _ _ _ h' hp')
  · intro b0
    obtain ⟨h', hp'⟩ := h.samePlace (t := { s with last := s.last + 1#32 }) hp ⟨rfl, rfl, rfl, id⟩ rfl rfl rfl rfl
    exact keepsInv_next (edgeWithPush_inv _ _ _ h' hp')
  · intro b0
    obtain ⟨h', hp'⟩ := h.samePlace (t := { s with triA := edgeFirst s.ec b0, triB := edgeSecond s.ec b0 }) hp
      ⟨rfl, rfl, rfl, id⟩ rfl rfl rfl rfl
    exact keepsInv_next (startVarint_inv .edgeC h' hp' nofun)

/-- The next code is read at the code cursor, and a triangle begins (R42). -/
theorem keepsInv_nextCode (b : Byte) (h : Running s) (hp : IndexDecoding s false) (ht : s.t < s.args.triCount) :
    KeepsInv (Fetched.element (.triangle b) { s with ccur := s.ccur + 1 }).run := by
  have g : GoesOn s { s with ccur := s.ccur + 1 } := ⟨rfl, rfl, rfl, id⟩
  obtain ⟨-, hccur⟩ := hp.between
  refine keepsInv_triangle b (h.goesOn g) (hp.goesOn g rfl (Nat.le_refl _) hp.cur_le ⟨ht, ?_⟩)
  change s.ccur + 1 = 2 + s.t
  omega

theorem keepsInv_auxByte (b : Byte) (h : Running s) (hp : IndexDecoding s true) :
    KeepsInv (Fetched.element (.auxByte b) s).run := by
  by_cases hb : b = 0#8
  · have hd : decode (.auxByte b) = .ok .auxRestart := if_pos hb
    rw [Fetched.run_element s hd]
    exact keepsInv_next (h.sameTriangle hp ⟨rfl, rfl, rfl, id⟩ rfl rfl rfl rfl rfl)
  · have hd : decode (.auxByte b) = .error .auxByteWithoutRow := if_neg hb
    rw [Fetched.run_element_error s hd]
    exact keepsInv_next (h.sameTriangle hp ⟨rfl, rfl, rfl, id⟩ rfl rfl rfl rfl rfl)

theorem takeA_inv (h : Running s) (hp : IndexDecoding s true) : (takeA s).Inv := by
  rw [takeA]
  split
  · exact startVarint_inv .newA h hp nofun
  · exact takeFreshA_inv .aux h hp (Or.inr rfl)

theorem setCorner_inv (v : Word) (x : Bool) (h : Running s) (hp : IndexDecoding s true)
    (ht : s.insideTriangle = true) : (setCorner v x s).Inv := by
  rw [setCorner]
  split
  · exact h.sameTriangle hp ⟨rfl, rfl, rfl, id⟩ ht rfl rfl rfl rfl
  · exact h.sameTriangle hp ⟨rfl, rfl, rfl, id⟩ rfl rfl rfl rfl rfl

theorem freshCorner_inv (h : Running s) (hp : IndexDecoding s true) (ht : s.insideTriangle = true) :
    (freshCorner s).Inv := by
  obtain ⟨h', hp'⟩ := h.samePlace (t := { s with next := s.next + 1#32 }) hp ⟨rfl, rfl, rfl, id⟩ rfl rfl rfl rfl
  exact setCorner_inv _ _ h' hp' ht

theorem keepsInv_caux (n : Nibble) (h : Running s) (hp : IndexDecoding s true) (ht : s.insideTriangle = true) :
    KeepsInv (Fetched.element (.caux n) s).run := by
  rw [Fetched.run_element s rfl]
  refine decodeCaux_cases (P := fun i => KeepsInv (exec i s)) n ?_ ?_
  · exact keepsInv_next (freshCorner_inv h hp ht)
  · exact keepsInv_next (setCorner_inv _ _ h hp ht)

theorem keepsInv_aux (n : Nibble) (h : Running s) (hp : IndexDecoding s true) (ht : s.insideTriangle = true) :
    KeepsInv (Fetched.element (.aux n) s).run := by
  rw [Fetched.run_element s rfl]
  refine decodeAux_cases (P := fun i => KeepsInv (exec i s)) n ?_ ?_ ?_
  · exact keepsInv_next (freshCorner_inv h hp ht)
  · exact keepsInv_next (startVarint_inv .newCorner h hp nofun)
  · exact keepsInv_next (setCorner_inv _ _ h hp ht)

/-- The pushes of a new-path triangle change the VertexCache alone (R232, R235). -/
theorem newDone_inv (h : Running s) (hp : IndexDecoding s true) : (newDone s).Inv := by
  obtain ⟨h1, hp1⟩ := pushVertex_place s.triA h hp
  have pushIf : ∀ (x : Bool) (v : Word) (u : State), Running u ∧ IndexDecoding u true →
      Running (if x then pushVertex v u else u) ∧ IndexDecoding (if x then pushVertex v u else u) true := by
    rintro (_ | _) v u hu
    · exact hu
    · exact pushVertex_place v hu.1 hu.2
  obtain ⟨h3, hp3⟩ := pushIf s.pushC s.triC _ (pushIf s.pushB s.triB _ ⟨h1, hp1⟩)
  exact newComplete_inv s.triA s.triB s.triC h3 hp3

theorem indexDelta_inv (h : Running s) (hp : IndexDecoding s true) (hu : s.vuse ≠ .sequence) :
    (indexDelta s).Inv := by
  obtain ⟨h', hp'⟩ := h.samePlace (t := { s with last := s.last + zigzag32 s.vres }) hp ⟨rfl, rfl, rfl, id⟩
    rfl rfl rfl rfl
  unfold indexDelta
  dsimp only
  split
  next => exact edgeWithPush_inv _ _ _ h' hp'
  next => exact h.sameTriangle hp ⟨rfl, rfl, rfl, id⟩ rfl rfl rfl rfl rfl
  next =>
    obtain ⟨h2, hp2⟩ := h.samePlace (t := { s with last := s.last + zigzag32 s.vres, phase := .aux }) hp
      ⟨rfl, rfl, rfl, id⟩ rfl rfl rfl rfl
    exact setCorner_inv _ _ h2 hp2 rfl
  next hv => exact absurd hv hu

/-! ### DECODE_SEQUENCE -/

theorem outputHead_inv (h : Running s) (hp : SequenceDecoding s false) : (outputHead s).Inv := by
  rw [outputHead]
  split
  next hn =>
    have g : GoesOn s (startVarint .sequence s) := ⟨rfl, rfl, rfl, id⟩
    exact (h.goesOn g).inv nofun (hp.goesOn g rfl (Nat.le_refl _) hp.cur_le hn)
  next => exact (h.goesOn (t := { s with phase := .done }) ⟨rfl, rfl, rfl, id⟩).inv nofun trivial

/-- An output is written, and the next one is decoded (R273). -/
theorem emitSequence_inv (v : Word) (h : Running s) (hp : SequenceDecoding s true) : (emitSequence v s).Inv := by
  have g : GoesOn s (emitSequence v s) :=
    (goesOn_tgtWrite (s.n * s.args.stride.toNat) s.args.stride.toNat v s).trans ⟨rfl, rfl, rfl, id⟩
  exact (h.goesOn g).inv nofun (hp.goesOn g rfl (Nat.le_refl _) hp.cur_le hp.inside)

theorem keepsInv_seqValue (v : Word) (h : Running s) (hp : SequenceDecoding s true) :
    KeepsInv (Fetched.element (.seqValue v) s).run := by
  rw [Fetched.run_element s rfl]
  refine decodeSeqValue_cases (P := fun i => KeepsInv (exec i s)) v ?_ ?_
  · intro dz
    have g : GoesOn s { s with seqLast0 := s.seqLast0 + zigzag32 (dz.zeroExtend 32) } := ⟨rfl, rfl, rfl, id⟩
    exact keepsInv_next (emitSequence_inv _ (h.goesOn g) (hp.goesOn g rfl (Nat.le_refl _) hp.cur_le hp.inside))
  · intro dz
    have g : GoesOn s { s with seqLast1 := s.seqLast1 + zigzag32 (dz.zeroExtend 32) } := ⟨rfl, rfl, rfl, id⟩
    exact keepsInv_next (emitSequence_inv _ (h.goesOn g) (hp.goesOn g rfl (Nat.le_refl _) hp.cur_le hp.inside))

/-! ### Varints -/

/-- A varint that goes on, or ends and goes to its use, keeps the place of what it is read for. -/
theorem Running.inVarint {t : State} (h : Running s)
    (hp : if s.vuse = .sequence then SequenceDecoding s true else IndexDecoding s true) (g : GoesOn s t)
    (ht : t.phase = .varintByte ∨ t.phase = if s.vuse = .sequence then .seqValue else .indexDelta)
    (hu : t.vuse = s.vuse) (hlim : t.lim = s.lim) (hlo : s.cur ≤ t.cur) (hhi : t.cur ≤ s.lim) (htri : t.t = s.t)
    (hccur : t.ccur = s.ccur) (hn : t.n = s.n) : t.Inv := by
  by_cases hs : s.vuse = .sequence
  · rw [if_pos hs] at hp ht
    refine h.insideOutput hp g ?_ hlim hlo hhi hn
    obtain ht | ht := ht
    · simp only [State.insideOutput, ht, hu, hs, decide_true]
    · simp only [State.insideOutput, ht]
  · rw [if_neg hs] at hp ht
    refine h.insideTriangle hp g ?_ hlim hlo hhi htri hccur
    obtain ht | ht := ht
    · simp only [State.insideTriangle, ht, hu, ne_eq, hs, not_false_eq_true, decide_true]
    · simp only [State.insideTriangle, ht, hu, ne_eq, hs, not_false_eq_true, decide_true]

theorem keepsInv_varint (h : Running s) (hv : s.phase = .varintByte)
    (hp : if s.vuse = .sequence then SequenceDecoding s true else IndexDecoding s true) :
    KeepsInv (fetchByte .varintByte s).run := by
  obtain hc | hc := Nat.lt_or_ge s.cur s.lim
  · have ended : ∀ p, (endVarint (joinVarint p { s with cur := s.cur + 1 })).Inv := fun p =>
      h.inVarint hp ⟨rfl, rfl, rfl, id⟩ (Or.inr rfl) rfl rfl (Nat.le_succ _) hc rfl rfl rfl
    rw [fetchByte_ok _ hc, Fetched.run_element _ rfl]
    refine decodeVarintByte_cases (P := fun i => KeepsInv (exec i _)) _ (fun p => ?_) (fun p => ?_)
    · refine keepsInv_next ?_
      split
      · exact h.inVarint hp ⟨rfl, rfl, rfl, id⟩ (Or.inl hv) rfl rfl (Nat.le_succ _) hc rfl rfl rfl
      · exact ended p
    · exact keepsInv_next (ended p)
  · rw [fetchByte_truncated _ hc]
    exact keepsInv_next h.raiseTruncated

/-! ### The block's step -/

/-- Every step of the block answers a next state and keeps the invariant. -/
theorem fetchBlock_keepsInv (h : s.Inv) : KeepsInv (fetchBlock s).run := by
  by_cases hidle : s.phase = .idle
  · rw [fetchBlock_idle hidle]
    exact keepsInv_next h
  have hr := h.running hidle
  have hk := h.phase
  unfold PhaseKept at hk
  cases hp : s.phase <;> rw [hp] at hk
  case idle => exact absurd hp hidle
  case tag =>
    by_cases hl : s.args.srcLen = 0#32
    · rw [fetchBlock_tag_truncated hp hl]
      exact keepsInv_next (hr.raise _ _)
    · rw [fetchBlock_tag hp hl]
      exact keepsInv_tag _ hr (Nat.one_le_iff_ne_zero.mpr fun h0 => hl (BitVec.eq_of_toNat_eq h0))
  case checks =>
    rw [fetchBlock_checks hp]
    exact keepsInv_next (runChecks_inv hr hk)
  case block =>
    rw [fetchBlock_block hp]
    exact keepsInv_next (blockHead_inv hr hk)
  case lane =>
    rw [fetchBlock_lane hp]
    exact keepsInv_next (laneHead_inv hr hk.1 hk.2)
  case group =>
    obtain hg | hg := Nat.lt_or_ge s.g (groupCount s.blockRows)
    · rw [fetchBlock_group hp hg]
      exact keepsInv_mode _ hr hk
    · rw [fetchBlock_group_end hp hg]
      exact keepsInv_next (groupEnd_inv hr hk)
  case code2 =>
    obtain hj | hj := Nat.lt_or_ge s.j 16
    · rw [fetchBlock_code2 hp hj]
      exact keepsInv_code2 _ hr hk (by rw [hp]; rfl)
    · rw [fetchBlock_deltas_end (Or.inl hp) hj]
      exact keepsInv_next (deltasEnd_inv hr hk)
  case code4 =>
    obtain hj | hj := Nat.lt_or_ge s.j 16
    · rw [fetchBlock_code4 hp hj]
      exact keepsInv_code4 _ hr hk (by rw [hp]; rfl)
    · rw [fetchBlock_deltas_end (Or.inr (Or.inl hp)) hj]
      exact keepsInv_next (deltasEnd_inv hr hk)
  case literal =>
    obtain hj | hj := Nat.lt_or_ge s.j 16
    · rw [fetchBlock_literal hp hj]
      exact keepsInv_literal hr hk (by rw [hp]; rfl)
    · rw [fetchBlock_deltas_end (Or.inr (Or.inr hp)) hj]
      exact keepsInv_next (deltasEnd_inv hr hk)
  case apply =>
    rw [fetchBlock_apply hp]
    exact keepsInv_next (applyGroup_inv hr hk)
  case filter =>
    rw [fetchBlock_filter hp]
    exact keepsInv_filter _ hr
  case triangle =>
    obtain ht | ht := Nat.lt_or_ge s.t s.args.triCount
    · rw [fetchBlock_triangle hp ht]
      exact keepsInv_nextCode _ hr hk ht
    · rw [fetchBlock_triangle_end hp ht]
      exact keepsInv_next ((hr.goesOn (t := { s with phase := .done }) ⟨rfl, rfl, rfl, id⟩).inv nofun trivial)
  case auxByte =>
    rw [fetchBlock_auxByte hp]
    exact keepsInv_auxByte _ hr hk
  case takeA =>
    rw [fetchBlock_takeA hp]
    exact keepsInv_next (takeA_inv hr hk)
  case caux =>
    rw [fetchBlock_caux hp]
    exact keepsInv_caux _ hr hk (by rw [State.insideTriangle, hp])
  case aux =>
    rw [fetchBlock_aux hp]
    exact keepsInv_aux _ hr hk (by rw [State.insideTriangle, hp])
  case newDone =>
    rw [fetchBlock_newDone hp]
    exact keepsInv_next (newDone_inv hr hk)
  case output =>
    rw [fetchBlock_output hp]
    exact keepsInv_next (outputHead_inv hr hk)
  case varintByte =>
    rw [fetchBlock_varintByte hp]
    exact keepsInv_varint hr hp hk
  case indexDelta =>
    rw [fetchBlock_indexDelta hp]
    exact keepsInv_next (indexDelta_inv hr hk.1 hk.2)
  case seqValue =>
    rw [fetchBlock_seqValue hp]
    exact keepsInv_seqValue _ hr hk
  case done =>
    rw [fetchBlock_done hp]
    exact keepsInv_next hr.complete

/-! ### Accesses from outside -/

/-- What comes from outside may change M, the host's data, the lists of launches, and what is still to come; the
invariant speaks of M alone among them. -/
theorem State.Inv.outside (h : s.Inv) {mem : Memory} (hm : mem.wf = true) (events : List HostEvent)
    (hostData : Word) (quiet : List Region) (others othersQuiet : List OtherLaunch) :
    { s with mem, events, hostData, quiet, others, othersQuiet }.Inv := by
  obtain ⟨-, ⟨hst, hb, hc, he⟩, hl, hk⟩ := h
  refine ⟨hm, ⟨hst, hb, hc, he⟩, fun hp => ?_, hk⟩
  obtain ⟨h1, h2, h3, h4, h5⟩ := hl hp
  exact ⟨h1, h2, h3, h4, h5⟩

theorem agentWrite_inv {t : State} (a : Nat) (bs : List Byte) (h : s.Inv) (ht : agentWrite a bs s = .next t) :
    t.Inv := by
  unfold agentWrite at ht
  split_ifs at ht
  cases ht
  exact h.outside (memory_writeBytes_wf bs s.mem a h.mem) _ _ _ _ _

theorem agentRead_inv {t : State} (a : Nat) (h : s.Inv) (ht : agentRead a s = .next t) : t.Inv := by
  unfold agentRead at ht
  split_ifs at ht
  cases ht
  exact h.outside h.mem _ _ _ _ _

theorem otherStart_inv {t : State} (block : Nat) (r : Region) (h : s.Inv) (ht : otherStart block r s = .next t) :
    t.Inv := by
  unfold otherStart at ht
  split_ifs at ht
  · cases ht
    exact h
  · split at ht
    · cases ht
    · cases ht
      exact h.outside h.mem _ _ _ _ _

theorem otherWrite_inv {t : State} (block off : Nat) (bs : List Byte) (h : s.Inv)
    (ht : otherWrite block off bs s = .next t) : t.Inv := by
  unfold otherWrite at ht
  split at ht
  · cases ht
  · split_ifs at ht
    cases ht
    exact h.outside (memory_writeBytes_wf bs s.mem _ h.mem) _ _ _ _ _

theorem otherRead_inv (block : Nat) (h : s.Inv) : (otherRead block s).Inv := by
  rw [otherRead_frame]
  exact h.outside h.mem _ _ _ _ _

theorem resetBlock_inv (h : s.Inv) : (resetBlock s).Inv := by
  have hm : (resetBlock s).mem.wf = true := by
    rw [resetBlock]
    split
    · exact memory_drawBytes_wf _ _ _ _ _ h.mem
    · exact h.mem
  have hb : (0#32).getLsbD 0 = false := by decide
  have hc : (0#32).extractLsb' 4 28 = 0#28 := by decide
  exact Resting.inv ⟨hm, rfl, hb, Or.inl rfl, hc, fun he => absurd rfl he⟩

/-- Writes of the registers of an idle block keep STATUS and ERR_OFFSET. -/
theorem Resting.setRegs {r : Regs} (h : Resting s) (hs : r.status = s.regs.status)
    (he : r.errOffset = s.regs.errOffset) (hc : r.ctrl.extractLsb' 4 28 = 0#28) : Resting { s with regs := r } := by
  obtain ⟨hm, hp, hb, hst, -, herr⟩ := h
  refine ⟨hm, hp, ?_, ?_, hc, ?_⟩
  · rw [State.busy, hs]; exact hb
  · rw [hs]; exact hst
  · rw [he, hs]; exact herr

theorem writeAt_keeps (r : Regs) (off : Nat) (v : Word) : (r.writeAt off v).status = r.status ∧
    (r.writeAt off v).errOffset = r.errOffset ∧ (r.writeAt off v).ctrl = r.ctrl := by
  unfold Regs.writeAt
  split <;> exact ⟨rfl, rfl, rfl⟩

theorem regWrite_inv (off : Nat) (v : Word) (h : s.Inv) : (regWrite off v s).Inv := by
  cases hb : s.busy with
  | true => rw [regWrite_busy off v hb]; exact h
  | false =>
    obtain ⟨hst, herr, hctrl⟩ := writeAt_keeps s.regs off v
    have hrest := h.resting (h.phase_idle_iff.mpr hb)
    rw [regWrite_idle off v hb]
    exact (hrest.setRegs hst herr (by rw [hctrl]; exact hrest.ctrl)).inv

theorem ctrlWord_reserved (filter op : BitVec 2) : (ctrlWord filter op).extractLsb' 4 28 = 0#28 := by
  revert filter op
  decide

/-- A command begins on an idle block with an allowed launch (R32, R45). -/
theorem launch_inv (cmd : Command) (filter : BitVec 2) (h : s.Inv) (ha : LaunchAllowed s) :
    (launch cmd filter (setCtrl filter cmd.op s)).Inv := by
  have hrun : Running (launch cmd filter (setCtrl filter cmd.op s)) :=
    { mem := h.mem
      status := Or.inr (Or.inl rfl)
      busy := statusRunning_fields.1
      ctrl := ctrlWord_reserved filter cmd.op
      errOffset := fun he => absurd rfl he
      launch :=
        { latched := rfl
          ctrl := rfl
          source := ha.region.source
          target := ha.region.target
          disjoint := fun a h1 h2 h3 => ha.region.disjoint a ⟨⟨h1, h2⟩, h3⟩ } }
  exact hrun.inv nofun trivial

theorem startCommand_inv {t : State} (cmd : Command) (filter : BitVec 2) (h : s.Inv)
    (ht : startCommand cmd filter cmd.op s = .next t) : t.Inv := by
  obtain ⟨-, he⟩ | ⟨-, r, -, he⟩ | ⟨-, ha, he⟩ := startCommand_spec cmd filter cmd.op s
  · rw [he] at ht
    cases ht
    exact h
  · rw [he] at ht
    cases ht
  · rw [he] at ht
    cases ht
    exact launch_inv cmd filter h ((launchProblem_iff s).mp ha)

theorem ctrlWrite_inv {t : State} (v : Word) (h : s.Inv) (ht : (Fetched.element (.cmd v) s).run = .next t) :
    t.Inv := by
  by_cases hn : v.getLsbD 31 = false ∨ v.extractLsb' 0 2 = 0#2
  · rw [run_ctrlWrite_noCommand s hn] at ht
    cases ht
    split
    next => exact h
    next hb =>
      refine ((h.resting (h.phase_idle_iff.mpr (Bool.eq_false_iff.mpr hb))).setRegs
        (r := { s.regs with ctrl := v &&& 0xF#32 }) rfl rfl ?_).inv
      change (v &&& 0xF#32).extractLsb' 4 28 = 0#28
      rw [← ctrlWord_extract]
      exact ctrlWord_reserved _ _
  · rw [not_or, Bool.not_eq_false] at hn
    obtain ⟨cmd, -, hd⟩ := decode_cmd_start hn.1 hn.2
    rw [Fetched.run_element s hd, exec_start] at ht
    exact startCommand_inv cmd _ h ht

/-- Every access from outside that answers a next state keeps the invariant. -/
theorem fetchHost_inv {t : State} (a : HostAction) (h : s.Inv) (ht : (fetchHost a s).run = .next t) : t.Inv := by
  cases a with
  | regWrite off size v =>
    dsimp only [fetchHost] at ht
    split_ifs at ht
    · cases ht; exact h
    · cases ht
    · exact ctrlWrite_inv v h ht
    · cases ht; exact regWrite_inv off v h
  | regRead off size =>
    dsimp only [fetchHost] at ht
    split_ifs at ht
    · cases ht; exact h
    · cases ht
    · cases ht; exact h.outside h.mem _ _ _ _ _
  | memWrite a bs => exact agentWrite_inv a bs h ht
  | memRead a => exact agentRead_inv a h ht
  | reset => cases ht; exact resetBlock_inv h
  | otherStart block r => exact otherStart_inv block r h ht
  | otherWrite block off bs => exact otherWrite_inv block off bs h ht
  | otherEnd block => cases ht; exact h.outside h.mem _ _ _ _ _
  | otherRead block => cases ht; exact otherRead_inv block h

end

theorem State.Inv.events {s : State} (h : s.Inv) (es : List HostEvent) : { s with events := es }.Inv :=
  h.outside h.mem es _ _ _ _

/-- The block's own step, as an answer that was given. -/
theorem fetchBlock_inv {s t : State} (h : s.Inv) (ht : (fetchBlock s).run = .next t) : t.Inv := by
  obtain ⟨u, hu, hinv⟩ := fetchBlock_keepsInv h
  rw [hu] at ht
  cases ht
  exact hinv

/-- Settles O56: what is due next is an access from outside or the block's own step. -/
theorem everyStepKeepsTheInvariant : Obligations.EveryStepKeepsTheInvariant := by
  intro s t h ht
  cases he : s.events with
  | nil =>
    rw [step_eq_run_fetchBlock s he] at ht
    exact fetchBlock_inv h ht
  | cons ev es =>
    obtain ⟨d, a⟩ := ev
    cases d with
    | zero =>
      rw [step_eq_run_fetchHost he] at ht
      exact fetchHost_inv a (h.events es) ht
    | succ d =>
      rw [step_eq_run_fetchBlock_of_delay he] at ht
      exact fetchBlock_inv (h.events _) ht

end Sys2Proof.Machine
end

section
/-! Proof of O60: a command reads no datapath value that an earlier command left (spec/10_state.md R46,
spec/20_memory.md R84, spec/70_reset_and_hazards.md R345). `Alike` relates two machines that agree on the command
(`SameCommand`) and on those datapath items that the phase they stand in has still to read (`SameLive`): at the tag there
are none, every step keeps the relation, and so the two runs agree. -/

namespace Sys2Proof.Machine

/-! ### What two machines share -/

/-- Two machines run the same command, with the same registers and memory, at the same phase, and undisturbed. -/
structure SameCommand (s s' : State) : Prop where
  params : s'.params = s.params
  regs : s'.regs = s.regs
  args : s'.args = s.args
  mem : s'.mem = s.mem
  draws : s'.draws = s.draws
  phase : s'.phase = s.phase
  events : s.events = []
  events' : s'.events = []

/-- Two register files agree below slot `m`. -/
def SameBelow {w n : Nat} (m : Nat) (v v' : Vector (BitVec w) n) : Prop := ∀ i, i < m → slot v' i = slot v i

/-- What DECODE_VERTEX reads between two blocks: the accumulators of its lanes, and its cursors. -/
structure SameVertex (s s' : State) : Prop where
  acc : SameBelow s.args.stride.toNat s.acc s'.acc
  cur : s'.cur = s.cur
  lim : s'.lim = s.lim
  blockBase : s'.blockBase = s.blockBase

/-- What DECODE_VERTEX reads within a lane: the lane, the group, and the lane's header bytes. -/
structure SameGroup (s s' : State) : Prop extends SameVertex s s' where
  k : s'.k = s.k
  lane : s.k < s.args.stride.toNat
  g : s'.g = s.g
  hdr : SameBelow (headerByteCount s.blockRows) s.hdr s'.hdr

/-- What a group's codes have filled so far, and its first `m` packed bytes. -/
structure SameDeltas (m : Nat) (s s' : State) : Prop extends SameGroup s s' where
  j : s'.j = s.j
  dbuf : SameBelow s.j s.dbuf s'.dbuf
  packed : SameBelow m s.packed s'.packed

/-- What DECODE_INDEX reads between two triangles: the caches, the counters, and the cursors. -/
structure SameIndex (s s' : State) : Prop where
  ec : s'.ec = s.ec
  vc : s'.vc = s.vc
  next : s'.next = s.next
  last : s'.last = s.last
  ccur : s'.ccur = s.ccur
  cur : s'.cur = s.cur
  lim : s'.lim = s.lim
  t : s'.t = s.t

/-- What the aux byte of a new-path triangle leaves to read. -/
structure SameAux (s s' : State) : Prop extends SameIndex s s' where
  entry : s'.entry = s.entry
  aFromVarint : s'.aFromVarint = s.aFromVarint

/-- What the nibbles of a new-path triangle read: `a`, the nibbles, and `b` once it is taken. -/
structure SameNibbles (s s' : State) : Prop extends SameIndex s s' where
  triA : s'.triA = s.triA
  entry : s'.entry = s.entry
  corner : s'.corner = s.corner
  second : s.corner = .c → s'.triB = s.triB ∧ s'.pushB = s.pushB

/-- What the end of a new-path triangle reads. -/
structure SameCorners (s s' : State) : Prop extends SameIndex s s' where
  triA : s'.triA = s.triA
  triB : s'.triB = s.triB
  triC : s'.triC = s.triC
  pushB : s'.pushB = s.pushB
  pushC : s'.pushC = s.pushC

/-- What DECODE_SEQUENCE reads. -/
structure SameSequence (s s' : State) : Prop where
  seqLast0 : s'.seqLast0 = s.seqLast0
  seqLast1 : s'.seqLast1 = s.seqLast1
  cur : s'.cur = s.cur
  lim : s'.lim = s.lim
  n : s'.n = s.n

/-- What the use of a varint reads besides its value. -/
def SameUse (s s' : State) : Prop :=
  match s.vuse with
  | .sequence => SameSequence s s'
  | .edgeC => SameIndex s s' ∧ s'.triA = s.triA ∧ s'.triB = s.triB
  | .newA => SameIndex s s' ∧ s'.entry = s.entry
  | .newCorner => SameNibbles s s'

/-- What is still to be read of the datapath in each phase. -/
def SameLive (s s' : State) : Prop :=
  match s.phase with
  | .idle | .tag | .checks | .filter | .done => True
  | .block => SameVertex s s'
  | .lane => SameVertex s s' ∧ s'.k = s.k
  | .group => SameGroup s s'
  | .code2 => SameDeltas 4 s s'
  | .code4 => SameDeltas 8 s s'
  | .literal => SameDeltas 0 s s'
  | .apply => SameGroup s s' ∧ SameBelow 16 s.dbuf s'.dbuf
  | .triangle => SameIndex s s'
  | .auxByte | .takeA => SameAux s s'
  | .caux | .aux => SameNibbles s s'
  | .newDone => SameCorners s s'
  | .output => SameSequence s s'
  | .varintByte => SameUse s s' ∧ s'.vuse = s.vuse ∧ s'.vpos = s.vpos ∧ s'.vres = s.vres
  | .indexDelta => SameUse s s' ∧ s'.vuse = s.vuse ∧ s'.vres = s.vres
  | .seqValue => SameSequence s s' ∧ s'.vres = s.vres

/-- The two machines run the same command and agree on all that it has still to read. -/
def Alike (s s' : State) : Prop := SameCommand s s' ∧ SameLive s s'

/-- Both machines answer a next state, and these are alike. -/
def AlikeResults (r r' : Result) : Prop := ∃ t t', r = .next t ∧ r' = .next t' ∧ Alike t t'

theorem alikeResults_next {t t' : State} (h : SameCommand t t') (hl : SameLive t t') :
    AlikeResults (.next t) (.next t') := ⟨t, t', rfl, rfl, h, hl⟩

/-! ### Register files -/

section
variable {w n : Nat} {v v' : Vector (BitVec w) n}

theorem slot_outside (v : Vector (BitVec w) n) {i : Nat} (h : n ≤ i) : slot v i = 0#w := by
  simp [slot, h]

theorem SameBelow.set {m : Nat} (h : SameBelow m v v') (k : Nat) (x : BitVec w) :
    SameBelow m (v.setIfInBounds k x) (v'.setIfInBounds k x) := by
  intro i hi
  obtain hn | hn := Nat.lt_or_ge i n
  · by_cases hk : k = i
    · subst hk
      rw [slot_set_same _ _ _ hn, slot_set_same _ _ _ hn]
    · rw [slot_set_other _ _ _ _ hk, slot_set_other _ _ _ _ hk, h i hi]
  · rw [slot_outside _ hn, slot_outside _ hn]

/-- Setting the first slot that may differ makes one more agree. -/
theorem SameBelow.push {m : Nat} (h : SameBelow m v v') (x : BitVec w) :
    SameBelow (m + 1) (v.setIfInBounds m x) (v'.setIfInBounds m x) := by
  intro i hi
  obtain hm | rfl := Nat.lt_succ_iff_lt_or_eq.mp hi
  · exact h.set m x i hm
  · obtain hn | hn := Nat.lt_or_ge i n
    · rw [slot_set_same _ _ _ hn, slot_set_same _ _ _ hn]
    · rw [slot_outside _ hn, slot_outside _ hn]

/-- Where slots are put from slot 0 up, both files hold them. -/
theorem sameBelow_putSlots (xs : List (BitVec w)) (v v' : Vector (BitVec w) n) :
    SameBelow xs.length (putSlots v 0 xs) (putSlots v' 0 xs) := by
  intro i hi
  obtain hn | hn := Nat.lt_or_ge i n
  · rw [slot_putSlots _ _ _ _ hn, slot_putSlots _ _ _ _ hn, if_pos (by omega), if_pos (by omega)]
  · rw [slot_outside _ hn, slot_outside _ hn]

theorem SameBelow.mono {m m' : Nat} (h : SameBelow m v v') (hm : m' ≤ m) : SameBelow m' v v' :=
  fun i hi => h i (Nat.lt_of_lt_of_le hi hm)

end

/-! ### The command's operations on two machines -/

section
variable {s s' : State}

theorem SameCommand.sourceByte (h : SameCommand s s') (off : Nat) : s'.sourceByte off = s.sourceByte off := by
  rw [State.sourceByte, State.srcAddr, h.args, h.mem, State.sourceByte, State.srcAddr]

/-- The byte at the data cursor is the same one. -/
theorem SameCommand.dataByte (h : SameCommand s s') (hc : s'.cur = s.cur) :
    s'.mem.read (s'.srcAddr s'.cur) = s.mem.read (s.srcAddr s.cur) := by
  rw [hc]
  exact h.sourceByte s.cur

theorem SameCommand.raise (h : SameCommand s s') (k : ErrorKind) (off : Nat) :
    SameCommand (raise k off s) (raise k off s') :=
  { h with phase := rfl, regs := by rw [raise_regs, raise_regs, h.regs] }

theorem SameCommand.drawTarget (h : SameCommand s s') : SameCommand (drawTarget s) (drawTarget s') :=
  { h with
    mem := by rw [drawTarget_mem, drawTarget_mem, h.mem, h.args, h.draws]
    draws := congrArg (· + 1) h.draws }

theorem SameCommand.tgtWrite (h : SameCommand s s') (off n : Nat) (v : Word) :
    SameCommand (tgtWrite off n v s) (tgtWrite off n v s') :=
  { h with mem := by rw [tgtWrite_mem, tgtWrite_mem, State.dstAddr, State.dstAddr, h.mem, h.args] }

theorem alikeResults_raise (h : SameCommand s s') (k : ErrorKind) (off : Nat) :
    AlikeResults (.next (raise k off s)) (.next (raise k off s')) :=
  alikeResults_next (h.raise k off) trivial

theorem alikeResults_raiseTruncated (h : SameCommand s s') (hc : s'.cur = s.cur) :
    AlikeResults (.next (raiseTruncated s)) (.next (raiseTruncated s')) := by
  rw [raiseTruncated, raiseTruncated, hc]
  exact alikeResults_raise h.drawTarget _ _

/-- A data byte is read on both machines, and is the same, or on neither. -/
theorem fetchByte_alike (element : Byte → Element) (h : SameCommand s s') (hc : s'.cur = s.cur)
    (hl : s'.lim = s.lim)
    (hok : ∀ b, AlikeResults (Fetched.element (element b) { s with cur := s.cur + 1 }).run
      (Fetched.element (element b) { s' with cur := s'.cur + 1 }).run) :
    AlikeResults (fetchByte element s).run (fetchByte element s').run := by
  obtain hlt | hge := Nat.lt_or_ge s.cur s.lim
  · rw [fetchByte_ok _ hlt, fetchByte_ok (s := s') _ (by omega), h.dataByte hc]
    exact hok _
  · rw [fetchByte_truncated _ hge, fetchByte_truncated (s := s') _ (by omega)]
    exact alikeResults_raiseTruncated h hc

theorem forEach_rel {R : State → State → Prop} (n : Nat) (f : Nat → State → State) (h0 : R s s')
    (h : ∀ i t t', R t t' → R (f i t) (f i t')) : R (forEach n f s) (forEach n f s') := by
  induction n with
  | zero => exact h0
  | succ n ih =>
    rw [forEach_succ, forEach_succ]
    exact h n _ _ ih

end

end Sys2Proof.Machine
end

section
/-! Proof of O60, continued: every step of the block keeps two machines alike, phase by phase. -/

namespace Sys2Proof.Machine

section
variable {s s' : State}

/-! ### Tags, checks, and the initial state -/

theorem acceptTag_alike (cmd : Command) (h : SameCommand s s') :
    AlikeResults (.next (acceptTag cmd s)) (.next (acceptTag cmd s')) := by
  rw [acceptTag, acceptTag, h.args]
  split
  · exact alikeResults_next { h with args := rfl, phase := rfl } trivial
  · exact alikeResults_raise h _ _

theorem tag_alike (b : Byte) (h : SameCommand s s') :
    AlikeResults (Fetched.element (.tag b) s).run (Fetched.element (.tag b) s').run := by
  rw [Fetched.run_element s rfl, Fetched.run_element s' rfl]
  refine decodeTag_cases (P := fun i => AlikeResults (exec i s) (exec i s')) b ?_ ?_ ?_ ?_
  · exact acceptTag_alike _ h
  · exact acceptTag_alike _ h
  · exact acceptTag_alike _ h
  · exact alikeResults_raise h _ _

theorem commandCheck_same (h : SameCommand s s') : commandCheck s' = commandCheck s := by
  simp only [commandCheck, vertexCheck, indexCheck, sequenceCheck, h.args, h.params]

/-- The reference row is loaded from M alone (R155). -/
theorem sameBelow_loadReference (h : SameCommand s s') (n k : Nat) (acc acc' : Vector Byte 512)
    (ha : SameBelow k acc acc') :
    SameBelow (k + n) (loadReference s acc k n) (loadReference s' acc' k n) := by
  induction n generalizing k acc acc' with
  | zero => exact ha
  | succ n ih =>
    rw [loadReference, loadReference, h.args, h.sourceByte, show k + (n + 1) = k + 1 + n by omega]
    exact ih (k + 1) _ _ (ha.push _)

theorem initVertex_same (h : SameCommand s s') : SameVertex (initVertex s) (initVertex s') := by
  refine ⟨?_, rfl, ?_, rfl⟩
  · have hload := sameBelow_loadReference h s.args.stride.toNat 0 s.acc s'.acc nofun
    simpa only [initVertex, h.args, Nat.zero_add] using hload
  · simp only [initVertex, h.args]

theorem initIndex_same (h : SameCommand s s') : SameIndex (initIndex s) (initIndex s') := by
  refine ⟨rfl, rfl, rfl, rfl, rfl, ?_, ?_, rfl⟩
  · simp only [initIndex, h.args]
  · simp only [initIndex, h.args]

theorem initSequence_same (h : SameCommand s s') : SameSequence (initSequence s) (initSequence s') := by
  refine ⟨rfl, rfl, rfl, ?_, rfl⟩
  simp only [initSequence, h.args]

/-- The initial state of a command (R345) is made of the command alone. -/
theorem runChecks_alike (h : SameCommand s s') :
    AlikeResults (.next (runChecks s)) (.next (runChecks s')) := by
  rw [runChecks, runChecks, commandCheck_same h]
  cases commandCheck s with
  | some e => exact alikeResults_raise h _ _
  | none =>
    change AlikeResults (.next (initCommand s)) (.next (initCommand s'))
    rw [initCommand, initCommand, h.args]
    split
    · exact alikeResults_next { h with phase := rfl } (initVertex_same h)
    · exact alikeResults_next { h with phase := rfl } (initIndex_same h)
    · exact alikeResults_next { h with phase := rfl } (initSequence_same h)

/-! ### DECODE_VERTEX -/

theorem blockRows_same (h : SameCommand s s') (hv : SameVertex s s') : s'.blockRows = s.blockRows := by
  rw [State.blockRows, State.blockRows, h.args, hv.blockBase]

theorem blockHead_alike (h : SameCommand s s') (hv : SameVertex s s') :
    AlikeResults (.next (blockHead s)) (.next (blockHead s')) := by
  have hcond : (s'.blockBase < s'.args.count.toNat) = (s.blockBase < s.args.count.toNat) := by
    rw [h.args, hv.blockBase]
  simp only [blockHead, hcond]
  split
  · exact alikeResults_next { h with phase := rfl } ⟨{ hv with }, rfl⟩
  · exact alikeResults_next { h with phase := rfl } trivial

/-- Header or packed bytes are read on both machines, and are the same, or on neither. -/
theorem readByteList_same (h : SameCommand s s') (hc : s'.cur = s.cur) (hl : s'.lim = s.lim) (n : Nat) :
    (∃ bs, bs.length = n ∧ readByteList n s = .ok bs { s with cur := s.cur + n } ∧
      readByteList n s' = .ok bs { s' with cur := s'.cur + n }) ∨
    (readByteList n s = .truncated { s with cur := max s.cur s.lim } ∧
      readByteList n s' = .truncated { s' with cur := max s'.cur s'.lim }) := by
  obtain rfl | hn := Nat.eq_zero_or_pos n
  · exact Or.inl ⟨[], rfl, rfl, rfl⟩
  obtain hr | hr := Nat.lt_or_ge s.lim (s.cur + n)
  · exact Or.inr ⟨readByteList_truncated n s hn hr, readByteList_truncated n s' hn (by omega)⟩
  · refine Or.inl ⟨_, memory_readBytes_length _ _ n, readByteList_ok n s hr, ?_⟩
    have hsrc : s.srcAddr s.cur = s'.srcAddr s'.cur := by rw [State.srcAddr, State.srcAddr, h.args, hc]
    rw [hsrc, ← h.mem]
    exact readByteList_ok n s' (by omega)

theorem alikeResults_readTruncated (h : SameCommand s s') (hc : s'.cur = s.cur) (hl : s'.lim = s.lim) :
    AlikeResults (.next (raiseTruncated { s with cur := max s.cur s.lim }))
      (.next (raiseTruncated { s' with cur := max s'.cur s'.lim })) :=
   alikeResults_raiseTruncated { h with } (by rw [hc, hl])

theorem laneHead_alike (h : SameCommand s s') (hv : SameVertex s s') (hk : s'.k = s.k) :
    AlikeResults (.next (laneHead s)) (.next (laneHead s')) := by
  have hrows := blockRows_same h hv
  have hcond : (s'.k < s'.args.stride.toNat) = (s.k < s.args.stride.toNat) := by rw [h.args, hk]
  simp only [laneHead, hcond, hrows]
  split
  next hlane =>
    obtain ⟨bs, hlen, hok, hok'⟩ | ⟨ht, ht'⟩ :=
      readByteList_same h hv.cur hv.lim (headerByteCount s.blockRows)
    · rw [hok, hok']
      exact alikeResults_next { h with phase := rfl }
        { hv with
          cur := congrArg (· + _) hv.cur
          k := hk
          lane := hlane
          g := rfl
          hdr := by
            have hput := sameBelow_putSlots bs s.hdr s'.hdr
            rwa [hlen] at hput }
    · rw [ht, ht']
      exact alikeResults_readTruncated h hv.cur hv.lim
  next =>
    exact alikeResults_next { h with phase := rfl } { hv with blockBase := congrArg (· + _) hv.blockBase }

theorem groupEnd_alike (h : SameCommand s s') (hg : SameGroup s s') :
    AlikeResults (.next { s with k := s.k + 1, phase := .lane }) (.next { s' with k := s'.k + 1, phase := .lane }) :=
  alikeResults_next { h with phase := rfl } ⟨{ hg with }, congrArg (· + 1) hg.k⟩

/-- In phase `p` a group's codes are decoded, and `m` packed bytes are still to be read. -/
def LiveDeltas (m : Nat) (p : Phase) : Prop := ∀ t t' : State, t.phase = p → SameDeltas m t t' → SameLive t t'

theorem liveDeltas_code2 : LiveDeltas 4 .code2 := by
  intro t t' hp h
  rw [SameLive, hp]
  exact h

theorem liveDeltas_code4 : LiveDeltas 8 .code4 := by
  intro t t' hp h
  rw [SameLive, hp]
  exact h

theorem liveDeltas_literal : LiveDeltas 0 .literal := by
  intro t t' hp h
  rw [SameLive, hp]
  exact h

theorem readPacked_alike (n : Nat) (codes : Phase) (h : SameCommand s s') (hg : SameGroup s s')
    (hlive : LiveDeltas n codes) :
    AlikeResults (.next (readPacked n codes s)) (.next (readPacked n codes s')) := by
  rw [readPacked, readPacked]
  obtain ⟨bs, hlen, hok, hok'⟩ | ⟨ht, ht'⟩ := readByteList_same h hg.cur hg.lim n
  · rw [hok, hok']
    refine alikeResults_next { h with phase := rfl } (hlive _ _ rfl ?_)
    exact
      { hg with
        cur := congrArg (· + n) hg.cur
        j := rfl
        dbuf := nofun
        packed := by
          have hput := sameBelow_putSlots bs s.packed s'.packed
          rwa [hlen] at hput }
  · rw [ht, ht']
    exact alikeResults_readTruncated h hg.cur hg.lim

theorem mode_alike (m : BitVec 2) (h : SameCommand s s') (hg : SameGroup s s') :
    AlikeResults (Fetched.element (.mode m) s).run (Fetched.element (.mode m) s').run := by
  rw [Fetched.run_element s rfl, Fetched.run_element s' rfl]
  refine decodeMode_cases (P := fun i => AlikeResults (exec i s) (exec i s')) m ?_ ?_ ?_ ?_
  · exact alikeResults_next { h with phase := rfl } ⟨{ hg with }, fun _ _ => rfl⟩
  · exact readPacked_alike 4 .code2 h hg liveDeltas_code2
  · exact readPacked_alike 8 .code4 h hg liveDeltas_code4
  · exact alikeResults_next { h with phase := rfl } { hg with j := rfl, dbuf := nofun, packed := nofun }

section
variable {m : Nat}

theorem putDelta_alike (x : Byte) (h : SameCommand s s') (hd : SameDeltas m s s')
    (hlive : LiveDeltas m s.phase) :
    AlikeResults (.next (putDelta x s)) (.next (putDelta x s')) := by
  refine alikeResults_next { h with } (hlive _ _ rfl ?_)
  exact
    { hd with
      j := congrArg (· + 1) hd.j
      dbuf := by
        rw [putDelta_dbuf, putDelta_dbuf, hd.j]
        exact hd.dbuf.push x }

theorem escapeDelta_alike (h : SameCommand s s') (hd : SameDeltas m s s')
    (hlive : LiveDeltas m s.phase) :
    AlikeResults (.next (escapeDelta s)) (.next (escapeDelta s')) := by
  have hc := hd.cur
  have hl := hd.lim
  obtain hlt | hge := Nat.lt_or_ge s.cur s.lim
  · rw [(escapeDelta_spec s).1 hlt, (escapeDelta_spec s').1 (by omega), h.dataByte hc]
    exact putDelta_alike _ { h with } { hd with cur := congrArg (· + 1) hc } hlive
  · rw [(escapeDelta_spec s).2 hge, (escapeDelta_spec s').2 (by omega)]
    exact alikeResults_raiseTruncated h hc

theorem code2_alike (c : BitVec 2) (h : SameCommand s s') (hd : SameDeltas m s s')
    (hlive : LiveDeltas m s.phase) :
    AlikeResults (Fetched.element (.code2 c) s).run (Fetched.element (.code2 c) s').run := by
  rw [Fetched.run_element s rfl, Fetched.run_element s' rfl]
  refine decodeCode2_cases (P := fun i => AlikeResults (exec i s) (exec i s')) c ?_ ?_
  · exact escapeDelta_alike h hd hlive
  · exact putDelta_alike _ h hd hlive

theorem code4_alike (c : Nibble) (h : SameCommand s s') (hd : SameDeltas m s s')
    (hlive : LiveDeltas m s.phase) :
    AlikeResults (Fetched.element (.code4 c) s).run (Fetched.element (.code4 c) s').run := by
  rw [Fetched.run_element s rfl, Fetched.run_element s' rfl]
  refine decodeCode4_cases (P := fun i => AlikeResults (exec i s) (exec i s')) c ?_ ?_
  · exact escapeDelta_alike h hd hlive
  · exact putDelta_alike _ h hd hlive

theorem literal_alike (h : SameCommand s s') (hd : SameDeltas m s s')
    (hlive : LiveDeltas m s.phase) :
    AlikeResults (fetchByte .literal s).run (fetchByte .literal s').run := by
  refine fetchByte_alike .literal h hd.cur hd.lim fun b => ?_
  rw [Fetched.run_element _ rfl, Fetched.run_element _ rfl]
  exact putDelta_alike b { h with } { hd with cur := congrArg (· + 1) hd.cur } hlive

/-- Sixteen deltas fill the whole buffer. -/
theorem deltasEnd_alike (h : SameCommand s s') (hd : SameDeltas m s s') (hj : 16 ≤ s.j) :
    AlikeResults (.next { s with phase := .apply }) (.next { s' with phase := .apply }) :=
  alikeResults_next { h with phase := rfl } ⟨{ hd with }, hd.dbuf.mono hj⟩

end

/-- What one delta of a group reads and writes (R166): the command, the lane's accumulator, and the buffer. -/
def SameApply (s s' : State) : Prop := SameCommand s s' ∧ SameGroup s s' ∧ SameBelow 16 s.dbuf s'.dbuf

theorem applyDelta_same (j : Nat) (h : SameApply s s') : SameApply (applyDelta j s) (applyDelta j s') := by
  obtain ⟨hc, hg, hd⟩ := h
  have hrows := blockRows_same hc hg.toSameVertex
  have hdelta : slot s'.dbuf j = slot s.dbuf j := by
    obtain hj | hj := Nat.lt_or_ge j 16
    · exact hd j hj
    · rw [slot_outside _ hj, slot_outside _ hj]
  have hacc : slot s'.acc s.k = slot s.acc s.k := hg.acc s.k hg.lane
  unfold applyDelta
  simp only [hg.g, hrows, hg.k, hdelta, hacc, hc.args, hg.blockBase]
  split
  · refine ⟨?_, ?_, hd⟩
    · refine SameCommand.tgtWrite ?_ _ _ _
      exact { hc with args := rfl }
    · exact { hg with acc := hg.acc.set _ _, blockBase := rfl, k := rfl, g := rfl }
  · exact ⟨hc, hg, hd⟩

theorem applyGroup_alike (h : SameCommand s s') (hg : SameGroup s s') (hd : SameBelow 16 s.dbuf s'.dbuf) :
    AlikeResults (.next (applyGroup s)) (.next (applyGroup s')) := by
  have hpass := forEach_rel (R := SameApply) 16 applyDelta ⟨h, hg, hd⟩ fun i _ _ ht => applyDelta_same i ht
  rw [applyGroup, applyGroup]
  generalize forEach 16 applyDelta s = u at hpass ⊢
  generalize forEach 16 applyDelta s' = u' at hpass ⊢
  obtain ⟨hc, hg', -⟩ := hpass
  exact alikeResults_next { hc with phase := rfl } { hg' with g := congrArg (· + 1) hg.g }

/-! ### The filters -/

theorem targetWord_same (h : SameCommand s s') (off n : Nat) : s'.targetWord off n = s.targetWord off n := by
  rw [State.targetWord, State.targetWord, State.dstAddr, State.dstAddr, h.args, h.mem]

theorem laneBytes_same (h : SameCommand s s') : laneBytes s' = laneBytes s := by
  rw [laneBytes, laneBytes, h.args]

theorem laneOffset_same (h : SameCommand s s') (r i : Nat) : laneOffset s' r i = laneOffset s r i := by
  rw [laneOffset, laneOffset, laneBytes_same h, h.args]

theorem laneValue_same (h : SameCommand s s') (off n : Nat) : s'.laneValue off n = s.laneValue off n := by
  rw [State.laneValue, State.laneValue, targetWord_same h]

theorem writeLane_same (r i : Nat) (v : Int) (h : SameCommand s s') :
    SameCommand (writeLane r i v s) (writeLane r i v s') := by
  rw [writeLane, writeLane, laneOffset_same h, laneBytes_same h]
  exact h.tgtWrite _ _ _

theorem octRow_same (r : Nat) (h : SameCommand s s') : SameCommand (octRow r s) (octRow r s') := by
  simp only [octRow, laneBytes_same h, laneOffset_same h, laneValue_same h]
  exact writeLane_same r 2 _ (writeLane_same r 1 _ (writeLane_same r 0 _ h))

theorem quatRow_same (r : Nat) (h : SameCommand s s') : SameCommand (quatRow r s) (quatRow r s') := by
  have hlane : ∀ i, quatLaneBits s' r i = quatLaneBits s r i := by
    intro i
    rw [quatLaneBits, quatLaneBits, targetWord_same h]
  simp only [quatRow, hlane]
  exact ((((h.tgtWrite _ _ _).tgtWrite _ _ _).tgtWrite _ _ _).tgtWrite _ _ _)

theorem expStep_same (q : Nat) (h : SameCommand s s') : SameCommand (expStep q s) (expStep q s') := by
  rw [expStep, expStep, targetWord_same h]
  exact h.tgtWrite _ _ _

theorem filterDone_alike (h : SameCommand s s') :
    AlikeResults (.next (filterDone s)) (.next (filterDone s')) :=
  alikeResults_next { h with phase := rfl } trivial

/-- A pass over rows that is made of the command alone ends alike. -/
theorem filterPass_alike {n n' : Nat} (f : Nat → State → State) (h : SameCommand s s') (hn : n' = n)
    (hf : ∀ i t t', SameCommand t t' → SameCommand (f i t) (f i t')) :
    AlikeResults (.next (filterDone (forEach n f s))) (.next (filterDone (forEach n' f s'))) := by
  subst hn
  exact filterDone_alike (forEach_rel _ f h hf)

theorem filter_alike (v : Nibble) (h : SameCommand s s') :
    AlikeResults (Fetched.element (.cmdFilter v) s).run (Fetched.element (.cmdFilter v) s').run := by
  rw [Fetched.run_element s rfl, Fetched.run_element s' rfl]
  refine decodeCmdFilter_cases (P := fun i => AlikeResults (exec i s) (exec i s')) v ?_ ?_ ?_ ?_
  · exact filterDone_alike h
  · exact filterPass_alike octRow h (by rw [h.args]) fun r _ _ ht => octRow_same r ht
  · exact filterPass_alike quatRow h (by rw [h.args]) fun r _ _ ht => quatRow_same r ht
  · exact filterPass_alike expStep h (by rw [h.args]) fun q _ _ ht => expStep_same q ht

/-! ### DECODE_INDEX -/

theorem SameCommand.tgtWriteIndex (h : SameCommand s s') (j : Nat) (v : Word) :
    SameCommand (tgtWriteIndex j v s) (tgtWriteIndex j v s') := by
  rw [Machine.tgtWriteIndex, Machine.tgtWriteIndex, h.args]
  exact h.tgtWrite _ _ _

/-- A triangle is written alike, and the next code is decoded. -/
theorem emit_alike (a b c : Word) (h : SameCommand s s') (hi : SameIndex s s') :
    AlikeResults (.next (emit a b c s)) (.next (emit a b c s')) := by
  have hmem : (emit a b c s').mem = (emit a b c s).mem := by
    simp only [emit, hi.t]
    exact (((h.tgtWriteIndex _ a).tgtWriteIndex _ b).tgtWriteIndex _ c).mem
  rw [emit_frame a b c s, emit_frame a b c s']
  exact alikeResults_next { h with mem := hmem, phase := rfl } { hi with t := congrArg (· + 1) hi.t }

theorem SameIndex.pushEdges (hi : SameIndex s s') (n : Nat) (edges : List Word) :
    SameIndex (pushEdges n edges s) (pushEdges n edges s') :=
  { hi with ec := by rw [pushEdges_ec, pushEdges_ec, hi.ec] }

theorem SameIndex.pushVertex (hi : SameIndex s s') (v : Word) : SameIndex (pushVertex v s) (pushVertex v s') :=
  { hi with vc := by rw [pushVertex_vc, pushVertex_vc, hi.vc] }

theorem SameCommand.pushEdges (h : SameCommand s s') (n : Nat) (edges : List Word) :
    SameCommand (pushEdges n edges s) (pushEdges n edges s') := { h with }

theorem SameCommand.pushVertex (h : SameCommand s s') (v : Word) :
    SameCommand (pushVertex v s) (pushVertex v s') := { h with }

theorem edgeComplete_alike (a b c : Word) (h : SameCommand s s') (hi : SameIndex s s') :
    AlikeResults (.next (edgeComplete a b c s)) (.next (edgeComplete a b c s')) := by
  rw [edgeComplete, edgeComplete]
  exact emit_alike a b c (h.pushEdges 4 _) (hi.pushEdges 4 _)

theorem newComplete_alike (a b c : Word) (h : SameCommand s s') (hi : SameIndex s s') :
    AlikeResults (.next (newComplete a b c s)) (.next (newComplete a b c s')) := by
  rw [newComplete, newComplete]
  exact emit_alike a b c (h.pushEdges 6 _) (hi.pushEdges 6 _)

theorem edgeWithPush_alike (a b c : Word) (h : SameCommand s s') (hi : SameIndex s s') :
    AlikeResults (.next (edgeWithPush a b c s)) (.next (edgeWithPush a b c s')) := by
  rw [edgeWithPush, edgeWithPush]
  exact edgeComplete_alike a b c (h.pushVertex c) (hi.pushVertex c)

theorem takeFreshA_alike (p : Phase) (hp : p = .caux ∨ p = .aux) (h : SameCommand s s') (hi : SameIndex s s')
    (he : s'.entry = s.entry) : AlikeResults (.next (takeFreshA p s)) (.next (takeFreshA p s')) := by
  have hn : SameNibbles (takeFreshA p s) (takeFreshA p s') :=
    { hi with next := congrArg (· + 1#32) hi.next, triA := hi.next, entry := he, corner := rfl, second := nofun }
  obtain rfl | rfl := hp
  · exact alikeResults_next { h with phase := rfl } hn
  · exact alikeResults_next { h with phase := rfl } hn

theorem startVarint_alike (use : VarintUse) (h : SameCommand s s')
    (hu : SameUse (startVarint use s) (startVarint use s')) :
    AlikeResults (.next (startVarint use s)) (.next (startVarint use s')) :=
  alikeResults_next { h with phase := rfl } ⟨hu, rfl, rfl, rfl⟩

theorem readAuxByte_alike (x : Bool) (h : SameCommand s s') (hi : SameIndex s s') :
    AlikeResults (.next (readAuxByte x s)) (.next (readAuxByte x s')) := by
  have hc := hi.cur
  have hl := hi.lim
  rw [readAuxByte, readAuxByte]
  obtain hlt | hge := Nat.lt_or_ge s.cur s.lim
  · rw [readByte_ok s hlt, readByte_ok s' (by omega), h.dataByte hc]
    exact alikeResults_next { h with phase := rfl }
      { hi with cur := congrArg (· + 1) hc, entry := rfl, aFromVarint := rfl }
  · rw [readByte_truncated s hge, readByte_truncated s' (by omega)]
    exact alikeResults_raiseTruncated h hc

theorem triangle_alike (b : Byte) (h : SameCommand s s') (hi : SameIndex s s') :
    AlikeResults (Fetched.element (.triangle b) s).run (Fetched.element (.triangle b) s').run := by
  rw [Fetched.run_element s rfl, Fetched.run_element s' rfl]
  refine decodeTriangle_cases (P := fun i => AlikeResults (exec i s) (exec i s')) b ?_ ?_ ?_ ?_ ?_ ?_ ?_ ?_
  · exact fun b1 => takeFreshA_alike .caux (Or.inl rfl) { h with } { hi with } (by rw [h.sourceByte, h.args])
  · exact readAuxByte_alike false h hi
  · exact readAuxByte_alike true h hi
  · intro b0
    simp only [exec, execTriEdgeNext, hi.ec, hi.next]
    exact edgeWithPush_alike _ _ _ { h with } { hi with ec := rfl, next := rfl }
  · intro b0 b1
    simp only [exec, execTriEdgeCache, hi.ec, hi.vc]
    exact edgeComplete_alike _ _ _ h hi
  · intro b0
    simp only [exec, execTriEdgeDec, hi.ec, hi.last]
    exact edgeWithPush_alike _ _ _ { h with } { hi with ec := rfl, last := rfl }
  · intro b0
    simp only [exec, execTriEdgeInc, hi.ec, hi.last]
    exact edgeWithPush_alike _ _ _ { h with } { hi with ec := rfl, last := rfl }
  · intro b0
    have hfirst : edgeFirst s'.ec b0 = edgeFirst s.ec b0 := by rw [hi.ec]
    have hsecond : edgeSecond s'.ec b0 = edgeSecond s.ec b0 := by rw [hi.ec]
    exact startVarint_alike .edgeC { h with } ⟨{ hi with }, hfirst, hsecond⟩

theorem auxByte_alike (b : Byte) (h : SameCommand s s') (ha : SameAux s s') :
    AlikeResults (Fetched.element (.auxByte b) s).run (Fetched.element (.auxByte b) s').run := by
  by_cases hb : b = 0#8
  · have hd : decode (.auxByte b) = .ok .auxRestart := if_pos hb
    rw [Fetched.run_element s hd, Fetched.run_element s' hd]
    exact alikeResults_next { h with phase := rfl } { ha with next := rfl }
  · have hd : decode (.auxByte b) = .error .auxByteWithoutRow := if_neg hb
    rw [Fetched.run_element_error s hd, Fetched.run_element_error s' hd]
    exact alikeResults_next { h with phase := rfl } { ha with }

theorem takeA_alike (h : SameCommand s s') (ha : SameAux s s') :
    AlikeResults (.next (takeA s)) (.next (takeA s')) := by
  rw [takeA, takeA, ha.aFromVarint]
  split
  · exact startVarint_alike .newA h ⟨{ ha with }, ha.entry⟩
  · exact takeFreshA_alike .aux (Or.inr rfl) h ha.toSameIndex ha.entry

theorem setCorner_alike (v : Word) (x : Bool) (hp : s.phase = .caux ∨ s.phase = .aux) (h : SameCommand s s')
    (hn : SameNibbles s s') : AlikeResults (.next (setCorner v x s)) (.next (setCorner v x s')) := by
  have hlive : ∀ t t' : State, t.phase = s.phase → SameNibbles t t' → SameLive t t' := by
    intro t t' ht hs
    obtain hp | hp := hp
    · rw [SameLive, ht, hp]; exact hs
    · rw [SameLive, ht, hp]; exact hs
  unfold setCorner
  rw [hn.corner]
  cases hc : s.corner with
  | b =>
    refine alikeResults_next { h with } (hlive _ _ rfl ?_)
    exact { hn with corner := rfl, second := fun _ => ⟨rfl, rfl⟩ }
  | c =>
    obtain ⟨hb, hpush⟩ := hn.second hc
    exact alikeResults_next { h with phase := rfl } { hn with triB := hb, triC := rfl, pushB := hpush, pushC := rfl }

theorem freshCorner_alike (hp : s.phase = .caux ∨ s.phase = .aux) (h : SameCommand s s') (hn : SameNibbles s s') :
    AlikeResults (.next (freshCorner s)) (.next (freshCorner s')) := by
  rw [freshCorner, freshCorner, hn.next]
  refine setCorner_alike _ _ hp { h with } ?_
  exact { hn with next := rfl }

theorem cachedCorner_alike (n : Nibble) (hp : s.phase = .caux ∨ s.phase = .aux) (h : SameCommand s s')
    (hn : SameNibbles s s') : AlikeResults (.next (cachedCorner n s)) (.next (cachedCorner n s')) := by
  rw [cachedCorner, cachedCorner, hn.vc]
  exact setCorner_alike _ _ hp h hn

theorem caux_alike (n : Nibble) (hp : s.phase = .caux ∨ s.phase = .aux) (h : SameCommand s s')
    (hn : SameNibbles s s') :
    AlikeResults (Fetched.element (.caux n) s).run (Fetched.element (.caux n) s').run := by
  rw [Fetched.run_element s rfl, Fetched.run_element s' rfl]
  refine decodeCaux_cases (P := fun i => AlikeResults (exec i s) (exec i s')) n ?_ ?_
  · exact freshCorner_alike hp h hn
  · exact cachedCorner_alike n hp h hn

theorem aux_alike (n : Nibble) (hp : s.phase = .caux ∨ s.phase = .aux) (h : SameCommand s s')
    (hn : SameNibbles s s') :
    AlikeResults (Fetched.element (.aux n) s).run (Fetched.element (.aux n) s').run := by
  rw [Fetched.run_element s rfl, Fetched.run_element s' rfl]
  refine decodeAux_cases (P := fun i => AlikeResults (exec i s) (exec i s')) n ?_ ?_ ?_
  · exact freshCorner_alike hp h hn
  · exact startVarint_alike .newCorner h { hn with }
  · exact cachedCorner_alike n hp h hn

theorem newDone_alike (h : SameCommand s s') (hc : SameCorners s s') :
    AlikeResults (.next (newDone s)) (.next (newDone s')) := by
  have pushIf : ∀ (x : Bool) (v : Word) (u u' : State), SameCommand u u' ∧ SameIndex u u' →
      SameCommand (if x then pushVertex v u else u) (if x then pushVertex v u' else u') ∧
        SameIndex (if x then pushVertex v u else u) (if x then pushVertex v u' else u') := by
    rintro (_ | _) v u u' ⟨hu, hi⟩
    · exact ⟨hu, hi⟩
    · exact ⟨hu.pushVertex v, hi.pushVertex v⟩
  simp only [newDone, hc.triA, hc.triB, hc.triC, hc.pushB, hc.pushC]
  obtain ⟨h3, hi3⟩ := pushIf s.pushC s.triC _ _ (pushIf s.pushB s.triB _ _
    ⟨h.pushVertex s.triA, hc.toSameIndex.pushVertex s.triA⟩)
  exact newComplete_alike _ _ _ h3 hi3

/-! ### DECODE_SEQUENCE -/

theorem outputHead_alike (h : SameCommand s s') (hq : SameSequence s s') :
    AlikeResults (.next (outputHead s)) (.next (outputHead s')) := by
  have hcond : (s'.n < s'.args.count.toNat) = (s.n < s.args.count.toNat) := by rw [h.args, hq.n]
  simp only [outputHead, hcond]
  split
  · exact startVarint_alike .sequence h { hq with }
  · exact alikeResults_next { h with phase := rfl } trivial

theorem emitSequence_alike (v : Word) (h : SameCommand s s') (hq : SameSequence s s') :
    AlikeResults (.next (emitSequence v s)) (.next (emitSequence v s')) := by
  have hw := h.tgtWriteIndex s.n v
  rw [emitSequence, emitSequence, hq.n]
  exact alikeResults_next { hw with phase := rfl } { hq with n := rfl }

theorem seqValue_alike (v : Word) (h : SameCommand s s') (hq : SameSequence s s') :
    AlikeResults (Fetched.element (.seqValue v) s).run (Fetched.element (.seqValue v) s').run := by
  rw [Fetched.run_element s rfl, Fetched.run_element s' rfl]
  refine decodeSeqValue_cases (P := fun i => AlikeResults (exec i s) (exec i s')) v (fun dz => ?_) (fun dz => ?_)
  · simp only [exec, execSeqBase0, hq.seqLast0]
    exact emitSequence_alike _ { h with } { hq with seqLast0 := rfl }
  · simp only [exec, execSeqBase1, hq.seqLast1]
    exact emitSequence_alike _ { h with } { hq with seqLast1 := rfl }

/-! ### Varints -/

/-- What a varint is for is kept while its bytes are read. -/
theorem SameUse.readOn (hu : SameUse s s') (d i i' : Nat) (r r' : Word) (p p' : Phase) :
    SameUse { s with cur := s.cur + d, vpos := i, vres := r, phase := p }
      { s' with cur := s'.cur + d, vpos := i', vres := r', phase := p' } := by
  unfold SameUse at hu ⊢
  cases hv : s.vuse <;> rw [hv] at hu
  case sequence => exact { hu with cur := congrArg (· + d) hu.cur }
  case edgeC => exact ⟨{ hu.1 with cur := congrArg (· + d) hu.1.cur }, hu.2⟩
  case newA => exact ⟨{ hu.1 with cur := congrArg (· + d) hu.1.cur }, hu.2⟩
  case newCorner => exact { hu with cur := congrArg (· + d) hu.cur }

theorem SameUse.cursors (hu : SameUse s s') : s'.cur = s.cur ∧ s'.lim = s.lim := by
  unfold SameUse at hu
  split at hu
  · exact ⟨hu.cur, hu.lim⟩
  · exact ⟨hu.1.cur, hu.1.lim⟩
  · exact ⟨hu.1.cur, hu.1.lim⟩
  · exact ⟨hu.cur, hu.lim⟩

theorem SameUse.sequence (hu : SameUse s s') (hs : s.vuse = .sequence) : SameSequence s s' := by
  rw [SameUse, hs] at hu
  exact hu

/-- A whole varint goes to the sequence decoder or to ReadIndexDelta on both machines (R140, R273). -/
theorem endVarint_alike (h : SameCommand s s') (hu : SameUse s s') (huse : s'.vuse = s.vuse)
    (hres : s'.vres = s.vres) : AlikeResults (.next (endVarint s)) (.next (endVarint s')) := by
  have hu' : SameUse (endVarint s) (endVarint s') := hu.readOn 0 _ _ _ _ _ _
  refine alikeResults_next { h with phase := by rw [endVarint_phase, endVarint_phase, huse] } ?_
  rw [SameLive, endVarint_phase]
  by_cases hs : s.vuse = .sequence
  · rw [if_pos hs]
    exact ⟨hu'.sequence hs, hres⟩
  · rw [if_neg hs]
    exact ⟨hu', huse, hres⟩

theorem varint_alike (h : SameCommand s s') (hp : s.phase = .varintByte) (hu : SameUse s s')
    (huse : s'.vuse = s.vuse) (hpos : s'.vpos = s.vpos) (hres : s'.vres = s.vres) :
    AlikeResults (fetchByte .varintByte s).run (fetchByte .varintByte s').run := by
  obtain ⟨hc, hl⟩ := hu.cursors
  refine fetchByte_alike .varintByte h hc hl fun b => ?_
  have hjoin : ∀ p, varintJoin s'.vres s'.vpos p = varintJoin s.vres s.vpos p := fun p => by rw [hres, hpos]
  have ended : ∀ p, AlikeResults (.next (endVarint (joinVarint p { s with cur := s.cur + 1 })))
      (.next (endVarint (joinVarint p { s' with cur := s'.cur + 1 }))) :=
    fun p => endVarint_alike { h with } (hu.readOn 1 _ _ _ _ _ _) huse (hjoin p)
  rw [Fetched.run_element _ rfl, Fetched.run_element _ rfl]
  refine decodeVarintByte_cases (P := fun i => AlikeResults (exec i _) (exec i _)) b (fun p => ?_) ended
  have hcond : (s'.vpos < 4) = (s.vpos < 4) := by rw [hpos]
  simp only [exec, execVarintCont, hcond]
  split
  · refine alikeResults_next { h with } ?_
    rw [SameLive, show (joinVarint p { s with cur := s.cur + 1 }).phase = .varintByte from hp]
    exact ⟨hu.readOn 1 _ _ _ _ _ _, huse, congrArg (· + 1) hpos, hjoin p⟩
  · exact ended p

theorem indexDelta_alike (h : SameCommand s s') (hu : SameUse s s') (huse : s'.vuse = s.vuse)
    (hres : s'.vres = s.vres) : AlikeResults (.next (indexDelta s)) (.next (indexDelta s')) := by
  have hdelta : SameIndex s s' → s'.last + zigzag32 s'.vres = s.last + zigzag32 s.vres := by
    intro hi
    rw [hi.last, hres]
  unfold SameUse at hu
  unfold indexDelta
  rw [huse]
  cases hv : s.vuse <;> rw [hv] at hu
  case sequence =>
    exact alikeResults_next { h with phase := rfl } ⟨{ hu with }, hres⟩
  case edgeC =>
    obtain ⟨hi, ha, hb⟩ := hu
    simp only [ha, hb, hdelta hi]
    exact edgeWithPush_alike _ _ _ { h with } { hi with last := rfl }
  case newA =>
    obtain ⟨hi, he⟩ := hu
    have hd := hdelta hi
    exact alikeResults_next { h with phase := rfl }
      { hi with last := hd, triA := hd, entry := he, corner := rfl, second := nofun }
  case newCorner =>
    have hd := hdelta hu.toSameIndex
    simp only [hd]
    refine setCorner_alike _ _ (Or.inr rfl) ?_ ?_
    · exact { h with phase := rfl }
    · exact { hu with last := rfl }

/-! ### The block's step, and whole runs -/

/-- Every step of the block keeps two machines alike. -/
theorem fetchBlock_alike (h : SameCommand s s') (hl : SameLive s s') :
    AlikeResults (fetchBlock s).run (fetchBlock s').run := by
  have hl' := hl
  unfold SameLive at hl
  cases hp : s.phase <;> rw [hp] at hl <;> have hp' := h.phase.trans hp
  case idle =>
    rw [fetchBlock_idle hp, fetchBlock_idle hp']
    exact alikeResults_next h hl'
  case tag =>
    by_cases hz : s.args.srcLen = 0#32
    · rw [fetchBlock_tag_truncated hp hz, fetchBlock_tag_truncated hp' (by rw [h.args, hz])]
      exact alikeResults_raise h _ _
    · rw [fetchBlock_tag hp hz, fetchBlock_tag hp' (by rw [h.args]; exact hz), h.sourceByte]
      exact tag_alike _ h
  case checks =>
    rw [fetchBlock_checks hp, fetchBlock_checks hp']
    exact runChecks_alike h
  case block =>
    rw [fetchBlock_block hp, fetchBlock_block hp']
    exact blockHead_alike h hl
  case lane =>
    rw [fetchBlock_lane hp, fetchBlock_lane hp']
    exact laneHead_alike h hl.1 hl.2
  case group =>
    have hrows := blockRows_same h hl.toSameVertex
    have hg := hl.g
    obtain hlt | hge := Nat.lt_or_ge s.g (groupCount s.blockRows)
    · have hmode : modeBits s'.hdr s'.g = modeBits s.hdr s.g := by
        have hbyte : s.g / 4 < headerByteCount s.blockRows := by
          rw [headerByteCount]
          omega
        rw [modeBits, modeBits, hg, hl.hdr _ hbyte]
      rw [fetchBlock_group hp hlt, fetchBlock_group hp' (by rwa [hrows, hg]), hmode]
      exact mode_alike _ h hl
    · rw [fetchBlock_group_end hp hge, fetchBlock_group_end hp' (by rwa [hrows, hg])]
      exact groupEnd_alike h hl
  case code2 =>
    have hj := hl.j
    obtain hlt | hge := Nat.lt_or_ge s.j 16
    · have hcode : code2At s'.packed s'.j = code2At s.packed s.j := by
        rw [code2At, code2At, hj, hl.packed _ (by omega)]
      rw [fetchBlock_code2 hp hlt, fetchBlock_code2 hp' (by omega), hcode]
      exact code2_alike _ h hl (by rw [hp]; exact liveDeltas_code2)
    · rw [fetchBlock_deltas_end (Or.inl hp) hge, fetchBlock_deltas_end (Or.inl hp') (by omega)]
      exact deltasEnd_alike h hl hge
  case code4 =>
    have hj := hl.j
    obtain hlt | hge := Nat.lt_or_ge s.j 16
    · have hcode : code4At s'.packed s'.j = code4At s.packed s.j := by
        rw [code4At, code4At, hj, hl.packed _ (by omega)]
      rw [fetchBlock_code4 hp hlt, fetchBlock_code4 hp' (by omega), hcode]
      exact code4_alike _ h hl (by rw [hp]; exact liveDeltas_code4)
    · rw [fetchBlock_deltas_end (Or.inr (Or.inl hp)) hge, fetchBlock_deltas_end (Or.inr (Or.inl hp')) (by omega)]
      exact deltasEnd_alike h hl hge
  case literal =>
    have hj := hl.j
    obtain hlt | hge := Nat.lt_or_ge s.j 16
    · rw [fetchBlock_literal hp hlt, fetchBlock_literal hp' (by omega)]
      exact literal_alike h hl (by rw [hp]; exact liveDeltas_literal)
    · rw [fetchBlock_deltas_end (Or.inr (Or.inr hp)) hge, fetchBlock_deltas_end (Or.inr (Or.inr hp')) (by omega)]
      exact deltasEnd_alike h hl hge
  case apply =>
    rw [fetchBlock_apply hp, fetchBlock_apply hp']
    exact applyGroup_alike h hl.1 hl.2
  case filter =>
    rw [fetchBlock_filter hp, fetchBlock_filter hp', h.args]
    exact filter_alike _ h
  case triangle =>
    have ht := hl.t
    obtain hlt | hge := Nat.lt_or_ge s.t s.args.triCount
    · rw [fetchBlock_triangle hp hlt, fetchBlock_triangle hp' (by rwa [h.args, ht]), h.sourceByte, hl.ccur]
      exact triangle_alike _ { h with } { hl with ccur := rfl }
    · rw [fetchBlock_triangle_end hp hge, fetchBlock_triangle_end hp' (by rwa [h.args, ht])]
      exact alikeResults_next { h with phase := rfl } trivial
  case auxByte =>
    rw [fetchBlock_auxByte hp, fetchBlock_auxByte hp', hl.entry]
    exact auxByte_alike _ h hl
  case takeA =>
    rw [fetchBlock_takeA hp, fetchBlock_takeA hp']
    exact takeA_alike h hl
  case caux =>
    rw [fetchBlock_caux hp, fetchBlock_caux hp', hl.entry, hl.corner]
    exact caux_alike _ (Or.inl hp) h hl
  case aux =>
    rw [fetchBlock_aux hp, fetchBlock_aux hp', hl.entry, hl.corner]
    exact aux_alike _ (Or.inr hp) h hl
  case newDone =>
    rw [fetchBlock_newDone hp, fetchBlock_newDone hp']
    exact newDone_alike h hl
  case output =>
    rw [fetchBlock_output hp, fetchBlock_output hp']
    exact outputHead_alike h hl
  case varintByte =>
    obtain ⟨hu, huse, hpos, hres⟩ := hl
    rw [fetchBlock_varintByte hp, fetchBlock_varintByte hp']
    exact varint_alike h hp hu huse hpos hres
  case indexDelta =>
    obtain ⟨hu, huse, hres⟩ := hl
    rw [fetchBlock_indexDelta hp, fetchBlock_indexDelta hp']
    exact indexDelta_alike h hu huse hres
  case seqValue =>
    obtain ⟨hq, hres⟩ := hl
    rw [fetchBlock_seqValue hp, fetchBlock_seqValue hp', hres]
    exact seqValue_alike _ h hq
  case done =>
    rw [fetchBlock_done hp, fetchBlock_done hp']
    exact alikeResults_next { h with phase := rfl, regs := by rw [complete_regs, complete_regs, h.regs] } trivial

end

theorem core_run_succ (M : Host.Core) (k : Nat) {s t : M.State} (h : M.step s = .next t) :
    M.run (k + 1) s = M.run k t := by
  simp only [Host.Core.run, h]

theorem runFor_succ (k : Nat) {s t : State} (h : step s = .next t) : runFor (k + 1) s = runFor k t :=
  core_run_succ Sys2Proof.core k h

/-- Machines that are alike run alike. -/
theorem Alike.runFor {k : Nat} {s s' t : State} (h : Alike s s') (hr : runFor k s = .next t) :
    ∃ t', runFor k s' = .next t' ∧ Alike t t' := by
  induction k generalizing s s' with
  | zero =>
    cases hr
    exact ⟨s', rfl, h⟩
  | succ k ih =>
    obtain ⟨hc, hl⟩ := h
    obtain ⟨u, u', hu, hu', halike⟩ := fetchBlock_alike hc hl
    rw [← step_eq_run_fetchBlock s hc.events] at hu
    rw [← step_eq_run_fetchBlock s' hc.events'] at hu'
    rw [runFor_succ k hu] at hr
    rw [runFor_succ k hu']
    exact ih halike hr

/-- Settles O60: at the tag nothing of the datapath is still to be read, so the two machines are alike. -/
theorem nothingCarriesOverBetweenCommands : Obligations.NothingCarriesOverBetweenCommands := by
  intro s s' k t hp hp' he he' hparams hregs hargs hmem hdraws hr
  have halike : Alike s s' :=
    ⟨⟨hparams.symm, hregs.symm, hargs.symm, hmem.symm, hdraws.symm, hp'.trans hp.symm, he, he'⟩,
      by rw [SameLive, hp]; trivial⟩
  obtain ⟨t', hr', hc, -⟩ := halike.runFor hr
  exact ⟨t', hr', hc.regs, hc.mem, hc.phase⟩

end Sys2Proof.Machine
end

section
/-! Proof of O22: what decides an agent's access to M is whether its addresses exist, and then whether they meet a region
that is to stay quiet (spec/20_memory.md R60, R64, spec/70_reset_and_hazards.md R348, R349). -/

namespace Sys2Proof.Machine

/-! ### The regions an access meets -/

theorem mem_quietRegions (s : State) (r : Region) : r ∈ s.quietRegions ↔ IsQuiet s r := by
  simp only [State.quietRegions, IsQuiet, List.mem_append, List.mem_map]

theorem writeTouches_iff (a n : Nat) (r : Region) :
    writeTouches a n r = true ↔ ∃ b, a ≤ b ∧ b < a + n ∧ (r.hasSource b ∨ r.hasTarget b) := by
  simp only [writeTouches, Bool.or_eq_true, rangesMeet_iff, ← exists_or, ← and_or_left, and_assoc]
  rfl

theorem readTouches_iff (a : Nat) (r : Region) : readTouches a r = true ↔ r.hasTarget a := by
  simp only [readTouches, inRange, Bool.and_eq_true, decide_eq_true_eq, Region.hasTarget]

/-- A quiet region passes a test exactly when the list of them holds one that does. -/
theorem any_quietRegions_iff (s : State) (p : Region → Bool) :
    s.quietRegions.any p = true ↔ ∃ r, IsQuiet s r ∧ p r = true := by
  simp only [List.any_eq_true, mem_quietRegions]

/-! ### An agent's accesses -/

section
variable (s : State) {a : Nat} {bs : List Byte}

theorem agentWrite_fault (h : 2 ^ s.params.addrW < a + bs.length) : agentWrite a bs s = .fault .noSuchAddress :=
  if_pos h

theorem agentWrite_refused (ha : a + bs.length ≤ 2 ^ s.params.addrW)
    (h : ∃ r, IsQuiet s r ∧ writeTouches a bs.length r = true) : agentWrite a bs s = .refused .quietRegionTouched := by
  rw [agentWrite, if_neg (Nat.not_lt.mpr ha), if_pos ((any_quietRegions_iff s _).mpr h)]

theorem agentWrite_takesPlace (ha : a + bs.length ≤ 2 ^ s.params.addrW)
    (h : ∀ r, IsQuiet s r → ¬ writeTouches a bs.length r = true) :
    agentWrite a bs s = .next { s with mem := s.mem.writeBytes a bs } := by
  have hquiet := mt (any_quietRegions_iff s (writeTouches a bs.length)).mp fun ⟨r, hr, hp⟩ => h r hr hp
  rw [agentWrite, if_neg (Nat.not_lt.mpr ha), if_neg hquiet]

theorem agentRead_fault (h : 2 ^ s.params.addrW ≤ a) : agentRead a s = .fault .noSuchAddress := if_pos h

theorem agentRead_refused (ha : a < 2 ^ s.params.addrW) (h : ∃ r, IsQuiet s r ∧ readTouches a r = true) :
    agentRead a s = .refused .quietRegionTouched := by
  rw [agentRead, if_neg (Nat.not_le.mpr ha), if_pos ((any_quietRegions_iff s _).mpr h)]

theorem agentRead_takesPlace (ha : a < 2 ^ s.params.addrW) (h : ∀ r, IsQuiet s r → ¬ readTouches a r = true) :
    agentRead a s = .next { s with hostData := (s.mem.read a).zeroExtend 32 } := by
  have hquiet := mt (any_quietRegions_iff s (readTouches a)).mp fun ⟨r, hr, hp⟩ => h r hr hp
  rw [agentRead, if_neg (Nat.not_le.mpr ha), if_neg hquiet]

end

/-- Settles O22: a due access runs `agentWrite` or `agentRead`, and an access touches a quiet region exactly when it
meets one of the region's guarded bytes. -/
theorem quietRegionsAreGuarded : Obligations.QuietRegionsAreGuarded := by
  refine ⟨fun s a bs es he hw => ?write, fun s a es he => ?read⟩
  case write =>
    have hstep : step s = agentWrite a bs { s with events := es } := step_eq_run_fetchHost he
    simp only [hstep, ← writeTouches_iff]
    refine ⟨agentWrite_fault { s with events := es }, agentWrite_refused { s with events := es }, fun ha h => ?_⟩
    have hfree : ∀ r, IsQuiet s r → ¬ writeTouches a bs.length r = true := fun r hr ht => by
      obtain ⟨b, h1, h2, hb⟩ := (writeTouches_iff a bs.length r).mp ht
      exact h r hr b h1 h2 hb
    obtain ⟨hin, hout⟩ := writeBytes_holds a bs hw
    exact ⟨_, agentWrite_takesPlace { s with events := es } ha hfree, hin, hout, rfl⟩
  case read =>
    have hstep : step s = agentRead a { s with events := es } := step_eq_run_fetchHost he
    simp only [hstep, ← readTouches_iff]
    exact ⟨agentRead_fault { s with events := es }, agentRead_refused { s with events := es },
      agentRead_takesPlace { s with events := es }⟩

end Sys2Proof.Machine
end

section
/-! Proof of O58: the block's own steps write M only inside the target region of the running command
(spec/20_memory.md R61, R65, spec/60_exceptions.md R309). `TargetOnly` relates two states whose memories agree outside
that region; it is transitive, every shared operation keeps it whose offsets lie below `need` (R66), and the invariant's
bounds on the counters of the running command put the offsets there. -/

namespace Sys2Proof.Machine

/-- From `s` to `t` the arguments stay latched and no byte of M outside the target of `s` changes. -/
structure TargetOnly (s t : State) : Prop where
  args : t.args = s.args
  mem : MemUnchangedOutside s.args.dstBase.toNat s.args.need s t

/-- The block answers a next state, and from `s` to it only the target is written. -/
def WritesTargetOnly (s : State) (r : Result) : Prop := ∃ t, r = .next t ∧ TargetOnly s t

section
variable {s t u : State}

theorem TargetOnly.refl (s : State) : TargetOnly s s := ⟨rfl, fun _ _ => rfl⟩

theorem TargetOnly.trans (h : TargetOnly s t) (h' : TargetOnly t u) : TargetOnly s u := by
  refine ⟨h'.args.trans h.args, fun a ha => (h'.mem a ?_).trans (h.mem a ha)⟩
  rwa [h.args]

/-- A step that does not write M at all. -/
theorem TargetOnly.of_mem_eq (ha : t.args = s.args) (hm : t.mem = s.mem) : TargetOnly s t :=
  ⟨ha, fun a _ => by rw [hm]⟩

/-- What is written after a step that does not write M. -/
theorem TargetOnly.after (h : TargetOnly t u) (ha : t.args = s.args) (hm : t.mem = s.mem) : TargetOnly s u :=
  (TargetOnly.of_mem_eq ha hm).trans h

theorem WritesTargetOnly.after {r : Result} (h : WritesTargetOnly t r) (ha : t.args = s.args) (hm : t.mem = s.mem) :
    WritesTargetOnly s r := by
  obtain ⟨u, hr, hu⟩ := h
  exact ⟨u, hr, hu.after ha hm⟩

theorem writesTargetOnly_next (h : TargetOnly s t) : WritesTargetOnly s (.next t) := ⟨t, rfl, h⟩

theorem writesTargetOnly_of_mem_eq (ha : t.args = s.args) (hm : t.mem = s.mem) : WritesTargetOnly s (.next t) :=
  writesTargetOnly_next (.of_mem_eq ha hm)

/-! ### Writes, draws, and the end of a command -/

theorem targetOnly_tgtWrite (off n : Nat) (v : Word) (h : off + n ≤ s.args.need) :
    TargetOnly s (tgtWrite off n v s) := by
  refine ⟨rfl, fun a ha => ?_⟩
  rw [tgtWrite_mem, memory_read_writeBytes_outside]
  rw [bytesLE_length, State.dstAddr]
  omega

/-- Item `j` of the target, STRIDE bytes wide, lies in it (R66). -/
theorem item_le_need {a : Args} {j : Nat} (h : j < a.count.toNat) : j * a.stride.toNat + a.stride.toNat ≤ a.need :=
  calc j * a.stride.toNat + a.stride.toNat = (j + 1) * a.stride.toNat := (Nat.succ_mul _ _).symm
    _ ≤ a.need := Nat.mul_le_mul_right _ h

theorem targetOnly_tgtWriteIndex (j : Nat) (v : Word) (h : j < s.args.count.toNat) :
    TargetOnly s (tgtWriteIndex j v s) :=
  targetOnly_tgtWrite _ _ v (item_le_need h)

/-- One more index of the output is written. -/
theorem TargetOnly.tgtWriteIndex (g : TargetOnly s t) (j : Nat) (v : Word) (h : j < s.args.count.toNat) :
    TargetOnly s (tgtWriteIndex j v t) :=
  g.trans (targetOnly_tgtWriteIndex j v (by rwa [g.args]))

theorem targetOnly_drawTarget (s : State) : TargetOnly s (drawTarget s) := by
  refine ⟨rfl, fun a ha => ?_⟩
  rw [drawTarget_mem]
  exact memory_read_drawBytes_outside _ _ _ _ _ _ ha

theorem targetOnly_raiseTruncated (s : State) : TargetOnly s (raiseTruncated s) :=
  (targetOnly_drawTarget s).trans (.of_mem_eq rfl rfl)

/-- A TruncatedSource found after some bytes were read. -/
theorem targetOnly_raiseTruncated_at (c : Nat) : TargetOnly s (raiseTruncated { s with cur := c }) :=
  (targetOnly_raiseTruncated { s with cur := c }).after rfl rfl

theorem TargetOnly.forEach (n : Nat) (f : Nat → State → State)
    (h : ∀ i t, i < n → t.args = s.args → TargetOnly t (f i t)) : TargetOnly s (forEach n f s) :=
  forEach_induct (fun _ t => TargetOnly s t) n f s (.refl s)
    fun i t hi ht => ht.trans (h i t hi ht.args)

/-! ### Tags and checks -/

theorem writesTargetOnly_tag (b : Byte) : WritesTargetOnly s (Fetched.element (.tag b) s).run := by
  have accept : ∀ cmd, WritesTargetOnly s (.next (acceptTag cmd s)) := fun cmd => by
    rw [acceptTag]
    split <;> exact writesTargetOnly_of_mem_eq rfl rfl
  rw [Fetched.run_element s rfl]
  exact decodeTag_cases (P := fun i => WritesTargetOnly s (exec i s)) b (accept _) (accept _) (accept _)
    (writesTargetOnly_of_mem_eq rfl rfl)

theorem targetOnly_runChecks (s : State) : TargetOnly s (runChecks s) := by
  rw [runChecks]
  split
  · exact .of_mem_eq rfl rfl
  · rw [initCommand]
    split <;> exact .of_mem_eq rfl rfl

/-! ### DECODE_VERTEX -/

theorem targetOnly_blockHead (s : State) : TargetOnly s (blockHead s) := by
  rw [blockHead]
  split <;> exact .of_mem_eq rfl rfl

/-- However many bytes a list read asks for, what it leaves is the old state with the cursor moved. -/
theorem readByteList_state (n : Nat) (s : State) :
    (∃ bs c, readByteList n s = .ok bs { s with cur := c }) ∨
      ∃ c, readByteList n s = .truncated { s with cur := c } := by
  obtain hr | hr := Nat.lt_or_ge s.lim (s.cur + n)
  · cases n with
    | zero => exact Or.inl ⟨[], s.cur, rfl⟩
    | succ n => exact Or.inr ⟨_, readByteList_truncated _ s n.succ_pos hr⟩
  · exact Or.inl ⟨_, _, readByteList_ok n s hr⟩

theorem targetOnly_laneHead (s : State) : TargetOnly s (laneHead s) := by
  rw [laneHead]
  split
  · obtain ⟨bs, c, hr⟩ | ⟨c, hr⟩ := readByteList_state (headerByteCount s.blockRows) s
    · rw [hr]
      exact .of_mem_eq rfl rfl
    · rw [hr]
      exact targetOnly_raiseTruncated_at c
  · exact .of_mem_eq rfl rfl

theorem targetOnly_readPacked (n : Nat) (codes : Phase) : TargetOnly s (readPacked n codes s) := by
  rw [readPacked]
  obtain ⟨bs, c, hr⟩ | ⟨c, hr⟩ := readByteList_state n s
  · rw [hr]
    exact .of_mem_eq rfl rfl
  · rw [hr]
    exact targetOnly_raiseTruncated_at c

theorem writesTargetOnly_mode (m : BitVec 2) : WritesTargetOnly s (Fetched.element (.mode m) s).run := by
  rw [Fetched.run_element s rfl]
  exact decodeMode_cases (P := fun i => WritesTargetOnly s (exec i s)) m (writesTargetOnly_of_mem_eq rfl rfl)
    (writesTargetOnly_next (targetOnly_readPacked 4 .code2)) (writesTargetOnly_next (targetOnly_readPacked 8 .code4))
    (writesTargetOnly_of_mem_eq rfl rfl)

theorem targetOnly_escapeDelta (s : State) : TargetOnly s (escapeDelta s) := by
  obtain ⟨hok, htrunc⟩ := escapeDelta_spec s
  obtain hc | hc := Nat.lt_or_ge s.cur s.lim
  · rw [hok hc]
    exact .of_mem_eq rfl rfl
  · rw [htrunc hc]
    exact targetOnly_raiseTruncated s

theorem writesTargetOnly_code2 (c : BitVec 2) : WritesTargetOnly s (Fetched.element (.code2 c) s).run := by
  rw [Fetched.run_element s rfl]
  exact decodeCode2_cases (P := fun i => WritesTargetOnly s (exec i s)) c
    (writesTargetOnly_next (targetOnly_escapeDelta s)) (writesTargetOnly_of_mem_eq rfl rfl)

theorem writesTargetOnly_code4 (c : Nibble) : WritesTargetOnly s (Fetched.element (.code4 c) s).run := by
  rw [Fetched.run_element s rfl]
  exact decodeCode4_cases (P := fun i => WritesTargetOnly s (exec i s)) c
    (writesTargetOnly_next (targetOnly_escapeDelta s)) (writesTargetOnly_of_mem_eq rfl rfl)

/-- An element read from the stream writes what its operation writes, and draws where it cannot be read. -/
theorem writesTargetOnly_fetchByte (element : Byte → Element)
    (h : ∀ b, WritesTargetOnly s (Fetched.element (element b) { s with cur := s.cur + 1 }).run) :
    WritesTargetOnly s (fetchByte element s).run := by
  obtain hc | hc := Nat.lt_or_ge s.cur s.lim
  · rw [fetchByte_ok _ hc]
    exact h _
  · rw [fetchByte_truncated _ hc]
    exact writesTargetOnly_next (targetOnly_raiseTruncated s)

/-- The byte of a lane in a row of the current block lies in the target (R150, R166). -/
theorem InGroup.byte_le_need (h : InGroup s) {r : Nat} (hr : r < s.blockRows) :
    (s.blockBase + r) * s.args.stride.toNat + s.k + 1 ≤ s.args.need := by
  obtain ⟨-, -, hk⟩ := h
  have hrow : s.blockBase + r < s.args.count.toNat := by
    have hmin : s.blockRows ≤ s.args.count.toNat - s.blockBase := Nat.min_le_right _ _
    omega
  have hitem := item_le_need hrow
  omega

theorem applyDelta_frame (j : Nat) (s : State) :
    applyDelta j s = { s with
      acc := (applyDelta j s).acc, row := (applyDelta j s).row, mem := (applyDelta j s).mem } := by
  unfold applyDelta
  dsimp only
  split <;> rfl

theorem InGroup.applyDelta (h : InGroup s) (j : Nat) : InGroup (applyDelta j s) := by
  rw [applyDelta_frame]
  exact h

theorem targetOnly_applyDelta (j : Nat) (h : InGroup s) : TargetOnly s (applyDelta j s) := by
  unfold applyDelta
  dsimp only
  split
  next hr =>
    refine (targetOnly_tgtWrite _ 1 _ ?_).after rfl rfl
    exact h.byte_le_need hr
  next => exact .of_mem_eq rfl rfl

theorem targetOnly_applyGroup (h : InGroup s) : TargetOnly s (applyGroup s) := by
  obtain ⟨-, hdeltas⟩ : InGroup (forEach 16 applyDelta s) ∧ TargetOnly s (forEach 16 applyDelta s) :=
    forEach_induct (fun _ t => InGroup t ∧ TargetOnly s t) 16 applyDelta s ⟨h, .refl s⟩
      fun j t _ ⟨hin, ht⟩ => ⟨hin.applyDelta j, ht.trans (targetOnly_applyDelta j hin)⟩
  rw [applyGroup]
  generalize forEach 16 applyDelta s = t at hdeltas
  exact hdeltas.trans (.of_mem_eq rfl rfl)

/-! ### The filters -/

/-- Lane `i` of row `r` lies in the target where a row has four lanes (R192). -/
theorem lane_le_need {r i : Nat} (hs : s.args.stride.toNat = 4 ∨ s.args.stride.toNat = 8)
    (hr : r < s.args.count.toNat) (hi : i < 4) : laneOffset s r i + laneBytes s ≤ s.args.need := by
  have hrow := item_le_need hr
  have hlane : i * laneBytes s + laneBytes s ≤ s.args.stride.toNat := by
    obtain hs | hs := hs
    · rw [laneBytes, hs, if_neg (by decide)]
      omega
    · rw [laneBytes, hs, if_pos rfl]
      omega
  rw [laneOffset]
  omega

theorem TargetOnly.writeLane (g : TargetOnly s t) {r : Nat} (i : Nat) (v : Int)
    (hs : s.args.stride.toNat = 4 ∨ s.args.stride.toNat = 8) (hr : r < s.args.count.toNat) (hi : i < 4) :
    TargetOnly s (writeLane r i v t) := by
  refine g.trans (targetOnly_tgtWrite _ _ _ (lane_le_need ?_ ?_ hi))
  · rwa [g.args]
  · rwa [g.args]

theorem targetOnly_octRow {r : Nat} (hs : s.args.stride.toNat = 4 ∨ s.args.stride.toNat = 8)
    (hr : r < s.args.count.toNat) : TargetOnly s (octRow r s) :=
  (((TargetOnly.refl s).writeLane 0 _ hs hr (by decide)).writeLane 1 _ hs hr (by decide)).writeLane 2 _ hs hr
    (by decide)

theorem TargetOnly.writeQuatLane (g : TargetOnly s t) {r : Nat} (i : Nat) (v : Int)
    (hs : s.args.stride.toNat = 8) (hr : r < s.args.count.toNat) (hi : i < 4) : TargetOnly s (writeQuatLane r i v t) := by
  have hrow := item_le_need hr
  rw [hs] at hrow
  refine g.trans (targetOnly_tgtWrite _ _ _ ?_)
  rw [g.args]
  omega

theorem targetOnly_quatRow {r : Nat} (hs : s.args.stride.toNat = 8) (hr : r < s.args.count.toNat) :
    TargetOnly s (quatRow r s) :=
  ((((TargetOnly.refl s).writeQuatLane 0 _ hs hr (by decide)).writeQuatLane 1 _ hs hr
    (by decide)).writeQuatLane 2 _ hs hr (by decide)).writeQuatLane 3 _ hs hr (by decide)

theorem targetOnly_expStep {q : Nat} (hq : q < s.args.need / 4) : TargetOnly s (expStep q s) :=
  targetOnly_tgtWrite _ _ _ (by omega)

theorem targetOnly_filterDone (h : TargetOnly s t) : TargetOnly s (filterDone t) := h.trans (.of_mem_eq rfl rfl)

/-- What the checks of DECODE_VERTEX leave of the stride (R151, R191). -/
theorem vertexCheck_filterStride (h : vertexCheck s = none) :
    filterStrideOk s.args.filter s.args.stride.toNat = true := by
  unfold vertexCheck at h
  split_ifs at h with hs
  exact hs.2

/-- The latched FILTER selects the filter, and the checks have left it its strides (R191). -/
theorem writesTargetOnly_filter (h : VertexDecoding s) :
    WritesTargetOnly s (Fetched.element (.cmdFilter (s.args.filter ++ 1#2)) s).run := by
  obtain ⟨-, hcheck, -⟩ := h
  have hstride := vertexCheck_filterStride hcheck
  have hfilter : ∀ f : BitVec 2, f = 0#2 ∨ f = 1#2 ∨ f = 2#2 ∨ f = 3#2 := by decide
  obtain hf | hf | hf | hf := hfilter s.args.filter
  · rw [hf]
    exact writesTargetOnly_of_mem_eq rfl rfl
  · have hs : s.args.stride.toNat = 4 ∨ s.args.stride.toNat = 8 := by simpa [filterStrideOk, hf] using hstride
    rw [hf]
    refine writesTargetOnly_next (targetOnly_filterDone (.forEach _ octRow fun r t hr ht => ?_))
    exact targetOnly_octRow (by rwa [ht]) (by rwa [ht])
  · have hs : s.args.stride.toNat = 8 := by simpa [filterStrideOk, hf] using hstride
    rw [hf]
    refine writesTargetOnly_next (targetOnly_filterDone (.forEach _ quatRow fun r t hr ht => ?_))
    exact targetOnly_quatRow (by rwa [ht]) (by rwa [ht])
  · rw [hf]
    refine writesTargetOnly_next (targetOnly_filterDone (.forEach _ expStep fun q t hq ht => ?_))
    exact targetOnly_expStep (by rwa [ht])

/-! ### DECODE_INDEX -/

/-- The three indices of a triangle that COUNT names lie in the target (R220, R242). -/
theorem targetOnly_emit (a b c : Word) (h : s.t < s.args.triCount) : TargetOnly s (emit a b c s) := by
  have hcount : 3 * s.t + 2 < s.args.count.toNat := by
    rw [Args.triCount] at h
    omega
  have written := (((TargetOnly.refl s).tgtWriteIndex (3 * s.t) a (by omega)).tgtWriteIndex (3 * s.t + 1) b
    (by omega)).tgtWriteIndex (3 * s.t + 2) c hcount
  exact written.trans (.of_mem_eq rfl rfl)

/-- The end of every triangle (R231, R241): the edges pushed are no part of M. -/
theorem targetOnly_emit_pushEdges (n : Nat) (edges : List Word) (a b c : Word) (h : s.t < s.args.triCount) :
    TargetOnly s (emit a b c (pushEdges n edges s)) :=
  (targetOnly_emit a b c (by rwa [pushEdges_t, pushEdges_args])).after (pushEdges_args n edges s)
    (pushEdges_mem n edges s)

theorem targetOnly_edgeComplete (a b c : Word) (h : s.t < s.args.triCount) : TargetOnly s (edgeComplete a b c s) :=
  targetOnly_emit_pushEdges 4 _ a b c h

theorem targetOnly_newComplete (a b c : Word) (h : s.t < s.args.triCount) : TargetOnly s (newComplete a b c s) :=
  targetOnly_emit_pushEdges 6 _ a b c h

theorem targetOnly_edgeWithPush (a b c : Word) (h : s.t < s.args.triCount) : TargetOnly s (edgeWithPush a b c s) :=
  (targetOnly_edgeComplete (s := pushVertex c s) a b c h).after rfl rfl

theorem targetOnly_readAuxByte (x : Bool) : TargetOnly s (readAuxByte x s) := by
  rw [readAuxByte]
  obtain hc | hc := Nat.lt_or_ge s.cur s.lim
  · rw [readByte_ok s hc]
    exact .of_mem_eq rfl rfl
  · rw [readByte_truncated s hc]
    exact targetOnly_raiseTruncated s

theorem writesTargetOnly_triangle (b : Byte) (h : s.t < s.args.triCount) :
    WritesTargetOnly s (Fetched.element (.triangle b) s).run := by
  rw [Fetched.run_element s rfl]
  refine decodeTriangle_cases (P := fun i => WritesTargetOnly s (exec i s)) b ?table ?aux ?auxVarint ?next ?cache ?dec
    ?inc ?varint
  case table => exact fun _ => writesTargetOnly_of_mem_eq rfl rfl
  case aux => exact writesTargetOnly_next (targetOnly_readAuxByte false)
  case auxVarint => exact writesTargetOnly_next (targetOnly_readAuxByte true)
  case next =>
    exact fun _ => writesTargetOnly_next
      ((targetOnly_edgeWithPush (s := { s with next := s.next + 1#32 }) _ _ _ h).after rfl rfl)
  case cache => exact fun _ _ => writesTargetOnly_next (targetOnly_edgeComplete _ _ _ h)
  case dec =>
    exact fun _ => writesTargetOnly_next
      ((targetOnly_edgeWithPush (s := { s with last := s.last - 1#32 }) _ _ _ h).after rfl rfl)
  case inc =>
    exact fun _ => writesTargetOnly_next
      ((targetOnly_edgeWithPush (s := { s with last := s.last + 1#32 }) _ _ _ h).after rfl rfl)
  case varint => exact fun _ => writesTargetOnly_of_mem_eq rfl rfl

theorem writesTargetOnly_auxByte (b : Byte) : WritesTargetOnly s (Fetched.element (.auxByte b) s).run := by
  by_cases hb : b = 0#8
  · have hd : decode (.auxByte b) = .ok .auxRestart := if_pos hb
    rw [Fetched.run_element s hd]
    exact writesTargetOnly_of_mem_eq rfl rfl
  · have hd : decode (.auxByte b) = .error .auxByteWithoutRow := if_neg hb
    rw [Fetched.run_element_error s hd]
    exact writesTargetOnly_of_mem_eq rfl rfl

theorem targetOnly_takeA (s : State) : TargetOnly s (takeA s) := by
  rw [takeA]
  split <;> exact .of_mem_eq rfl rfl

theorem targetOnly_setCorner (v : Word) (x : Bool) (s : State) : TargetOnly s (setCorner v x s) := by
  rw [setCorner]
  split <;> exact .of_mem_eq rfl rfl

theorem targetOnly_freshCorner (s : State) : TargetOnly s (freshCorner s) :=
  (targetOnly_setCorner s.next true { s with next := s.next + 1#32 }).after rfl rfl

theorem writesTargetOnly_caux (n : Nibble) : WritesTargetOnly s (Fetched.element (.caux n) s).run := by
  rw [Fetched.run_element s rfl]
  exact decodeCaux_cases (P := fun i => WritesTargetOnly s (exec i s)) n
    (writesTargetOnly_next (targetOnly_freshCorner s)) (writesTargetOnly_next (targetOnly_setCorner _ _ s))

theorem writesTargetOnly_aux (n : Nibble) : WritesTargetOnly s (Fetched.element (.aux n) s).run := by
  rw [Fetched.run_element s rfl]
  exact decodeAux_cases (P := fun i => WritesTargetOnly s (exec i s)) n
    (writesTargetOnly_next (targetOnly_freshCorner s)) (writesTargetOnly_of_mem_eq rfl rfl)
    (writesTargetOnly_next (targetOnly_setCorner _ _ s))

/-- The pushes of a new-path triangle write nothing to M (R232, R235). -/
theorem targetOnly_newDone (h : s.t < s.args.triCount) : TargetOnly s (newDone s) := by
  unfold newDone
  dsimp only
  split_ifs <;>
    exact (targetOnly_newComplete _ _ _ (by simpa only [pushVertex_t, pushVertex_args] using h)).after rfl rfl

theorem targetOnly_indexDelta (h : s.t < s.args.triCount) : TargetOnly s (indexDelta s) := by
  unfold indexDelta
  dsimp only
  split
  next =>
    exact (targetOnly_edgeWithPush (s := { s with last := s.last + zigzag32 s.vres }) _ _ _ h).after rfl rfl
  next => exact .of_mem_eq rfl rfl
  next =>
    exact (targetOnly_setCorner _ true { s with last := s.last + zigzag32 s.vres, phase := .aux }).after rfl rfl
  next => exact .of_mem_eq rfl rfl

/-! ### DECODE_SEQUENCE, and varints -/

theorem targetOnly_outputHead (s : State) : TargetOnly s (outputHead s) := by
  rw [outputHead]
  split <;> exact .of_mem_eq rfl rfl

theorem targetOnly_emitSequence (v : Word) (h : s.n < s.args.count.toNat) : TargetOnly s (emitSequence v s) :=
  (targetOnly_tgtWriteIndex s.n v h).trans (.of_mem_eq rfl rfl)

theorem writesTargetOnly_seqValue (v : Word) (h : s.n < s.args.count.toNat) :
    WritesTargetOnly s (Fetched.element (.seqValue v) s).run := by
  rw [Fetched.run_element s rfl]
  refine decodeSeqValue_cases (P := fun i => WritesTargetOnly s (exec i s)) v (fun dz => ?_) (fun dz => ?_)
  · exact writesTargetOnly_next ((targetOnly_emitSequence
      (s := { s with seqLast0 := s.seqLast0 + zigzag32 (dz.zeroExtend 32) }) _ h).after rfl rfl)
  · exact writesTargetOnly_next ((targetOnly_emitSequence
      (s := { s with seqLast1 := s.seqLast1 + zigzag32 (dz.zeroExtend 32) }) _ h).after rfl rfl)

theorem writesTargetOnly_varintByte (b : Byte) :
    WritesTargetOnly s (Fetched.element (.varintByte b) { s with cur := s.cur + 1 }).run := by
  rw [Fetched.run_element _ rfl]
  refine decodeVarintByte_cases (P := fun i => WritesTargetOnly s (exec i { s with cur := s.cur + 1 })) b
    (fun p => writesTargetOnly_next ?_) (fun p => writesTargetOnly_of_mem_eq rfl rfl)
  split <;> exact .of_mem_eq rfl rfl

/-! ### The block's step -/

/-- Every step of the block at a place the running command keeps writes only the command's target. -/
theorem fetchBlock_writesTargetOnly (h : PhaseKept s) : WritesTargetOnly s (fetchBlock s).run := by
  unfold PhaseKept at h
  cases hp : s.phase <;> rw [hp] at h
  case idle =>
    rw [fetchBlock_idle hp]
    exact writesTargetOnly_of_mem_eq rfl rfl
  case tag =>
    by_cases hl : s.args.srcLen = 0#32
    · rw [fetchBlock_tag_truncated hp hl]
      exact writesTargetOnly_of_mem_eq rfl rfl
    · rw [fetchBlock_tag hp hl]
      exact writesTargetOnly_tag _
  case checks =>
    rw [fetchBlock_checks hp]
    exact writesTargetOnly_next (targetOnly_runChecks s)
  case block =>
    rw [fetchBlock_block hp]
    exact writesTargetOnly_next (targetOnly_blockHead s)
  case lane =>
    rw [fetchBlock_lane hp]
    exact writesTargetOnly_next (targetOnly_laneHead s)
  case group =>
    obtain hg | hg := Nat.lt_or_ge s.g (groupCount s.blockRows)
    · rw [fetchBlock_group hp hg]
      exact writesTargetOnly_mode _
    · rw [fetchBlock_group_end hp hg]
      exact writesTargetOnly_of_mem_eq rfl rfl
  case code2 =>
    obtain hj | hj := Nat.lt_or_ge s.j 16
    · rw [fetchBlock_code2 hp hj]
      exact writesTargetOnly_code2 _
    · rw [fetchBlock_deltas_end (Or.inl hp) hj]
      exact writesTargetOnly_of_mem_eq rfl rfl
  case code4 =>
    obtain hj | hj := Nat.lt_or_ge s.j 16
    · rw [fetchBlock_code4 hp hj]
      exact writesTargetOnly_code4 _
    · rw [fetchBlock_deltas_end (Or.inr (Or.inl hp)) hj]
      exact writesTargetOnly_of_mem_eq rfl rfl
  case literal =>
    obtain hj | hj := Nat.lt_or_ge s.j 16
    · rw [fetchBlock_literal hp hj]
      exact writesTargetOnly_fetchByte _ fun _ => writesTargetOnly_of_mem_eq rfl rfl
    · rw [fetchBlock_deltas_end (Or.inr (Or.inr hp)) hj]
      exact writesTargetOnly_of_mem_eq rfl rfl
  case apply =>
    rw [fetchBlock_apply hp]
    exact writesTargetOnly_next (targetOnly_applyGroup h)
  case filter =>
    rw [fetchBlock_filter hp]
    exact writesTargetOnly_filter h
  case triangle =>
    obtain ht | ht := Nat.lt_or_ge s.t s.args.triCount
    · rw [fetchBlock_triangle hp ht]
      exact (writesTargetOnly_triangle (s := { s with ccur := s.ccur + 1 }) _ ht).after rfl rfl
    · rw [fetchBlock_triangle_end hp ht]
      exact writesTargetOnly_of_mem_eq rfl rfl
  case auxByte =>
    rw [fetchBlock_auxByte hp]
    exact writesTargetOnly_auxByte _
  case takeA =>
    rw [fetchBlock_takeA hp]
    exact writesTargetOnly_next (targetOnly_takeA s)
  case caux =>
    rw [fetchBlock_caux hp]
    exact writesTargetOnly_caux _
  case aux =>
    rw [fetchBlock_aux hp]
    exact writesTargetOnly_aux _
  case newDone =>
    rw [fetchBlock_newDone hp]
    exact writesTargetOnly_next (targetOnly_newDone h.inside.1)
  case output =>
    rw [fetchBlock_output hp]
    exact writesTargetOnly_next (targetOnly_outputHead s)
  case varintByte =>
    rw [fetchBlock_varintByte hp]
    exact writesTargetOnly_fetchByte _ writesTargetOnly_varintByte
  case indexDelta =>
    rw [fetchBlock_indexDelta hp]
    exact writesTargetOnly_next (targetOnly_indexDelta h.1.inside.1)
  case seqValue =>
    rw [fetchBlock_seqValue hp]
    exact writesTargetOnly_seqValue _ h.inside
  case done =>
    rw [fetchBlock_done hp]
    exact writesTargetOnly_of_mem_eq rfl rfl

end

/-- Where no access from outside is due, the step is the block's own; it changes at most the delay of what is to come. -/
theorem BlockTurn.step_eq {s : State} (h : BlockTurn s) :
    ∃ es, step s = (fetchBlock { s with events := es }).run := by
  cases he : s.events with
  | nil => exact ⟨s.events, step_eq_run_fetchBlock s he⟩
  | cons ev es =>
    obtain ⟨d, a⟩ := ev
    cases d with
    | zero => exact absurd (h _ _ he) (Nat.lt_irrefl 0)
    | succ d => exact ⟨_, step_eq_run_fetchBlock_of_delay he⟩

/-- A running command's source and target share no address (R64), so a source byte is outside the target. -/
theorem TargetOnly.sourceByte {s t : State} (h : TargetOnly s t) (hl : LaunchKept s) {off : Nat}
    (ho : off < s.args.srcLen.toNat) : t.mem.read (s.srcAddr off) = s.mem.read (s.srcAddr off) := by
  refine h.mem _ ?_
  have hd := hl.disjoint (s.srcAddr off) (Nat.le_add_right _ _) (Nat.add_lt_add_left ho _)
  rwa [Classical.not_and_iff_not_or_not, Nat.not_le, Nat.not_lt] at hd

/-- Settles O58: the step is the block's own, so it writes only the target (`fetchBlock_writesTargetOnly`), which holds
no source byte; an idle block does nothing. -/
theorem blockWritesOnlyItsTarget : Obligations.BlockWritesOnlyItsTarget := by
  intro s t hinv hturn hstep
  obtain ⟨es, he⟩ := hturn.step_eq
  obtain ⟨u, hu, hwrites⟩ := fetchBlock_writesTargetOnly (hinv.events es).phase
  have hrun : (fetchBlock { s with events := es }).run = .next t := he.symm.trans hstep
  obtain rfl : u = t := Host.Outcome.next.inj (hu.symm.trans hrun)
  have htarget : TargetOnly s u := ⟨hwrites.args, hwrites.mem⟩
  refine ⟨htarget.mem, fun hp off => htarget.sourceByte (hinv.launch hp), fun hp => ?_⟩
  rw [fetchBlock_idle (s := { s with events := es }) hp, Fetched.run_move] at hrun
  cases hrun
  exact fun _ => rfl

end Sys2Proof.Machine
end

section
/-! Proofs of O1, O2, O3 and O6: the decoder and the encoder agree, format by format, and the packed fields of a byte
are the whole byte (spec/30_encoding.md R90 to R117). -/

namespace Sys2Proof.Machine

/-! ### A value and its fields -/

/-- A value is its high field and its low field put together. -/
theorem append_extractLsb' {m n : Nat} (v : BitVec (m + n)) : v.extractLsb' n m ++ v.extractLsb' 0 n = v := by
  rw [BitVec.extractLsb'_append_extractLsb'_eq_extractLsb' (Nat.zero_add n).symm, BitVec.extractLsb'_eq_self]

/-- The field of one bit is that bit. -/
theorem extractLsb'_one {w : Nat} (v : BitVec w) (i : Nat) : v.extractLsb' i 1 = BitVec.ofBool (v.getLsbD i) := by
  apply BitVec.eq_of_getLsbD_eq
  intro k hk
  obtain rfl : k = 0 := by omega
  simp

theorem nibbles_append (b : Byte) : b.extractLsb' 4 4 ++ b.extractLsb' 0 4 = b := append_extractLsb' (m := 4) (n := 4) b

/-- A byte is its four pairs of bits put together. -/
theorem pairs_append (b : Byte) :
    b.extractLsb' 6 2 ++ b.extractLsb' 4 2 ++ b.extractLsb' 2 2 ++ b.extractLsb' 0 2 = b := by
  rw [BitVec.extractLsb'_append_extractLsb'_eq_extractLsb' (show 6 = 4 + 2 from rfl),
    BitVec.extractLsb'_append_extractLsb'_eq_extractLsb' (show 4 = 2 + 2 from rfl)]
  exact append_extractLsb' (m := 6) (n := 2) b

/-- A CMD word is the value's START, FILTER and OP bits, without the reserved ones (R91). -/
theorem cmdWord_extract {v : Word} (h : v.getLsbD 31 = true) :
    cmdWord (v.extractLsb' 2 2) (v.extractLsb' 0 2) = v &&& 0x8000000F#32 := by
  apply BitVec.eq_of_getLsbD_eq
  intro i hi
  simp only [cmdWord, BitVec.getLsbD_append, BitVec.getLsbD_extractLsb', BitVec.getLsbD_and]
  interval_cases i <;> simp [h]

theorem cmdWord_fields (filter op : BitVec 2) : (cmdWord filter op).getLsbD 31 = true ∧
    (cmdWord filter op).extractLsb' 2 2 = filter ∧ (cmdWord filter op).extractLsb' 0 2 = op := by
  revert filter op
  decide

/-! ### The packed codes and the group modes (R97, R99, R100) -/

theorem code2At_extract (p : Vector Byte 8) (i : Nat) {r : Nat} (h : r < 4) :
    code2At p (4 * i + r) = (slot p i).extractLsb' (6 - 2 * r) 2 := by
  rw [code2At, show (4 * i + r) / 4 = i by omega, show (4 * i + r) % 4 = r by omega]

theorem code4At_extract (p : Vector Byte 8) (i : Nat) {r : Nat} (h : r < 2) :
    code4At p (2 * i + r) = (slot p i).extractLsb' (4 - 4 * r) 4 := by
  rw [code4At, show (2 * i + r) / 2 = i by omega, show (2 * i + r) % 2 = r by omega]

theorem modeBits_extract (h : Vector Byte 4) (i : Nat) {r : Nat} (hr : r < 4) :
    modeBits h (4 * i + r) = (slot h i).extractLsb' (r * 2) 2 := by
  rw [modeBits, show (4 * i + r) / 4 = i by omega, show (4 * i + r) % 4 = r by omega]

/-- Settles O6: each code is a field of its byte, and the fields put together are the byte. -/
theorem packedFieldsMakeTheirByte : Obligations.PackedFieldsMakeTheirByte := by
  refine ⟨fun p i _ => ?_, fun p i _ => ?_, fun h i _ => ?_⟩
  · rw [← Nat.add_zero (4 * i), code2At_extract p i (r := 0) (by omega), code2At_extract p i (r := 1) (by omega),
      code2At_extract p i (r := 2) (by omega), code2At_extract p i (r := 3) (by omega)]
    exact (pairs_append _).symm
  · rw [← Nat.add_zero (2 * i), code4At_extract p i (r := 0) (by omega), code4At_extract p i (r := 1) (by omega)]
    exact (nibbles_append _).symm
  · rw [← Nat.add_zero (4 * i), modeBits_extract h i (r := 3) (by omega), modeBits_extract h i (r := 2) (by omega),
      modeBits_extract h i (r := 1) (by omega), modeBits_extract h i (r := 0) (by omega)]
    exact (pairs_append _).symm

/-! ### From an operation to its element and back (O1) -/

/-- A START is encoded as the CMD word of its FILTER and OP (R91, R92). -/
theorem encode_start (cmd : Command) (filter : BitVec 2) :
    encode (cmd.start filter) = .cmd (cmdWord filter cmd.op) := by
  cases cmd <;> rfl

theorem wf_start (cmd : Command) (filter : BitVec 2) : (cmd.start filter).wf = true := by
  cases cmd <;> rfl

theorem decode_cmdWord_none (filter : BitVec 2) : decode (.cmd (cmdWord filter 0#2)) = .ok (.cmdNone filter) := by
  obtain ⟨hstart, hfilter, hop⟩ := cmdWord_fields filter 0#2
  rw [decode_cmd_none hstart hop, hfilter]

theorem Command.op_injective : Function.Injective Command.op := by
  intro x y
  cases x <;> cases y <;> decide

theorem decode_encode_start (cmd : Command) (filter : BitVec 2) :
    decode (encode (cmd.start filter)) = .ok (cmd.start filter) := by
  obtain ⟨hstart, hfilter, hop⟩ := cmdWord_fields filter cmd.op
  have hne : cmd.op ≠ 0#2 := by cases cmd <;> decide
  obtain ⟨cmd', hcmd, hdecode⟩ := decode_cmd_start hstart (by rwa [hop])
  obtain rfl : cmd' = cmd := Command.op_injective (hcmd.trans hop)
  rw [encode_start, hdecode, hfilter]

/-- The row of a TriangleCode by its nibbles (R105). -/
theorem decodeTriangle_append (b0 b1 : Nibble) : decodeTriangle (b0 ++ b1) =
    if b0 = 15#4 then
      if b1.toNat ≤ 13 then .triNewTable b1 else if b1 = 14#4 then .triNewAux else .triNewAuxVarint
    else if b1 = 0#4 then .triEdgeNext b0
    else if b1.toNat ≤ 12 then .triEdgeCache b0 b1
    else if b1 = 13#4 then .triEdgeDec b0
    else if b1 = 14#4 then .triEdgeInc b0
    else .triEdgeVarint b0 := by
  have hhigh : (b0 ++ b1 : Byte).extractLsb' 4 4 = b0 := BitVec.extractLsb'_append_eq_left
  have hlow : (b0 ++ b1 : Byte).extractLsb' 0 4 = b1 := BitVec.extractLsb'_append_eq_right
  simp only [decodeTriangle, hhigh, hlow]

theorem decodeVarintByte_append (cont : Bool) (payload : BitVec 7) :
    decodeVarintByte (BitVec.ofBool cont ++ payload) = if cont then .varintCont payload else .varintEnd payload := by
  have hcont : (BitVec.ofBool cont ++ payload : Byte).getLsbD 7 = cont := by
    rw [BitVec.getLsbD_append]
    simp
  have hpayload : (BitVec.ofBool cont ++ payload : Byte).extractLsb' 0 7 = payload :=
    BitVec.extractLsb'_append_eq_right
  rw [decodeVarintByte, hcont, hpayload]

theorem decodeSeqValue_append (dz : BitVec 31) (p : Bool) :
    decodeSeqValue (dz ++ BitVec.ofBool p) = if p then .seqBase1 dz else .seqBase0 dz := by
  have hp : (dz ++ BitVec.ofBool p : Word).getLsbD 0 = p := by
    rw [BitVec.getLsbD_append]
    simp
  have hdz : (dz ++ BitVec.ofBool p : Word).extractLsb' 1 31 = dz := BitVec.extractLsb'_append_eq_left
  rw [decodeSeqValue, hp, hdz]

theorem nibble_ne_of_toNat_le {n : Nibble} {k : Nat} (h : n.toNat ≤ k) (hk : k < 15) : n ≠ 15#4 := by
  rintro rfl
  exact absurd h (Nat.not_le.mpr hk)

theorem nibble_ne_zero {n : Nibble} (h : 1 ≤ n.toNat) : n ≠ 0#4 := by
  rintro rfl
  exact absurd h (by decide)

/-- Settles O1, row by row: the decoder's conditions on the encoded element are the guard of the operation's row. -/
theorem encodedOperationsDecodeBack : Obligations.EncodedOperationsDecodeBack := by
  intro i hwf
  cases i with
  | cmdNone filter => exact decode_cmdWord_none filter
  | decodeVertex filter => exact decode_encode_start .vertex filter
  | decodeIndex filter => exact decode_encode_start .index filter
  | decodeSequence filter => exact decode_encode_start .sequence filter
  | filterNone | filterOctahedral | filterQuaternion | filterExponential => rfl
  | tagVertex | tagIndex | tagSequence => rfl
  | tagOther tag =>
    simp only [Instr.wf, Bool.and_eq_true, decide_eq_true_eq] at hwf
    obtain ⟨⟨hvertex, hindex⟩, hsequence⟩ := hwf
    simp only [encode, decode, decodeTag, if_neg hvertex, if_neg hindex, if_neg hsequence]
  | vgMode0Zero | vgMode1TwoBit | vgMode2FourBit | vgMode3Literal => rfl
  | vc2Value code =>
    have hcode : code ≠ 3#2 := by
      rintro rfl
      cases hwf
    simp only [encode, decode, decodeCode2, if_neg hcode]
  | vc4Value code =>
    have hcode : code ≠ 15#4 := nibble_ne_of_toNat_le (of_decide_eq_true hwf) (by omega)
    simp only [encode, decode, decodeCode4, if_neg hcode]
  | vc2Escape | vc4Escape | vlit8 => rfl
  | triNewTable b1 =>
    have hb1 : b1.toNat ≤ 13 := of_decide_eq_true hwf
    simp only [encode, decode, decodeTriangle_append, if_true, if_pos hb1]
  | triNewAux | triNewAuxVarint => rfl
  | triEdgeNext b0 | triEdgeDec b0 | triEdgeInc b0 | triEdgeVarint b0 =>
    have hb0 : b0 ≠ 15#4 := nibble_ne_of_toNat_le (of_decide_eq_true hwf) (by omega)
    simp only [encode, decode, decodeTriangle_append, if_neg hb0]
    rfl
  | triEdgeCache b0 b1 =>
    simp only [Instr.wf, Bool.and_eq_true, decide_eq_true_eq] at hwf
    obtain ⟨⟨hb0, hlow⟩, hhigh⟩ := hwf
    simp only [encode, decode, decodeTriangle_append, if_neg (nibble_ne_of_toNat_le hb0 (by omega)),
      if_neg (nibble_ne_zero hlow), if_pos hhigh]
  | cauxNext | auxRestart | auxNext | auxVarint => rfl
  | cauxCache n =>
    simp only [encode, decode, decodeCaux, if_neg (nibble_ne_zero (of_decide_eq_true hwf))]
  | auxCache n =>
    simp only [Instr.wf, Bool.and_eq_true, decide_eq_true_eq] at hwf
    obtain ⟨hlow, hhigh⟩ := hwf
    simp only [encode, decode, decodeAux, if_neg (nibble_ne_zero hlow),
      if_neg (nibble_ne_of_toNat_le hhigh (by omega))]
  | varintCont payload => exact congrArg _ (decodeVarintByte_append true payload)
  | varintEnd payload => exact congrArg _ (decodeVarintByte_append false payload)
  | seqBase0 dz => exact congrArg _ (decodeSeqValue_append dz false)
  | seqBase1 dz => exact congrArg _ (decodeSeqValue_append dz true)

/-- Settles O3: each of the words is the encoding of a well-formed operation, so `encodedOperationsDecodeBack` decodes
it. -/
theorem sampleWordsDecode : Obligations.SampleWordsDecode :=
  have back := encodedOperationsDecodeBack
  ⟨back (.decodeVertex 3#2) rfl, back (.decodeIndex 0#2) rfl, back .filterQuaternion rfl, back .tagIndex rfl,
    back .vgMode2FourBit rfl, back (.vc2Value 2#2) rfl, back .vc4Escape rfl, back (.vlit8 0xFE#8) rfl,
    back (.triNewTable 13#4) rfl, back (.triEdgeCache 3#4 12#4) rfl, back (.cauxCache 15#4) rfl, back .auxRestart rfl,
    back .auxVarint rfl, back (.varintCont 0x2C#7) rfl, back (.seqBase1 400#31) rfl⟩

/-! ### From an element to its operation and back (O2) -/

/-- The operation is one of its row, and its encoding is the element it was decoded from. -/
def EncodesTo (e : Element) (i : Instr) : Prop := i.wf = true ∧ encode i = e

/-- A START of any OP, and CMD_NONE: the CMD word without its reserved bits (R91). -/
theorem decodeCmd_encodesTo {v : Word} {i : Instr} (h : decode (.cmd v) = .ok i) :
    EncodesTo (.cmd (v &&& 0x8000000F#32)) i := by
  cases hs : v.getLsbD 31 with
  | false =>
    rw [decode_cmd_noStart hs] at h
    cases h
  | true =>
    by_cases ho : v.extractLsb' 0 2 = 0#2
    · rw [decode_cmd_none hs ho] at h
      cases h
      exact ⟨rfl, by rw [← cmdWord_extract hs, ho]; rfl⟩
    · obtain ⟨cmd, hop, hdecode⟩ := decode_cmd_start hs ho
      rw [hdecode] at h
      cases h
      exact ⟨wf_start cmd _, by rw [encode_start, hop, cmdWord_extract hs]⟩

theorem eq_three_of_ne {x : BitVec 2} (h0 : x ≠ 0#2) (h1 : x ≠ 1#2) (h2 : x ≠ 2#2) : x = 3#2 := by
  revert x
  decide

/-- The filters, by the two bits that are decoded (R93). -/
theorem decodeCmdFilter_encodesTo (v : Nibble) :
    EncodesTo (.cmdFilter (v.extractLsb' 2 2 ++ 1#2)) (decodeCmdFilter v) := by
  unfold decodeCmdFilter
  split_ifs with h0 h1 h2
  · exact ⟨rfl, by rw [h0]; rfl⟩
  · exact ⟨rfl, by rw [h1]; rfl⟩
  · exact ⟨rfl, by rw [h2]; rfl⟩
  · exact ⟨rfl, by rw [eq_three_of_ne h0 h1 h2]; rfl⟩

theorem decodeTag_encodesTo (b : Byte) : EncodesTo (.tag b) (decodeTag b) := by
  unfold decodeTag
  split_ifs with hvertex hindex hsequence
  · exact ⟨rfl, by rw [hvertex]; rfl⟩
  · exact ⟨rfl, by rw [hindex]; rfl⟩
  · exact ⟨rfl, by rw [hsequence]; rfl⟩
  · exact ⟨by simp [Instr.wf, hvertex, hindex, hsequence], rfl⟩

theorem decodeMode_encodesTo (m : BitVec 2) : EncodesTo (.mode m) (decodeMode m) := by
  unfold decodeMode
  split_ifs with h0 h1 h2
  · exact ⟨rfl, by rw [h0]; rfl⟩
  · exact ⟨rfl, by rw [h1]; rfl⟩
  · exact ⟨rfl, by rw [h2]; rfl⟩
  · exact ⟨rfl, by rw [eq_three_of_ne h0 h1 h2]; rfl⟩

theorem toNat_le_two {c : BitVec 2} (h : c ≠ 3#2) : c.toNat ≤ 2 := by
  have hne : c.toNat ≠ 3 := fun hc => h (BitVec.eq_of_toNat_eq hc)
  have hlt := c.isLt
  omega

theorem nibble_toNat_le {n : Nibble} (h : n ≠ 15#4) : n.toNat ≤ 14 := by
  have hne : n.toNat ≠ 15 := fun hn => h (BitVec.eq_of_toNat_eq hn)
  have hlt := n.isLt
  omega

theorem one_le_nibble_toNat {n : Nibble} (h : n ≠ 0#4) : 1 ≤ n.toNat :=
  Nat.pos_of_ne_zero fun hn => h (BitVec.eq_of_toNat_eq hn)

theorem decodeCode2_encodesTo (c : BitVec 2) : EncodesTo (.code2 c) (decodeCode2 c) := by
  unfold decodeCode2
  split_ifs with h
  · exact ⟨rfl, by rw [h]; rfl⟩
  · exact ⟨decide_eq_true (toNat_le_two h), rfl⟩

theorem decodeCode4_encodesTo (c : Nibble) : EncodesTo (.code4 c) (decodeCode4 c) := by
  unfold decodeCode4
  split_ifs with h
  · exact ⟨rfl, by rw [h]; rfl⟩
  · exact ⟨decide_eq_true (nibble_toNat_le h), rfl⟩

/-- A TriangleCode by its nibbles: the rows of R105 share out all pairs of them. -/
theorem decodeTriangle_append_encodesTo (b0 b1 : Nibble) :
    EncodesTo (.triangle (b0 ++ b1)) (decodeTriangle (b0 ++ b1)) := by
  have hhigh : ∀ n : Nibble, ¬ n.toNat ≤ 12 → n ≠ 13#4 → n ≠ 14#4 → n = 15#4 := by decide
  have hnew : ∀ n : Nibble, ¬ n.toNat ≤ 13 → n ≠ 14#4 → n = 15#4 := by decide
  rw [decodeTriangle_append]
  split_ifs with hb0 htable haux hnext hcache hdec hinc
  · exact ⟨decide_eq_true htable, by rw [hb0]; rfl⟩
  · exact ⟨rfl, by rw [hb0, haux]; rfl⟩
  · exact ⟨rfl, by rw [hb0, hnew b1 htable haux]; rfl⟩
  · exact ⟨decide_eq_true (nibble_toNat_le hb0), by rw [hnext]; rfl⟩
  · exact ⟨by simp [Instr.wf, nibble_toNat_le hb0, one_le_nibble_toNat hnext, hcache], rfl⟩
  · exact ⟨decide_eq_true (nibble_toNat_le hb0), by rw [hdec]; rfl⟩
  · exact ⟨decide_eq_true (nibble_toNat_le hb0), by rw [hinc]; rfl⟩
  · exact ⟨decide_eq_true (nibble_toNat_le hb0), by rw [hhigh b1 hcache hdec hinc]; rfl⟩

theorem decodeTriangle_encodesTo (b : Byte) : EncodesTo (.triangle b) (decodeTriangle b) := by
  have h := decodeTriangle_append_encodesTo (b.extractLsb' 4 4) (b.extractLsb' 0 4)
  rwa [nibbles_append] at h

theorem decodeCaux_encodesTo (n : Nibble) : EncodesTo (.caux n) (decodeCaux n) := by
  unfold decodeCaux
  split_ifs with h
  · exact ⟨rfl, by rw [h]; rfl⟩
  · exact ⟨decide_eq_true (one_le_nibble_toNat h), rfl⟩

theorem decodeAuxByte_zero : decode (.auxByte 0#8) = .ok .auxRestart := rfl

theorem decodeAuxByte_ne_zero {b : Byte} (h : b ≠ 0#8) : decode (.auxByte b) = .error .auxByteWithoutRow := if_neg h

theorem decodeAux_encodesTo (n : Nibble) : EncodesTo (.aux n) (decodeAux n) := by
  unfold decodeAux
  split_ifs with h0 h15
  · exact ⟨rfl, by rw [h0]; rfl⟩
  · exact ⟨rfl, by rw [h15]; rfl⟩
  · exact ⟨by simp [Instr.wf, one_le_nibble_toNat h0, nibble_toNat_le h15], rfl⟩

theorem decodeVarintByte_encodesTo (b : Byte) : EncodesTo (.varintByte b) (decodeVarintByte b) := by
  have hb := append_extractLsb' (m := 1) (n := 7) b
  rw [extractLsb'_one] at hb
  unfold decodeVarintByte
  split_ifs with h
  · exact ⟨rfl, by rw [h] at hb; exact congrArg _ hb⟩
  · exact ⟨rfl, by rw [Bool.eq_false_of_not_eq_true h] at hb; exact congrArg _ hb⟩

theorem decodeSeqValue_encodesTo (v : Word) : EncodesTo (.seqValue v) (decodeSeqValue v) := by
  have hv := append_extractLsb' (m := 31) (n := 1) v
  rw [extractLsb'_one] at hv
  unfold decodeSeqValue
  split_ifs with h
  · exact ⟨rfl, by rw [h] at hv; exact congrArg _ hv⟩
  · exact ⟨rfl, by rw [Bool.eq_false_of_not_eq_true h] at hv; exact congrArg _ hv⟩

/-- Settles O2: every decoder gives a well-formed operation that encodes to the element (`EncodesTo`), and only CMD and
AUX8 have values without a row. -/
theorem elementsHaveOneOperation : Obligations.ElementsHaveOneOperation := by
  refine ⟨fun e i h => ?_, fun e => ?_⟩
  · cases e with
    | cmd v => exact decodeCmd_encodesTo h
    | auxByte b =>
      by_cases hb : b = 0#8
      · subst hb
        cases h
        exact ⟨rfl, rfl⟩
      · rw [decodeAuxByte_ne_zero hb] at h
        cases h
    | cmdFilter v => cases h; exact decodeCmdFilter_encodesTo v
    | tag b => cases h; exact decodeTag_encodesTo b
    | mode m => cases h; exact decodeMode_encodesTo m
    | code2 c => cases h; exact decodeCode2_encodesTo c
    | code4 c => cases h; exact decodeCode4_encodesTo c
    | literal b => cases h; exact ⟨rfl, rfl⟩
    | triangle b => cases h; exact decodeTriangle_encodesTo b
    | caux n => cases h; exact decodeCaux_encodesTo n
    | aux n => cases h; exact decodeAux_encodesTo n
    | varintByte b => cases h; exact decodeVarintByte_encodesTo b
    | seqValue v => cases h; exact decodeSeqValue_encodesTo v
  · cases e with
    | cmd v =>
      refine ⟨fun ⟨i, h⟩ => ?_, fun hs => ?_⟩
      · by_contra hs
        rw [decode_cmd_noStart (Bool.eq_false_of_not_eq_true hs)] at h
        cases h
      · by_cases ho : v.extractLsb' 0 2 = 0#2
        · exact ⟨_, decode_cmd_none hs ho⟩
        · obtain ⟨cmd, -, h⟩ := decode_cmd_start hs ho
          exact ⟨_, h⟩
    | auxByte b =>
      refine ⟨fun ⟨i, h⟩ => ?_, fun hb => ⟨.auxRestart, hb ▸ decodeAuxByte_zero⟩⟩
      by_contra hb
      rw [decodeAuxByte_ne_zero hb] at h
      cases h
    | cmdFilter | tag | mode | code2 | code4 | literal | triangle | caux | aux | varintByte | seqValue =>
      exact ⟨_, rfl⟩

end Sys2Proof.Machine
end

section
/-! Proofs of O10, O24 and O31: the tags, the bytes of a varint, and the codes and literals of a group, run step by step
(spec/30_encoding.md R94, R101, R108, R109, spec/40_primitives.md R137 to R139, spec/41_vertex_decoder.md R159 to R165,
spec/60_exceptions.md R301, R308). -/

namespace Sys2Proof.Machine

/-! ### Tags (R94, R301) -/

/-- Raising an error reports it, and leaves the block idle (R308). -/
theorem raise_failedWith (k : ErrorKind) (off : Nat) (s : State) :
    FailedWith k (if k = .truncatedSource then off else 0) s (raise k off s) := by
  have hstatus : (statusFailure k).getLsbD 0 = false ∧ (statusFailure k).getLsbD 1 = false ∧
      (statusFailure k).getLsbD 2 = true ∧ (statusFailure k).extractLsb' 4 4 = k.code := by
    cases k <;> decide
  obtain ⟨hbusy, hdone, herr, hcode⟩ := hstatus
  refine ⟨hbusy, hdone, herr, hcode, ?_, rfl⟩
  cases k <;> rfl

/-- BadHeaderTag reports no offset, and changes nothing but the registers and the phase (R301, R307, R308). -/
theorem raise_badHeaderTag (s : State) : ∃ t, Host.Outcome.next (raise .badHeaderTag 0 s) = (.next t : Result) ∧
    FailedWith .badHeaderTag 0 s t ∧ t = { s with regs := t.regs, phase := t.phase } :=
  ⟨_, rfl, raise_failedWith .badHeaderTag 0 s, rfl⟩

theorem acceptTag_own {cmd : Command} {s : State} (h : s.args.cmd = cmd) :
    acceptTag cmd s = { s with phase := .checks } := if_pos h

theorem acceptTag_other {cmd : Command} {s : State} (h : s.args.cmd ≠ cmd) :
    acceptTag cmd s = raise .badHeaderTag 0 s := if_neg h

/-- The tag operation of a command accepts or refuses the stream by that command. -/
theorem exec_tag (s : State) : ∀ p ∈ [(Instr.tagVertex, Command.vertex), (Instr.tagIndex, Command.index),
    (Instr.tagSequence, Command.sequence)], exec p.1 s = .next (acceptTag p.2 s) := by
  simp only [List.forall_mem_cons, List.not_mem_nil, IsEmpty.forall_iff, implies_true, and_true]
  exact ⟨rfl, rfl, rfl⟩

/-- Settles O24: `acceptTag` goes on for the command that runs, and raises BadHeaderTag for any other. -/
theorem tagsAcceptedOnlyByTheirCommand : Obligations.TagsAcceptedOnlyByTheirCommand := by
  refine ⟨fun s p hp => ⟨fun hcmd => ?_, fun hcmd => ?_⟩, fun s b => raise_badHeaderTag s⟩
  · rw [exec_tag s p hp, acceptTag_own hcmd]
  · rw [exec_tag s p hp, acceptTag_other hcmd]
    exact raise_badHeaderTag s

/-! ### Runs -/

theorem core_run_snoc (M : Host.Core) (k : Nat) {s t : M.State} {r : Host.Outcome M.State M.Fault M.Refusal}
    (h : M.run k s = .next t) (hr : M.step t = r) : M.run (k + 1) s = r := by
  induction k generalizing s with
  | zero =>
    cases h
    simp only [Host.Core.run, hr]
    cases r <;> rfl
  | succ k ih =>
    rw [Host.Core.run] at h ⊢
    cases hs : M.step s with
    | next u => exact ih (by rwa [hs] at h)
    | fault x => rw [hs] at h; cases h
    | refused x => rw [hs] at h; cases h

/-- A run that goes on by one step. -/
theorem runFor_snoc (k : Nat) {s t : State} {r : Result} (h : runFor k s = .next t) (hr : step t = r) :
    runFor (k + 1) s = r :=
  core_run_snoc Sys2Proof.core k h hr

theorem runFor_one (s : State) : runFor 1 s = step s := runFor_snoc 0 rfl rfl

/-! ### Varints (R108, R109, R137 to R139) -/

theorem holdsBytes_cons {m : Memory} {a : Nat} {b : Byte} {bs : List Byte} (h : HoldsBytes m a (b :: bs)) :
    m.read a = b ∧ HoldsBytes m (a + 1) bs := by
  refine ⟨h 0 (Nat.succ_pos _), fun i hi => ?_⟩
  rw [Nat.add_assoc, Nat.add_comm 1 i]
  exact h (i + 1) (Nat.succ_lt_succ hi)

/-- The bytes of a varint from position `pos` on: CONT is clear in the last of them, or it stands at position 4. -/
structure VarintFrom (pos : Nat) (bs : List Byte) : Prop where
  nonempty : 1 ≤ bs.length
  bound : pos + bs.length ≤ 5
  goesOn : ∀ i, i + 1 < bs.length → (bs.getD i 0#8).getLsbD 7 = true
  ends : (bs.getD (bs.length - 1) 0#8).getLsbD 7 = false ∨ pos + bs.length = 5

theorem IsVarint.varintFrom {bs : List Byte} (h : IsVarint bs) : VarintFrom 0 bs := by
  obtain ⟨hne, hbound, hgoesOn, hends⟩ := h
  exact ⟨hne, by omega, hgoesOn, hends.imp_right fun h5 => by omega⟩

theorem VarintFrom.last {pos : Nat} {b : Byte} (h : VarintFrom pos [b]) : b.getLsbD 7 = false ∨ 4 ≤ pos :=
  h.ends.imp_right fun h5 => by simpa using h5.ge

theorem VarintFrom.tail {pos : Nat} {b c : Byte} {bs : List Byte} (h : VarintFrom pos (b :: c :: bs)) :
    b.getLsbD 7 = true ∧ pos < 4 ∧ VarintFrom (pos + 1) (c :: bs) := by
  have hbound := h.bound
  simp only [List.length_cons] at hbound
  refine ⟨h.goesOn 0 (by simp), by omega, ⟨by simp, by simp only [List.length_cons]; omega,
    fun i hi => h.goesOn (i + 1) (by simpa using hi), ?_⟩⟩
  exact h.ends.imp id fun h5 => by simp only [List.length_cons] at h5 ⊢; omega

/-- A payload joined at position i adds its value times 128^i (R109, R138). -/
theorem varintJoin_ofNat {acc i : Nat} (p : BitVec 7) (h : acc < 2 ^ (7 * i)) :
    varintJoin (BitVec.ofNat 32 acc) i p = BitVec.ofNat 32 (acc + 2 ^ (7 * i) * p.toNat) := by
  have hp : p.zeroExtend 32 <<< (7 * i) = BitVec.ofNat 32 (2 ^ (7 * i) * p.toNat) := by
    apply BitVec.eq_of_toNat_eq
    have hlt : p.toNat < 2 ^ 32 := Nat.lt_trans p.isLt (by decide)
    simp [Nat.shiftLeft_eq, Nat.mul_comm]
  rw [varintJoin, hp, ← BitVec.ofNat_or, Nat.or_comm, ← Nat.two_pow_add_eq_or_of_lt h, Nat.add_comm]

theorem payload_joined_lt {acc i : Nat} (p : BitVec 7) (h : acc < 2 ^ (7 * i)) :
    acc + 2 ^ (7 * i) * p.toNat < 2 ^ (7 * (i + 1)) := by
  have hp : p.toNat + 1 ≤ 2 ^ 7 := p.isLt
  calc acc + 2 ^ (7 * i) * p.toNat
    _ < 2 ^ (7 * i) * (p.toNat + 1) := by rw [Nat.mul_succ]; omega
    _ ≤ 2 ^ (7 * i) * 2 ^ 7 := Nat.mul_le_mul_left _ hp
    _ = 2 ^ (7 * (i + 1)) := by rw [← Nat.pow_add]; rfl

/-- The value of a varint from position i up (R109): its first payload, and the rest from position i + 1 up. -/
theorem add_varintNat_cons (acc i : Nat) (b : Byte) (bs : List Byte) :
    acc + 2 ^ (7 * i) * (b.extractLsb' 0 7).toNat + 2 ^ (7 * (i + 1)) * varintNat bs =
      acc + 2 ^ (7 * i) * varintNat (b :: bs) := by
  rw [varintNat, Nat.mul_succ, Nat.pow_add]
  ring

section
variable {s : State}

/-- A varint byte below the limit is decoded and joins the value. -/
theorem step_varintByte (he : s.events = []) (hp : s.phase = .varintByte) (hc : s.cur < s.lim) :
    step s = exec (decodeVarintByte (s.mem.read (s.srcAddr s.cur))) { s with cur := s.cur + 1 } := by
  rw [step_eq_run_fetchBlock s he, fetchBlock_varintByte hp, fetchByte_ok _ hc]
  exact Fetched.run_element _ rfl

theorem step_varint_goesOn {b : Byte} (he : s.events = []) (hp : s.phase = .varintByte) (hc : s.cur < s.lim)
    (hb : s.mem.read (s.srcAddr s.cur) = b) (hcont : b.getLsbD 7 = true) (hpos : s.vpos < 4) :
    step s = .next { s with
      vres := varintJoin s.vres s.vpos (b.extractLsb' 0 7), vpos := s.vpos + 1, cur := s.cur + 1 } := by
  rw [step_varintByte he hp hc, hb, decodeVarintByte, if_pos hcont]
  exact congrArg Host.Outcome.next (if_pos hpos)

theorem step_varint_ends {b : Byte} (he : s.events = []) (hp : s.phase = .varintByte) (hc : s.cur < s.lim)
    (hb : s.mem.read (s.srcAddr s.cur) = b) (hlast : b.getLsbD 7 = false ∨ 4 ≤ s.vpos) :
    step s = .next { s with
      vres := varintJoin s.vres s.vpos (b.extractLsb' 0 7), cur := s.cur + 1
      phase := if s.vuse = .sequence then .seqValue else .indexDelta } := by
  rw [step_varintByte he hp hc, hb, decodeVarintByte]
  by_cases hcont : b.getLsbD 7 = true
  · have hpos : ¬ s.vpos < 4 := Nat.not_lt.mpr (hlast.resolve_left (by simp [hcont]))
    rw [if_pos hcont]
    exact congrArg Host.Outcome.next (if_neg hpos)
  · rw [if_neg hcont]
    rfl

end

/-- The bytes of a varint from a position on add their value, from that position up, to the value read so far. -/
theorem runFor_varint {s : State} {bs : List Byte} {acc : Nat} (hbs : VarintFrom s.vpos bs) (he : s.events = [])
    (hp : s.phase = .varintByte) (hacc : acc < 2 ^ (7 * s.vpos)) (hres : s.vres = BitVec.ofNat 32 acc)
    (hm : HoldsBytes s.mem (s.srcAddr s.cur) bs) (hl : s.cur + bs.length ≤ s.lim) :
    runFor bs.length s = .next { s with
      vres := BitVec.ofNat 32 (acc + 2 ^ (7 * s.vpos) * varintNat bs), vpos := s.vpos + (bs.length - 1)
      cur := s.cur + bs.length, phase := if s.vuse = .sequence then .seqValue else .indexDelta } := by
  induction bs generalizing s acc with
  | nil => exact absurd hbs.nonempty (Nat.not_succ_le_zero 0)
  | cons b bs ih =>
    obtain ⟨hb, hm⟩ := holdsBytes_cons hm
    have hc : s.cur < s.lim := by
      rw [List.length_cons] at hl
      omega
    have hjoin := varintJoin_ofNat (b.extractLsb' 0 7) hacc
    cases bs with
    | nil =>
      rw [List.length_singleton, runFor_one, step_varint_ends he hp hc hb hbs.last, hres, hjoin]
      rfl
    | cons c bs =>
      obtain ⟨hcont, hpos, htail⟩ := hbs.tail
      have hrun := ih (s := { s with
          vres := BitVec.ofNat 32 (acc + 2 ^ (7 * s.vpos) * (b.extractLsb' 0 7).toNat), vpos := s.vpos + 1
          cur := s.cur + 1 })
        htail he hp (payload_joined_lt _ hacc) rfl hm (by simp only [List.length_cons] at hl ⊢; omega)
      have hcur : s.cur + 1 + (c :: bs).length = s.cur + (b :: c :: bs).length := by
        simp only [List.length_cons]
        omega
      have hvpos : s.vpos + 1 + ((c :: bs).length - 1) = s.vpos + ((b :: c :: bs).length - 1) := by
        simp only [List.length_cons]
        omega
      rw [add_varintNat_cons, hcur, hvpos] at hrun
      rw [List.length_cons (as := c :: bs), runFor_succ _ (step_varint_goesOn he hp hc hb hcont hpos), hres, hjoin]
      exact hrun

/-- Settles O10: a varint read from position 0 with the value 0 so far. -/
theorem varintReadsItsValue : Obligations.VarintReadsItsValue := by
  intro s bs hbs he hp hpos hres hm hl
  have hfrom : VarintFrom s.vpos bs := hpos ▸ hbs.varintFrom
  have hrun := runFor_varint (acc := 0) hfrom he hp (Nat.two_pow_pos _) hres hm hl
  refine ⟨_, hrun, ?_, rfl, rfl, rfl⟩
  simp [hpos]

/-! ### Groups (R101, R159 to R165) -/

/-- The next delta of a group: the byte at the data cursor for an escape or a literal, else the given value. -/
def takeDelta (escape : Bool) (x : Byte) (s : State) : State :=
  if escape then putDelta (s.mem.read (s.srcAddr s.cur)) { s with cur := s.cur + 1 } else putDelta x s

theorem takeDelta_eq (escape : Bool) (x : Byte) (s : State) : takeDelta escape x s = { s with
    dbuf := s.dbuf.setIfInBounds s.j (if escape then s.mem.read (s.srcAddr s.cur) else x), j := s.j + 1
    cur := s.cur + if escape then 1 else 0 } := by
  cases escape <;> rfl

theorem escapeDelta_eq_takeDelta {s : State} (h : s.cur < s.lim) (x : Byte) : escapeDelta s = takeDelta true x s :=
  (escapeDelta_spec s).1 h

section
variable {s : State}

theorem step_code2 (he : s.events = []) (hp : s.phase = .code2) (hj : s.j < 16)
    (hc : code2At s.packed s.j = 3#2 → s.cur < s.lim) :
    step s = .next (takeDelta (decide (code2At s.packed s.j = 3#2)) ((code2At s.packed s.j).zeroExtend 8) s) := by
  rw [step_eq_run_fetchBlock s he, fetchBlock_code2 hp hj, Fetched.run_element s rfl, decodeCode2]
  split_ifs with hcode
  · rw [decide_eq_true hcode]
    exact congrArg _ (escapeDelta_eq_takeDelta (hc hcode) _)
  · rw [decide_eq_false hcode]
    rfl

theorem step_code4 (he : s.events = []) (hp : s.phase = .code4) (hj : s.j < 16)
    (hc : code4At s.packed s.j = 15#4 → s.cur < s.lim) :
    step s = .next (takeDelta (decide (code4At s.packed s.j = 15#4)) ((code4At s.packed s.j).zeroExtend 8) s) := by
  rw [step_eq_run_fetchBlock s he, fetchBlock_code4 hp hj, Fetched.run_element s rfl, decodeCode4]
  split_ifs with hcode
  · rw [decide_eq_true hcode]
    exact congrArg _ (escapeDelta_eq_takeDelta (hc hcode) _)
  · rw [decide_eq_false hcode]
    rfl

theorem step_literal (he : s.events = []) (hp : s.phase = .literal) (hj : s.j < 16) (hc : s.cur < s.lim) (x : Byte) :
    step s = .next (takeDelta true x s) := by
  rw [step_eq_run_fetchBlock s he, fetchBlock_literal hp hj, fetchByte_ok _ hc, Fetched.run_element _ rfl]
  rfl

end

/-- At the group's place in `s`, each step takes the next delta, an escape where `isEscape` says so and `value`
elsewhere. -/
def StepsTakeDeltas (isEscape : Nat → Bool) (value : Nat → Byte) (s : State) : Prop :=
  ∀ t : State, t.events = [] → t.phase = s.phase → t.packed = s.packed → t.j < 16 →
    (isEscape t.j = true → t.cur < t.lim) → step t = .next (takeDelta (isEscape t.j) (value t.j) t)

/-- The first `n` deltas of a group: escapes take the data bytes in code order, and nothing else is read. -/
theorem runFor_group {isEscape : Nat → Bool} {value : Nat → Byte} {s : State}
    (hstep : StepsTakeDeltas isEscape value s) (he : s.events = []) (hj : s.j = 0) (n : Nat) (hn : n ≤ 16)
    (hl : s.cur + escapesBefore isEscape n ≤ s.lim) :
    ∃ d, runFor n s = .next { s with dbuf := d, j := n, cur := s.cur + escapesBefore isEscape n } ∧
      ∀ j, j < n → slot d j =
        if isEscape j then s.mem.read (s.srcAddr (s.cur + escapesBefore isEscape j)) else value j := by
  induction n with
  | zero =>
    have hzero : s = { s with j := 0 } := by rw [← hj]
    exact ⟨s.dbuf, congrArg _ hzero, fun j hlt => absurd hlt (Nat.not_lt_zero j)⟩
  | succ n ih =>
    rw [escapesBefore, ← Nat.add_assoc] at hl
    obtain ⟨d, hrun, hslots⟩ := ih (Nat.le_of_succ_le hn) (Nat.le_of_add_right_le hl)
    have htake := hstep { s with dbuf := d, j := n, cur := s.cur + escapesBefore isEscape n } he rfl rfl hn
      fun hesc => by rwa [if_pos hesc] at hl
    rw [takeDelta_eq] at htake
    rw [escapesBefore, ← Nat.add_assoc]
    refine ⟨_, runFor_snoc n hrun htake, fun j hlt => ?_⟩
    obtain hlt | rfl := Nat.lt_succ_iff_lt_or_eq.mp hlt
    · rw [slot_set_other _ _ _ _ (Nat.ne_of_gt hlt), hslots j hlt]
    · exact slot_set_same _ _ _ hn

theorem escapesBefore_all (n : Nat) : escapesBefore (fun _ => true) n = n := by
  induction n with
  | zero => rfl
  | succ n ih => simp [escapesBefore, ih]

/-- Settles O31: sixteen steps of `runFor_group`; a mode 3 group is one whose codes are all escapes. -/
theorem groupFillsTheDeltas : Obligations.GroupFillsTheDeltas := by
  intro s he hj
  refine ⟨fun hp hl => ?_, fun hp hl => ?_, fun hp hl => ?_⟩
  · have hstep : StepsTakeDeltas (fun j => decide (code2At s.packed j = 3#2))
        (fun j => (code2At s.packed j).zeroExtend 8) s := fun t het hpt hpk hjt hc => by
      rw [← hpk] at hc ⊢
      exact step_code2 het (hpt.trans hp) hjt fun hcode => hc (decide_eq_true hcode)
    obtain ⟨d, hrun, hslots⟩ := runFor_group hstep he hj 16 (Nat.le_refl 16) hl
    exact ⟨_, hrun, by simpa only [decide_eq_true_eq] using hslots, rfl⟩
  · have hstep : StepsTakeDeltas (fun j => decide (code4At s.packed j = 15#4))
        (fun j => (code4At s.packed j).zeroExtend 8) s := fun t het hpt hpk hjt hc => by
      rw [← hpk] at hc ⊢
      exact step_code4 het (hpt.trans hp) hjt fun hcode => hc (decide_eq_true hcode)
    obtain ⟨d, hrun, hslots⟩ := runFor_group hstep he hj 16 (Nat.le_refl 16) hl
    exact ⟨_, hrun, by simpa only [decide_eq_true_eq] using hslots, rfl⟩
  · have hstep : StepsTakeDeltas (fun _ => true) (fun _ => 0#8) s := fun t het hpt _ hjt hc =>
      step_literal het (hpt.trans hp) hjt (hc rfl) _
    obtain ⟨d, hrun, hslots⟩ := runFor_group hstep he hj 16 (Nat.le_refl 16) (by rwa [escapesBefore_all])
    simp only [escapesBefore_all, if_true] at hrun hslots
    exact ⟨_, hrun, hslots, rfl⟩

end Sys2Proof.Machine
end

section
/-! Proofs of O4, O5, O8, O9 and O11: zigzag, the rolling FIFOs, index writes, the bytes of a varint, and the reads past
the data limit (spec/40_primitives.md R130 to R142, spec/60_exceptions.md R304, R309, R310). -/

namespace Sys2Proof.Machine

/-! ### Zigzag (R130, R131) -/

theorem shiftRight_one_toNat (v : Word) : (v >>> 1).toNat = v.toNat / 2 := by
  rw [BitVec.toNat_ushiftRight, Nat.shiftRight_eq_div_pow, pow_one]

/-- The value by the parity of the argument (R130). -/
theorem zigzag_parity (v : Word) : zigzag v =
    if v.toNat % 2 = 0 then ((v.toNat / 2 : Nat) : Int) else -(((v.toNat / 2 : Nat) : Int) + 1) := by
  simp only [zigzag, shiftRight_one_toNat, BitVec.getLsbD, Nat.testBit_zero, decide_eq_true_eq]
  split_ifs <;> omega

/-- An argument below 2n has a value from -n to n - 1 (R130, R131). -/
theorem zigzag_range (v : Word) {n : Nat} (h : v.toNat < 2 * n) : -(n : Int) ≤ zigzag v ∧ zigzag v < n := by
  rw [zigzag_parity]
  split_ifs <;> omega

theorem and_one_eq (v : Word) : v &&& 1#32 = BitVec.ofNat 32 (v.toNat % 2) := by
  apply BitVec.eq_of_toNat_eq
  rw [BitVec.toNat_and, BitVec.toNat_ofNat]
  have hlt := v.isLt
  exact (Nat.and_one_is_mod _).trans (Nat.mod_eq_of_lt (by omega)).symm

/-- An odd argument gives the complement of its upper bits (R130). -/
theorem zigzag32_pattern (v : Word) : zigzag32 v = (v >>> 1) ^^^ (0#32 - (v &&& 1#32)) := by
  have hupper : BitVec.ofNat 32 (v.toNat / 2) = v >>> 1 := by
    rw [← shiftRight_one_toNat, BitVec.ofNat_toNat, BitVec.setWidth_eq]
  obtain h | h := Nat.mod_two_eq_zero_or_one v.toNat
  · rw [zigzag32, zigzag_parity, and_one_eq, h, if_pos rfl, BitVec.ofInt_natCast, hupper]
    exact BitVec.xor_zero.symm
  · have hneg : -(((v.toNat / 2 : Nat) : Int) + 1) = Int.negSucc (v.toNat / 2) := rfl
    rw [zigzag32, zigzag_parity, and_one_eq, h, if_neg Nat.one_ne_zero, hneg, BitVec.ofInt_negSucc_eq_not_ofNat,
      hupper]
    exact BitVec.xor_allOnes.symm

/-- Settles O4: the parity decides the value, and a byte's value fits a signed byte (`zigzag_range`). -/
theorem zigzagValueAndPattern : Obligations.ZigzagValueAndPattern := by
  refine ⟨fun v => ?_, fun u => ?_⟩
  · obtain ⟨hlow, hhigh⟩ := zigzag_range v (n := 2 ^ 31) v.isLt
    exact ⟨zigzag_parity v, hlow, Int.le_sub_one_of_lt hhigh, zigzag32_pattern v⟩
  · have hu : (u.zeroExtend 32).toNat < 2 * 2 ^ 7 := by
      rw [BitVec.zeroExtend_eq_setWidth, BitVec.toNat_setWidth]
      exact Nat.lt_of_le_of_lt (Nat.mod_le _ _) u.isLt
    obtain ⟨hlow, hhigh⟩ := zigzag_range _ hu
    exact BitVec.toInt_ofInt_eq_self (by decide) hlow hhigh

/-! ### Register files and target indices (R132, R133, R141, R142) -/

/-- Settles O5, by the laws of a shift and of a push. -/
theorem fifoShiftAndPush : Obligations.FifoShiftAndPush :=
  fun _ _ F v n i _ _ hi => ⟨slot_shiftSlots F n i hi, slot_pushSlot F v i hi⟩

/-- Settles O8: an index write is a `tgtWrite` of STRIDE bytes. -/
theorem targetIndexIsLittleEndian : Obligations.TargetIndexIsLittleEndian := by
  intro s j v hw
  obtain ⟨-, hholds, houtside⟩ := tgtWrite_spec (j * s.args.stride.toNat) s.args.stride.toNat v s hw
  exact ⟨hholds, houtside, rfl⟩

/-! ### Varint bytes (R137, R139) -/

theorem exec_varintCont_goesOn (payload : BitVec 7) {s : State} (h : s.vpos < 4) :
    exec (.varintCont payload) s = .next { joinVarint payload s with vpos := s.vpos + 1 } :=
  congrArg Host.Outcome.next (if_pos h)

theorem exec_varintCont_ends (payload : BitVec 7) {s : State} (h : 4 ≤ s.vpos) :
    exec (.varintCont payload) s = .next (endVarint (joinVarint payload s)) :=
  congrArg Host.Outcome.next (if_neg (Nat.not_lt.mpr h))

/-- Settles O9: the position decides whether a byte with CONT goes on. -/
theorem varintBytesJoin : Obligations.VarintBytesJoin := by
  intro s payload
  refine ⟨fun hpos => ?_, fun hpos => ?_, ?_⟩
  · exact ⟨_, exec_varintCont_goesOn payload hpos, rfl, rfl, rfl⟩
  · exact ⟨_, exec_varintCont_ends payload hpos, rfl, rfl, rfl⟩
  · exact ⟨_, rfl, rfl, rfl, rfl⟩

/-! ### Reads past the limit (R135, R304, R310) -/

section
variable {s : State}

/-- A TruncatedSource raised with the data cursor moved on to `c`, as the answer of a step. -/
theorem truncatedAt_next (hw : s.mem.wf = true) {r : Result} {c : Nat}
    (hr : r = .next (raiseTruncated { s with cur := c })) : ∃ t, r = .next t ∧ TruncatedAt c s t :=
  ⟨_, hr, raiseTruncated_truncatedAt _ s c hw rfl⟩

theorem readAuxByte_truncated (x : Bool) (h : s.lim ≤ s.cur) : readAuxByte x s = raiseTruncated s := by
  rw [readAuxByte, readByte_truncated s h]

/-- The operations that read one data byte by themselves (R161, R164, R235, R236). -/
theorem exec_truncated (h : s.lim ≤ s.cur) :
    ∀ i ∈ [Instr.vc2Escape, .vc4Escape, .triNewAux, .triNewAuxVarint], exec i s = .next (raiseTruncated s) := by
  have hescape : (.next (escapeDelta s) : Result) = .next (raiseTruncated s) := congrArg _ ((escapeDelta_spec s).2 h)
  simp only [List.forall_mem_cons, List.not_mem_nil, IsEmpty.forall_iff, implies_true, and_true]
  exact ⟨hescape, hescape, congrArg _ (readAuxByte_truncated false h), congrArg _ (readAuxByte_truncated true h)⟩

/-- The elements that are a data byte themselves (R138, R165). -/
theorem step_byte_truncated (he : s.events = []) (hp : s.phase = .varintByte ∨ (s.phase = .literal ∧ s.j < 16))
    (h : s.lim ≤ s.cur) : step s = .next (raiseTruncated s) := by
  rw [step_eq_run_fetchBlock s he]
  obtain hp | ⟨hp, hj⟩ := hp
  · rw [fetchBlock_varintByte hp, fetchByte_truncated _ h, Fetched.run_move]
  · rw [fetchBlock_literal hp hj, fetchByte_truncated _ h, Fetched.run_move]

theorem headerByteCount_pos {rows : Nat} (h : 1 ≤ rows) : 0 < headerByteCount rows := by
  rw [headerByteCount, groupCount]
  omega

theorem laneHead_truncated (hk : s.k < s.args.stride.toNat) (hrows : 1 ≤ s.blockRows)
    (h : s.lim < s.cur + headerByteCount s.blockRows) :
    laneHead s = raiseTruncated { s with cur := max s.cur s.lim } := by
  rw [laneHead, if_pos hk, readByteList_truncated _ s (headerByteCount_pos hrows) h]

end

/-- Settles O11: each read past the limit is a `raiseTruncated` at the byte that is not there. -/
theorem readsPastTheLimitRaise : Obligations.ReadsPastTheLimitRaise := by
  intro s hw
  refine ⟨fun hc i hi => ?_, fun hc he hp => ?_, fun hc => ?_, fun hc => ?_, fun he hp hk hrows hc => ?_⟩
  · exact truncatedAt_next hw (exec_truncated hc i hi)
  · exact truncatedAt_next hw (step_byte_truncated he hp hc)
  · exact truncatedAt_next hw (congrArg _ ((readPacked_spec 4 .code2 s).2 (by omega) hc))
  · exact truncatedAt_next hw (congrArg _ ((readPacked_spec 8 .code4 s).2 (by omega) hc))
  · refine truncatedAt_next hw ?_
    rw [step_eq_run_fetchBlock s he, fetchBlock_lane hp, Fetched.run_move, laneHead_truncated hk hrows hc]

end Sys2Proof.Machine
end

section
/-! Proofs of O44 and O48: ReadIndexDelta, and the edge triangle whose vertex c comes from a varint, run step by step
(spec/40_primitives.md R140, spec/43_index_decoder.md R225, R230, R231, R242). -/

namespace Sys2Proof.Machine

/-! ### Runs and bytes in a row -/

theorem core_run_add (M : Host.Core) (m n : Nat) {s t : M.State} (h : M.run m s = .next t) :
    M.run (m + n) s = M.run n t := by
  induction m generalizing s with
  | zero =>
    cases h
    rw [Nat.zero_add]
  | succ m ih =>
    rw [Nat.succ_add]
    rw [Host.Core.run] at h ⊢
    cases hs : M.step s with
    | next u => exact ih (by rwa [hs] at h)
    | fault x => rw [hs] at h; cases h
    | refused x => rw [hs] at h; cases h

/-- A run in two parts. -/
theorem runFor_add {m n : Nat} {s t : State} {r : Result} (h : runFor m s = .next t) (hr : runFor n t = r) :
    runFor (m + n) s = r :=
  (core_run_add Sys2Proof.core m n h).trans hr

theorem holdsBytes_append {m : Memory} {a : Nat} {xs ys : List Byte} (h : HoldsBytes m a (xs ++ ys)) :
    HoldsBytes m a xs ∧ HoldsBytes m (a + xs.length) ys := by
  induction xs generalizing a with
  | nil => exact ⟨nofun, h⟩
  | cons x xs ih =>
    obtain ⟨hx, hrest⟩ := holdsBytes_cons h
    obtain ⟨hxs, hys⟩ := ih hrest
    refine ⟨fun i hi => ?_, ?_⟩
    · cases i with
      | zero => exact hx
      | succ i =>
        rw [Nat.add_comm i 1, ← Nat.add_assoc, Nat.add_comm 1 i]
        exact hxs i (Nat.lt_of_succ_lt_succ hi)
    · rwa [Nat.add_assoc, Nat.add_comm 1 xs.length] at hys

/-! ### ReadIndexDelta (R140) -/

section
variable {s : State}

theorem step_indexDelta (he : s.events = []) (hp : s.phase = .indexDelta) : step s = .next (indexDelta s) := by
  rw [step_eq_run_fetchBlock s he, fetchBlock_indexDelta hp, Fetched.run_move]

theorem indexDelta_edgeC (hu : s.vuse = .edgeC) : indexDelta s =
    edgeWithPush s.triA s.triB (s.last + zigzag32 s.vres) { s with last := s.last + zigzag32 s.vres } := by
  rw [indexDelta, hu]

theorem indexDelta_newA (hu : s.vuse = .newA) : indexDelta s = { s with
    last := s.last + zigzag32 s.vres, triA := s.last + zigzag32 s.vres, corner := .b, phase := .aux } := by
  rw [indexDelta, hu]

theorem indexDelta_newCorner (hu : s.vuse = .newCorner) : indexDelta s =
    setCorner (s.last + zigzag32 s.vres) true { s with last := s.last + zigzag32 s.vres, phase := .aux } := by
  rw [indexDelta, hu]

theorem setCorner_b (v : Word) (x : Bool) (hc : s.corner = .b) :
    setCorner v x s = { s with triB := v, pushB := x, corner := .c } := by
  rw [setCorner, hc]

theorem setCorner_c (v : Word) (x : Bool) (hc : s.corner = .c) :
    setCorner v x s = { s with triC := v, pushC := x, phase := .newDone } := by
  rw [setCorner, hc]

/-- A varint of the index decoder has been read, and ReadIndexDelta is to go on. -/
def indexVarintRead (use : VarintUse) (bs : List Byte) (s : State) : State :=
  { s with
    vuse := use, vpos := bs.length - 1, vres := BitVec.ofNat 32 (varintNat bs), cur := s.cur + bs.length
    phase := .indexDelta }

/-- ReadIndexDelta as a whole: a step for each byte of the varint, and one for the use of its value. -/
theorem runFor_indexDelta {use : VarintUse} {bs : List Byte} (hu : use ≠ .sequence) (hbs : IsVarint bs)
    (he : s.events = []) (hm : HoldsBytes s.mem (s.srcAddr s.cur) bs) (hl : s.cur + bs.length ≤ s.lim) :
    runFor (bs.length + 1) (startVarint use s) = .next (indexDelta (indexVarintRead use bs s)) := by
  have hrun := runFor_varint (s := startVarint use s) (acc := 0) hbs.varintFrom he rfl (Nat.two_pow_pos _) rfl hm hl
  have hvalue : 0 + 2 ^ (7 * (startVarint use s).vpos) * varintNat bs = varintNat bs := by
    rw [startVarint_vpos, Nat.mul_zero, Nat.pow_zero, Nat.one_mul, Nat.zero_add]
  have hvpos : (startVarint use s).vpos + (bs.length - 1) = bs.length - 1 := Nat.zero_add _
  have hphase : (if (startVarint use s).vuse = .sequence then Phase.seqValue else .indexDelta) = .indexDelta :=
    if_neg hu
  rw [hvalue, hvpos, hphase] at hrun
  exact runFor_snoc bs.length (t := indexVarintRead use bs s) hrun (step_indexDelta he rfl)

end

/-- Settles O48: the use of the varint decides which vertex the new `last` is. -/
theorem indexDeltaGivesVertex : Obligations.IndexDeltaGivesVertex := by
  rintro s v he hp rfl
  rw [step_indexDelta he hp]
  refine ⟨fun hu => ?_, fun hu hc => ?_, fun hu hc => ?_⟩
  · rw [indexDelta_newA hu]
  · rw [indexDelta_newCorner hu]
    exact congrArg _ (setCorner_b _ _ hc)
  · rw [indexDelta_newCorner hu]
    exact congrArg _ (setCorner_c _ _ hc)

/-! ### TRI_EDGE_VARINT (R230) -/

section
variable {s : State}

/-- A triangle code is decoded and run, the code cursor moved on. -/
theorem step_triangle {b : Byte} {i : Instr} (he : s.events = []) (hp : s.phase = .triangle)
    (ht : s.t < s.args.triCount) (hb : s.mem.read (s.srcAddr s.ccur) = b) (hd : decode (.triangle b) = .ok i) :
    step s = exec i { s with ccur := s.ccur + 1 } := by
  rw [step_eq_run_fetchBlock s he, fetchBlock_triangle hp ht, State.sourceByte, hb]
  exact Fetched.run_element _ hd

theorem decode_triEdgeVarint {b0 : Nibble} (h : b0.toNat ≤ 14) :
    decode (.triangle (b0 ++ 15#4)) = .ok (.triEdgeVarint b0) :=
  encodedOperationsDecodeBack (.triEdgeVarint b0) (decide_eq_true h)

end

/-- Settles O44: the code, then ReadIndexDelta, whose value is the vertex c of an edge triangle. -/
theorem edgeVarintTriangle : Obligations.EdgeVarintTriangle := by
  refine ⟨fun s b0 => rfl, fun s b0 bs he hp ht hb hb0 hw hbs hm hl => ?_⟩
  have hcode := step_triangle he hp ht hb (decode_triEdgeVarint hb0)
  have hdelta := runFor_indexDelta (use := .edgeC) nofun hbs
    (s := { s with ccur := s.ccur + 1, triA := edgeFirst s.ec b0, triB := edgeSecond s.ec b0 }) he hm hl
  have hrun := (runFor_succ (bs.length + 1) hcode).trans hdelta
  rw [indexDelta_edgeC rfl] at hrun
  generalize hdone : edgeWithPush _ _ _ _ = t at hrun
  obtain ⟨-, hvc, hec, htri, hout, hframe⟩ := edgeWithPush_spec _ _ _ _ t (by exact hw) hdone.symm
  refine ⟨t, _, _, _, rfl, rfl, rfl, hrun, congrArg State.last hframe, hvc, hec, htri, hout, ?_⟩
  rw [hframe]
  rfl

end Sys2Proof.Machine
end

section
/-! Proofs of O51 and O52: the triangles with an aux byte, run step by step from their code to NewComplete
(spec/43_index_decoder.md R235 to R244, spec/40_primitives.md R140). -/

namespace Sys2Proof.Machine

/-! ### The nibbles of an aux byte (R235, R238 to R240) -/

/-- The bytes that follow for a nibble: a varint for 15, and none for any other (R239, R240). -/
def NibbleBytes (n : Nibble) (bs : List Byte) : Prop := if n = 15#4 then IsVarint bs else bs = []

/-- The steps of a nibble: its own, and for 15 those of its varint. -/
def nibbleSteps (n : Nibble) (bs : List Byte) : Nat := 1 + if n = 15#4 then bs.length + 1 else 0

/-- `last` after a nibble: its varint's zigzag value is added (R140, R240). -/
def lastAfterNibble (n : Nibble) (bs : List Byte) (last : Word) : Word :=
  if n = 15#4 then last + zigzag32 (BitVec.ofNat 32 (varintNat bs)) else last

/-- `next` after a nibble: it counts a fresh index (R238). -/
def nextAfterNibble (n : Nibble) (next : Word) : Word := if n = 0#4 then next + 1#32 else next

/-- The vertex of a nibble, from the next fresh index and the new `last` (R238 to R240). -/
def nibbleVertex (n : Nibble) (fresh last : Word) (vc : Vector Word 16) : Word :=
  if n = 0#4 then fresh else if n = 15#4 then last else slot vc (n.toNat - 1)

/-- The vertex of a nibble is taken, as b or c, with its varint read. -/
def takeNibble (n : Nibble) (bs : List Byte) (s : State) : State :=
  setCorner (nibbleVertex n s.next (lastAfterNibble n bs s.last) s.vc) (decide (n = 0#4 ∨ n = 15#4)) { s with
    next := nextAfterNibble n s.next
    last := lastAfterNibble n bs s.last
    cur := s.cur + bs.length
    vuse := if n = 15#4 then .newCorner else s.vuse
    vpos := if n = 15#4 then bs.length - 1 else s.vpos
    vres := if n = 15#4 then BitVec.ofNat 32 (varintNat bs) else s.vres }

/-- The block stands at the nibble of b of an aux byte, and the varints of its nibbles are next in the data. -/
structure AtNibbles (z w : Nibble) (vb vc : List Byte) (s : State) : Prop where
  events : s.events = []
  phase : s.phase = .aux
  corner : s.corner = .b
  entry : s.entry = z ++ w
  bytesB : NibbleBytes z vb
  bytesC : NibbleBytes w vc
  held : HoldsBytes s.mem (s.srcAddr s.cur) (vb ++ vc)
  inData : s.cur + (vb ++ vc).length ≤ s.lim

section
variable {s : State}

theorem step_aux {n : Nibble} (he : s.events = []) (hp : s.phase = .aux)
    (hn : (if s.corner = .b then highNibble s.entry else lowNibble s.entry) = n) : step s = exec (decodeAux n) s := by
  rw [step_eq_run_fetchBlock s he, fetchBlock_aux hp, hn]
  exact Fetched.run_element s rfl

theorem takeNibble_fresh : takeNibble 0#4 [] s = freshCorner s := rfl

theorem takeNibble_varint (bs : List Byte) (hp : s.phase = .aux) :
    takeNibble 15#4 bs s = indexDelta (indexVarintRead .newCorner bs s) := by
  have hs : { s with phase := .aux } = s := by rw [← hp]
  rw [indexDelta_newCorner rfl, ← hs]
  rfl

theorem takeNibble_cached {n : Nibble} (h0 : n ≠ 0#4) (h15 : n ≠ 15#4) : takeNibble n [] s = cachedCorner n s := by
  simp only [takeNibble, nibbleVertex, lastAfterNibble, nextAfterNibble, h0, h15, if_false, or_self, decide_false]
  rfl

/-- A nibble and its varint give the corner's vertex. -/
theorem runFor_takeNibble {n : Nibble} {bs : List Byte} (he : s.events = []) (hp : s.phase = .aux)
    (hn : (if s.corner = .b then highNibble s.entry else lowNibble s.entry) = n) (hbs : NibbleBytes n bs)
    (hm : HoldsBytes s.mem (s.srcAddr s.cur) bs) (hl : s.cur + bs.length ≤ s.lim) :
    runFor (nibbleSteps n bs) s = .next (takeNibble n bs s) := by
  have hstep := step_aux he hp hn
  unfold NibbleBytes at hbs
  by_cases h15 : n = 15#4
  · subst h15
    rw [nibbleSteps, if_pos rfl, Nat.add_comm 1]
    exact (runFor_succ _ hstep).trans ((runFor_indexDelta (use := .newCorner) nofun hbs he hm hl).trans
      (congrArg _ (takeNibble_varint bs hp).symm))
  · rw [if_neg h15] at hbs
    subst hbs
    rw [nibbleSteps, if_neg h15, runFor_one, hstep]
    by_cases h0 : n = 0#4
    · subst h0
      rw [takeNibble_fresh]
      rfl
    · rw [decodeAux, if_neg h0, if_neg h15, takeNibble_cached h0 h15]
      rfl

/-- b and c are taken, and the triangle is to end. -/
def takeNibbles (z w : Nibble) (vb vc : List Byte) (s : State) : State :=
  { s with
    next := nextAfterNibble w (nextAfterNibble z s.next)
    last := lastAfterNibble w vc (lastAfterNibble z vb s.last)
    cur := s.cur + (vb ++ vc).length
    triB := nibbleVertex z s.next (lastAfterNibble z vb s.last) s.vc
    triC := nibbleVertex w (nextAfterNibble z s.next) (lastAfterNibble w vc (lastAfterNibble z vb s.last)) s.vc
    pushB := decide (z = 0#4 ∨ z = 15#4)
    pushC := decide (w = 0#4 ∨ w = 15#4)
    corner := .c
    vuse := if z = 15#4 ∨ w = 15#4 then .newCorner else s.vuse
    vpos := if w = 15#4 then vc.length - 1 else if z = 15#4 then vb.length - 1 else s.vpos
    vres := if w = 15#4 then BitVec.ofNat 32 (varintNat vc)
      else if z = 15#4 then BitVec.ofNat 32 (varintNat vb) else s.vres
    phase := .newDone }

theorem takeNibble_takeNibble (z w : Nibble) (vb vc : List Byte) (hc : s.corner = .b) :
    takeNibble w vc (takeNibble z vb s) = takeNibbles z w vb vc s := by
  have huse : (if w = 15#4 then VarintUse.newCorner else if z = 15#4 then .newCorner else s.vuse) =
      if z = 15#4 ∨ w = 15#4 then .newCorner else s.vuse :=
    (ite_or _ _ _ _).symm.trans (if_congr or_comm rfl rfl)
  have hb : takeNibble z vb s = _ := setCorner_b _ _ hc
  rw [takeNibbles, hb, ← huse, List.length_append, ← Nat.add_assoc]
  exact setCorner_c _ _ rfl

/-- Both nibbles of the aux byte, with their varints. -/
theorem runFor_takeNibbles {z w : Nibble} {vb vc : List Byte} (h : AtNibbles z w vb vc s) :
    runFor (nibbleSteps z vb + nibbleSteps w vc) s = .next (takeNibbles z w vb vc s) := by
  obtain ⟨he, hp, hc, hentry, hvb, hvc, hm, hl⟩ := h
  have hhigh : highNibble s.entry = z := by rw [hentry]; exact BitVec.extractLsb'_append_eq_left
  have hlow : lowNibble s.entry = w := by rw [hentry]; exact BitVec.extractLsb'_append_eq_right
  obtain ⟨hmb, hmc⟩ := holdsBytes_append hm
  rw [List.length_append, ← Nat.add_assoc] at hl
  have hb := runFor_takeNibble he hp (by rw [if_pos hc, hhigh]) hvb hmb (Nat.le_of_add_right_le hl)
  rw [← takeNibble_takeNibble z w vb vc hc]
  refine runFor_add hb ?_
  have hstate : takeNibble z vb s = _ := setCorner_b _ _ hc
  rw [hstate]
  exact runFor_takeNibble he hp hlow hvc (by rwa [State.srcAddr, Nat.add_assoc] at hmc) hl

/-! ### The end of a new-path triangle (R232, R235, R241) -/

theorem step_newDone (he : s.events = []) (hp : s.phase = .newDone) : step s = .next (newDone s) := by
  rw [step_eq_run_fetchBlock s he, fetchBlock_newDone hp, Fetched.run_move]

theorem pushVertex_frame (v : Word) (s : State) : pushVertex v s = { s with vc := (pushVertex v s).vc } := rfl

/-- A vertex is pushed where the flag says so, and nothing else changes. -/
theorem pushVertexIf_spec (x : Bool) (v : Word) (s : State) :
    ∃ vc, (if x then pushVertex v s else s) = { s with vc := vc } ∧
      if x then VertexPushed s.vc vc v else vc = s.vc := by
  cases x with
  | false => exact ⟨s.vc, rfl, rfl⟩
  | true => exact ⟨_, pushVertex_frame v s, pushVertex_spec v s⟩

/-- The pushes, a first, then the edges and the indices, and nothing else. -/
theorem newDone_spec (s t : State) (hw : s.mem.wf = true) (ht : t = newDone s) :
    ∃ v1 v2, VertexPushed s.vc v1 s.triA ∧ (if s.pushB then VertexPushed v1 v2 s.triB else v2 = v1) ∧
      (if s.pushC then VertexPushed v2 t.vc s.triC else t.vc = v2) ∧
      EdgesPushed s.ec t.ec [s.triA, s.triC, s.triC, s.triB, s.triB, s.triA] ∧
      HoldsTriangle s t s.triA s.triB s.triC ∧
      MemUnchangedOutside (s.dstAddr (3 * s.t * s.args.stride.toNat)) (3 * s.args.stride.toNat) s t ∧
      t = { s with vc := t.vc, ec := t.ec, mem := t.mem, t := s.t + 1, phase := .triangle } := by
  obtain ⟨v2, hs2, hv2⟩ := pushVertexIf_spec s.pushB s.triB (pushVertex s.triA s)
  obtain ⟨v3, hs3, hv3⟩ := pushVertexIf_spec s.pushC s.triC { pushVertex s.triA s with vc := v2 }
  have hnew : t = newComplete s.triA s.triB s.triC { s with vc := v3 } := by
    rw [ht, newDone, hs2, hs3]
    rfl
  obtain ⟨-, hec, htri, hout, hframe⟩ := newComplete_spec _ _ _ { s with vc := v3 } t hw hnew
  have hvc : t.vc = v3 := congrArg State.vc hframe
  rw [← hvc] at hv3 hframe
  exact ⟨_, v2, pushVertex_spec s.triA s, hv2, hv3, hec, htri, hout, hframe⟩

/-! ### The aux byte, and the vertex a (R235 to R237) -/

theorem readAuxByte_ok (x : Bool) (h : s.cur < s.lim) : readAuxByte x s = { s with
    entry := s.mem.read (s.srcAddr s.cur), cur := s.cur + 1, aFromVarint := x, phase := .auxByte } := by
  rw [readAuxByte, readByte_ok s h]

/-- An aux byte 0x00 restarts `next`, and any other leaves it (R237). -/
theorem step_auxByte (he : s.events = []) (hp : s.phase = .auxByte) :
    step s = .next { s with next := if s.entry = 0#8 then 0#32 else s.next, phase := .takeA } := by
  rw [step_eq_run_fetchBlock s he, fetchBlock_auxByte hp]
  split_ifs with hentry
  · have hd : decode (.auxByte s.entry) = .ok .auxRestart := hentry ▸ decodeAuxByte_zero
    exact Fetched.run_element s hd
  · exact Fetched.run_element_error s (decodeAuxByte_ne_zero hentry)

theorem step_takeA (he : s.events = []) (hp : s.phase = .takeA) : step s = .next (takeA s) := by
  rw [step_eq_run_fetchBlock s he, fetchBlock_takeA hp, Fetched.run_move]

theorem nibbles_append_eq_zero (z w : Nibble) : (z ++ w : Byte) = 0#8 ↔ z = 0#4 ∧ w = 0#4 := by
  revert z w
  decide

/-- A code 0xFE or 0xFF and its aux byte have been read, and the vertex a is to be taken. -/
def auxByteRead (z w : Nibble) (aFromVarint : Bool) (s : State) : State :=
  { s with
    next := if z = 0#4 ∧ w = 0#4 then 0#32 else s.next
    cur := s.cur + 1
    ccur := s.ccur + 1
    entry := z ++ w
    aFromVarint := aFromVarint
    phase := .takeA }

/-- A code 0xFE, or 0xFF where a comes from a varint, reads its aux byte (R235, R236). -/
theorem step_auxCode (x : Bool) (he : s.events = []) (hp : s.phase = .triangle) (ht : s.t < s.args.triCount)
    (hb : s.mem.read (s.srcAddr s.ccur) = if x then 0xFF#8 else 0xFE#8) :
    step s = .next (readAuxByte x { s with ccur := s.ccur + 1 }) := by
  cases x with
  | false => exact step_triangle he hp ht hb rfl
  | true => exact step_triangle he hp ht hb rfl

theorem runFor_auxByteRead {x : Bool} {z w : Nibble} (he : s.events = []) (hp : s.phase = .triangle)
    (ht : s.t < s.args.triCount) (hb : s.mem.read (s.srcAddr s.ccur) = if x then 0xFF#8 else 0xFE#8)
    (hc : s.cur < s.lim) (hentry : s.mem.read (s.srcAddr s.cur) = z ++ w) :
    runFor 2 s = .next (auxByteRead z w x s) := by
  have hread := readAuxByte_ok (s := { s with ccur := s.ccur + 1 }) x hc
  have hcode := (step_auxCode x he hp ht hb).trans (congrArg _ hread)
  have hnext : (if s.mem.read (s.srcAddr s.cur) = 0#8 then 0#32 else s.next) =
      if z = 0#4 ∧ w = 0#4 then 0#32 else s.next := by
    rw [hentry]
    exact if_congr (nibbles_append_eq_zero z w) rfl rfl
  rw [auxByteRead, ← hnext, ← hentry]
  exact (runFor_succ 1 hcode).trans ((runFor_one _).trans (step_auxByte he rfl))

/-! ### The triangles of codes 0xFE and 0xFF as wholes (R235, R236, R243, R244) -/

/-- From the nibble of b on: both nibbles, and the end of the triangle. -/
theorem runFor_fromNibbles {z w : Nibble} {vb vc : List Byte} (h : AtNibbles z w vb vc s) :
    runFor (nibbleSteps z vb + nibbleSteps w vc + 1) s = .next (newDone (takeNibbles z w vb vc s)) :=
  runFor_snoc _ (runFor_takeNibbles h) (step_newDone h.events rfl)

/-- `newDone_spec` for the vertices of the two nibbles: those of nibbles 0 and 15 are pushed (R244). -/
theorem newDone_takeNibbles_spec {z w : Nibble} {vb vc : List Byte} {t u : State} (hw : s.mem.wf = true)
    (hu : u = takeNibbles z w vb vc s) (ht : t = newDone u) :
    ∃ v1 v2, VertexPushed s.vc v1 s.triA ∧
      (if z = 0#4 ∨ z = 15#4 then VertexPushed v1 v2 u.triB else v2 = v1) ∧
      (if w = 0#4 ∨ w = 15#4 then VertexPushed v2 t.vc u.triC else t.vc = v2) ∧
      EdgesPushed s.ec t.ec [s.triA, u.triC, u.triC, u.triB, u.triB, s.triA] ∧
      HoldsTriangle s t s.triA u.triB u.triC ∧
      MemUnchangedOutside (s.dstAddr (3 * s.t * s.args.stride.toNat)) (3 * s.args.stride.toNat) s t ∧
      t = { u with vc := t.vc, ec := t.ec, mem := t.mem, t := s.t + 1, phase := .triangle } := by
  subst hu
  obtain ⟨v1, v2, ha, hb, hc, hrest⟩ := newDone_spec (takeNibbles z w vb vc s) t hw ht
  refine ⟨v1, v2, ha, ?_, ?_, hrest⟩
  · rwa [takeNibbles, if_congr decide_eq_true_iff rfl rfl] at hb
  · rwa [takeNibbles, if_congr decide_eq_true_iff rfl rfl] at hc

theorem nextAfterNibble_eq (n : Nibble) (next : Word) :
    nextAfterNibble n next = next + if n = 0#4 then 1#32 else 0#32 := by
  unfold nextAfterNibble
  split_ifs
  · rfl
  · exact (BitVec.add_zero next).symm

end

/-- Settles O51: the aux byte, a fresh a, and the rest from the nibbles on (`runFor_fromNibbles`). -/
theorem newAuxTriangle : Obligations.NewAuxTriangle := by
  rintro s z w vb vc first lastB lastC he hp ht hw hb hentry hvb hvc hm hl rfl rfl rfl
  have haux := runFor_auxByteRead (x := false) he hp ht hb (by omega) hentry
  have ha := runFor_snoc 2 haux (step_takeA he rfl)
  have hat : AtNibbles z w vb vc (takeA (auxByteRead z w false s)) := ⟨he, rfl, rfl, rfl, hvb, hvc, hm, hl⟩
  have hrun := runFor_add ha (runFor_fromNibbles hat)
  have hsteps : 2 + 1 + (nibbleSteps z vb + nibbleSteps w vc + 1) =
      6 + (if z = 15#4 then vb.length + 1 else 0) + (if w = 15#4 then vc.length + 1 else 0) := by
    unfold nibbleSteps
    omega
  rw [hsteps] at hrun
  generalize hdone : newDone _ = t at hrun
  obtain ⟨v1, v2, hpushA, hpushB, hpushC, hec, htri, hout, hframe⟩ :=
    newDone_takeNibbles_spec (s := takeA (auxByteRead z w false s)) hw rfl hdone.symm
  refine ⟨t, v1, v2, _, _, _, rfl, rfl, ?vertexC, hrun, ?next, hec, htri, hout, hpushA, hpushB, hpushC, ?varint,
    ?frame⟩
  case vertexC => exact if_congr Iff.rfl (if_congr Iff.rfl (BitVec.add_assoc _ 1#32 1#32) rfl) rfl
  case next =>
    rw [← nextAfterNibble_eq, ← nextAfterNibble_eq]
    exact congrArg State.next hframe
  case varint =>
    intro hz15 hw15
    rw [hframe]
    exact ⟨(if_neg hw15).trans (if_neg hz15), (if_neg hw15).trans (if_neg hz15)⟩
  case frame =>
    rw [hframe]
    rfl

/-- Settles O52: the aux byte, a from its varint, and the rest from the nibbles on (`runFor_fromNibbles`). -/
theorem newAuxVarintTriangle : Obligations.NewAuxVarintTriangle := by
  rintro s z w va vb vc first lastA lastB lastC he hp ht hw hb hentry hva hvb hvc hm hl rfl rfl rfl rfl
  rw [List.append_assoc] at hm hl ⊢
  obtain ⟨hma, hmbc⟩ := holdsBytes_append hm
  rw [List.length_append, ← Nat.add_assoc] at hl
  have haux := runFor_auxByteRead (x := true) he hp ht hb (by omega) hentry
  have htake := runFor_snoc 2 haux (step_takeA he rfl)
  have ha := runFor_add htake (runFor_indexDelta (s := auxByteRead z w true s) (use := .newA) nofun hva he hma
    (Nat.le_of_add_right_le hl))
  rw [indexDelta_newA rfl] at ha
  have hrun := runFor_add ha (runFor_fromNibbles (z := z) (w := w)
    ⟨he, rfl, rfl, rfl, hvb, hvc, by rwa [State.srcAddr, Nat.add_assoc] at hmbc, hl⟩)
  have hsteps : 2 + 1 + (va.length + 1) + (nibbleSteps z vb + nibbleSteps w vc + 1) =
      7 + va.length + (if z = 15#4 then vb.length + 1 else 0) + (if w = 15#4 then vc.length + 1 else 0) := by
    unfold nibbleSteps
    omega
  rw [hsteps] at hrun
  generalize hdone : newDone _ = t at hrun
  obtain ⟨v1, v2, hpushA, hpushB, hpushC, hec, htri, hout, hframe⟩ :=
    newDone_takeNibbles_spec (by exact hw) rfl hdone.symm
  refine ⟨t, v1, v2, _, _, _, rfl, rfl, ?vertexC, hrun, ?next, hec, htri, hout, hpushA, hpushB, hpushC, ?frame⟩
  case vertexC => rfl
  case next =>
    rw [← nextAfterNibble_eq, ← nextAfterNibble_eq]
    exact congrArg State.next hframe
  case frame =>
    rw [List.length_append, ← Nat.add_assoc, hframe]
    rfl

end Sys2Proof.Machine
end

section
/-! Proofs of O7, O26 to O30, O32 and O33: the geometry of blocks and groups, the initial states, the group modes and
codes, ApplyGroup, and the loop heads (spec/41_vertex_decoder.md R150 to R168, spec/43_index_decoder.md R220, R223,
spec/44_index_sequence.md R270 to R272, spec/70_reset_and_hazards.md R345). -/

namespace Sys2Proof.Machine

/-! ### Blocks, groups and header bytes (R152 to R154) -/

theorem attrBlockMaxElementCount_le (s : Nat) : attrBlockMaxElementCount s ≤ 256 := Nat.min_le_right _ _

theorem attrBlockMaxElementCount_mod (s : Nat) : attrBlockMaxElementCount s % 16 = 0 := by
  rw [attrBlockMaxElementCount]
  omega

/-- Every admissible block size is at most the formula's (R152). -/
theorem le_attrBlockMaxElementCount {s n : Nat} (hs : 1 ≤ s) (h16 : n % 16 = 0) (h256 : n ≤ 256)
    (hfit : n * s ≤ 8192) : n ≤ attrBlockMaxElementCount s := by
  have hdiv : n ≤ 8192 / s := (Nat.le_div_iff_mul_le hs).mpr hfit
  rw [attrBlockMaxElementCount]
  omega

theorem sixteen_le_attrBlockMaxElementCount {s : Nat} (hs : 1 ≤ s) (h512 : s ≤ 512) :
    16 ≤ attrBlockMaxElementCount s :=
  le_attrBlockMaxElementCount hs rfl (by decide) (by omega)

/-- The rows of a block fit in 8192 bytes (R152). -/
theorem attrBlockMaxElementCount_mul_le (s : Nat) : attrBlockMaxElementCount s * s ≤ 8192 := by
  have hle : attrBlockMaxElementCount s ≤ 8192 / s := by
    rw [attrBlockMaxElementCount]
    omega
  exact (Nat.mul_le_mul_right s hle).trans (Nat.div_mul_le_self 8192 s)

/-- The groups of a block are the least number that holds its rows (R154). -/
theorem groupCount_bounds {rows : Nat} (h : 1 ≤ rows) (h256 : rows ≤ 256) :
    1 ≤ groupCount rows ∧ groupCount rows ≤ 16 ∧ 16 * (groupCount rows - 1) < rows ∧
      rows ≤ 16 * groupCount rows := by
  rw [groupCount]
  omega

/-- The header bytes of a block and lane are the least number that holds its groups' modes (R154). -/
theorem headerByteCount_bounds {rows : Nat} (h : 1 ≤ rows) (h256 : rows ≤ 256) :
    1 ≤ headerByteCount rows ∧ headerByteCount rows ≤ 4 ∧ 4 * (headerByteCount rows - 1) < groupCount rows ∧
      groupCount rows ≤ 4 * headerByteCount rows := by
  obtain ⟨hpos, hle, -, -⟩ := groupCount_bounds h h256
  rw [headerByteCount]
  omega

theorem blockRows_le (s : State) : s.blockRows ≤ attrBlockMaxElementCount s.args.stride.toNat := Nat.min_le_left _ _

/-- The current block ends at the last row or before it (R150, R153). -/
theorem blockBase_add_blockRows_le {s : State} (h : s.blockBase ≤ s.args.count.toNat) :
    s.blockBase + s.blockRows ≤ s.args.count.toNat := by
  rw [State.blockRows]
  omega

/-- A block that does not reach the last row is a full one (R153). -/
theorem blockRows_eq_of_lt {s : State} (h : s.blockBase + s.blockRows < s.args.count.toNat) :
    s.blockRows = attrBlockMaxElementCount s.args.stride.toNat := by
  rw [State.blockRows] at h ⊢
  omega

/-- Settles O7: the sizes are least and greatest by the rounding of their divisions. -/
theorem blockGeometry : Obligations.BlockGeometry := by
  refine ⟨fun s h1 h512 => ⟨attrBlockMaxElementCount_mod s, sixteen_le_attrBlockMaxElementCount h1 h512,
    attrBlockMaxElementCount_le s, attrBlockMaxElementCount_mul_le s,
    fun n h16 h256 hfit => le_attrBlockMaxElementCount h1 h16 h256 hfit, fun rows hpos hrows => ?_⟩,
    fun s hb => ⟨blockBase_add_blockRows_le hb, blockRows_le s, blockRows_eq_of_lt⟩⟩
  have h256 : rows ≤ 256 := hrows.trans (attrBlockMaxElementCount_le s)
  obtain ⟨hg1, hg16, hgLeast, hgHolds⟩ := groupCount_bounds hpos h256
  exact ⟨hg1, hg16, hgLeast, hgHolds, headerByteCount_bounds hpos h256⟩

/-! ### Bytes read into a register file -/

theorem memory_readBytes_getD (m : Memory) (a : Nat) {n i : Nat} (h : i < n) :
    (m.readBytes a n).getD i 0#8 = m.read (a + i) := by
  induction n generalizing a i with
  | zero => exact absurd h (Nat.not_lt_zero i)
  | succ n ih =>
    cases i with
    | zero => rfl
    | succ i =>
      rw [Memory.readBytes, List.getD_cons_succ, ih (a + 1) (Nat.lt_of_succ_lt_succ h), Nat.add_assoc, Nat.add_comm 1 i]

/-- The first `n` slots of a file take `n` bytes of the source in order (R154, R159, R162). -/
theorem slot_putSlots_readBytes {size : Nat} (v : Vector Byte size) (s : State) (off n : Nat) {i : Nat}
    (hi : i < size) : slot (putSlots v 0 (s.mem.readBytes (s.srcAddr off) n)) i =
      if i < n then s.mem.read (s.srcAddr (off + i)) else slot v i := by
  rw [slot_putSlots _ _ _ _ hi, memory_readBytes_length, Nat.zero_add, Nat.sub_zero]
  by_cases hn : i < n
  · rw [if_pos ⟨Nat.zero_le i, hn⟩, if_pos hn, memory_readBytes_getD _ _ hn, State.srcAddr, State.srcAddr,
      Nat.add_assoc]
  · rw [if_neg (fun h => hn h.2), if_neg hn]

/-! ### The initial states (R155, R223, R272, R345) -/

/-- The reference row is loaded lane by lane (R155). -/
theorem slot_loadReference (s : State) (n : Nat) (acc : Vector Byte 512) (k : Nat) {i : Nat} (hi : i < 512) :
    slot (loadReference s acc k n) i =
      if k ≤ i ∧ i < k + n then s.sourceByte (s.args.srcLen.toNat - s.args.stride.toNat + i) else slot acc i := by
  induction n generalizing acc k with
  | zero => rw [loadReference, if_neg (by omega)]
  | succ n ih =>
    rw [loadReference, ih]
    obtain rfl | hne := eq_or_ne k i
    · rw [if_neg (by omega), if_pos (by omega), slot_set_same _ _ _ hi]
    · rw [slot_set_other _ _ _ _ hne]
      exact if_congr (by omega) rfl rfl

/-- Checks that find no error lead to the command's initial state (R306, R345). -/
theorem step_checks_none {s : State} (he : s.events = []) (hp : s.phase = .checks) (hc : commandCheck s = none) :
    step s = .next (initCommand s) := by
  rw [step_eq_run_fetchBlock s he, fetchBlock_checks hp, Fetched.run_move, runChecks, hc]

theorem initCommand_vertex {s : State} (h : s.args.cmd = .vertex) : initCommand s = initVertex s := by
  rw [initCommand, h]

theorem initCommand_index {s : State} (h : s.args.cmd = .index) : initCommand s = initIndex s := by
  rw [initCommand, h]

theorem initCommand_sequence {s : State} (h : s.args.cmd = .sequence) : initCommand s = initSequence s := by
  rw [initCommand, h]

/-- Settles O26, command by command; the accumulators by `slot_loadReference`. -/
theorem initialStateOfCommands : Obligations.InitialStateOfCommands := by
  intro s he hp hc
  refine ⟨_, step_checks_none he hp hc, fun hcmd => ?_, fun hcmd => ?_, fun hcmd => ?_⟩
  · rw [initCommand_vertex hcmd]
    refine ⟨fun k hk => ?_, rfl⟩
    rw [initVertex, slot_loadReference _ _ _ _ hk, Nat.zero_add]
    exact if_congr (and_iff_right (Nat.zero_le k)) rfl rfl
  · rw [initCommand_index hcmd]
    exact ⟨fun i hi => slot_replicate _ i hi, fun i hi => slot_replicate _ i hi, rfl⟩
  · rw [initCommand_sequence hcmd]
    rfl

/-! ### The group modes (R158 to R165) -/

theorem exec_vgMode0Zero (s : State) :
    exec .vgMode0Zero s = .next { s with dbuf := Vector.replicate 16 0#8, phase := .apply } := rfl

/-- Settles O27. -/
theorem zeroAndLiteralModes : Obligations.ZeroAndLiteralModes :=
  fun s => ⟨⟨_, exec_vgMode0Zero s, fun j hj => slot_replicate _ j hj, rfl⟩, rfl⟩

/-- A group whose packed bytes lie below the limit reads them (R159, R162). -/
theorem readPacked_outcome {n : Nat} (codes : Phase) {s : State} {r : Result} (hr : r = .next (readPacked n codes s))
    (h : s.cur + n ≤ s.lim) : ∃ t, r = .next t ∧
      (∀ i, i < 8 → slot t.packed i = if i < n then s.mem.read (s.srcAddr (s.cur + i)) else slot s.packed i) ∧
      t = { s with packed := t.packed, j := 0, cur := s.cur + n, phase := codes } := by
  rw [(readPacked_spec n codes s).1 h] at hr
  exact ⟨_, hr, fun i hi => slot_putSlots_readBytes s.packed s s.cur n hi, rfl⟩

/-- Settles O28: four packed bytes, and eight, which fill the packed file. -/
theorem packedModesReadTheirBytes : Obligations.PackedModesReadTheirBytes := by
  intro s
  refine ⟨fun hc => readPacked_outcome .code2 rfl hc, fun hc => ?_⟩
  obtain ⟨t, ht, hslots, hframe⟩ := readPacked_outcome .code4 (s := s) (r := exec .vgMode2FourBit s) rfl hc
  exact ⟨t, ht, fun i hi => (hslots i hi).trans (if_pos hi), hframe⟩

/-! ### The codes of a group (R160 to R165) -/

/-- An operation that puts one delta changes that delta alone, and goes on to the next (R160, R163, R165). -/
theorem putDelta_outcome {s : State} {r : Result} {x : Byte} (hr : r = .next (putDelta x s)) (hj : s.j < 16) :
    ∃ t, r = .next t ∧ slot t.dbuf s.j = x ∧ (∀ i, i ≠ s.j → slot t.dbuf i = slot s.dbuf i) ∧
      t = { s with dbuf := t.dbuf, j := s.j + 1 } :=
  ⟨_, hr, putDelta_spec x s hj⟩

theorem zeroExtend_toNat_of_le {w : Nat} (c : BitVec w) (hw : w ≤ 8) : (c.zeroExtend 8).toNat = c.toNat := by
  rw [BitVec.zeroExtend_eq_setWidth, BitVec.toNat_setWidth_of_le hw]

/-- Settles O29: each puts its own value. -/
theorem codesAreTheirDelta : Obligations.CodesAreTheirDelta := by
  intro s hj
  refine ⟨fun c _ => ?_, fun c _ => ?_, fun z => putDelta_outcome rfl hj⟩
  · obtain ⟨t, ht, hslot, hframe⟩ := putDelta_outcome (r := exec (.vc2Value c) s) rfl hj
    exact ⟨t, ht, hslot ▸ zeroExtend_toNat_of_le c (by decide), hframe⟩
  · obtain ⟨t, ht, hslot, hframe⟩ := putDelta_outcome (r := exec (.vc4Value c) s) rfl hj
    exact ⟨t, ht, hslot ▸ zeroExtend_toNat_of_le c (by decide), hframe⟩

theorem exec_escape (s : State) : ∀ i ∈ [Instr.vc2Escape, Instr.vc4Escape], exec i s = .next (escapeDelta s) := by
  simp only [List.forall_mem_cons, List.not_mem_nil, IsEmpty.forall_iff, implies_true, and_true]
  exact ⟨rfl, rfl⟩

/-- Settles O30: both escapes are `escapeDelta`, which below the limit puts the byte at the cursor. -/
theorem escapesTakeTheNextByte : Obligations.EscapesTakeTheNextByte := by
  intro s hj hc i hi
  have hexec := exec_escape s i hi
  rw [(escapeDelta_spec s).1 hc] at hexec
  obtain ⟨t, ht, hslot, hothers, hframe⟩ := putDelta_outcome hexec hj
  exact ⟨t, ht, hslot, hothers, hframe⟩

/-! ### ApplyGroup (R166, R167) -/

/-- The address of the current lane in row `j` of the current group (R166). -/
def State.groupAddr (s : State) (j : Nat) : Nat :=
  s.dstAddr ((s.blockBase + (16 * s.g + j)) * s.args.stride.toNat + s.k)

/-- Rows of a group have different addresses. -/
theorem groupAddr_injective {s : State} (hk : s.k < s.args.stride.toNat) : Function.Injective s.groupAddr := by
  intro i j h
  have hmul : (s.blockBase + (16 * s.g + i)) * s.args.stride.toNat =
      (s.blockBase + (16 * s.g + j)) * s.args.stride.toNat := by
    rw [State.groupAddr, State.groupAddr, State.dstAddr, State.dstAddr] at h
    omega
  have hrow := Nat.eq_of_mul_eq_mul_right (by omega) hmul
  omega

/-- From `s` to `t` the first `n` deltas of the group are applied: each row in the block holds its running sum, and
nothing but the lane's accumulator, those bytes, and the highest row reached changes (R166). -/
structure DeltasApplied (s : State) (n : Nat) (t : State) : Prop where
  wf : t.mem.wf = true
  rows : ∀ j, j < n → 16 * s.g + j < s.blockRows →
    t.mem.read (s.groupAddr j) = slot s.acc s.k + deltaSum s.dbuf (j + 1)
  others : ∀ a, (∀ j, j < n → 16 * s.g + j < s.blockRows → a ≠ s.groupAddr j) → t.mem.read a = s.mem.read a
  lane : slot t.acc s.k = slot s.acc s.k + deltaSum s.dbuf (min n (s.blockRows - 16 * s.g))
  lanes : ∀ i, i ≠ s.k → slot t.acc i = slot s.acc i
  frame : t = { s with acc := t.acc, row := t.row, mem := t.mem }

theorem deltasApplied_zero {s : State} (hw : s.mem.wf = true) : DeltasApplied s 0 s where
  wf := hw
  rows := fun _ hj => absurd hj (Nat.not_lt_zero _)
  others := fun _ _ => rfl
  lane := by rw [Nat.zero_min, deltaSum, BitVec.add_zero]
  lanes := fun _ _ => rfl
  frame := rfl

/-- A delta whose row is in the block is added to the accumulator, and the sum is written (R166). -/
theorem DeltasApplied.inBlock {s t : State} {n : Nat} (h : DeltasApplied s n t) (hk : s.k < s.args.stride.toNat)
    (hk512 : s.k < 512) (hr : 16 * s.g + n < s.blockRows) : DeltasApplied s (n + 1) (applyDelta n t) := by
  obtain ⟨hwf, hrows, hothers, hlane, hlanes, hframe⟩ := h
  generalize t.acc = acc, t.row = row, t.mem = mem at *
  subst hframe
  have hsum : slot acc s.k + zigzag8 (slot s.dbuf n) = slot s.acc s.k + deltaSum s.dbuf (n + 1) := by
    rw [hlane, Nat.min_eq_left (by omega), deltaSum, BitVec.add_assoc]
  obtain ⟨hwf', hin, -⟩ := applyDelta_spec n { s with acc := acc, row := row, mem := mem } hwf
  rw [hin hr] at hwf' ⊢
  refine ⟨hwf', fun j hj hjr => ?_, fun a ha => ?_, ?_, fun i hi => ?_, rfl⟩
  · obtain hlt | rfl := Nat.lt_succ_iff_lt_or_eq.mp hj
    · refine (memory_read_write_other _ _ _ _ ?_).trans (hrows j hlt hjr)
      exact (groupAddr_injective hk).ne (Nat.ne_of_lt hlt)
    · exact (memory_read_write_same _ _ _ hwf).trans hsum
  · refine (memory_read_write_other _ _ _ _ (ha n (Nat.lt_succ_self n) hr)).trans (hothers a fun j hj => ?_)
    exact ha j (Nat.lt_succ_of_lt hj)
  · refine (slot_set_same _ _ _ hk512).trans ?_
    rw [Nat.min_eq_left (by omega)]
    exact hsum
  · exact (slot_set_other _ _ _ _ (Ne.symm hi)).trans (hlanes i hi)

/-- A delta whose row is past the block is ignored (R167). -/
theorem DeltasApplied.pastBlock {s t : State} {n : Nat} (h : DeltasApplied s n t)
    (hr : s.blockRows ≤ 16 * s.g + n) : DeltasApplied s (n + 1) (applyDelta n t) := by
  have hskip : applyDelta n t = t := by
    obtain ⟨-, -, hpast⟩ := applyDelta_spec n t h.wf
    refine hpast ?_
    rw [h.frame]
    exact hr
  rw [hskip]
  refine { h with rows := fun j hj hjr => h.rows j (by omega) hjr, others := fun a ha => ?_, lane := ?_ }
  · exact h.others a fun j hj => ha j (Nat.lt_succ_of_lt hj)
  · rw [h.lane, Nat.min_eq_right (by omega), Nat.min_eq_right (by omega)]

/-- The sixteen deltas of a group, applied in order (R166). -/
theorem deltasApplied_forEach {s : State} (hw : s.mem.wf = true) (hk : s.k < s.args.stride.toNat) (hk512 : s.k < 512) :
    DeltasApplied s 16 (forEach 16 applyDelta s) := by
  refine forEach_induct (DeltasApplied s) 16 applyDelta s (deltasApplied_zero hw) fun n t _ h => ?_
  obtain hr | hr := Nat.lt_or_ge (16 * s.g + n) s.blockRows
  · exact h.inBlock hk hk512 hr
  · exact h.pastBlock hr

theorem step_apply {s : State} (he : s.events = []) (hp : s.phase = .apply) : step s = .next (applyGroup s) := by
  rw [step_eq_run_fetchBlock s he, fetchBlock_apply hp, Fetched.run_move]

/-- Settles O32: the pass of `deltasApplied_forEach`, and the next group. -/
theorem applyGroupAddsDeltas : Obligations.ApplyGroupAddsDeltas := by
  intro s he hp hw hk hk512
  refine ⟨_, step_apply he hp, ?_⟩
  obtain ⟨-, hrows, hothers, hlane, hlanes, hframe⟩ := deltasApplied_forEach hw hk hk512
  rw [applyGroup]
  generalize forEach 16 applyDelta s = t at *
  refine ⟨hrows, hothers, hlane, hlanes, ?_⟩
  rw [hframe]

/-! ### The loop heads (R150, R156, R168, R220, R270, R311) -/

section
variable {s : State}

theorem step_block (he : s.events = []) (hp : s.phase = .block) (hb : s.blockBase < s.args.count.toNat) :
    step s = .next { s with k := 0, phase := .lane } := by
  rw [step_eq_run_fetchBlock s he, fetchBlock_block hp, Fetched.run_move, blockHead, if_pos hb]

theorem step_block_end (he : s.events = []) (hp : s.phase = .block) (hb : s.args.count.toNat ≤ s.blockBase) :
    step s = .next { s with phase := .filter } := by
  rw [step_eq_run_fetchBlock s he, fetchBlock_block hp, Fetched.run_move, blockHead, if_neg (Nat.not_lt.mpr hb)]

theorem step_lane_eq (he : s.events = []) (hp : s.phase = .lane) : step s = .next (laneHead s) := by
  rw [step_eq_run_fetchBlock s he, fetchBlock_lane hp, Fetched.run_move]

theorem step_lane (he : s.events = []) (hp : s.phase = .lane) (hk : s.k < s.args.stride.toNat)
    (hc : s.cur + headerByteCount s.blockRows ≤ s.lim) : step s = .next { s with
      hdr := putSlots s.hdr 0 (s.mem.readBytes (s.srcAddr s.cur) (headerByteCount s.blockRows))
      cur := s.cur + headerByteCount s.blockRows, g := 0, phase := .group } := by
  rw [step_lane_eq he hp, laneHead, if_pos hk, readByteList_ok _ s hc]

theorem step_lane_end (he : s.events = []) (hp : s.phase = .lane) (hk : s.args.stride.toNat ≤ s.k) :
    step s = .next { s with blockBase := s.blockBase + s.blockRows, phase := .block } := by
  rw [step_lane_eq he hp, laneHead, if_neg (Nat.not_lt.mpr hk)]

theorem step_group_end (he : s.events = []) (hp : s.phase = .group) (hg : groupCount s.blockRows ≤ s.g) :
    step s = .next { s with k := s.k + 1, phase := .lane } := by
  rw [step_eq_run_fetchBlock s he, fetchBlock_group_end hp hg, Fetched.run_move]

theorem step_deltas_end (he : s.events = []) (hp : s.phase = .code2 ∨ s.phase = .code4 ∨ s.phase = .literal)
    (hj : 16 ≤ s.j) : step s = .next { s with phase := .apply } := by
  rw [step_eq_run_fetchBlock s he, fetchBlock_deltas_end hp hj, Fetched.run_move]

theorem step_output (he : s.events = []) (hp : s.phase = .output) (hn : s.n < s.args.count.toNat) :
    step s = .next (startVarint .sequence s) := by
  rw [step_eq_run_fetchBlock s he, fetchBlock_output hp, Fetched.run_move, outputHead, if_pos hn]

/-- The loops over triangles and over outputs end alike (R220, R270). -/
theorem step_outputs_end (he : s.events = []) (hend : (s.phase = .triangle ∧ s.args.triCount ≤ s.t) ∨
    (s.phase = .output ∧ s.args.count.toNat ≤ s.n)) : step s = .next { s with phase := .done } := by
  rw [step_eq_run_fetchBlock s he]
  obtain ⟨hp, ht⟩ | ⟨hp, hn⟩ := hend
  · rw [fetchBlock_triangle_end hp ht, Fetched.run_move]
  · rw [fetchBlock_output hp, Fetched.run_move, outputHead, if_neg (Nat.not_lt.mpr hn)]

theorem step_done (he : s.events = []) (hp : s.phase = .done) : step s = .next { s with
    regs := { s.regs with status := 0x2#32, errOffset := 0#32 }, phase := .idle } := by
  rw [step_eq_run_fetchBlock s he, fetchBlock_done hp, Fetched.run_move]
  rfl

end

/-- Settles O33, loop by loop. -/
theorem loopsAdvance : Obligations.LoopsAdvance := by
  intro s he
  refine ⟨step_block he, step_block_end he, fun hp hk _ hc => ?lane, step_lane_end he, step_group_end he,
    step_deltas_end he, step_output he, fun hend => ?ends⟩
  case lane => exact ⟨_, step_lane he hp hk hc, fun h hh => slot_putSlots_readBytes s.hdr s s.cur _ hh, rfl⟩
  case ends =>
    have hdone := step_outputs_end he hend
    exact ⟨hdone, runFor_snoc 1 ((runFor_one s).trans hdone) (step_done he rfl)⟩

end Sys2Proof.Machine
end

section
/-! Proof of O34: a vertex stream of zero header bytes repeats its reference row, or is truncated (spec/41_vertex_decoder.md
R150, R158, R168, R173, spec/60_exceptions.md R310, R311). `Repeating` is what every step but the last keeps. `EndsIn`
says how the command ends from a place with so many header bytes to come; it is proved from the end of the stream back:
after the last block, then lane by lane (`endsIn_lane`), then block by block (`endsIn_blocks`). -/

namespace Sys2Proof.Machine

/-! ### What a zero group adds (R158, R166) -/

theorem zigzag8_zero : zigzag8 0#8 = 0#8 := by decide

/-- The running sums of sixteen zero deltas are 0. -/
theorem deltaSum_replicate_zero (n : Nat) (h : n ≤ 16) : deltaSum (Vector.replicate 16 0#8) n = 0#8 := by
  induction n with
  | zero => rfl
  | succ n ih => rw [deltaSum, ih (Nat.le_of_succ_le h), slot_replicate _ n h, zigzag8_zero, BitVec.add_zero]

/-- A group whose header byte is 0 is of mode 0 (R97, R157). -/
theorem modeBits_zero {hdr : Vector Byte 4} {g : Nat} (h : slot hdr (g / 4) = 0#8) : modeBits hdr g = 0#2 := by
  rw [modeBits, h, BitVec.extractLsb'_zero]

/-- Lanes of two rows at one target offset are the same lane. -/
theorem lane_eq_of_offset_eq {r r' i i' n : Nat} (hi : i < n) (hi' : i' < n) (h : r * n + i = r' * n + i') : i = i' := by
  have hmod := congrArg (· % n) h
  simpa only [Nat.mul_comm _ n, Nat.mul_add_mod, Nat.mod_eq_of_lt hi, Nat.mod_eq_of_lt hi'] using hmod

/-! ### What every step keeps -/

/-- The start of the run: the first block of a DECODE_VERTEX without a filter whose data bytes are all 0. -/
structure ZeroStream (s : State) : Prop where
  inv : s.Inv
  events : s.events = []
  phase : s.phase = .block
  blockBase : s.blockBase = 0
  filter : s.args.filter = 0#2
  zero : ∀ off, s.cur ≤ off → off < s.lim → s.mem.read (s.srcAddr off) = 0#8

/-- The run from `s` has come to `t`: the command goes on, the accumulators hold the reference row, only the target is
written, and the lanes of the rows that are `done` repeat the reference row. -/
structure Repeating (s : State) (done : Nat → Nat → Prop) (t : State) : Prop where
  inv : t.Inv
  events : t.events = []
  regs : t.regs = s.regs
  lim : t.lim = s.lim
  cur : s.cur ≤ t.cur
  draws : t.draws = s.draws
  acc : ∀ i, slot t.acc i = slot s.acc i
  target : TargetOnly s t
  rows : ∀ r i, r < s.args.count.toNat → i < s.args.stride.toNat → done r i →
    t.mem.read (s.dstAddr (r * s.args.stride.toNat + i)) = slot s.acc i

/-- The rows of the block from `base` up are done in the lanes below `k`, and in lane `k` in the groups below `g`. -/
def lanesDone (base rows k g r i : Nat) : Prop :=
  r < base ∨ (r < base + rows ∧ (i < k ∨ (i = k ∧ r < base + 16 * g)))

/-- The head of the loop over blocks: every row before the block is done. -/
structure AtBlock (s t : State) : Prop extends Repeating s (fun r _ => r < t.blockBase) t where
  phase : t.phase = .block

/-- The head of the loop over lanes. -/
structure AtLane (s t : State) : Prop extends Repeating s (lanesDone t.blockBase t.blockRows t.k 0) t where
  phase : t.phase = .lane

/-- The head of the loop over groups: every group of the lane is of mode 0. -/
structure AtGroup (s t : State) : Prop extends Repeating s (lanesDone t.blockBase t.blockRows t.k t.g) t where
  phase : t.phase = .group
  modes : ∀ g, g < groupCount t.blockRows → modeBits t.hdr g = 0#2

theorem ZeroStream.atBlock {s : State} (h : ZeroStream s) : AtBlock s s where
  inv := h.inv
  events := h.events
  regs := rfl
  lim := rfl
  cur := Nat.le_refl _
  draws := rfl
  acc := fun _ => rfl
  target := .refl s
  rows := fun r _ _ _ hr => absurd (h.blockBase ▸ hr) (Nat.not_lt_zero r)
  phase := h.phase

section
variable {s t u : State} {done done' : Nat → Nat → Prop}

/-- A step of the vertex decoder that leaves the accumulators' values, and writes no byte of a row that was done, keeps
`Repeating` for the rows done after it. -/
theorem Repeating.next (h : Repeating s done t) (hstep : step t = .next u)
    (hframe : u = { t with
      acc := u.acc, dbuf := u.dbuf, hdr := u.hdr, cur := u.cur, row := u.row, blockBase := u.blockBase, k := u.k
      g := u.g, phase := u.phase, mem := u.mem })
    (hcur : t.cur ≤ u.cur) (hacc : ∀ i, slot u.acc i = slot t.acc i)
    (hrows : ∀ r i, r < s.args.count.toNat → i < s.args.stride.toNat → done' r i →
      u.mem.read (s.dstAddr (r * s.args.stride.toNat + i)) = slot s.acc i) : Repeating s done' u := by
  have hturn : BlockTurn t := fun ev evs he => by rw [h.events] at he; cases he
  obtain ⟨houtside, -, -⟩ := blockWritesOnlyItsTarget t u h.inv hturn hstep
  refine ⟨everyStepKeepsTheInvariant t u h.inv hstep, ?_, ?_, ?_, h.cur.trans hcur, ?_,
    fun i => (hacc i).trans (h.acc i), h.target.trans ⟨?_, houtside⟩, hrows⟩
  · rw [hframe]; exact h.events
  · rw [hframe]; exact h.regs
  · rw [hframe]; exact h.lim
  · rw [hframe]; exact h.draws
  · rw [hframe]

/-- A step that writes nothing: what is done after it was done before. -/
theorem Repeating.nextQuiet (h : Repeating s done t) (hstep : step t = .next u)
    (hframe : u = { t with
      dbuf := u.dbuf, hdr := u.hdr, cur := u.cur, blockBase := u.blockBase, k := u.k, g := u.g, phase := u.phase })
    (hcur : t.cur ≤ u.cur)
    (hdone : ∀ r i, r < s.args.count.toNat → i < s.args.stride.toNat → done' r i → done r i) :
    Repeating s done' u := by
  refine h.next hstep ?_ hcur (fun i => ?_) fun r i hr hi hd => ?_
  · rw [hframe]
  · rw [hframe]
  · rw [hframe]
    exact h.rows r i hr hi (hdone r i hr hi hd)

theorem Repeating.blockRows_eq (h : Repeating s done t) :
    t.blockRows = min (attrBlockMaxElementCount s.args.stride.toNat) (s.args.count.toNat - t.blockBase) := by
  rw [State.blockRows, h.target.args]

theorem Repeating.stride_eq (h : Repeating s done t) : t.args.stride.toNat = s.args.stride.toNat := by
  rw [h.target.args]

theorem Repeating.count_eq (h : Repeating s done t) : t.args.count.toNat = s.args.count.toNat := by
  rw [h.target.args]

/-- The data bytes that are left are 0: the target holds no source byte. -/
theorem Repeating.zero (h : Repeating s done t) (hz : ZeroStream s) {off : Nat} (hlo : t.cur ≤ off)
    (hhi : off < t.lim) : t.mem.read (t.srcAddr off) = 0#8 := by
  have hkept := hz.inv.phase
  rw [PhaseKept, hz.phase] at hkept
  obtain ⟨-, -, hlim, -⟩ := hkept
  rw [h.lim] at hhi
  have hsource := h.target.sourceByte (hz.inv.launch (by rw [hz.phase]; nofun)) (off := off) (by omega)
  rw [State.srcAddr, h.target.args]
  exact hsource.trans (hz.zero off (h.cur.trans hlo) hhi)

end

/-! ### A group and a lane -/

section
variable {s t u : State}

theorem ZeroStream.stride_bounds (h : ZeroStream s) : 1 ≤ s.args.stride.toNat ∧ s.args.stride.toNat ≤ 512 := by
  have hkept := h.inv.phase
  rw [PhaseKept, h.phase] at hkept
  obtain ⟨-, hcheck, -⟩ := hkept
  unfold vertexCheck at hcheck
  split_ifs at hcheck with hstride
  obtain ⟨hok, -⟩ := hstride
  simp only [Config.Params.vtxStrideOk, Bool.and_eq_true, decide_eq_true_eq] at hok
  obtain ⟨hrange, -⟩ := hok
  exact hrange

theorem ZeroStream.sixteen_le (h : ZeroStream s) : 16 ≤ attrBlockMaxElementCount s.args.stride.toNat := by
  obtain ⟨h1, h512⟩ := h.stride_bounds
  exact sixteen_le_attrBlockMaxElementCount h1 h512

theorem blockRows_le_256 (t : State) : t.blockRows ≤ 256 := (blockRows_le t).trans (attrBlockMaxElementCount_le _)

/-- A group of zero deltas is applied: its rows repeat the reference row in the lane, and those done before still do. -/
theorem Repeating.applyZeros (h : Repeating s (lanesDone t.blockBase t.blockRows t.k t.g) t) (hp : t.phase = .apply)
    (hdbuf : t.dbuf = Vector.replicate 16 0#8) (hk : t.k < t.args.stride.toNat) (hk512 : t.k < 512) :
    ∃ u, step t = .next u ∧ Repeating s (lanesDone t.blockBase t.blockRows t.k (t.g + 1)) u ∧
      u = { t with acc := u.acc, row := u.row, mem := u.mem, g := t.g + 1, phase := .group } := by
  obtain ⟨u, hstep, hwritten, hothers, hlane, hlanes, hframe⟩ :=
    applyGroupAddsDeltas t h.events hp h.inv.mem hk hk512
  have hsum : ∀ n, n ≤ 16 → slot t.acc t.k + deltaSum t.dbuf n = slot t.acc t.k := fun n hn => by
    rw [hdbuf, deltaSum_replicate_zero n hn, BitVec.add_zero]
  refine ⟨u, hstep, h.next hstep ?_ ?_ (fun i => ?_) (fun r i hr hi hdone => ?_), hframe⟩
  · rw [hframe]
  · rw [hframe]
  · obtain rfl | hne := eq_or_ne i t.k
    · exact hlane.trans (hsum _ (Nat.min_le_left _ _))
    · exact hlanes i hne
  · by_cases hin : ∃ j, j < 16 ∧ 16 * t.g + j < t.blockRows ∧ s.dstAddr (r * s.args.stride.toNat + i) = t.groupAddr j
    · obtain ⟨j, hj, hjr, haddr⟩ := hin
      have hik : i = t.k := by
        rw [State.groupAddr, State.dstAddr, State.dstAddr, h.target.args] at haddr
        exact lane_eq_of_offset_eq hi (h.stride_eq ▸ hk) (Nat.add_left_cancel haddr)
      rw [haddr, hik, ← h.acc]
      exact (hwritten j hj hjr).trans (hsum _ hj)
    · refine (hothers _ fun j hj hjr haddr => hin ⟨j, hj, hjr, haddr⟩).trans (h.rows r i hr hi ?_)
      refine hdone.imp_right fun ⟨hrow, hlane⟩ => ⟨hrow, hlane.imp_right fun ⟨hik, hrg⟩ => ⟨hik, ?_⟩⟩
      by_contra hge
      obtain ⟨j, rfl⟩ : ∃ j, r = t.blockBase + (16 * t.g + j) := ⟨r - (t.blockBase + 16 * t.g), by omega⟩
      refine hin ⟨j, by omega, by omega, ?_⟩
      rw [State.groupAddr, State.dstAddr, State.dstAddr, h.target.args, hik]

/-- A group of mode 0 is decoded and applied in two steps (R158, R166). -/
theorem AtGroup.next (hz : ZeroStream s) (h : AtGroup s t) (hg : t.g < groupCount t.blockRows) :
    ∃ u, runFor 2 t = .next u ∧ AtGroup s u ∧ u.g = t.g + 1 ∧ u.k = t.k ∧ u.blockBase = t.blockBase ∧
      u.cur = t.cur := by
  obtain ⟨-, -, hk⟩ := (phaseKept_iff_inGroup (by rw [h.phase]; rfl)).mp h.inv.phase
  have hk512 : t.k < 512 := hk.trans_le (h.stride_eq ▸ hz.stride_bounds.2)
  have hmode : step t = .next { t with dbuf := Vector.replicate 16 0#8, phase := .apply } := by
    rw [step_eq_run_fetchBlock t h.events, fetchBlock_group h.phase hg, h.modes t.g hg, Fetched.run_element t rfl]
    exact exec_vgMode0Zero t
  have happly := h.nextQuiet hmode rfl (Nat.le_refl _) fun _ _ _ _ hd => hd
  obtain ⟨u, hstep, hnext, hframe⟩ :=
    Repeating.applyZeros (t := { t with dbuf := _, phase := .apply }) happly rfl rfl hk hk512
  generalize u.acc = acc, u.row = row, u.mem = mem at hframe
  subst hframe
  exact ⟨_, runFor_snoc 1 ((runFor_one t).trans hmode) hstep, ⟨hnext, rfl, h.modes⟩, rfl, rfl, rfl, rfl⟩

/-- The groups that are left of a lane. -/
theorem AtGroup.allGroups (hz : ZeroStream s) (n : Nat) (h : AtGroup s t) (hn : t.g + n = groupCount t.blockRows) :
    ∃ m u, runFor m t = .next u ∧ AtGroup s u ∧ u.g = groupCount u.blockRows ∧ u.k = t.k ∧
      u.blockBase = t.blockBase ∧ u.cur = t.cur := by
  induction n generalizing t with
  | zero => exact ⟨0, t, rfl, h, hn, rfl, rfl, rfl⟩
  | succ n ih =>
    obtain ⟨v, hv, hat, hg, hk, hb, hc⟩ := h.next hz (by omega)
    have hrows : v.blockRows = t.blockRows := by rw [hat.blockRows_eq, h.blockRows_eq, hb]
    obtain ⟨m, u, hu, hat', hg', hk', hb', hc'⟩ := ih hat (by rw [hrows, hg]; omega)
    exact ⟨2 + m, u, runFor_add hv hu, hat', hg', hk'.trans hk, hb'.trans hb, hc'.trans hc⟩

/-- The header bytes of a lane are read where they lie below the limit: all its groups are of mode 0. -/
theorem AtLane.header (hz : ZeroStream s) (h : AtLane s t) (hk : t.k < s.args.stride.toNat)
    (hc : t.cur + headerByteCount t.blockRows ≤ t.lim) (hrows : 1 ≤ t.blockRows) :
    ∃ u, step t = .next u ∧ AtGroup s u ∧ u.g = 0 ∧ u.k = t.k ∧ u.blockBase = t.blockBase ∧
      u.cur = t.cur + headerByteCount t.blockRows := by
  have hstep := step_lane h.events h.phase (h.stride_eq ▸ hk) hc
  obtain ⟨-, hle4, -, hgroups⟩ := headerByteCount_bounds hrows (blockRows_le_256 t)
  refine ⟨_, hstep, ⟨h.nextQuiet hstep rfl (Nat.le_add_right _ _) fun _ _ _ _ hd => hd, rfl, fun g hg => ?_⟩, rfl, rfl,
    rfl, rfl⟩
  have hg' : g < groupCount t.blockRows := hg
  refine modeBits_zero ?_
  rw [slot_putSlots_readBytes _ _ _ _ (by omega), if_pos (by omega)]
  exact h.zero hz (Nat.le_add_right _ _) (by omega)

/-- A lane whose header bytes lie below the limit is decoded as a whole, and the next one follows. -/
theorem AtLane.next (hz : ZeroStream s) (h : AtLane s t) (hk : t.k < s.args.stride.toNat)
    (hc : t.cur + headerByteCount t.blockRows ≤ t.lim) (hrows : 1 ≤ t.blockRows) :
    ∃ m u, runFor m t = .next u ∧ AtLane s u ∧ u.k = t.k + 1 ∧ u.blockBase = t.blockBase ∧
      u.cur = t.cur + headerByteCount t.blockRows := by
  obtain ⟨v, hv, hat, hg, hkv, hbv, hcv⟩ := h.header hz hk hc hrows
  obtain ⟨m, w, hw, hat', hg', hkw, hbw, hcw⟩ := hat.allGroups hz (groupCount v.blockRows) (by rw [hg, Nat.zero_add])
  have hend := step_group_end hat'.events hat'.phase hg'.ge
  have hholds : w.blockRows ≤ 16 * w.g := by
    rw [hg', groupCount]
    omega
  refine ⟨1 + m + 1, _, runFor_snoc _ (runFor_add ((runFor_one t).trans hv) hw) hend,
    ⟨hat'.nextQuiet hend rfl (Nat.le_refl _) fun r i _ _ hd => ?_, rfl⟩, congrArg (· + 1) (hkw.trans hkv),
    hbw.trans hbv, hcw.trans hcv⟩
  change lanesDone w.blockBase w.blockRows (w.k + 1) 0 r i at hd
  unfold lanesDone at hd ⊢
  omega

end

/-! ### The end of the command -/

/-- From `t` the command ends, where `rest` header bytes are still to come: with every row equal to the reference row
where they fit before the limit, and truncated at the limit where they do not. -/
def EndsIn (s t : State) (rest : Nat) : Prop :=
  ∃ k u, runFor k t = .next u ∧ u.phase = .idle ∧
    MemUnchangedOutside s.args.dstBase.toNat (s.args.count.toNat * s.args.stride.toNat) s u ∧
    (t.cur + rest ≤ s.lim →
      u.regs = { s.regs with status := 0x2#32, errOffset := 0#32 } ∧
        ∀ r i, r < s.args.count.toNat → i < s.args.stride.toNat →
          u.mem.read (s.dstAddr (r * s.args.stride.toNat + i)) = slot s.acc i) ∧
    (s.lim < t.cur + rest → FailedWith .truncatedSource s.lim s u ∧ TargetDrawn s u)

section
variable {s t u : State}

theorem EndsIn.after {m rest rest' : Nat} (h : EndsIn s u rest) (hrun : runFor m t = .next u)
    (hcur : u.cur + rest = t.cur + rest') : EndsIn s t rest' := by
  obtain ⟨k, v, hv, hphase, hout, hfits, hpast⟩ := h
  rw [hcur] at hfits hpast
  exact ⟨m + k, v, runFor_add hrun hv, hphase, hout, hfits, hpast⟩

/-- FILTER_NONE changes nothing (R190). -/
theorem step_filterNone (he : s.events = []) (hp : s.phase = .filter) (hf : s.args.filter = 0#2) :
    step s = .next { s with phase := .done } := by
  rw [step_eq_run_fetchBlock s he, fetchBlock_filter hp, hf]
  exact Fetched.run_element (i := .filterNone) s rfl

/-- After the last block comes the filter, which is none, and the command completes (R150, R190, R311). -/
theorem AtBlock.endsIn (hz : ZeroStream s) (h : AtBlock s t) (hb : s.args.count.toNat ≤ t.blockBase) :
    EndsIn s t 0 := by
  have hend := step_block_end h.events h.phase (h.count_eq ▸ hb)
  have hfilter : step { t with phase := .filter } = .next { t with phase := .done } :=
    step_filterNone h.events rfl (h.target.args ▸ hz.filter)
  have hrun := runFor_snoc 2 (runFor_snoc 1 ((runFor_one t).trans hend) hfilter) (step_done h.events rfl)
  refine ⟨3, _, hrun, rfl, h.target.mem, fun _ => ⟨?_, fun r i hr hi => h.rows r i hr hi (hr.trans_le hb)⟩,
    fun hpast => ?_⟩
  · dsimp only
    rw [h.regs]
  · have hkept := h.inv.phase
    rw [PhaseKept, h.phase] at hkept
    have hle := hkept.cur_le
    rw [h.lim] at hle
    omega

/-- A lane whose header bytes pass the limit ends the command in TruncatedSource at the limit (R304, R310). -/
theorem AtLane.endsIn_truncated (h : AtLane s t) (hk : t.k < s.args.stride.toNat) (hrows : 1 ≤ t.blockRows)
    (hc : t.lim < t.cur + headerByteCount t.blockRows) {rest : Nat} (hrest : headerByteCount t.blockRows ≤ rest) :
    EndsIn s t rest := by
  have hkept := h.inv.phase
  rw [PhaseKept, h.phase] at hkept
  obtain ⟨hdecoding, -⟩ := hkept
  have hmax : max t.cur t.lim = s.lim := (Nat.max_eq_right hdecoding.cur_le).trans h.lim
  have hstep := step_lane_eq h.events h.phase
  rw [laneHead_truncated (h.stride_eq ▸ hk) hrows hc, hmax] at hstep
  obtain ⟨u, hu, ⟨hbusy, hdone, herr, hcode, hregs, hphase⟩, ⟨hdrawn, hout⟩, -⟩ := truncatedAt_next h.inv.mem hstep
  rw [h.target.args, h.draws] at hdrawn
  rw [h.target.args] at hout
  rw [h.regs] at hregs
  have hout' : MemUnchangedOutside s.args.dstBase.toNat (s.args.count.toNat * s.args.stride.toNat) s u :=
    fun a ha => (hout a ha).trans (h.target.mem a ha)
  refine ⟨1, u, (runFor_one t).trans hu, hphase, hout', fun hfits => ?_, fun _ => ?_⟩
  · rw [h.lim] at hc
    omega
  · exact ⟨⟨hbusy, hdone, herr, hcode, hregs, hphase⟩, hdrawn, hout'⟩

/-- A lane takes its header bytes, or the command ends in it. -/
theorem endsIn_lane (hz : ZeroStream s) (h : AtLane s t) (hk : t.k < s.args.stride.toNat) (hrows : 1 ≤ t.blockRows)
    {rest : Nat} (hnext : ∀ u, AtLane s u → u.k = t.k + 1 → u.blockBase = t.blockBase → EndsIn s u rest) :
    EndsIn s t (headerByteCount t.blockRows + rest) := by
  obtain hc | hc := Nat.lt_or_ge t.lim (t.cur + headerByteCount t.blockRows)
  · exact h.endsIn_truncated hk hrows hc (Nat.le_add_right _ _)
  · obtain ⟨m, u, hrun, hat, hku, hbu, hcu⟩ := h.next hz hk hc hrows
    exact (hnext u hat hku hbu).after hrun (by rw [hcu, Nat.add_assoc])

/-- The lanes that are left of a block (R156). -/
theorem endsIn_lanes (hz : ZeroStream s) (n : Nat) (h : AtLane s t) (hn : t.k + n = s.args.stride.toNat)
    (hrows : 1 ≤ t.blockRows) {rest : Nat}
    (hnext : ∀ u, AtBlock s u → u.blockBase = t.blockBase + t.blockRows → EndsIn s u rest) :
    EndsIn s t (n * headerByteCount t.blockRows + rest) := by
  induction n generalizing t with
  | zero =>
    have hend := step_lane_end h.events h.phase (h.stride_eq ▸ hn.ge)
    refine (hnext _ ⟨h.nextQuiet hend rfl (Nat.le_refl _) fun r i _ hi hd => ?_, rfl⟩ rfl).after
      ((runFor_one t).trans hend) (by rw [Nat.zero_mul, Nat.zero_add])
    change r < t.blockBase + t.blockRows at hd
    unfold lanesDone
    omega
  | succ n ih =>
    rw [Nat.succ_mul, Nat.add_comm (n * _), Nat.add_assoc]
    refine endsIn_lane hz h (by omega) hrows fun u hat hku hbu => ?_
    have hru : u.blockRows = t.blockRows := by rw [hat.blockRows_eq, h.blockRows_eq, hbu]
    rw [← hru]
    exact ih hat (by omega) (hru ▸ hrows) (by rwa [hbu, hru])

/-- A block takes the header bytes of all its lanes (R150, R154). -/
theorem endsIn_block (hz : ZeroStream s) (h : AtBlock s t) (hb : t.blockBase < s.args.count.toNat) {rest : Nat}
    (hnext : ∀ u, AtBlock s u → u.blockBase = t.blockBase + t.blockRows → EndsIn s u rest) :
    EndsIn s t (s.args.stride.toNat * headerByteCount t.blockRows + rest) := by
  have hstep := step_block h.events h.phase (h.count_eq ▸ hb)
  have hrows : 1 ≤ t.blockRows := by
    have h16 := hz.sixteen_le
    rw [h.blockRows_eq]
    omega
  have hat : AtLane s { t with k := 0, phase := .lane } := by
    refine ⟨h.nextQuiet hstep rfl (Nat.le_refl _) fun r i _ _ hd => ?_, rfl⟩
    unfold lanesDone at hd
    dsimp only at hd
    omega
  exact (endsIn_lanes hz s.args.stride.toNat hat (Nat.zero_add _) hrows hnext).after ((runFor_one t).trans hstep) rfl

/-- The blocks that are left, from block `m` on (R150, R153). -/
theorem endsIn_blocks (hz : ZeroStream s) {size : Nat} (hsize : size = attrBlockMaxElementCount s.args.stride.toNat)
    (n m : Nat) (hn : m + n = (s.args.count.toNat + size - 1) / size) (h : AtBlock s t)
    (hb : t.blockBase = min (m * size) s.args.count.toNat) :
    EndsIn s t (((List.range' m n).map fun i =>
      s.args.stride.toNat * headerByteCount (min size (s.args.count.toNat - i * size))).sum) := by
  have hpos : 0 < size := by
    have h16 := hz.sixteen_le
    omega
  induction n generalizing m t with
  | zero =>
    refine h.endsIn hz ?_
    have hlast : s.args.count.toNat ≤ m * size := by
      have hdiv := Nat.lt_mul_div_succ (s.args.count.toNat + size - 1) hpos
      rw [← hn, Nat.add_zero, Nat.mul_comm, Nat.succ_mul] at hdiv
      omega
    omega
  | succ n ih =>
    have hlt : m * size < s.args.count.toNat := by
      have hdiv := Nat.div_mul_le_self (s.args.count.toNat + size - 1) size
      have hle : (m + 1) * size ≤ (s.args.count.toNat + size - 1) / size * size :=
        Nat.mul_le_mul_right size (by omega)
      rw [Nat.succ_mul] at hle
      omega
    have hbase : t.blockBase = m * size := hb.trans (Nat.min_eq_left hlt.le)
    have hrows : t.blockRows = min size (s.args.count.toNat - m * size) := by rw [h.blockRows_eq, hbase, hsize]
    rw [List.range'_succ, List.map_cons, List.sum_cons, ← hrows]
    refine endsIn_block hz h (by omega) fun u hat hbu => ih (m + 1) (by omega) hat ?_
    rw [hbu, hbase, hrows, Nat.succ_mul]
    omega

end

/-- Settles O34: the blocks from the first on, whose header bytes are the stream's. -/
theorem zeroHeadersRepeatTheReference : Obligations.ZeroHeadersRepeatTheReference := by
  intro s hinv he hp hb hf hzero
  have hz : ZeroStream s := ⟨hinv, he, hp, hb, hf, hzero⟩
  have hends := endsIn_blocks hz rfl _ 0 (Nat.zero_add _) hz.atBlock (by rw [hb, Nat.zero_mul, Nat.zero_min])
  rw [← List.range_eq_range'] at hends
  exact hends

end Sys2Proof.Machine
end

section
/-! Proofs of O35, O36 and O37: the filter passes over the target (spec/42_vertex_filters.md R190 to R204). A pass goes
over items that share no byte: rows of four lanes, or words. So what it leaves in an item is what the item's own step
makes of the item's old contents (`forEach_rewrites`), and each filter only needs its one step described: by the lanes
a row holds after each `writeLane`, or by the word after `expStep`. -/

namespace Sys2Proof.Machine

/-! ### Little-endian numbers (R11, R68, R69) -/

theorem leValue_congr {m m' : Memory} {a n : Nat} (h : ∀ b, a ≤ b → b < a + n → m'.read b = m.read b) :
    leValue m' a n = leValue m a n := by
  induction n generalizing a with
  | zero => rfl
  | succ n ih =>
    rw [leValue, leValue, h a (by omega) (by omega), ih fun b hlo hhi => h b (by omega) (by omega)]

theorem holdsLE_tail {m : Memory} {a n : Nat} {v : Word} (h : HoldsLE m a (n + 1) v) :
    HoldsLE m (a + 1) n (v >>> 8) := by
  intro i hi
  rw [Nat.add_assoc, Nat.add_comm 1 i, h (i + 1) (by omega)]
  refine BitVec.eq_of_getLsbD_eq fun j _ => ?_
  simp only [BitVec.getLsbD_extractLsb', BitVec.getLsbD_ushiftRight]
  rw [Nat.mul_succ, Nat.add_comm (8 * i) 8, Nat.add_assoc]

/-- Bytes that hold a word hold its low bits as their number. -/
theorem leValue_of_holdsLE {m : Memory} {a n : Nat} {v : Word} (h : HoldsLE m a n v) :
    leValue m a n = v.toNat % 2 ^ (8 * n) := by
  induction n generalizing a v with
  | zero => rw [leValue, Nat.mul_zero, Nat.pow_zero, Nat.mod_one]
  | succ n ih =>
    have hbyte : (m.read a).toNat = v.toNat % 2 ^ 8 := by
      have h0 := h 0 (Nat.succ_pos n)
      rw [Nat.add_zero] at h0
      simp [h0]
    rw [leValue, hbyte, ih (holdsLE_tail h), BitVec.toNat_ushiftRight, Nat.shiftRight_eq_div_pow, Nat.mul_succ,
      Nat.add_comm (8 * n) 8, Nat.pow_add, Nat.mod_mul]

/-- Each byte of a number is one of the bytes that hold it. -/
theorem leValue_byte (m : Memory) {a n i : Nat} (h : i < n) :
    leValue m a n / 2 ^ (8 * i) % 2 ^ 8 = (m.read (a + i)).toNat := by
  induction n generalizing a i with
  | zero => omega
  | succ n ih =>
    have hbyte : (m.read a).toNat < 2 ^ 8 := (m.read a).isLt
    rw [leValue]
    cases i with
    | zero =>
      rw [Nat.mul_zero, Nat.pow_zero, Nat.div_one, Nat.add_zero a]
      omega
    | succ i =>
      have hrest : ((m.read a).toNat + 256 * leValue m (a + 1) n) / 2 ^ 8 = leValue m (a + 1) n := by omega
      rw [Nat.mul_succ, Nat.add_comm (8 * i) 8, Nat.pow_add, ← Nat.div_div_eq_div_mul, hrest, ih (by omega),
        Nat.add_assoc, Nat.add_comm 1 i]

/-- Four bytes hold the word of their number. -/
theorem holdsLE_ofNat_leValue (m : Memory) (a : Nat) : HoldsLE m a 4 (BitVec.ofNat 32 (leValue m a 4)) := by
  intro i hi
  have hbyte := leValue_byte m (a := a) hi
  have hwidth : 2 ^ 32 = 2 ^ (8 * i) * (2 ^ 8 * 2 ^ (24 - 8 * i)) := by
    rw [← Nat.pow_add, ← Nat.pow_add]
    congr 1
    omega
  apply BitVec.eq_of_toNat_eq
  rw [BitVec.extractLsb'_toNat, BitVec.toNat_ofNat, Nat.shiftRight_eq_div_pow, hwidth, Nat.mod_mul_right_div_self,
    Nat.mod_mul_right_mod, hbyte]

theorem setWidth_ofInt {n : Nat} (h : n ≤ 32) (v : Int) : (BitVec.ofInt 32 v).setWidth n = BitVec.ofInt n v := by
  apply BitVec.eq_of_toNat_eq
  have hdvd : ((2 ^ n : Nat) : Int) ∣ ((2 ^ 32 : Nat) : Int) := Int.natCast_dvd_natCast.mpr (Nat.pow_dvd_pow 2 h)
  rw [BitVec.toNat_setWidth, ← Int.ofNat_inj, Int.natCast_mod, BitVec.toNat_ofInt, BitVec.toNat_ofInt,
    Int.toNat_of_nonneg (Int.emod_nonneg _ (by positivity)), Int.toNat_of_nonneg (Int.emod_nonneg _ (by positivity)),
    Int.emod_emod_of_dvd _ hdvd]

/-! ### A pass over items that share no byte (R190) -/

/-- From `s` to `t` nothing changes but M, which is canonical. -/
def MemOnly (s t : State) : Prop := ∃ m : Memory, m.wf = true ∧ t = { s with mem := m }

section
variable {s t : State}

theorem MemOnly.refl (h : s.mem.wf = true) : MemOnly s s := ⟨s.mem, h, rfl⟩

theorem MemOnly.wf (h : MemOnly s t) : t.mem.wf = true := by
  obtain ⟨m, hm, rfl⟩ := h
  exact hm

theorem MemOnly.args (h : MemOnly s t) : t.args = s.args := by
  obtain ⟨m, -, rfl⟩ := h
  rfl

theorem MemOnly.tgtWrite (h : MemOnly s t) (off n : Nat) (v : Word) : MemOnly s (tgtWrite off n v t) := by
  obtain ⟨m, hm, rfl⟩ := h
  exact ⟨_, memory_writeBytes_wf _ _ _ hm, rfl⟩

/-- The end of a filter pass (R170). -/
theorem MemOnly.filterDone (h : MemOnly s t) :
    filterDone t = { s with mem := (filterDone t).mem, phase := .done } := by
  obtain ⟨m, -, rfl⟩ := h
  rfl

/-- A pass whose step on item `i` makes `next` of the item's contents and leaves every other item alone makes `next`
of the old contents of each of its items. -/
theorem forEach_rewrites {α : Type} (view : Nat → State → α) (next : α → α) (n : Nat) (f : Nat → State → State)
    (hw : s.mem.wf = true) (hmem : ∀ i t, MemOnly s t → MemOnly s (f i t))
    (hitem : ∀ i j t, MemOnly s t → view j (f i t) = if j = i then next (view i t) else view j t) :
    MemOnly s (forEach n f s) ∧
      ∀ j, view j (forEach n f s) = if j < n then next (view j s) else view j s := by
  refine forEach_induct (fun m t => MemOnly s t ∧ ∀ j, view j t = if j < m then next (view j s) else view j s) n f s
    ⟨.refl hw, fun j => (if_neg (Nat.not_lt_zero j)).symm⟩ ?_
  intro i t _ ⟨ht, hview⟩
  refine ⟨hmem i t ht, fun j => ?_⟩
  rw [hitem i j t ht]
  obtain rfl | hne := eq_or_ne j i
  · rw [if_pos rfl, hview, if_neg (Nat.lt_irrefl j), if_pos (Nat.lt_succ_self j)]
  · rw [if_neg hne, hview]
    exact if_congr (by omega) rfl rfl

end

/-! ### The lanes of a row (R192) -/

/-- The lanes of row `r`. -/
def State.rowLanes (s : State) (r : Nat) : Fin 4 → Int := fun i => s.rowLane r i

section
variable {s : State}

theorem laneBytes_eq (h : s.args.stride.toNat = 4 ∨ s.args.stride.toNat = 8) :
    laneBytes s = s.args.stride.toNat / 4 := by
  obtain h | h := h
  · rw [laneBytes, h, if_neg (by decide)]
  · rw [laneBytes, h, if_pos rfl]

theorem laneBytes_le_two (s : State) : laneBytes s ≤ 2 := by
  rw [laneBytes]
  split <;> omega

/-- Lanes of the target share no byte. -/
theorem lanes_disjoint (h : s.args.stride.toNat = 4 ∨ s.args.stride.toNat = 8) {r r' i i' : Nat} (hi : i < 4)
    (hi' : i' < 4) (hne : ¬ (r' = r ∧ i' = i)) :
    laneOffset s r' i' + laneBytes s ≤ laneOffset s r i ∨ laneOffset s r i + laneBytes s ≤ laneOffset s r' i' := by
  obtain h | h := h
  · rw [laneOffset, laneOffset, laneBytes, h, if_neg (by decide)]
    omega
  · rw [laneOffset, laneOffset, laneBytes, h, if_pos rfl]
    omega

theorem laneValue_of_holdsLE {off n : Nat} {v : Word} (h : HoldsLE s.mem (s.dstAddr off) n v) :
    s.laneValue off n = (v.setWidth (8 * n)).toInt := by
  rw [State.laneValue, targetWord_eq_leValue, leValue_of_holdsLE h]
  congr 1
  apply BitVec.eq_of_toNat_eq
  rw [BitVec.toNat_ofNat, BitVec.toNat_setWidth, Nat.mod_mod]

/-- A lane reads as written, truncated to its width, and every other lane reads as before. -/
theorem rowLane_writeLane (hw : s.mem.wf = true) (h : s.args.stride.toNat = 4 ∨ s.args.stride.toNat = 8)
    (r r' : Nat) {i i' : Nat} (hi : i < 4) (hi' : i' < 4) (v : Int) :
    (writeLane r i v s).rowLane r' i' =
      if r' = r ∧ i' = i then (BitVec.ofInt (8 * laneBytes s) v).toInt else s.rowLane r' i' := by
  obtain ⟨-, hholds, houtside⟩ := tgtWrite_spec (laneOffset s r i) (laneBytes s) (BitVec.ofInt 32 v) s hw
  rw [← laneValue_eq_rowLane (writeLane r i v s) r' i' h]
  split
  next heq =>
    obtain ⟨rfl, rfl⟩ := heq
    have hbits : 8 * laneBytes s ≤ 32 := by
      have := laneBytes_le_two s
      omega
    rw [← setWidth_ofInt hbits v]
    exact laneValue_of_holdsLE hholds
  next hne =>
    have hdisjoint := lanes_disjoint h hi hi' hne
    rw [← laneValue_eq_rowLane s r' i' h, State.laneValue, State.laneValue, targetWord_eq_leValue, targetWord_eq_leValue]
    congr 2
    refine leValue_congr fun b hlo hhi => houtside b ?_
    change s.args.dstBase.toNat + laneOffset s r' i' ≤ b at hlo
    change b < s.args.dstBase.toNat + laneOffset s r' i' + laneBytes s at hhi
    rw [State.dstAddr]
    omega

theorem memOnly_writeLanes (r n : Nat) (v : Nat → Int) (h : MemOnly s t) :
    MemOnly s (forEach n (fun i => writeLane r i (v i)) t) :=
  forEach_induct (fun _ u => MemOnly s u) n _ t h fun _ _ _ hu => hu.tgtWrite _ _ _

/-- The first `n` lanes of a row, written one after the other. -/
theorem rowLane_writeLanes (hw : s.mem.wf = true) (h : s.args.stride.toNat = 4 ∨ s.args.stride.toNat = 8)
    (r r' : Nat) {i n : Nat} (hi : i < 4) (hn : n ≤ 4) (v : Nat → Int) :
    (forEach n (fun i => writeLane r i (v i)) s).rowLane r' i =
      if r' = r ∧ i < n then (BitVec.ofInt (8 * laneBytes s) (v i)).toInt else s.rowLane r' i := by
  induction n with
  | zero => simp [forEach]
  | succ n ih =>
    have hmem := memOnly_writeLanes r n v (MemOnly.refl hw)
    have hbytes : laneBytes (forEach n (fun i => writeLane r i (v i)) s) = laneBytes s := by
      rw [laneBytes, hmem.args, laneBytes]
    rw [forEach_succ, rowLane_writeLane hmem.wf (by rwa [hmem.args]) r r' hn hi, hbytes, ih (by omega)]
    obtain rfl | hne := eq_or_ne i n
    · simp
    · have hlt : i < n + 1 ↔ i < n := by omega
      simp [hne, hlt]

end

/-! ### FILTER_OCTAHEDRAL (R195) -/

section
variable {s t : State}

/-- The lanes of a row after the octahedral filter: lanes 0 to 2 are new, lane 3 is kept. -/
def octLanes (w : Nat) (l : Fin 4 → Int) : Fin 4 → Int := fun i =>
  if i.val < 3 then (BitVec.ofInt w (octLane w (l 0) (l 1) (l 2) (l 3) i)).toInt else l i

theorem octRow_eq (h : s.args.stride.toNat = 4 ∨ s.args.stride.toNat = 8) (r : Nat) :
    octRow r s = forEach 3 (fun i => writeLane r i (octLane (8 * laneBytes s) (s.rowLane r 0) (s.rowLane r 1)
      (s.rowLane r 2) (s.rowLane r 3) i)) s := by
  simp only [octRow, laneValue_eq_rowLane s r _ h]
  rfl

/-- One row of the octahedral filter (R195). -/
theorem rowLanes_octRow (hw : s.mem.wf = true) (h : s.args.stride.toNat = 4 ∨ s.args.stride.toNat = 8) (r r' : Nat) :
    (octRow r s).rowLanes r' = if r' = r then octLanes (8 * laneBytes s) (s.rowLanes r) else s.rowLanes r' := by
  funext i
  rw [octRow_eq h, State.rowLanes, rowLane_writeLanes hw h r r' i.isLt (by decide)]
  obtain rfl | hne := eq_or_ne r' r
  · rw [if_pos rfl]
    exact if_congr (and_iff_right rfl) rfl rfl
  · rw [if_neg hne, if_neg fun hr => hne hr.1, State.rowLanes]

/-- The whole octahedral pass: each row's lanes come from that row's old lanes. -/
theorem octPass_rowLanes (hw : s.mem.wf = true) (h : s.args.stride.toNat = 4 ∨ s.args.stride.toNat = 8) (n : Nat) :
    MemOnly s (forEach n octRow s) ∧ ∀ r, (forEach n octRow s).rowLanes r =
      if r < n then octLanes (8 * laneBytes s) (s.rowLanes r) else s.rowLanes r := by
  refine forEach_rewrites (fun r u => u.rowLanes r) _ n octRow hw
    (fun r u hu => ((hu.tgtWrite _ _ _).tgtWrite _ _ _).tgtWrite _ _ _) fun r r' u hu => ?_
  have hrow := rowLanes_octRow hu.wf (by rwa [hu.args]) r r'
  rwa [laneBytes, hu.args, ← laneBytes] at hrow

end

/-- Settles O35: the lanes by `octPass_rowLanes`, the bytes outside the target by `targetOnly_octRow`. -/
theorem octahedralPassRewritesRows : Obligations.OctahedralPassRewritesRows := by
  intro s w hw hs hwidth
  obtain ⟨hmem, hlanes⟩ := octPass_rowLanes hw hs s.args.count.toNat
  have hout : TargetOnly s (forEach s.args.count.toNat octRow s) :=
    .forEach _ octRow fun r t hr ht => targetOnly_octRow (by rwa [ht]) (by rwa [ht])
  refine ⟨_, rfl, fun r hr => ?_, (targetOnly_filterDone hout).mem, hmem.filterDone⟩
  have hrow := hlanes r
  rw [if_pos hr, laneBytes_eq hs, ← hwidth] at hrow
  refine ⟨fun i hi => ?_, congrFun hrow 3⟩
  exact (congrFun hrow ⟨i, by omega⟩).trans (if_pos hi)

/-! ### FILTER_QUATERNION (R199, R200) -/

section
variable {s t : State}

/-- The lanes of a row after the quaternion filter. -/
def quatLanes (l : Fin 4 → Int) : Fin 4 → Int := fun i =>
  (BitVec.ofInt 16 (quatLane (l 0) (l 1) (l 2) (BitVec.ofInt 16 (l 3)) i)).toInt

theorem writeQuatLane_eq_writeLane (h : s.args.stride.toNat = 8) (r i : Nat) (v : Int) :
    writeQuatLane r i v s = writeLane r i v s := by
  rw [writeQuatLane, writeLane, laneOffset, laneBytes, h, if_pos rfl, Nat.mul_comm r, Nat.mul_comm i]

theorem quatRow_eq (h : s.args.stride.toNat = 8) (r : Nat) :
    quatRow r s = forEach 4 (fun i => writeLane r i (quatLane (s.rowLane r 0) (s.rowLane r 1) (s.rowLane r 2)
      (BitVec.ofInt 16 (s.rowLane r 3)) i)) s := by
  have hwrite : ∀ (i : Nat) (v : Int) (u : State), u.args = s.args → writeQuatLane r i v u = writeLane r i v u :=
    fun i v u hu => writeQuatLane_eq_writeLane (by rwa [hu]) r i v
  simp only [quatRow, ← quatLaneBits_toInt s r _ h, BitVec.ofInt_toInt]
  rw [hwrite 3, hwrite 2, hwrite 1, hwrite 0] <;> rfl

/-- One row of the quaternion filter (R199, R200). -/
theorem rowLanes_quatRow (hw : s.mem.wf = true) (h : s.args.stride.toNat = 8) (r r' : Nat) :
    (quatRow r s).rowLanes r' = if r' = r then quatLanes (s.rowLanes r) else s.rowLanes r' := by
  have hbytes : laneBytes s = 2 := if_pos h
  funext i
  rw [quatRow_eq h, State.rowLanes, rowLane_writeLanes hw (.inr h) r r' i.isLt (Nat.le_refl 4), hbytes]
  obtain rfl | hne := eq_or_ne r' r
  · rw [if_pos rfl, if_pos ⟨rfl, i.isLt⟩]
    rfl
  · rw [if_neg hne, if_neg fun hr => hne hr.1, State.rowLanes]

/-- The whole quaternion pass: each row's lanes come from that row's old lanes. -/
theorem quatPass_rowLanes (hw : s.mem.wf = true) (h : s.args.stride.toNat = 8) (n : Nat) :
    MemOnly s (forEach n quatRow s) ∧ ∀ r, (forEach n quatRow s).rowLanes r =
      if r < n then quatLanes (s.rowLanes r) else s.rowLanes r :=
  forEach_rewrites (fun r u => u.rowLanes r) quatLanes n quatRow hw
    (fun r u hu => (((hu.tgtWrite _ _ _).tgtWrite _ _ _).tgtWrite _ _ _).tgtWrite _ _ _)
    fun r r' u hu => rowLanes_quatRow hu.wf (by rwa [hu.args]) r r'

end

/-- Settles O36: the lanes by `quatPass_rowLanes`, the bytes outside the target by `targetOnly_quatRow`. -/
theorem quaternionPassRewritesRows : Obligations.QuaternionPassRewritesRows := by
  intro s hw hs
  obtain ⟨hmem, hlanes⟩ := quatPass_rowLanes hw hs s.args.count.toNat
  have hout : TargetOnly s (forEach s.args.count.toNat quatRow s) :=
    .forEach _ quatRow fun r t hr ht => targetOnly_quatRow (by rwa [ht]) (by rwa [ht])
  refine ⟨_, rfl, fun r i hr hi => ?_, (targetOnly_filterDone hout).mem, hmem.filterDone⟩
  exact congrFun ((hlanes r).trans (if_pos hr)) ⟨i, hi⟩

/-! ### FILTER_NONE and FILTER_EXPONENTIAL (R190, R202) -/

section
variable {s t : State}

/-- Word `q` of the target (R192). -/
def State.word (s : State) (q : Nat) : Word := BitVec.ofNat 32 (leValue s.mem (s.dstAddr (4 * q)) 4)

theorem expStep_eq (q : Nat) (s : State) : expStep q s = tgtWrite (4 * q) 4 (expWord (s.word q)) s := by
  rw [expStep, targetWord_eq_leValue, State.word]

/-- One step of the exponential filter (R202). -/
theorem word_expStep (hw : s.mem.wf = true) (q q' : Nat) :
    (expStep q s).word q' = if q' = q then expWord (s.word q) else s.word q' := by
  obtain ⟨-, hholds, houtside⟩ := tgtWrite_spec (4 * q) 4 (expWord (s.word q)) s hw
  rw [expStep_eq]
  change BitVec.ofNat 32 (leValue _ (s.dstAddr (4 * q')) 4) = _
  obtain rfl | hne := eq_or_ne q' q
  · rw [if_pos rfl, leValue_of_holdsLE hholds, Nat.mod_eq_of_lt (BitVec.isLt _), BitVec.ofNat_toNat,
      BitVec.setWidth_eq]
  · rw [if_neg hne, State.word]
    congr 1
    refine leValue_congr fun b hlo hhi => houtside b ?_
    rw [State.dstAddr] at hlo hhi ⊢
    omega

/-- The whole exponential pass: each word comes from that word. -/
theorem expPass_word (hw : s.mem.wf = true) (n : Nat) : MemOnly s (forEach n expStep s) ∧
    ∀ q, (forEach n expStep s).word q = if q < n then expWord (s.word q) else s.word q :=
  forEach_rewrites (fun q u => u.word q) expWord n expStep hw (fun _ _ hu => hu.tgtWrite _ _ _)
    fun q q' _ hu => word_expStep hu.wf q q'

end

/-- Settles O37: the words by `expPass_word`, the bytes outside the target by `targetOnly_expStep`. -/
theorem noneAndExponentialPasses : Obligations.NoneAndExponentialPasses := by
  refine ⟨fun s => rfl, fun s hw _ => ?_⟩
  obtain ⟨hmem, hwords⟩ := expPass_word hw (s.args.need / 4)
  have hout : TargetOnly s (forEach (s.args.need / 4) expStep s) :=
    .forEach _ expStep fun q t hq ht => targetOnly_expStep (by rwa [ht])
  refine ⟨_, rfl, fun q hq => ?_, (targetOnly_filterDone hout).mem, hmem.filterDone⟩
  have hword := (hwords q).trans (if_pos hq)
  have hholds := holdsLE_ofNat_leValue (forEach (s.args.need / 4) expStep s).mem (s.dstAddr (4 * q))
  rw [State.word, State.dstAddr, hmem.args] at hword
  exact hword ▸ hholds

end Sys2Proof.Machine
end

section
/-! Proof of O25: from its tag a command reports the first failing check (spec/60_exceptions.md R301 to R309). The
statement's list of checks is cut where the model's two steps meet: `firstError_eq` says that it is checks 1 and 2, and
then `commandCheck`. -/

namespace Sys2Proof.Machine

section
variable {s : State}

/-! ### The checks as R306 lists them -/

/-- The stride test of DECODE_INDEX and DECODE_SEQUENCE (R221, R271). -/
theorem strideSupported_of_ne_vertex (h : s.args.cmd ≠ .vertex) :
    strideSupported s = false ↔ s.args.stride ≠ 2#32 ∧ s.args.stride ≠ 4#32 := by
  have hsupported : strideSupported s = (decide (s.args.stride.toNat = 2) || decide (s.args.stride.toNat = 4)) := by
    rw [strideSupported]
    cases hcmd : s.args.cmd with
    | vertex => exact absurd hcmd h
    | index => rfl
    | sequence => rfl
  rw [hsupported, Bool.or_eq_false_iff, decide_eq_false_iff_not, decide_eq_false_iff_not,
    ne_eq, ne_eq, BitVec.toNat_eq, BitVec.toNat_eq]
  rfl

theorem strideSupported_vertex_eq_false (h : s.args.cmd = .vertex) : strideSupported s = false ↔
    ¬ (s.params.vtxStrideOk s.args.stride.toNat ∧ filterStrideOk s.args.filter s.args.stride.toNat) := by
  rw [strideSupported_vertex s h, ← Bool.not_eq_true, Bool.and_eq_true]

/-- Checks 3 to 6 of R306, the checks of each command (R151, R221, R271). -/
theorem commandCheck_eq (hl : s.args.srcLen ≠ 0#32) : commandCheck s =
    if strideSupported s = false then some (.unsupportedStride, 0)
    else if s.args.cmd = .index ∧ s.args.count.toNat % 3 ≠ 0 then some (.invalidIndexCount, 0)
    else if s.args.dstCap.toNat < s.args.count.toNat * s.args.stride.toNat then some (.destinationTooSmall, 0)
    else if s.args.srcLen.toNat < fixedLayoutLength s then some (.truncatedSource, s.args.srcLen.toNat)
    else none := by
  rw [commandCheck, fixedLayoutLength]
  cases hcmd : s.args.cmd with
  | vertex =>
    simp only [strideSupported_vertex_eq_false hcmd, reduceCtorEq, false_and, if_false]
    rfl
  | index =>
    simp only [strideSupported_of_ne_vertex (s := s) (by simp [hcmd]), true_and]
    rfl
  | sequence =>
    have hlen : ¬ s.args.srcLen.toNat < 1 := fun h0 => hl (BitVec.eq_of_toNat_eq (Nat.lt_one_iff.mp h0))
    simp only [strideSupported_of_ne_vertex (s := s) (by simp [hcmd]), reduceCtorEq, false_and, if_false, hlen]
    rfl

/-- The checks of R306: the source is not empty, the tag is the command's own, and then the command's checks. -/
theorem firstError_eq (s : State) : firstError s =
    if s.args.srcLen = 0#32 then some (.truncatedSource, 0)
    else if s.sourceByte 0 ≠ s.args.cmd.tag then some (.badHeaderTag, 0)
    else commandCheck s := by
  rw [firstError]
  split
  next => rfl
  next hl => rw [commandCheck_eq hl]

/-- R307: an error other than TruncatedSource has the offset 0. -/
theorem firstError_offset {k : ErrorKind} {off : Nat} (h : firstError s = some (k, off)) :
    (if k = .truncatedSource then off else 0) = off := by
  unfold firstError at h
  split_ifs at h <;> cases h <;> rfl

/-! ### The steps of checks 1 to 6 -/

theorem step_idle (he : s.events = []) (hp : s.phase = .idle) : step s = .next s := by
  rw [step_eq_run_fetchBlock s he, fetchBlock_idle hp, Fetched.run_move]

theorem step_tag_truncated (he : s.events = []) (hp : s.phase = .tag) (hl : s.args.srcLen = 0#32) :
    step s = .next (raise .truncatedSource 0 s) := by
  rw [step_eq_run_fetchBlock s he, fetchBlock_tag_truncated hp hl, Fetched.run_move]

theorem Command.tag_injective : Function.Injective Command.tag := by
  intro x y
  cases x <;> cases y <;> decide

theorem exec_decodeTag_own (cmd : Command) (s : State) : exec (decodeTag cmd.tag) s = .next (acceptTag cmd s) := by
  cases cmd <;> rfl

theorem decodeTag_other {b : Byte} (h : ∀ cmd : Command, b ≠ cmd.tag) : decodeTag b = .tagOther b :=
  (if_neg (h .vertex)).trans ((if_neg (h .index)).trans (if_neg (h .sequence)))

/-- The tag a stream begins with is accepted when it is that of the running command (R94). -/
theorem exec_decodeTag (b : Byte) (s : State) : exec (decodeTag b) s =
    .next (if b = s.args.cmd.tag then { s with phase := .checks } else raise .badHeaderTag 0 s) := by
  by_cases hb : ∃ cmd : Command, b = cmd.tag
  · obtain ⟨cmd, rfl⟩ := hb
    rw [exec_decodeTag_own, acceptTag]
    exact congrArg Host.Outcome.next (if_congr (eq_comm.trans Command.tag_injective.eq_iff.symm) rfl rfl)
  · have hother := not_exists.mp hb
    rw [decodeTag_other hother, if_neg (hother _)]
    rfl

theorem step_tag (he : s.events = []) (hp : s.phase = .tag) (hl : s.args.srcLen ≠ 0#32) : step s =
    .next (if s.sourceByte 0 = s.args.cmd.tag then { s with phase := .checks } else raise .badHeaderTag 0 s) := by
  rw [step_eq_run_fetchBlock s he, fetchBlock_tag hp hl, Fetched.run_element s rfl]
  exact exec_decodeTag _ s

theorem step_checks (he : s.events = []) (hp : s.phase = .checks) : step s = .next (runChecks s) := by
  rw [step_eq_run_fetchBlock s he, fetchBlock_checks hp, Fetched.run_move]

/-- Two steps from the tag: an error of checks 1 and 2 ends the command in the first, an error of checks 3 to 6 in the
second. -/
theorem runFor_tag (he : s.events = []) (hp : s.phase = .tag) : runFor 2 s = .next (
    if s.args.srcLen = 0#32 then raise .truncatedSource 0 s
    else if s.sourceByte 0 ≠ s.args.cmd.tag then raise .badHeaderTag 0 s
    else runChecks { s with phase := .checks }) := by
  by_cases hl : s.args.srcLen = 0#32
  · rw [if_pos hl]
    exact runFor_snoc 1 ((runFor_one s).trans (step_tag_truncated he hp hl)) (step_idle he rfl)
  · rw [if_neg hl]
    have hstep := step_tag he hp hl
    by_cases htag : s.sourceByte 0 = s.args.cmd.tag
    · rw [if_neg (not_not.mpr htag)]
      rw [if_pos htag] at hstep
      exact runFor_snoc 1 ((runFor_one s).trans hstep) (step_checks he rfl)
    · rw [if_pos htag]
      rw [if_neg htag] at hstep
      exact runFor_snoc 1 ((runFor_one s).trans hstep) (step_idle he rfl)

/-- The two steps together make the checks 1 to 6. -/
theorem runFor_tag_failed {k : ErrorKind} {off : Nat} (he : s.events = []) (hp : s.phase = .tag)
    (h : firstError s = some (k, off)) : runFor 2 s = .next (raise k off s) := by
  rw [firstError_eq] at h
  rw [runFor_tag he hp]
  split_ifs at h ⊢
  · cases h
    rfl
  · cases h
    rfl
  · have hcheck : commandCheck { s with phase := .checks } = some (k, off) := h
    rw [runChecks, hcheck]
    rfl

theorem runFor_tag_passed (he : s.events = []) (hp : s.phase = .tag) (h : firstError s = none) :
    runFor 2 s = .next (initCommand { s with phase := .checks }) := by
  rw [firstError_eq] at h
  rw [runFor_tag he hp]
  split_ifs at h ⊢
  have hcheck : commandCheck { s with phase := .checks } = none := h
  rw [runChecks, hcheck]

/-- The initial state of a command is where its decoding begins (R345). -/
theorem initCommand_ready (s : State) : MemUnchanged s (initCommand s) ∧ (initCommand s).regs = s.regs ∧
    (initCommand s).args = s.args ∧ (initCommand s).phase =
      (match s.args.cmd with | .vertex => .block | .index => .triangle | .sequence => .output) := by
  rw [initCommand]
  cases s.args.cmd with
  | vertex | index | sequence => exact ⟨fun _ => rfl, rfl, rfl, rfl⟩

end

/-- Settles O25: a failing check is raised, and where none fails the initial state follows. -/
theorem firstFailingCheckIsReported : Obligations.FirstFailingCheckIsReported := by
  intro s he hp
  refine ⟨fun k off h => ⟨_, runFor_tag_failed he hp h, ?_, rfl⟩, fun h => ⟨_, runFor_tag_passed he hp h, ?_⟩⟩
  · have hfailed := raise_failedWith k off s
    rwa [firstError_offset h] at hfailed
  · exact initCommand_ready { s with phase := .checks }

end Sys2Proof.Machine
end

section
/-! Proof of O40: the exponential result is the exact binary32 word, or an infinity (spec/42_vertex_filters.md R202 to
R204). `binary32` puts three fields together; `floatValue_fields` reads them back, and `natAbs_normalized` shows that
the fraction field holds the mantissa's bits below its highest one, none of them lost. -/

namespace Sys2Proof.Machine

/-! ### The fields of a binary32 word (R203) -/

section
variable (b : Bool) (x : BitVec 8) (f : BitVec 23)

theorem float_sign : (BitVec.ofBool b ++ x ++ f).getLsbD 31 = b := by
  rw [BitVec.getLsbD_append, if_neg (by decide), BitVec.getLsbD_append, if_neg (by decide)]
  simp

theorem float_exponent : (BitVec.ofBool b ++ x ++ f).extractLsb' 23 8 = x := by
  rw [BitVec.extractLsb'_append_eq_of_le (by decide), BitVec.extractLsb'_append_eq_right]

theorem float_fraction : (BitVec.ofBool b ++ x ++ f).extractLsb' 0 23 = f := BitVec.extractLsb'_append_eq_right

theorem floatValue_fields : floatValue (BitVec.ofBool b ++ x ++ f) =
    (if b then -1 else 1) * (2 ^ 23 + f.toNat) * (2 : ℚ) ^ ((x.toNat : Int) - 150) := by
  rw [floatValue, float_sign, float_exponent, float_fraction]

end

/-! ### The magnitude of m * 2^e -/

section
variable {m : Int}

theorem sign_mul_natAbs (hm : m ≠ 0) : (if decide (m < 0) = true then -1 else 1 : ℚ) * m.natAbs = m := by
  rw [Nat.cast_natAbs, Int.cast_abs]
  obtain hneg | hpos := lt_or_gt_of_ne hm
  · rw [if_pos (decide_eq_true hneg), abs_of_neg (Int.cast_lt_zero.mpr hneg), neg_one_mul, neg_neg]
  · rw [if_neg (by simpa using hpos.le), abs_of_pos (Int.cast_pos.mpr hpos), one_mul]

/-- m * 2^e is below 2^128 exactly when its highest bit is (R203). -/
theorem magnitude_lt_iff (hm : m ≠ 0) (e : Int) :
    |(m : ℚ)| * (2 : ℚ) ^ e < 2 ^ 128 ↔ (m.natAbs.log2 : Int) + e < 128 := by
  have habs : |(m : ℚ)| = (m.natAbs : ℚ) := by rw [Nat.cast_natAbs, Int.cast_abs]
  have hlo : (2 : ℚ) ^ (m.natAbs.log2 : Int) ≤ m.natAbs := by
    exact_mod_cast Nat.log2_self_le (Int.natAbs_ne_zero.mpr hm)
  have hhi : (m.natAbs : ℚ) < (2 : ℚ) ^ ((m.natAbs.log2 : Int) + 1) := by
    exact_mod_cast (Nat.lt_log2_self : m.natAbs < 2 ^ (m.natAbs.log2 + 1))
  have hpow : (0 : ℚ) < (2 : ℚ) ^ e := by positivity
  rw [habs]
  constructor
  · intro h
    have hlt : (2 : ℚ) ^ ((m.natAbs.log2 : Int) + e) < (2 : ℚ) ^ (128 : Int) := by
      rw [zpow_add₀ two_ne_zero]
      exact (mul_le_mul_of_nonneg_right hlo hpow.le).trans_lt (by exact_mod_cast h)
    exact (zpow_lt_zpow_iff_right₀ one_lt_two).mp hlt
  · intro h
    calc (m.natAbs : ℚ) * (2 : ℚ) ^ e
      _ < (2 : ℚ) ^ ((m.natAbs.log2 : Int) + 1) * (2 : ℚ) ^ e := mul_lt_mul_of_pos_right hhi hpow
      _ = (2 : ℚ) ^ ((m.natAbs.log2 : Int) + 1 + e) := (zpow_add₀ two_ne_zero _ _).symm
      _ ≤ (2 : ℚ) ^ (128 : Int) := zpow_le_zpow_right₀ one_le_two (by omega)
      _ = 2 ^ 128 := by norm_cast

/-- A mantissa of 24 bits, moved up until its highest bit is bit 23. -/
theorem natAbs_normalized (hm : m ≠ 0) (hsize : m.natAbs.log2 ≤ 23) :
    m.natAbs * 2 ^ (23 - m.natAbs.log2) = 2 ^ 23 + m.natAbs * 2 ^ (23 - m.natAbs.log2) % 2 ^ 23 := by
  have hlo : 2 ^ 23 ≤ m.natAbs * 2 ^ (23 - m.natAbs.log2) :=
    calc 2 ^ 23 = 2 ^ m.natAbs.log2 * 2 ^ (23 - m.natAbs.log2) := by rw [← pow_add, Nat.add_sub_cancel' hsize]
      _ ≤ _ := Nat.mul_le_mul_right _ (Nat.log2_self_le (Int.natAbs_ne_zero.mpr hm))
  have hhi : m.natAbs * 2 ^ (23 - m.natAbs.log2) < 2 ^ 24 :=
    calc _ < 2 ^ (m.natAbs.log2 + 1) * 2 ^ (23 - m.natAbs.log2) :=
          Nat.mul_lt_mul_of_pos_right Nat.lt_log2_self (Nat.two_pow_pos _)
      _ = 2 ^ 24 := by rw [← pow_add]; congr 1; omega
  omega

/-! ### The exponential result -/

/-- R203: the word of a number below 2^128 is normal and exact. -/
theorem binary32_exact {e : Int} (hm : m ≠ 0) (hsize : m.natAbs.log2 ≤ 23) (he : -126 ≤ e)
    (h : (m.natAbs.log2 : Int) + e < 128) :
    floatValue (binary32 m e) = m * (2 : ℚ) ^ e ∧
      ((binary32 m e).extractLsb' 23 8).toNat = ((m.natAbs.log2 : Int) + e + 127).toNat := by
  have hword : binary32 m e = BitVec.ofBool (decide (m < 0)) ++ BitVec.ofInt 8 ((m.natAbs.log2 : Int) + e + 127) ++
      BitVec.ofNat 23 (m.natAbs * 2 ^ (23 - m.natAbs.log2)) := if_neg (by omega)
  have hexp : (BitVec.ofInt 8 ((m.natAbs.log2 : Int) + e + 127)).toNat = ((m.natAbs.log2 : Int) + e + 127).toNat := by
    rw [BitVec.toNat_ofInt, Int.emod_eq_of_lt (by omega) (by norm_num; omega)]
  have hfrac : (2 : ℚ) ^ 23 + (BitVec.ofNat 23 (m.natAbs * 2 ^ (23 - m.natAbs.log2))).toNat =
      m.natAbs * (2 : ℚ) ^ (23 - (m.natAbs.log2 : Int)) := by
    rw [BitVec.toNat_ofNat, show (23 : Int) - m.natAbs.log2 = ((23 - m.natAbs.log2 : Nat) : Int) by omega, zpow_natCast]
    exact_mod_cast (natAbs_normalized hm hsize).symm
  rw [hword, floatValue_fields, float_exponent, hexp, hfrac]
  refine ⟨?_, rfl⟩
  calc _ = ((if decide (m < 0) = true then -1 else 1 : ℚ) * m.natAbs) * ((2 : ℚ) ^ (23 - (m.natAbs.log2 : Int)) *
        (2 : ℚ) ^ ((((m.natAbs.log2 : Int) + e + 127).toNat : Int) - 150)) := by ring
    _ = m * (2 : ℚ) ^ e := by
      rw [sign_mul_natAbs hm, ← zpow_add₀ two_ne_zero]
      congr 2
      omega

/-- R203: a number of 2^128 or more gives the infinity of its sign. -/
theorem binary32_overflow {e : Int} (hm : m ≠ 0) (h : 128 ≤ (m.natAbs.log2 : Int) + e) :
    binary32 m e = if 0 < m then 0x7F800000#32 else 0xFF800000#32 := by
  have hword : binary32 m e = BitVec.ofBool (decide (m < 0)) ++ 255#8 ++ 0#23 := if_pos (by omega)
  rw [hword]
  obtain hneg | hpos := lt_or_gt_of_ne hm
  · rw [decide_eq_true hneg, if_neg hneg.not_gt]
    rfl
  · rw [decide_eq_false hpos.not_gt, if_pos hpos]
    rfl

end

theorem expWord_eq_binary32 {word : Word} (hm : (word.extractLsb' 0 24).toInt ≠ 0)
    (he : -126 ≤ (word.extractLsb' 24 8).toInt) :
    expWord word = binary32 (word.extractLsb' 0 24).toInt (word.extractLsb' 24 8).toInt := by
  rw [expWord, if_neg hm, if_neg (not_lt.mpr he)]

theorem log2_mantissa_le (x : BitVec 24) : x.toInt.natAbs.log2 ≤ 23 := by
  have hlo := x.le_toInt
  have hhi := x.toInt_lt
  obtain h0 | hne := eq_or_ne x.toInt.natAbs 0
  · simp [h0]
  · exact Nat.lt_succ_iff.mp ((Nat.log2_lt hne).mpr (by omega))

/-- Settles O40: by `magnitude_lt_iff` the two cases of `binary32` are those of the statement. -/
theorem exponentialIsExact : Obligations.ExponentialIsExact := by
  rintro word e m rfl rfl
  refine ⟨fun hm => if_pos hm, fun hm he hlt => ?_, fun he hge => ?_⟩
  · have hsize := (magnitude_lt_iff hm _).mp hlt
    obtain ⟨hvalue, hexp⟩ := binary32_exact hm (log2_mantissa_le _) he hsize
    rw [expWord_eq_binary32 hm he, hexp]
    exact ⟨hvalue, by omega, by omega⟩
  · have hm : (word.extractLsb' 0 24).toInt ≠ 0 := by
      intro hm
      rw [hm] at hge
      norm_num at hge
    rw [expWord_eq_binary32 hm he]
    exact binary32_overflow hm (not_lt.mp (mt (magnitude_lt_iff hm _).mpr (not_lt.mpr hge)))

end Sys2Proof.Machine
end

section
/-! Proofs of O41 to O43, O45 to O47, O49 and O50: the edge triangles without a varint, the pieces of a new-path
triangle, and the triangle of a codeaux entry as a whole (spec/43_index_decoder.md R225 to R244). -/

namespace Sys2Proof.Machine

/-! ### The edge triangles (R226 to R229) -/

/-- Settles O41: `edgeWithPush_spec`, once `next` has counted on. -/
theorem edgeNextTriangle : Obligations.EdgeNextTriangle := by
  intro s b0 hb0 hw
  obtain ⟨-, hvc, hec, htri, hout, hframe⟩ := edgeWithPush_spec (edgeFirst s.ec b0) (edgeSecond s.ec b0) s.next
    { s with next := s.next + 1#32 } _ hw rfl
  refine ⟨_, _, _, _, rfl, rfl, rfl, rfl, congrArg State.next hframe, hvc, hec, htri, hout, ?_⟩
  rw [hframe]

/-- Settles O42: `edgeComplete_spec` with the cache slot as c. -/
theorem edgeCacheTriangle : Obligations.EdgeCacheTriangle := by
  intro s b0 b1 hb0 hlo hhi hw
  obtain ⟨-, hec, htri, hout, hframe⟩ := edgeComplete_spec (edgeFirst s.ec b0) (edgeSecond s.ec b0)
    (slot s.vc b1.toNat) s _ hw rfl
  exact ⟨_, _, _, _, rfl, rfl, rfl, rfl, hec, htri, hout, hframe⟩

/-- Settles O43: both codes end in `edgeWithPush` with the new `last` as c, so `edgeWithPush_spec` serves both. -/
theorem edgeDecAndIncTriangles : Obligations.EdgeDecAndIncTriangles := by
  intro s b0 hb0 hw p hp
  have hexec : exec p.1 s =
      .next (edgeWithPush (edgeFirst s.ec b0) (edgeSecond s.ec b0) p.2 { s with last := p.2 }) := by
    obtain rfl | rfl := List.mem_pair.mp hp
    · rfl
    · rfl
  obtain ⟨-, hvc, hec, htri, hout, hframe⟩ := edgeWithPush_spec (edgeFirst s.ec b0) (edgeSecond s.ec b0) p.2
    { s with last := p.2 } _ hw rfl
  refine ⟨_, _, _, _, rfl, rfl, rfl, hexec, congrArg State.last hframe, hvc, hec, htri, hout, ?_⟩
  rw [hframe]

/-! ### The pieces of a new-path triangle (R232 to R241) -/

section
variable {s : State}

theorem takeA_fresh (h : s.aFromVarint = false) : takeA s = takeFreshA .aux s := by
  rw [takeA, h]
  rfl

theorem takeA_varint (h : s.aFromVarint = true) : takeA s = startVarint .newA s := by
  rw [takeA, if_pos h]

theorem freshCorner_b (h : s.corner = .b) :
    freshCorner s = { s with next := s.next + 1#32, triB := s.next, pushB := true, corner := .c } :=
  setCorner_b _ _ h

theorem freshCorner_c (h : s.corner = .c) :
    freshCorner s = { s with next := s.next + 1#32, triC := s.next, pushC := true, phase := .newDone } :=
  setCorner_c _ _ h

end

/-- Settles O45: the codeaux entry lies in the source by the layout check, the aux byte below the limit. -/
theorem newTrianglesBegin : Obligations.NewTrianglesBegin := by
  refine ⟨fun s b1 hb1 hlen => rfl, fun s hc p hp => ?_⟩
  obtain rfl | rfl := List.mem_pair.mp hp
  · exact congrArg _ (readAuxByte_ok false hc)
  · exact congrArg _ (readAuxByte_ok true hc)

/-- Settles O46: `step_auxByte` with and without the restart, then `takeA` by where a comes from. -/
theorem restartThenA : Obligations.RestartThenA := by
  refine ⟨fun s => rfl, fun s he hp hentry => ?_, fun s he hp hentry => ?_,
    fun s he hp => ⟨fun ha => ?_, fun ha => ?_⟩⟩
  · rw [step_auxByte he hp, if_neg hentry]
  · rw [step_auxByte he hp, if_pos hentry]
  · rw [step_takeA he hp, takeA_fresh ha]
    rfl
  · rw [step_takeA he hp, takeA_varint ha]
    rfl

/-- Settles O47: a codeaux and an aux nibble of the same kind run the same `freshCorner` or `cachedCorner`. -/
theorem nibblesGiveVertices : Obligations.NibblesGiveVertices := by
  refine ⟨fun s i hi => ?_, fun s n hn i hi => ?_, fun s => rfl⟩
  · have hexec : exec i s = .next (freshCorner s) := by
      obtain rfl | rfl := List.mem_pair.mp hi
      · rfl
      · rfl
    rw [hexec]
    exact ⟨fun h => congrArg _ (freshCorner_b h), fun h => congrArg _ (freshCorner_c h)⟩
  · have hexec : exec i s = .next (cachedCorner n s) := by
      obtain rfl | rfl := List.mem_pair.mp hi
      · rfl
      · rfl
    rw [hexec]
    exact ⟨fun h => congrArg _ (setCorner_b _ _ h), fun h => congrArg _ (setCorner_c _ _ h)⟩

/-- Settles O49: the step is `newDone`, whose parts `newDone_spec` gives. -/
theorem newTriangleCompletes : Obligations.NewTriangleCompletes := by
  intro s he hp hw
  obtain ⟨v1, v2, hparts⟩ := newDone_spec s _ hw rfl
  exact ⟨_, v1, v2, step_newDone he hp, hparts⟩

/-! ### The triangle of a codeaux entry as a whole (R232 to R234, R244) -/

/-- The vertex of a codeaux nibble, from the next fresh index (R233, R234). Unlike `nibbleVertex`, nibble 15 is a
cache nibble. -/
def cauxVertex (n : Nibble) (fresh : Word) (vc : Vector Word 16) : Word :=
  if n = 0#4 then fresh else slot vc (n.toNat - 1)

/-- The vertex of a codeaux nibble is taken, as b or c. -/
def takeCaux (n : Nibble) (s : State) : State :=
  setCorner (cauxVertex n s.next s.vc) (decide (n = 0#4)) { s with next := nextAfterNibble n s.next }

/-- b and c are taken from the nibbles of the codeaux entry, and the triangle is to end. -/
def takeCauxes (z w : Nibble) (s : State) : State :=
  { s with
    next := nextAfterNibble w (nextAfterNibble z s.next)
    triB := cauxVertex z s.next s.vc
    triC := cauxVertex w (nextAfterNibble z s.next) s.vc
    pushB := decide (z = 0#4)
    pushC := decide (w = 0#4)
    corner := .c
    phase := .newDone }

/-- A code 0xF0 to 0xFD has been read: e is its codeaux entry, and a is fresh (R232). -/
def tableCodeRead (e : Byte) (s : State) : State :=
  { s with
    next := s.next + 1#32, ccur := s.ccur + 1, entry := e, triA := s.next, corner := .b, phase := .caux }

section
variable {s : State}

theorem exec_decodeCaux (n : Nibble) : exec (decodeCaux n) s = .next (takeCaux n s) := by
  by_cases h0 : n = 0#4
  · subst h0
    rfl
  · simp only [decodeCaux, takeCaux, cauxVertex, nextAfterNibble, if_neg h0, decide_eq_false h0]
    rfl

theorem step_caux {n : Nibble} (he : s.events = []) (hp : s.phase = .caux)
    (hn : (if s.corner = .b then highNibble s.entry else lowNibble s.entry) = n) : step s = .next (takeCaux n s) := by
  rw [step_eq_run_fetchBlock s he, fetchBlock_caux hp, hn, ← exec_decodeCaux]
  exact Fetched.run_element s rfl

theorem takeCaux_takeCaux (z w : Nibble) (hc : s.corner = .b) : takeCaux w (takeCaux z s) = takeCauxes z w s := by
  have hb : takeCaux z s = _ := setCorner_b _ _ hc
  rw [hb]
  exact setCorner_c _ _ rfl

/-- Both nibbles of the codeaux entry, b's first. -/
theorem runFor_takeCauxes {z w : Nibble} (he : s.events = []) (hp : s.phase = .caux) (hc : s.corner = .b)
    (hentry : s.entry = z ++ w) : runFor 2 s = .next (takeCauxes z w s) := by
  have hhigh : highNibble s.entry = z := by rw [hentry]; exact BitVec.extractLsb'_append_eq_left
  have hlow : lowNibble s.entry = w := by rw [hentry]; exact BitVec.extractLsb'_append_eq_right
  have hb := (runFor_one s).trans (step_caux he hp (by rw [if_pos hc, hhigh]))
  rw [← takeCaux_takeCaux z w hc]
  refine runFor_snoc 1 hb ?_
  have hstate : takeCaux z s = _ := setCorner_b _ _ hc
  rw [hstate]
  exact step_caux he hp hlow

theorem decode_triNewTable {b1 : Nibble} (h : b1.toNat ≤ 13) :
    decode (.triangle (15#4 ++ b1)) = .ok (.triNewTable b1) :=
  encodedOperationsDecodeBack (.triNewTable b1) (decide_eq_true h)

theorem step_tableCode {b1 : Nibble} {e : Byte} (he : s.events = []) (hp : s.phase = .triangle)
    (ht : s.t < s.args.triCount) (hb1 : b1.toNat ≤ 13) (hb : s.mem.read (s.srcAddr s.ccur) = 15#4 ++ b1)
    (hentry : s.mem.read (s.srcAddr (s.args.srcLen.toNat - 16 + b1.toNat)) = e) :
    step s = .next (tableCodeRead e s) := by
  rw [step_triangle he hp ht hb (decode_triNewTable hb1), ← hentry]
  rfl

end

/-- Settles O50: the code, both nibbles, and `newDone`, whose parts `newDone_spec` gives. -/
theorem newTableTriangle : Obligations.NewTableTriangle := by
  intro s b1 z w he hp ht hw hb1 hlen hb hentry
  have hcode := step_tableCode he hp ht hb1 hb hentry
  have hnibbles := runFor_takeCauxes (s := tableCodeRead (z ++ w) s) he rfl rfl rfl
  have hrun := runFor_snoc 3 ((runFor_succ 2 hcode).trans hnibbles) (step_newDone (by exact he) rfl)
  generalize hdone : newDone _ = t at hrun
  obtain ⟨v1, v2, hpushA, hpushB, hpushC, hec, htri, hout, hframe⟩ := newDone_spec _ t (by exact hw) hdone.symm
  rw [takeCauxes, if_congr decide_eq_true_iff rfl rfl] at hpushB hpushC
  refine ⟨t, v1, v2, _, _, _, rfl, rfl, ?vertexC, hrun, ?next, hec, htri, hout, hpushA, hpushB, hpushC, ?frame⟩
  case vertexC => exact if_congr Iff.rfl (if_congr Iff.rfl (BitVec.add_assoc _ 1#32 1#32) rfl) rfl
  case next =>
    rw [← nextAfterNibble_eq, ← nextAfterNibble_eq]
    exact congrArg State.next hframe
  case frame =>
    rw [hframe]
    rfl

end Sys2Proof.Machine
end

section
/-! Proofs of O53 and O54: the two bases of the sequence decoder, and a DECODE_SEQUENCE run from its first output to its
end (spec/44_index_sequence.md R270 to R276, spec/60_exceptions.md R311). `AtOutput` is what every whole output keeps;
`CompletesWriting` says how the command ends. It is proved from the last output back, by induction on the varints. -/

namespace Sys2Proof.Machine

/-! ### One output (R273 to R276) -/

/-- An output holds the new base, and no other byte of M changes (R273, R276). -/
theorem emitSequence_spec (x : Word) (s : State) (hw : s.mem.wf = true) :
    HoldsLE (emitSequence x s).mem (s.dstAddr (s.n * s.args.stride.toNat)) s.args.stride.toNat x ∧
      MemUnchangedOutside (s.dstAddr (s.n * s.args.stride.toNat)) s.args.stride.toNat s (emitSequence x s) := by
  obtain ⟨hholds, hunchanged, -⟩ := targetIndexIsLittleEndian s s.n x hw
  exact ⟨hholds, hunchanged⟩

theorem goesOn_emitSequence (x : Word) (s : State) : GoesOn s (emitSequence x s) :=
  (goesOn_tgtWrite (s.n * s.args.stride.toNat) s.args.stride.toNat x s).trans ⟨rfl, rfl, rfl, id⟩

/-- Settles O53: both rows write their new base by `emitSequence`. -/
theorem sequenceBases : Obligations.SequenceBases := by
  refine fun s dz hw => ⟨?base0, ?base1⟩
  case base0 =>
    obtain ⟨hholds, hunchanged⟩ := emitSequence_spec (s.seqLast0 + zigzag32 (dz.zeroExtend 32))
      { s with seqLast0 := s.seqLast0 + zigzag32 (dz.zeroExtend 32) } hw
    exact ⟨_, rfl, rfl, hholds, hunchanged, rfl⟩
  case base1 =>
    obtain ⟨hholds, hunchanged⟩ := emitSequence_spec (s.seqLast1 + zigzag32 (dz.zeroExtend 32))
      { s with seqLast1 := s.seqLast1 + zigzag32 (dz.zeroExtend 32) } hw
    exact ⟨_, rfl, rfl, hholds, hunchanged, rfl⟩

/-- The bits above the parity bit, as a word (R110). -/
theorem zeroExtend_extractLsb'_one (v : Word) : (v.extractLsb' 1 31).zeroExtend 32 = v >>> 1 := by
  refine BitVec.eq_of_toNat_eq ?_
  rw [shiftRight_one_toNat, BitVec.zeroExtend_eq_setWidth, BitVec.toNat_setWidth, BitVec.extractLsb'_toNat,
    Nat.shiftRight_eq_div_pow, pow_one]
  omega

/-- A sequence value is decoded and run: the first of the outputs that R273 gives is written, and the bases are those
that give the rest. -/
theorem exec_decodeSeqValue (v : Word) (s : State) : ∃ x b0 b1,
    exec (decodeSeqValue v) s = .next (emitSequence x { s with seqLast0 := b0, seqLast1 := b1 }) ∧
      ∀ vs, sequenceOutputs s.seqLast0 s.seqLast1 (v :: vs) = x :: sequenceOutputs b0 b1 vs := by
  by_cases hparity : v.getLsbD 0 = true
  · refine ⟨_, s.seqLast0, s.seqLast1 + zigzag32 (v >>> 1), ?_, fun vs => if_pos hparity⟩
    rw [decodeSeqValue, if_pos hparity, ← zeroExtend_extractLsb'_one]
    rfl
  · refine ⟨_, s.seqLast0 + zigzag32 (v >>> 1), s.seqLast1, ?_, fun vs => if_neg hparity⟩
    rw [decodeSeqValue, if_neg hparity, ← zeroExtend_extractLsb'_one]
    rfl

/-! ### The steps of an output (R108, R273) -/

/-- The varint of an output has been read, and the bases are `b0` and `b1`. -/
def outputRead (bs : List Byte) (b0 b1 : Word) (s : State) : State :=
  { s with
    vuse := .sequence, vpos := bs.length - 1, vres := BitVec.ofNat 32 (varintNat bs), cur := s.cur + bs.length
    phase := .seqValue, seqLast0 := b0, seqLast1 := b1 }

section
variable {s : State}

/-- The varint of an output: a step for each of its bytes. -/
theorem runFor_outputVarint {bs : List Byte} (hbs : IsVarint bs) (he : s.events = [])
    (hm : HoldsBytes s.mem (s.srcAddr s.cur) bs) (hl : s.cur + bs.length ≤ s.lim) :
    runFor bs.length (startVarint .sequence s) = .next (outputRead bs s.seqLast0 s.seqLast1 s) := by
  have hrun := runFor_varint (s := startVarint .sequence s) (acc := 0) hbs.varintFrom he rfl (Nat.two_pow_pos _) rfl
    hm hl
  rw [startVarint_vpos, Nat.mul_zero, pow_zero, one_mul, Nat.zero_add, Nat.zero_add] at hrun
  exact hrun

theorem step_seqValue (he : s.events = []) (hp : s.phase = .seqValue) : step s = exec (decodeSeqValue s.vres) s := by
  rw [step_eq_run_fetchBlock s he, fetchBlock_seqValue hp]
  exact Fetched.run_element s rfl

/-- A whole output: the loop head, the varint, and its value. -/
theorem runFor_output {bs : List Byte} (hbs : IsVarint bs) (he : s.events = []) (hp : s.phase = .output)
    (hn : s.n < s.args.count.toNat) (hm : HoldsBytes s.mem (s.srcAddr s.cur) bs) (hl : s.cur + bs.length ≤ s.lim) :
    ∃ x b0 b1, runFor (bs.length + 2) s = .next (emitSequence x (outputRead bs b0 b1 s)) ∧
      ∀ vs, sequenceOutputs s.seqLast0 s.seqLast1 (BitVec.ofNat 32 (varintNat bs) :: vs) =
        x :: sequenceOutputs b0 b1 vs := by
  have hread := (runFor_succ bs.length (step_output he hp hn)).trans (runFor_outputVarint hbs he hm hl)
  obtain ⟨x, b0, b1, hexec, houtputs⟩ :=
    exec_decodeSeqValue (BitVec.ofNat 32 (varintNat bs)) (outputRead bs s.seqLast0 s.seqLast1 s)
  exact ⟨x, b0, b1, runFor_snoc (bs.length + 1) hread ((step_seqValue (by exact he) rfl).trans hexec), houtputs⟩

end

/-! ### The loop over outputs (R270, R311) -/

/-- DECODE_SEQUENCE stands before an output, and the rest of the data begins with the varints `vs`, one for each output
that is left. -/
structure AtOutput (s : State) (vs : List (List Byte)) : Prop where
  running : Running s
  events : s.events = []
  phase : s.phase = .output
  lim : s.lim ≤ s.args.srcLen.toNat
  count : s.n + vs.length = s.args.count.toNat
  varints : ∀ bs ∈ vs, IsVarint bs
  bytes : HoldsBytes s.mem (s.srcAddr s.cur) vs.flatten
  fits : s.cur + vs.flatten.length ≤ s.lim

/-- The command runs from `s` to its success and writes `outs` from output n on, and nothing else. -/
def CompletesWriting (s : State) (outs : List Word) : Prop :=
  ∃ k t, runFor k s = .next t ∧ t.phase = .idle ∧ t.doneBit = true ∧ t.errBit = false ∧ t.regs.errOffset = 0#32 ∧
    (∀ i, i < outs.length →
      HoldsLE t.mem (s.dstAddr ((s.n + i) * s.args.stride.toNat)) s.args.stride.toNat (outs.getD i 0#32)) ∧
    MemUnchangedOutside (s.dstAddr (s.n * s.args.stride.toNat)) (outs.length * s.args.stride.toNat) s t

/-- The bytes of a list that stand in the source of a running command outlast a write of its target (R64). -/
theorem TargetOnly.holdsBytes {s t : State} (h : TargetOnly s t) (hl : LaunchKept s) {off : Nat} {bs : List Byte}
    (hm : HoldsBytes s.mem (s.srcAddr off) bs) (hfits : off + bs.length ≤ s.args.srcLen.toNat) :
    HoldsBytes t.mem (s.srcAddr off) bs := by
  intro i hi
  rw [← hm i hi, State.srcAddr, Nat.add_assoc]
  exact h.sourceByte hl (by omega)

theorem sequenceOutputs_length (b0 b1 : Word) (vs : List Word) : (sequenceOutputs b0 b1 vs).length = vs.length := by
  induction vs generalizing b0 b1 with
  | nil => rfl
  | cons v vs ih =>
    rw [sequenceOutputs]
    split_ifs
    · rw [List.length_cons, ih, List.length_cons]
    · rw [List.length_cons, ih, List.length_cons]

section
variable {s : State}

/-- The varint of the output it stands at, and those after it, lie below the limit. -/
theorem AtOutput.varint {bs : List Byte} {vs : List (List Byte)} (h : AtOutput s (bs :: vs)) :
    s.n < s.args.count.toNat ∧ s.cur + bs.length + vs.flatten.length ≤ s.lim ∧
      HoldsBytes s.mem (s.srcAddr s.cur) bs ∧ HoldsBytes s.mem (s.srcAddr (s.cur + bs.length)) vs.flatten := by
  have hcount := h.count
  have hfits := h.fits
  rw [List.length_cons] at hcount
  rw [List.flatten_cons, List.length_append, ← Nat.add_assoc] at hfits
  obtain ⟨hfirst, hrest⟩ := holdsBytes_append (List.flatten_cons ▸ h.bytes)
  rw [State.srcAddr, Nat.add_assoc] at hrest
  exact ⟨by omega, hfits, hfirst, hrest⟩

/-- After an output the next one stands at its varint: the target, which was written, holds no source byte. -/
theorem AtOutput.next {bs : List Byte} {vs : List (List Byte)} (h : AtOutput s (bs :: vs)) (x b0 b1 : Word) :
    AtOutput (emitSequence x (outputRead bs b0 b1 s)) vs := by
  obtain ⟨hn, hfits, -, hrest⟩ := h.varint
  have hread : GoesOn s (outputRead bs b0 b1 s) := ⟨rfl, rfl, rfl, id⟩
  have hwrite : TargetOnly s (emitSequence x (outputRead bs b0 b1 s)) :=
    (targetOnly_emitSequence (s := outputRead bs b0 b1 s) x hn).after rfl rfl
  exact {
    running := h.running.goesOn (hread.trans (goesOn_emitSequence x _))
    events := h.events
    phase := rfl
    lim := h.lim
    count := (Nat.succ_add_eq_add_succ _ _).trans h.count
    varints := fun _ hv => h.varints _ (List.mem_cons_of_mem _ hv)
    bytes := hwrite.holdsBytes (off := s.cur + bs.length) h.running.launch hrest (hfits.trans h.lim)
    fits := hfits }

/-- After the last output the command completes (R270, R311). -/
theorem AtOutput.completes_nil (h : AtOutput s []) : CompletesWriting s [] := by
  have hend := step_outputs_end h.events (Or.inr ⟨h.phase, h.count.ge⟩)
  have hrun := runFor_snoc 1 ((runFor_one s).trans hend) (step_done (by exact h.events) rfl)
  have hdone : statusSuccess.getLsbD 1 = true := by decide
  have herr : statusSuccess.getLsbD 2 = false := by decide
  exact ⟨2, _, hrun, rfl, hdone, herr, rfl, nofun, fun _ _ => rfl⟩

/-- The outputs after the first do not touch it: they lie above it. -/
theorem CompletesWriting.cons {t : State} {k : Nat} {x : Word} {outs : List Word} (hrun : runFor k s = .next t)
    (hholds : HoldsLE t.mem (s.dstAddr (s.n * s.args.stride.toNat)) s.args.stride.toNat x)
    (hunchanged : MemUnchangedOutside (s.dstAddr (s.n * s.args.stride.toNat)) s.args.stride.toNat s t)
    (hargs : t.args = s.args) (hn : t.n = s.n + 1) (hrest : CompletesWriting t outs) :
    CompletesWriting s (x :: outs) := by
  obtain ⟨m, u, hm, hphase, hdone, herr, hoff, hheld, hout⟩ := hrest
  rw [State.dstAddr, hargs, hn, Nat.succ_mul] at hout
  refine ⟨k + m, u, runFor_add hrun hm, hphase, hdone, herr, hoff, fun i hi => ?_, fun a ha => ?_⟩
  · cases i with
    | zero => exact hholds.outside hout (Or.inl (Nat.add_assoc _ _ _).le)
    | succ i =>
      have hi' := hheld i (Nat.lt_of_succ_lt_succ hi)
      rwa [State.dstAddr, hargs, hn, Nat.succ_add_eq_add_succ] at hi'
  · rw [List.length_cons, Nat.succ_mul, State.dstAddr] at ha
    exact (hout a (by omega)).trans (hunchanged a (by rw [State.dstAddr]; omega))

/-- The outputs that are left are written, and the command completes (R270, R273). -/
theorem AtOutput.completes {vs : List (List Byte)} (h : AtOutput s vs) : CompletesWriting s
    (sequenceOutputs s.seqLast0 s.seqLast1 (vs.map fun bs => BitVec.ofNat 32 (varintNat bs))) := by
  induction vs generalizing s with
  | nil => exact h.completes_nil
  | cons bs vs ih =>
    obtain ⟨hn, hfits, hbytes, -⟩ := h.varint
    obtain ⟨x, b0, b1, hrun, houtputs⟩ := runFor_output (h.varints bs List.mem_cons_self) h.events h.phase hn hbytes
      (Nat.le_of_add_right_le hfits)
    obtain ⟨hholds, hunchanged⟩ := emitSequence_spec x (outputRead bs b0 b1 s) h.running.mem
    rw [List.map_cons, houtputs]
    exact .cons hrun hholds hunchanged rfl rfl (ih (h.next x b0 b1))

end

theorem State.Inv.sequenceDecoding {s : State} (h : s.Inv) (hp : s.phase = .output) : SequenceDecoding s false := by
  have hkept := h.phase
  rwa [PhaseKept, hp] at hkept

/-- Settles O54: `AtOutput.completes` from the given output on; the outputs that are left lie in the target. -/
theorem sequenceDecodesItsStream : Obligations.SequenceDecodesItsStream := by
  intro s vs hinv he hp hcount hvarints hbytes hfits
  obtain ⟨-, -, hlim, -⟩ := hinv.sequenceDecoding hp
  have hat : AtOutput s vs :=
    ⟨hinv.running (by rw [hp]; nofun), he, hp, hlim.le, hcount, hvarints, hbytes, hfits⟩
  obtain ⟨k, t, hrun, hphase, hdone, herr, hoff, hheld, hout⟩ := hat.completes
  rw [sequenceOutputs_length, List.length_map] at hheld hout
  refine ⟨k, t, hrun, hphase, hdone, herr, hoff, hheld, fun a ha => hout a ?_⟩
  rw [← hcount, Nat.add_mul] at ha
  rw [State.dstAddr]
  omega

end Sys2Proof.Machine
end

section
/-! Proof of O12: what the two ends of a command leave in the registers (spec/10_state.md R33, spec/60_exceptions.md R308,
R311). A failure is `raise_failedWith`; a success is `complete`, which the step at the end of a command runs. -/

namespace Sys2Proof.Machine

theorem statusSuccess_legal : StatusLegal statusSuccess := Or.inr (Or.inr (Or.inl rfl))

/-- After a success STATUS reports DONE and nothing else (R33, R311). -/
theorem complete_status_fields (s : State) : (complete s).busy = false ∧ (complete s).doneBit = true ∧
    (complete s).errBit = false ∧ (complete s).errCode = 0#4 := by
  simp only [State.busy, State.doneBit, State.errBit, State.errCode, complete_regs]
  decide

/-- The step at the end of a command is its completion (R311). -/
theorem step_done_complete {s : State} (he : s.events = []) (hp : s.phase = .done) : step s = .next (complete s) :=
  step_done he hp

/-- Settles O12: `raise_failedWith` for an error, and the completion that ends a command for a success. -/
theorem raiseAndCompleteReport : Obligations.RaiseAndCompleteReport := by
  refine ⟨fun k off s => ⟨raise_failedWith k off s, statusFailure_legal k, rfl⟩, fun s he hp => ?_⟩
  obtain ⟨hbusy, hdone, herr, hcode⟩ := complete_status_fields s
  exact ⟨complete s, step_done_complete he hp, hbusy, hdone, herr, hcode, statusSuccess_legal, rfl⟩

end Sys2Proof.Machine
end

section
/-! Proofs of O20, O21 and O57: the machine right after reset, and a reset of a block
(spec/70_reset_and_hazards.md R340, R342). A reset keeps what is not the block's own (`resetBlock_kept`), gives the
registers their reset values (`resetBlock_regs`), and draws the target of a command that it stops, and nothing where
none runs (`resetBlock_of_busy`, `resetBlock_of_idle`). -/

namespace Sys2Proof.Machine

/-! ### The machine right after reset -/

/-- Every register of the window but ID reads 0 while all registers hold 0 (R40, R340). -/
theorem readAt_reset {off : Nat} (h : off ≠ 0x24) : Regs.readAt {} off = 0#32 := by
  unfold Regs.readAt
  split
  case h_10 => exact absurd rfl h -- the offset of ID
  all_goals rfl

theorem reset_resting : Resting State.reset where
  mem := rfl
  phase := rfl
  busy := by decide
  status := Or.inl rfl
  ctrl := by decide
  errOffset := fun h => absurd rfl h

/-- Settles O21: the window holds 0 but at ID, and the block rests. -/
theorem resetState : Obligations.ResetState :=
  ⟨fun _ => readAt_reset, rfl, reset_resting.phase, reset_resting.busy, reset_resting.mem⟩

/-- Settles O57: a block that rests meets the invariant. -/
theorem resetMeetsTheInvariant : Obligations.ResetMeetsTheInvariant := reset_resting.inv

/-! ### The reset of a block -/

section
variable {s : State}

theorem resetBlock_regs (s : State) : (resetBlock s).regs = State.reset.regs := rfl

theorem resetBlock_phase (s : State) : (resetBlock s).phase = .idle := rfl

theorem resetBlock_busy (s : State) : (resetBlock s).busy = false := reset_resting.busy

theorem resetBlock_kept (s : State) : (resetBlock s).params = s.params ∧ (resetBlock s).events = s.events := by
  rw [resetBlock]
  split <;> exact ⟨rfl, rfl⟩

/-- Where no command runs, a reset draws nothing. -/
theorem resetBlock_of_idle (h : s.busy = false) : (resetBlock s).mem = s.mem ∧ (resetBlock s).draws = s.draws := by
  rw [resetBlock, if_neg (Bool.eq_false_iff.mp h)]
  exact ⟨rfl, rfl⟩

/-- Of a command that a reset stops, the target is drawn (R342). -/
theorem resetBlock_of_busy (h : s.busy = true) :
    (resetBlock s).mem = (drawTarget s).mem ∧ (resetBlock s).draws = s.draws + 1 := by
  rw [resetBlock, if_pos h]
  exact ⟨rfl, rfl⟩

/-- Whether a command runs or not, a reset changes no byte outside the target. -/
theorem resetBlock_memUnchangedOutside (s : State) :
    MemUnchangedOutside s.args.dstBase.toNat s.args.need s (resetBlock s) := by
  intro a ha
  cases hb : s.busy with
  | false => rw [(resetBlock_of_idle hb).1]
  | true =>
    rw [(resetBlock_of_busy hb).1]
    exact (targetOnly_drawTarget s).mem a ha

theorem resetBlock_targetDrawn (h : s.busy = true) (hw : s.mem.wf = true) : TargetDrawn s (resetBlock s) := by
  obtain ⟨hdrawn, -⟩ := drawTarget_spec s hw
  refine ⟨fun i hi => ?_, resetBlock_memUnchangedOutside s⟩
  rw [(resetBlock_of_busy h).1, hdrawn i hi]

end

/-- The step at which a reset is due (R342). -/
theorem step_reset {s : State} {es : List HostEvent} (he : s.events = { delay := 0, action := .reset } :: es) :
    step s = .next (resetBlock { s with events := es }) := by
  rw [step_eq_run_fetchHost he, fetchHost, Fetched.run_move]

/-- Settles O20: the step is the reset of the block, and the event it takes off the list is no part of what is said of
M and the draws. -/
theorem resetStopsTheCommand : Obligations.ResetStopsTheCommand := by
  intro s es he
  obtain ⟨hparams, hevents⟩ := resetBlock_kept { s with events := es }
  refine ⟨_, step_reset he, resetBlock_regs _, resetBlock_busy _, resetBlock_phase _, hparams, hevents, ?idle, ?busy,
    resetBlock_memUnchangedOutside { s with events := es }⟩
  case idle =>
    intro hb
    obtain ⟨hmem, hdraws⟩ := resetBlock_of_idle (s := { s with events := es }) hb
    exact ⟨fun a => by rw [hmem], hdraws⟩
  case busy =>
    intro hb
    exact ⟨(resetBlock_of_busy (s := { s with events := es }) hb).2,
      resetBlock_targetDrawn (s := { s with events := es }) hb⟩

end Sys2Proof.Machine
end

section
/-! Proof of O59: every started command ends (spec/70_reset_and_hazards.md R352). `State.rank` counts, loop inside loop,
what the running command has still to do, and is compared lexicographically; every step of the block lowers it
(`fetchBlock_descends`), because each loop of R150, R156, R220, R270 and R138 moves its counter towards a bound that the
latched arguments fix. An error ends the command at once. A loop's head counts the items not begun, so an item's end
leaves the count that its beginning has already lowered. -/

namespace Sys2Proof.Machine

/-! ### What a running command has still to do -/

/-- A rank: the stage of the command, the blocks, triangles or outputs not begun, and what is left within one of them,
from the outer loop to the inner one. -/
abbrev Rank := ℕ ×ₗ ℕ ×ₗ ℕ ×ₗ ℕ ×ₗ ℕ

def rankOf (stage items place part left : ℕ) : Rank :=
  toLex (stage, toLex (items, toLex (place, toLex (part, left))))

/-- The rank of a command that decodes: its checks have passed, and the filter and the completion are still to come. -/
abbrev decodingRank (items place part left : ℕ) : Rank := rankOf 3 items place part left

section
variable {a a' b b' c c' d d' e e' : ℕ}

theorem rankOf_lt_stage (h : a < a') : rankOf a b c d e < rankOf a' b' c' d' e' :=
  Prod.Lex.toLex_lt_toLex.mpr (Or.inl h)

theorem rankOf_lt_items (h : b < b') : rankOf a b c d e < rankOf a b' c' d' e' :=
  Prod.Lex.toLex_lt_toLex.mpr (Or.inr ⟨rfl, Prod.Lex.toLex_lt_toLex.mpr (Or.inl h)⟩)

theorem rankOf_lt_place (h : c < c') : rankOf a b c d e < rankOf a b c' d' e' :=
  Prod.Lex.toLex_lt_toLex.mpr (Or.inr ⟨rfl, Prod.Lex.toLex_lt_toLex.mpr (Or.inr ⟨rfl,
    Prod.Lex.toLex_lt_toLex.mpr (Or.inl h)⟩)⟩)

theorem rankOf_lt_part (h : d < d') : rankOf a b c d e < rankOf a b c d' e' :=
  Prod.Lex.toLex_lt_toLex.mpr (Or.inr ⟨rfl, Prod.Lex.toLex_lt_toLex.mpr (Or.inr ⟨rfl,
    Prod.Lex.toLex_lt_toLex.mpr (Or.inr ⟨rfl, Prod.Lex.toLex_lt_toLex.mpr (Or.inl h)⟩)⟩)⟩)

theorem rankOf_lt_left (h : e < e') : rankOf a b c d e < rankOf a b c d e' :=
  Prod.Lex.toLex_lt_toLex.mpr (Or.inr ⟨rfl, Prod.Lex.toLex_lt_toLex.mpr (Or.inr ⟨rfl,
    Prod.Lex.toLex_lt_toLex.mpr (Or.inr ⟨rfl, Prod.Lex.toLex_lt_toLex.mpr (Or.inr ⟨rfl, h⟩)⟩)⟩)⟩)

end

/-- The blocks after the current one, in rows. -/
def State.rowsAfter (s : State) : ℕ := s.args.count.toNat - (s.blockBase + s.blockRows)

/-- The lanes from the current one on, and the end of the loop over them. -/
def State.lanesFrom (s : State) : ℕ := 1 + (s.args.stride.toNat - s.k)

/-- The lanes after the current one, and the end of the loop over them. -/
def State.lanesAfter (s : State) : ℕ := 1 + (s.args.stride.toNat - (s.k + 1))

/-- The groups from the current one on, and the end of the loop over them. -/
def State.groupsFrom (s : State) : ℕ := 1 + (groupCount s.blockRows - s.g)

/-- The groups after the current one, and the end of the loop over them. -/
def State.groupsAfter (s : State) : ℕ := 1 + (groupCount s.blockRows - (s.g + 1))

/-- The triangles after the current one. -/
def State.trianglesAfter (s : State) : ℕ := s.args.triCount - (s.t + 1)

/-- The sequence outputs after the current one. -/
def State.outputsAfter (s : State) : ℕ := s.args.count.toNat - (s.n + 1)

/-- Vertex b of a new-path triangle is taken before vertex c, and c before the triangle's end. -/
def Corner.place : Corner → ℕ
  | .b => 3
  | .c => 2

/-- The triangles or outputs after the one whose varint is read. -/
def State.varintItems (s : State) : ℕ :=
  match s.vuse with
  | .sequence => s.outputsAfter
  | .edgeC | .newA | .newCorner => s.trianglesAfter

/-- Where in its triangle or output a varint stands. -/
def State.varintPlace (s : State) : ℕ :=
  match s.vuse with
  | .sequence => 1
  | .edgeC | .newA => 4
  | .newCorner => s.corner.place

/-- What the running command has still to do; nothing where no command runs. -/
def State.rank (s : State) : Rank :=
  match s.phase with
  | .idle => rankOf 0 0 0 0 0
  | .done => rankOf 1 0 0 0 0
  | .filter => rankOf 2 0 0 0 0
  | .block => decodingRank (s.args.count.toNat - s.blockBase) 0 0 0
  | .lane => decodingRank s.rowsAfter s.lanesFrom 0 0
  | .group => decodingRank s.rowsAfter s.lanesAfter s.groupsFrom 0
  | .code2 | .code4 | .literal => decodingRank s.rowsAfter s.lanesAfter s.groupsAfter (2 + (16 - s.j))
  | .apply => decodingRank s.rowsAfter s.lanesAfter s.groupsAfter 1
  | .triangle => decodingRank (s.args.triCount - s.t) 0 0 0
  | .auxByte => decodingRank s.trianglesAfter 6 0 0
  | .takeA => decodingRank s.trianglesAfter 5 0 0
  | .caux | .aux => decodingRank s.trianglesAfter s.corner.place 2 0
  | .newDone => decodingRank s.trianglesAfter 1 0 0
  | .output => decodingRank (s.args.count.toNat - s.n) 0 0 0
  | .varintByte => decodingRank s.varintItems s.varintPlace 1 (1 + (4 - s.vpos))
  | .indexDelta => decodingRank s.varintItems s.varintPlace 1 0
  | .seqValue => decodingRank s.outputsAfter 1 1 0
  | .checks => rankOf 4 0 0 0 0
  | .tag => rankOf 5 0 0 0 0

section
variable {s t : State}

theorem rank_idle (h : s.phase = .idle) : s.rank = rankOf 0 0 0 0 0 := by rw [State.rank, h]

theorem rank_done (h : s.phase = .done) : s.rank = rankOf 1 0 0 0 0 := by rw [State.rank, h]

theorem rank_filter (h : s.phase = .filter) : s.rank = rankOf 2 0 0 0 0 := by rw [State.rank, h]

theorem rank_checks (h : s.phase = .checks) : s.rank = rankOf 4 0 0 0 0 := by rw [State.rank, h]

theorem rank_tag (h : s.phase = .tag) : s.rank = rankOf 5 0 0 0 0 := by rw [State.rank, h]

theorem rank_block (h : s.phase = .block) : s.rank = decodingRank (s.args.count.toNat - s.blockBase) 0 0 0 := by
  rw [State.rank, h]

theorem rank_lane (h : s.phase = .lane) : s.rank = decodingRank s.rowsAfter s.lanesFrom 0 0 := by
  rw [State.rank, h]

theorem rank_group (h : s.phase = .group) : s.rank = decodingRank s.rowsAfter s.lanesAfter s.groupsFrom 0 := by
  rw [State.rank, h]

theorem rank_code (h : s.phase = .code2 ∨ s.phase = .code4 ∨ s.phase = .literal) :
    s.rank = decodingRank s.rowsAfter s.lanesAfter s.groupsAfter (2 + (16 - s.j)) := by
  obtain h | h | h := h <;> rw [State.rank, h]

theorem rank_apply (h : s.phase = .apply) : s.rank = decodingRank s.rowsAfter s.lanesAfter s.groupsAfter 1 := by
  rw [State.rank, h]

theorem rank_triangle (h : s.phase = .triangle) : s.rank = decodingRank (s.args.triCount - s.t) 0 0 0 := by
  rw [State.rank, h]

theorem rank_auxByte (h : s.phase = .auxByte) : s.rank = decodingRank s.trianglesAfter 6 0 0 := by
  rw [State.rank, h]

theorem rank_takeA (h : s.phase = .takeA) : s.rank = decodingRank s.trianglesAfter 5 0 0 := by
  rw [State.rank, h]

theorem rank_nibble (h : s.phase = .caux ∨ s.phase = .aux) :
    s.rank = decodingRank s.trianglesAfter s.corner.place 2 0 := by
  obtain h | h := h <;> rw [State.rank, h]

theorem rank_newDone (h : s.phase = .newDone) : s.rank = decodingRank s.trianglesAfter 1 0 0 := by
  rw [State.rank, h]

theorem rank_output (h : s.phase = .output) : s.rank = decodingRank (s.args.count.toNat - s.n) 0 0 0 := by
  rw [State.rank, h]

theorem rank_varintByte (h : s.phase = .varintByte) :
    s.rank = decodingRank s.varintItems s.varintPlace 1 (1 + (4 - s.vpos)) := by
  rw [State.rank, h]

theorem rank_indexDelta (h : s.phase = .indexDelta) : s.rank = decodingRank s.varintItems s.varintPlace 1 0 := by
  rw [State.rank, h]

theorem rank_seqValue (h : s.phase = .seqValue) : s.rank = decodingRank s.outputsAfter 1 1 0 := by
  rw [State.rank, h]

/-- A command that runs has something to do. -/
theorem rank_pos (h : s.phase ≠ .idle) : rankOf 0 0 0 0 0 < s.rank := by
  unfold State.rank
  cases hp : s.phase with
  | idle => exact absurd hp h
  | _ => exact rankOf_lt_stage (by decide)

/-! ### Steps that lower the rank -/

/-- The block answers a next state with a lower rank, and the accesses from outside are still to come. -/
def Descends (s : State) (r : Result) : Prop := ∃ t, r = .next t ∧ t.events = s.events ∧ t.rank < s.rank

theorem descends_next (he : t.events = s.events) (hr : t.rank < s.rank) : Descends s (.next t) := ⟨t, rfl, he, hr⟩

/-- A step from one place of a command to another. -/
theorem descends_of_rank {r r' : Rank} (he : t.events = s.events) (hs : s.rank = r) (ht : t.rank = r') (h : r' < r) :
    Descends s (.next t) :=
  descends_next he (by rwa [hs, ht])

/-- A step that ends the command. -/
theorem descends_idle (hp : s.phase ≠ .idle) (he : t.events = s.events) (ht : t.phase = .idle) :
    Descends s (.next t) :=
  descends_of_rank he rfl (rank_idle ht) (rank_pos hp)

/-- An element read from the stream lowers the rank if its operation does; where it cannot be read the command ends. -/
theorem descends_fetchByte (element : Byte → Element) (hp : s.phase ≠ .idle)
    (h : ∀ b, Descends s (Fetched.element (element b) { s with cur := s.cur + 1 }).run) :
    Descends s (fetchByte element s).run := by
  obtain hc | hc := Nat.lt_or_ge s.cur s.lim
  · rw [fetchByte_ok _ hc]
    exact h _
  · rw [fetchByte_truncated _ hc]
    exact descends_idle hp rfl rfl

theorem ne_idle_of_eq {p : Phase} (h : s.phase = p) (hp : p ≠ .idle) : s.phase ≠ .idle := h ▸ hp

/-! ### Tags and checks -/

theorem descends_tag (b : Byte) (hp : s.phase = .tag) : Descends s (Fetched.element (.tag b) s).run := by
  have accept : ∀ cmd, Descends s (.next (acceptTag cmd s)) := fun cmd => by
    rw [acceptTag]
    split
    · exact descends_of_rank rfl (rank_tag hp) (rank_checks rfl) (rankOf_lt_stage (by decide))
    · exact descends_idle (ne_idle_of_eq hp nofun) rfl rfl
  rw [Fetched.run_element s rfl]
  exact decodeTag_cases (P := fun i => Descends s (exec i s)) b (accept _) (accept _) (accept _)
    (descends_idle (ne_idle_of_eq hp nofun) rfl rfl)

/-- The checks pass, and the command's loop begins, or they end the command (R306, R345). -/
theorem descends_runChecks (hp : s.phase = .checks) : Descends s (.next (runChecks s)) := by
  rw [runChecks]
  split
  next => exact descends_idle (ne_idle_of_eq hp nofun) rfl rfl
  next =>
    rw [initCommand]
    cases s.args.cmd with
    | vertex => exact descends_of_rank rfl (rank_checks hp) (rank_block rfl) (rankOf_lt_stage (by decide))
    | index => exact descends_of_rank rfl (rank_checks hp) (rank_triangle rfl) (rankOf_lt_stage (by decide))
    | sequence => exact descends_of_rank rfl (rank_checks hp) (rank_output rfl) (rankOf_lt_stage (by decide))

/-! ### DECODE_VERTEX -/

/-- What the checks of DECODE_VERTEX leave of the stride (R151). -/
theorem vertexCheck_stride (h : vertexCheck s = none) : 1 ≤ s.args.stride.toNat ∧ s.args.stride.toNat ≤ 512 := by
  unfold vertexCheck at h
  split_ifs at h with hs
  have hok := hs.1
  simp only [Config.Params.vtxStrideOk, Bool.and_eq_true, decide_eq_true_eq] at hok
  exact hok.1

/-- A block that is begun holds a row (R150, R152). -/
theorem VertexDecoding.blockRows_pos (h : VertexDecoding s) (hb : s.blockBase < s.args.count.toNat) :
    1 ≤ s.blockRows := by
  obtain ⟨-, hcheck, -⟩ := h
  obtain ⟨h1, h512⟩ := vertexCheck_stride hcheck
  have hmax := sixteen_le_attrBlockMaxElementCount h1 h512
  rw [State.blockRows]
  omega

theorem descends_blockHead (hp : s.phase = .block) (hd : VertexDecoding s) : Descends s (.next (blockHead s)) := by
  rw [blockHead]
  split
  next hb =>
    have hrows := hd.blockRows_pos hb
    have hitems : s.rowsAfter < s.args.count.toNat - s.blockBase := by
      rw [State.rowsAfter]
      omega
    exact descends_of_rank rfl (rank_block hp) (rank_lane rfl) (rankOf_lt_items hitems)
  next => exact descends_of_rank rfl (rank_block hp) (rank_filter rfl) (rankOf_lt_stage (by decide))

theorem descends_laneHead (hp : s.phase = .lane) : Descends s (.next (laneHead s)) := by
  rw [laneHead]
  split
  next hk =>
    obtain ⟨bs, c, hr⟩ | ⟨c, hr⟩ := readByteList_state (headerByteCount s.blockRows) s
    · rw [hr]
      have hlanes : s.lanesAfter < s.lanesFrom := by
        rw [State.lanesAfter, State.lanesFrom]
        omega
      exact descends_of_rank rfl (rank_lane hp) (rank_group rfl) (rankOf_lt_place hlanes)
    · rw [hr]
      exact descends_idle (ne_idle_of_eq hp nofun) rfl rfl
  next =>
    exact descends_of_rank rfl (rank_lane hp) (rank_block rfl) (rankOf_lt_place (Nat.lt_add_right _ Nat.one_pos))

theorem groupsAfter_lt_groupsFrom (h : s.g < groupCount s.blockRows) : s.groupsAfter < s.groupsFrom := by
  rw [State.groupsAfter, State.groupsFrom]
  omega

theorem descends_readPacked (n : Nat) {codes : Phase} (hp : s.phase = .group) (hg : s.g < groupCount s.blockRows)
    (hc : codes = .code2 ∨ codes = .code4 ∨ codes = .literal) : Descends s (.next (readPacked n codes s)) := by
  rw [readPacked]
  obtain ⟨bs, c, hr⟩ | ⟨c, hr⟩ := readByteList_state n s
  · rw [hr]
    exact descends_of_rank rfl (rank_group hp) (rank_code hc) (rankOf_lt_part (groupsAfter_lt_groupsFrom hg))
  · rw [hr]
    exact descends_idle (ne_idle_of_eq hp nofun) rfl rfl

theorem descends_mode (m : BitVec 2) (hp : s.phase = .group) (hg : s.g < groupCount s.blockRows) :
    Descends s (Fetched.element (.mode m) s).run := by
  have hgroups := groupsAfter_lt_groupsFrom hg
  rw [Fetched.run_element s rfl]
  refine decodeMode_cases (P := fun i => Descends s (exec i s)) m ?zero ?two ?four ?literal
  case zero => exact descends_of_rank rfl (rank_group hp) (rank_apply rfl) (rankOf_lt_part hgroups)
  case two => exact descends_readPacked 4 hp hg (Or.inl rfl)
  case four => exact descends_readPacked 8 hp hg (Or.inr (Or.inl rfl))
  case literal =>
    exact descends_of_rank rfl (rank_group hp) (rank_code (Or.inr (Or.inr rfl))) (rankOf_lt_part hgroups)

theorem descends_groupEnd (hp : s.phase = .group) : Descends s (.next { s with k := s.k + 1, phase := .lane }) :=
  descends_of_rank rfl (rank_group hp) (rank_lane rfl) (rankOf_lt_part (Nat.lt_add_right _ Nat.one_pos))

section
variable (hp : s.phase = .code2 ∨ s.phase = .code4 ∨ s.phase = .literal)
include hp

theorem code_ne_idle : s.phase ≠ .idle := by
  obtain hp | hp | hp := hp
  · exact ne_idle_of_eq hp nofun
  · exact ne_idle_of_eq hp nofun
  · exact ne_idle_of_eq hp nofun

theorem descends_putDelta (x : Byte) (hj : s.j < 16) : Descends s (.next (putDelta x s)) := by
  have hleft : 2 + (16 - (s.j + 1)) < 2 + (16 - s.j) := by omega
  exact descends_of_rank rfl (rank_code hp) (rank_code hp) (rankOf_lt_left hleft)

theorem descends_escapeDelta (hj : s.j < 16) : Descends s (.next (escapeDelta s)) := by
  obtain ⟨hok, htrunc⟩ := escapeDelta_spec s
  obtain hc | hc := Nat.lt_or_ge s.cur s.lim
  · rw [hok hc]
    exact descends_putDelta (s := { s with cur := s.cur + 1 }) hp _ hj
  · rw [htrunc hc]
    exact descends_idle (code_ne_idle hp) rfl rfl

theorem descends_code2 (c : BitVec 2) (hj : s.j < 16) : Descends s (Fetched.element (.code2 c) s).run := by
  rw [Fetched.run_element s rfl]
  exact decodeCode2_cases (P := fun i => Descends s (exec i s)) c (descends_escapeDelta hp hj)
    (descends_putDelta hp _ hj)

theorem descends_code4 (c : Nibble) (hj : s.j < 16) : Descends s (Fetched.element (.code4 c) s).run := by
  rw [Fetched.run_element s rfl]
  exact decodeCode4_cases (P := fun i => Descends s (exec i s)) c (descends_escapeDelta hp hj)
    (descends_putDelta hp _ hj)

theorem descends_literal (hj : s.j < 16) : Descends s (fetchByte .literal s).run :=
  descends_fetchByte _ (code_ne_idle hp) fun b => descends_putDelta (s := { s with cur := s.cur + 1 }) hp b hj

theorem descends_deltasEnd : Descends s (.next { s with phase := .apply }) :=
  descends_of_rank rfl (rank_code hp) (rank_apply rfl) (rankOf_lt_left (by omega))

end

theorem descends_applyGroup (hp : s.phase = .apply) (hw : s.mem.wf = true) : Descends s (.next (applyGroup s)) := by
  obtain ⟨-, acc, row, mem, hf⟩ := forEach_applyDelta_frame 16 s hw
  rw [applyGroup, hf]
  exact descends_of_rank rfl (rank_apply hp) (rank_group rfl) (rankOf_lt_left Nat.one_pos)

theorem octRow_events (r : Nat) (s : State) : (octRow r s).events = s.events := by
  simp only [octRow, writeLane, tgtWrite_events]

theorem quatRow_events (r : Nat) (s : State) : (quatRow r s).events = s.events := by
  simp only [quatRow, writeQuatLane, tgtWrite_events]

theorem expStep_events (q : Nat) (s : State) : (expStep q s).events = s.events := by
  rw [expStep, tgtWrite_events]

theorem forEach_events (n : Nat) (f : Nat → State → State) (s : State) (h : ∀ i t, (f i t).events = t.events) :
    (forEach n f s).events = s.events :=
  forEach_induct (fun _ t => t.events = s.events) n f s rfl fun i t _ ht => (h i t).trans ht

theorem descends_filterDone (hp : s.phase = .filter) (he : t.events = s.events) :
    Descends s (.next (filterDone t)) :=
  descends_of_rank he (rank_filter hp) (rank_done rfl) (rankOf_lt_stage (by decide))

theorem descends_filter (v : Nibble) (hp : s.phase = .filter) : Descends s (Fetched.element (.cmdFilter v) s).run := by
  rw [Fetched.run_element s rfl]
  exact decodeCmdFilter_cases (P := fun i => Descends s (exec i s)) v (descends_filterDone hp rfl)
    (descends_filterDone hp (forEach_events _ octRow s octRow_events))
    (descends_filterDone hp (forEach_events _ quatRow s quatRow_events))
    (descends_filterDone hp (forEach_events _ expStep s expStep_events))

/-! ### DECODE_INDEX -/

/-- A triangle that is written is one of those begun (R231, R241, R242). -/
theorem descends_emit (a b c : Word) (he : t.events = s.events) (ha : t.args = s.args) (ht : t.t = s.t)
    (h : decodingRank s.trianglesAfter 0 0 0 < s.rank) : Descends s (.next (emit a b c t)) := by
  rw [emit_frame]
  refine descends_of_rank he rfl (rank_triangle rfl) ?_
  change decodingRank (t.args.triCount - (t.t + 1)) 0 0 0 < s.rank
  rw [ha, ht]
  exact h

/-- The edges pushed are no part of a rank (R231, R241). -/
theorem descends_emit_pushEdges (n : Nat) (edges : List Word) (a b c : Word) (he : t.events = s.events)
    (ha : t.args = s.args) (ht : t.t = s.t) (h : decodingRank s.trianglesAfter 0 0 0 < s.rank) :
    Descends s (.next (emit a b c (pushEdges n edges t))) :=
  descends_emit a b c ((pushEdges_events n edges t).trans he) ((pushEdges_args n edges t).trans ha)
    ((pushEdges_t n edges t).trans ht) h

theorem descends_edgeWithPush (a b c : Word) (he : t.events = s.events) (ha : t.args = s.args) (ht : t.t = s.t)
    (h : decodingRank s.trianglesAfter 0 0 0 < s.rank) : Descends s (.next (edgeWithPush a b c t)) :=
  descends_emit_pushEdges 4 _ a b c ((pushVertex_events c t).trans he) ((pushVertex_args c t).trans ha)
    ((pushVertex_t c t).trans ht) h

/-- The place of a nibble's vertex, once taken, is left (R232, R235). -/
theorem rank_setCorner_lt (v : Word) (x : Bool) (h : t.phase = .caux ∨ t.phase = .aux) :
    (setCorner v x t).rank < decodingRank t.trianglesAfter t.corner.place 0 0 := by
  cases hc : t.corner with
  | b =>
    have hr : (setCorner v x t).rank = decodingRank t.trianglesAfter (Corner.place .c) 2 0 := by
      rw [setCorner, hc]
      exact rank_nibble h
    rw [hr]
    exact rankOf_lt_place (by decide)
  | c =>
    have hr : (setCorner v x t).rank = decodingRank t.trianglesAfter 1 0 0 := by
      rw [setCorner, hc]
      exact rank_newDone rfl
    rw [hr]
    exact rankOf_lt_place (by decide)

theorem setCorner_events (v : Word) (x : Bool) (s : State) : (setCorner v x s).events = s.events := by
  rw [setCorner]
  split <;> rfl

theorem trianglesAfter_lt (h : s.t < s.args.triCount) : s.trianglesAfter < s.args.triCount - s.t := by
  rw [State.trianglesAfter]
  omega

theorem descends_readAuxByte (x : Bool) (hp : s.phase = .triangle) (ht : s.t < s.args.triCount) :
    Descends s (.next (readAuxByte x s)) := by
  rw [readAuxByte]
  obtain hc | hc := Nat.lt_or_ge s.cur s.lim
  · rw [readByte_ok s hc]
    exact descends_of_rank rfl (rank_triangle hp) (rank_auxByte rfl) (rankOf_lt_items (trianglesAfter_lt ht))
  · rw [readByte_truncated s hc]
    exact descends_idle (ne_idle_of_eq hp nofun) rfl rfl

theorem descends_triangle (b : Byte) (hp : s.phase = .triangle) (ht : s.t < s.args.triCount) :
    Descends s (Fetched.element (.triangle b) s).run := by
  have hitems := trianglesAfter_lt ht
  have hwritten : decodingRank s.trianglesAfter 0 0 0 < s.rank := by
    rw [rank_triangle hp]
    exact rankOf_lt_items hitems
  rw [Fetched.run_element s rfl]
  refine decodeTriangle_cases (P := fun i => Descends s (exec i s)) b ?table ?aux ?auxVarint ?next ?cache ?dec ?inc
    ?varint
  case table =>
    exact fun _ => descends_of_rank rfl (rank_triangle hp) (rank_nibble (Or.inl rfl)) (rankOf_lt_items hitems)
  case aux => exact descends_readAuxByte false hp ht
  case auxVarint => exact descends_readAuxByte true hp ht
  case next => exact fun _ => descends_edgeWithPush _ _ _ rfl rfl rfl hwritten
  case cache => exact fun _ _ => descends_emit_pushEdges 4 _ _ _ _ rfl rfl rfl hwritten
  case dec => exact fun _ => descends_edgeWithPush _ _ _ rfl rfl rfl hwritten
  case inc => exact fun _ => descends_edgeWithPush _ _ _ rfl rfl rfl hwritten
  case varint =>
    exact fun _ => descends_of_rank rfl (rank_triangle hp) (rank_varintByte rfl) (rankOf_lt_items hitems)

theorem descends_auxByte (b : Byte) (hp : s.phase = .auxByte) :
    Descends s (Fetched.element (.auxByte b) s).run := by
  have hnext : ∀ {u : State}, u.events = s.events → u.phase = .takeA → u.trianglesAfter = s.trianglesAfter →
      Descends s (.next u) := fun he hu htri => by
    refine descends_of_rank he (rank_auxByte hp) (rank_takeA hu) ?_
    rw [htri]
    exact rankOf_lt_place (by decide)
  by_cases hb : b = 0#8
  · have hd : decode (.auxByte b) = .ok .auxRestart := if_pos hb
    rw [Fetched.run_element s hd]
    exact hnext rfl rfl rfl
  · have hd : decode (.auxByte b) = .error .auxByteWithoutRow := if_neg hb
    rw [Fetched.run_element_error s hd]
    exact hnext rfl rfl rfl

theorem descends_takeA (hp : s.phase = .takeA) : Descends s (.next (takeA s)) := by
  rw [takeA]
  split
  · exact descends_of_rank rfl (rank_takeA hp) (rank_varintByte rfl) (rankOf_lt_place (Nat.lt_succ_self 4))
  · exact descends_of_rank rfl (rank_takeA hp) (rank_nibble (Or.inr rfl)) (rankOf_lt_place (show 3 < 5 by decide))

section
variable (hp : s.phase = .caux ∨ s.phase = .aux)
include hp

/-- A nibble's vertex is taken (R233, R234, R238, R239). -/
theorem descends_setCorner (v : Word) (x : Bool) : Descends s (.next (setCorner v x s)) := by
  refine descends_next (setCorner_events v x s) ((rank_setCorner_lt v x hp).trans ?_)
  rw [rank_nibble hp]
  exact rankOf_lt_part (by decide)

theorem descends_freshCorner : Descends s (.next (freshCorner s)) :=
  descends_setCorner (s := { s with next := s.next + 1#32 }) hp s.next true

theorem descends_caux (n : Nibble) : Descends s (Fetched.element (.caux n) s).run := by
  rw [Fetched.run_element s rfl]
  exact decodeCaux_cases (P := fun i => Descends s (exec i s)) n (descends_freshCorner hp)
    (descends_setCorner hp _ _)

theorem descends_aux (n : Nibble) : Descends s (Fetched.element (.aux n) s).run := by
  rw [Fetched.run_element s rfl]
  exact decodeAux_cases (P := fun i => Descends s (exec i s)) n (descends_freshCorner hp)
    (descends_of_rank rfl (rank_nibble hp) (rank_varintByte rfl) (rankOf_lt_part (by decide)))
    (descends_setCorner hp _ _)

end

/-- The pushes of a new-path triangle change the VertexCache alone (R232, R235). -/
theorem newDone_eq_newComplete (s : State) :
    ∃ vc, newDone s = newComplete s.triA s.triB s.triC { s with vc := vc } := by
  unfold newDone
  dsimp only
  split_ifs <;> exact ⟨_, rfl⟩

theorem descends_newDone (hp : s.phase = .newDone) : Descends s (.next (newDone s)) := by
  obtain ⟨vc, hdone⟩ := newDone_eq_newComplete s
  rw [hdone]
  refine descends_emit_pushEdges 6 _ _ _ _ rfl rfl rfl ?_
  rw [rank_newDone hp]
  exact rankOf_lt_place (by decide)

/-- The use of the index that a varint gives (R230, R236, R240). -/
theorem descends_indexDelta (hp : s.phase = .indexDelta) (hu : s.vuse ≠ .sequence) :
    Descends s (.next (indexDelta s)) := by
  have hr := rank_indexDelta hp
  unfold State.varintItems State.varintPlace at hr
  unfold indexDelta
  cases hv : s.vuse with
  | sequence => exact absurd hv hu
  | edgeC =>
    rw [hv] at hr
    refine descends_edgeWithPush _ _ _ rfl rfl rfl ?_
    rw [hr]
    exact rankOf_lt_place (Nat.succ_pos 3)
  | newA =>
    rw [hv] at hr
    exact descends_of_rank rfl hr (rank_nibble (Or.inr rfl)) (rankOf_lt_place (Nat.lt_succ_self 3))
  | newCorner =>
    rw [hv] at hr
    refine descends_next (setCorner_events _ _ _) ((rank_setCorner_lt _ true (Or.inr rfl)).trans ?_)
    rw [hr]
    exact rankOf_lt_part (Nat.succ_pos 0)

/-! ### DECODE_SEQUENCE, and varints -/

theorem descends_outputHead (hp : s.phase = .output) : Descends s (.next (outputHead s)) := by
  rw [outputHead]
  split
  next hn =>
    have hitems : s.outputsAfter < s.args.count.toNat - s.n := by
      rw [State.outputsAfter]
      omega
    exact descends_of_rank rfl (rank_output hp) (rank_varintByte rfl) (rankOf_lt_items hitems)
  next => exact descends_of_rank rfl (rank_output hp) (rank_done rfl) (rankOf_lt_stage (by decide))

theorem descends_seqValue (v : Word) (hp : s.phase = .seqValue) :
    Descends s (Fetched.element (.seqValue v) s).run := by
  rw [Fetched.run_element s rfl]
  refine decodeSeqValue_cases (P := fun i => Descends s (exec i s)) v (fun dz => ?_) (fun dz => ?_)
  · exact descends_of_rank rfl (rank_seqValue hp) (rank_output rfl) (rankOf_lt_place (by decide))
  · exact descends_of_rank rfl (rank_seqValue hp) (rank_output rfl) (rankOf_lt_place (by decide))

/-- A varint that ends goes to its use (R140, R273). -/
theorem rank_endVarint (s : State) : (endVarint s).rank = decodingRank s.varintItems s.varintPlace 1 0 := by
  rw [endVarint]
  split
  next hv =>
    rw [rank_seqValue rfl, State.varintItems, State.varintPlace, hv]
    rfl
  next => exact rank_indexDelta rfl

theorem descends_varint (hp : s.phase = .varintByte) : Descends s (fetchByte .varintByte s).run := by
  refine descends_fetchByte _ (ne_idle_of_eq hp nofun) fun b => ?_
  have ended : ∀ p, Descends s (.next (endVarint (joinVarint p { s with cur := s.cur + 1 }))) := fun p =>
    descends_of_rank rfl (rank_varintByte hp) (rank_endVarint _) (rankOf_lt_left (Nat.lt_add_right _ Nat.one_pos))
  rw [Fetched.run_element _ rfl]
  refine decodeVarintByte_cases (P := fun i => Descends s (exec i { s with cur := s.cur + 1 })) b (fun p => ?cont) ended
  case cont =>
    rw [exec, execVarintCont]
    split
    next hv =>
      have hleft : 1 + (4 - (s.vpos + 1)) < 1 + (4 - s.vpos) := by
        have hpos : s.vpos < 4 := hv
        omega
      exact descends_of_rank rfl (rank_varintByte hp) (rank_varintByte hp) (rankOf_lt_left hleft)
    next => exact ended p

/-! ### The block's step, and the run -/

/-- Every step of a running command leaves less to do. -/
theorem fetchBlock_descends (h : s.Inv) (hrun : s.phase ≠ .idle) : Descends s (fetchBlock s).run := by
  have hk := h.phase
  unfold PhaseKept at hk
  cases hp : s.phase <;> rw [hp] at hk
  case idle => exact absurd hp hrun
  case tag =>
    by_cases hl : s.args.srcLen = 0#32
    · rw [fetchBlock_tag_truncated hp hl]
      exact descends_idle hrun rfl rfl
    · rw [fetchBlock_tag hp hl]
      exact descends_tag _ hp
  case checks =>
    rw [fetchBlock_checks hp]
    exact descends_runChecks hp
  case block =>
    rw [fetchBlock_block hp]
    exact descends_blockHead hp hk
  case lane =>
    rw [fetchBlock_lane hp]
    exact descends_laneHead hp
  case group =>
    obtain hg | hg := Nat.lt_or_ge s.g (groupCount s.blockRows)
    · rw [fetchBlock_group hp hg]
      exact descends_mode _ hp hg
    · rw [fetchBlock_group_end hp hg]
      exact descends_groupEnd hp
  case code2 =>
    obtain hj | hj := Nat.lt_or_ge s.j 16
    · rw [fetchBlock_code2 hp hj]
      exact descends_code2 (Or.inl hp) _ hj
    · rw [fetchBlock_deltas_end (Or.inl hp) hj]
      exact descends_deltasEnd (Or.inl hp)
  case code4 =>
    obtain hj | hj := Nat.lt_or_ge s.j 16
    · rw [fetchBlock_code4 hp hj]
      exact descends_code4 (Or.inr (Or.inl hp)) _ hj
    · rw [fetchBlock_deltas_end (Or.inr (Or.inl hp)) hj]
      exact descends_deltasEnd (Or.inr (Or.inl hp))
  case literal =>
    obtain hj | hj := Nat.lt_or_ge s.j 16
    · rw [fetchBlock_literal hp hj]
      exact descends_literal (Or.inr (Or.inr hp)) hj
    · rw [fetchBlock_deltas_end (Or.inr (Or.inr hp)) hj]
      exact descends_deltasEnd (Or.inr (Or.inr hp))
  case apply =>
    rw [fetchBlock_apply hp]
    exact descends_applyGroup hp h.mem
  case filter =>
    rw [fetchBlock_filter hp]
    exact descends_filter _ hp
  case triangle =>
    obtain ht | ht := Nat.lt_or_ge s.t s.args.triCount
    · rw [fetchBlock_triangle hp ht]
      exact descends_triangle (s := { s with ccur := s.ccur + 1 }) _ hp ht
    · rw [fetchBlock_triangle_end hp ht]
      exact descends_of_rank rfl (rank_triangle hp) (rank_done rfl) (rankOf_lt_stage (by decide))
  case auxByte =>
    rw [fetchBlock_auxByte hp]
    exact descends_auxByte _ hp
  case takeA =>
    rw [fetchBlock_takeA hp]
    exact descends_takeA hp
  case caux =>
    rw [fetchBlock_caux hp]
    exact descends_caux (Or.inl hp) _
  case aux =>
    rw [fetchBlock_aux hp]
    exact descends_aux (Or.inr hp) _
  case newDone =>
    rw [fetchBlock_newDone hp]
    exact descends_newDone hp
  case output =>
    rw [fetchBlock_output hp]
    exact descends_outputHead hp
  case varintByte =>
    rw [fetchBlock_varintByte hp]
    exact descends_varint hp
  case indexDelta =>
    rw [fetchBlock_indexDelta hp]
    exact descends_indexDelta hp hk.2
  case seqValue =>
    rw [fetchBlock_seqValue hp]
    exact descends_seqValue _ hp
  case done =>
    rw [fetchBlock_done hp]
    exact descends_idle hrun rfl rfl

end

/-- Settles O59, by induction on the rank: an idle block is not BUSY, and a running command's step has a lower rank
(`fetchBlock_descends`) and keeps the invariant. -/
theorem everyCommandEnds : Obligations.EveryCommandEnds := by
  intro s
  induction hr : s.rank using WellFoundedLT.induction generalizing s with
  | ind r ih =>
    intro hinv he
    by_cases hp : s.phase = .idle
    · exact ⟨0, s, rfl, hinv.phase_idle_iff.mp hp⟩
    · obtain ⟨t, hstep, hevents, hlt⟩ := fetchBlock_descends hinv hp
      rw [← step_eq_run_fetchBlock s he] at hstep
      obtain ⟨k, u, hrun, hbusy⟩ := ih t.rank (hr ▸ hlt) t rfl (everyStepKeepsTheInvariant s t hinv hstep)
        (hevents.trans he)
      exact ⟨k + 1, u, (runFor_succ k hstep).trans hrun, hbusy⟩

end Sys2Proof.Machine
end
